-- ==== Sys2Proof/Word.lean ====
section
/-! DEFINITION. The word types of the Z2 and the plainest arithmetic on them. -/

namespace Sys2Proof

/-- A group instruction word, a clause header or a stream word (02 R35, R43, R55). -/
abbrev Word := BitVec 64
/-- The slice of one vector register that one lane holds (08 R172). -/
abbrev LaneWord := BitVec 32
/-- A byte of memory. -/
abbrev Byte := BitVec 8
/-- A set of lanes of one group; bit `l` stands for lane `l` (12 R259). -/
abbrev LaneMask := BitVec 64
/-- A virtual or effective address (03 R65; 02 R48). -/
abbrev Addr := BitVec 64

end Sys2Proof
end

