-- ==== Sys2Proof/Config.lean ====
section
/-! DEFINITION. What one module fixes: its counts (00 R1), and the free values of the manual's open results. -/

namespace Sys2Proof.Config

/-- SIMT cores, 72 on each of two dies (00 R1). -/
def cores : Nat := 144
/-- Clusters, 18 on each die; cluster c holds cores 4c to 4c+3 (00 R1, 03 R394). -/
def clusters : Nat := 36
/-- Service cores, 12 on each die (00 R1). -/
def harts : Nat := 24
/-- Resident groups of one core (00 R1). -/
def slotsPerCore : Nat := 64
/-- This module's index in its peer group, fixed at boot (17 R360); the model's modules are counted from 0 (log 1). -/
def selfModule : Nat := 0
/-- Bytes of tier 0, HBM4E: 512 GB (00 R1). -/
def tier0Bytes : Nat := 512 * 2 ^ 30
/-- Bytes of tier 1, LPDDR-6: 2,048 GB (00 R1). -/
def tier1Bytes : Nat := 2048 * 2 ^ 30
/-- Granules of 512 bytes in a core's vector register file (08 R176). -/
def granulesPerCore : Nat := 1024
/-- Pending lines that the home slices may hold, each (11 R241). -/
def pendingPerSlice : Nat := 1024
/-- Lines of a service core's private caches. The manual gives no size; it bears on no value (log 26). -/
def hartLines : Nat := 1024

/-- The free values: what the manual calls Unpredictable or leaves unstated (00 R9). `free n i` is the `i`-th value drawn at
    the step whose counter is `n`. It has no body, so nothing can be proved about which value it is (log 3). -/
opaque free : Nat → Nat → Nat

/-- What the special-function unit answers where 09 R199 gives a bound and no value: a function of the form's number and the
    source code alone (09 R198). It has no body; a use accepts it only inside the bound (log 10). -/
opaque sfu : Nat → BitVec 32 → BitVec 32

/-- The choice among ANY hits of a pass (14 R301), likewise free. -/
opaque anyHit : Nat → Nat → Nat

end Sys2Proof.Config
end

