-- ==== Sys2Proof/Syntax.lean ====
section
/-! DEFINITION. The instruction set: one constructor of `Instr` per row of the table of operations and events. -/

namespace Sys2Proof

/-- The lane guard GRD of a group word (02 R44): predicate `p`, negated when `neg`. -/
structure Guard where
  neg : Bool
  p : BitVec 3
  deriving DecidableEq, Repr

/-- The five orders of 00 R12. -/
inductive Ord where
  | rlx | acq | rel | ar | sc
  deriving DecidableEq, Repr

/-- The six scopes of 00 R11, narrowest first. -/
inductive Scope where
  | team | clu | die | dev | peer | sys
  deriving DecidableEq, Repr

/-- The rounding codes of 01 R24; `dflt` is code 0. -/
inductive Rnd where
  | dflt | rne | rna | rz | rd | ru
  deriving DecidableEq, Repr

/-- A source of a VEC form marked "u": a vector register, a uniform scalar, or the short immediate (02 R46). -/
inductive Src where
  | v (n : BitVec 8)
  | s (n : BitVec 6)
  | imm (i : BitVec 16)
  deriving DecidableEq, Repr

/-- A source of a scalar form (08 R182). -/
inductive SSrc where
  | s (n : BitVec 6)
  | imm (i : BitVec 16)
  deriving DecidableEq, Repr

/-- A register operand that may be a vector register or, under its uniform bit, a scalar (12 R267, 10 R232). -/
inductive VOrS where
  | v (n : BitVec 8)
  | s (n : BitVec 6)
  deriving DecidableEq, Repr

/-- Two-source vector integer forms (08 R183). -/
structure IntBin where
  g : Guard
  b64 : Bool
  sat : Bool
  uns : Bool
  d : BitVec 8
  a : Src
  b : Src
  deriving DecidableEq, Repr

/-- Three-source vector integer forms (08 R183). -/
structure IntTer where
  g : Guard
  b64 : Bool
  sat : Bool
  uns : Bool
  d : BitVec 8
  a : Src
  b : Src
  c : Src
  deriving DecidableEq, Repr

/-- LOP3 on vector registers (08 R186). -/
structure Lop3V where
  g : Guard
  b64 : Bool
  d : BitVec 8
  a : Src
  b : Src
  c : Src
  lut : BitVec 8
  deriving DecidableEq, Repr

/-- One-source vector forms: POPC, CLZ, BREV, MOV (08 R183). -/
structure IntUn where
  g : Guard
  b64 : Bool
  d : BitVec 8
  a : Src
  deriving DecidableEq, Repr

/-- The six integer comparisons (08 R183). -/
inductive Cmp where
  | eq | ne | lt | le | gt | ge
  deriving DecidableEq, Repr

/-- How a comparison combines with its predicate (08 R183). -/
inductive Bop where
  | and | or | xor
  deriving DecidableEq, Repr

structure IsetpV where
  g : Guard
  b64 : Bool
  uns : Bool
  d : BitVec 3
  a : Src
  b : Src
  pc : BitVec 3
  pcn : Bool
  bop : Bop
  cmp : Cmp
  deriving DecidableEq, Repr

structure SelV where
  g : Guard
  b64 : Bool
  d : BitVec 8
  a : Src
  b : Src
  pc : BitVec 3
  pcn : Bool
  deriving DecidableEq, Repr

/-- MOV imm32 into a vector register (08 R188). -/
structure MovImmV where
  g : Guard
  d : BitVec 8
  imm : BitVec 32
  deriving DecidableEq, Repr

structure LeaV where
  g : Guard
  b64 : Bool
  d : BitVec 8
  a : Src
  b : Src
  sx : Bool
  sh : BitVec 2
  deriving DecidableEq, Repr

/-- S2V and V2S name one lane, or the bits / the first active lane (08 R190). -/
inductive LaneSel where
  | lane (l : BitVec 6)
  | all
  deriving DecidableEq, Repr

structure S2vOp where
  g : Guard
  b64 : Bool
  d : BitVec 8
  a : BitVec 6
  sel : LaneSel
  deriving DecidableEq, Repr

structure V2sOp where
  g : Guard
  b64 : Bool
  d : BitVec 6
  a : BitVec 8
  sel : LaneSel
  deriving DecidableEq, Repr

/-- Two-source scalar integer forms (08 R182, R183). -/
structure SIntBin where
  g : Guard
  b64 : Bool
  sat : Bool
  uns : Bool
  d : BitVec 6
  a : SSrc
  b : SSrc
  deriving DecidableEq, Repr

structure SIntTer where
  g : Guard
  b64 : Bool
  sat : Bool
  uns : Bool
  d : BitVec 6
  a : SSrc
  b : SSrc
  c : SSrc
  deriving DecidableEq, Repr

structure Lop3S where
  g : Guard
  b64 : Bool
  d : BitVec 6
  a : SSrc
  b : SSrc
  c : SSrc
  lut : BitVec 8
  deriving DecidableEq, Repr

structure SIntUn where
  g : Guard
  b64 : Bool
  d : BitVec 6
  a : SSrc
  deriving DecidableEq, Repr

structure IsetpS where
  g : Guard
  b64 : Bool
  uns : Bool
  d : BitVec 3
  a : SSrc
  b : SSrc
  pc : BitVec 3
  pcn : Bool
  bop : Bop
  cmp : Cmp
  deriving DecidableEq, Repr

structure SelS where
  g : Guard
  b64 : Bool
  d : BitVec 6
  a : SSrc
  b : SSrc
  pc : BitVec 3
  pcn : Bool
  deriving DecidableEq, Repr

structure MovImmS where
  g : Guard
  d : BitVec 6
  imm : BitVec 32
  deriving DecidableEq, Repr

structure LeaS where
  g : Guard
  b64 : Bool
  d : BitVec 6
  a : SSrc
  b : SSrc
  sx : Bool
  sh : BitVec 2
  deriving DecidableEq, Repr

/-- FADD, FMUL (09 R192). -/
structure FBin where
  g : Guard
  rnd : Rnd
  na : Bool
  nb : Bool
  d : BitVec 8
  a : Src
  b : Src
  deriving DecidableEq, Repr

structure FTer where
  g : Guard
  rnd : Rnd
  na : Bool
  nb : Bool
  nc : Bool
  d : BitVec 8
  a : Src
  b : Src
  c : Src
  deriving DecidableEq, Repr

/-- FMIN, FMAX (09 R194). -/
structure FSel where
  g : Guard
  d : BitVec 8
  a : Src
  b : Src
  deriving DecidableEq, Repr

/-- The eight comparisons of FSETP (09 R195). -/
inductive FCmp where
  | eq | ne | lt | le | gt | ge | num | nan
  deriving DecidableEq, Repr

structure FsetpOp where
  g : Guard
  d : BitVec 3
  a : Src
  b : Src
  pc : BitVec 3
  pcn : Bool
  bop : Bop
  cmp : FCmp
  deriving DecidableEq, Repr

/-- HADD2, HMUL2: `bf` selects .bf16 (09 R196). -/
structure HBin where
  g : Guard
  rnd : Rnd
  bf : Bool
  na : Bool
  nb : Bool
  d : BitVec 8
  a : Src
  b : Src
  deriving DecidableEq, Repr

structure HTer where
  g : Guard
  rnd : Rnd
  bf : Bool
  na : Bool
  nb : Bool
  nc : Bool
  d : BitVec 8
  a : Src
  b : Src
  c : Src
  deriving DecidableEq, Repr

/-- Forms with one vector source and one vector destination (09 R198, R202, R214; 06 R150). -/
structure VUn where
  g : Guard
  d : BitVec 8
  a : BitVec 8
  deriving DecidableEq, Repr

structure AtloadOp where
  g : Guard
  a : BitVec 8
  b : BitVec 6
  deriving DecidableEq, Repr

/-- The types that CVT admits (09 R204, R205). -/
inductive CvtTy where
  | f32 | f16 | bf16 | s8 | z8 | s16 | z16 | b32 | b64
  deriving DecidableEq, Repr

structure CvtOp where
  g : Guard
  rnd : Rnd
  dt : CvtTy
  st : CvtTy
  uns : Bool
  sat : Bool
  d : BitVec 8
  a : BitVec 8
  deriving DecidableEq, Repr

structure Cvtp2Op where
  g : Guard
  rnd : Rnd
  bf : Bool
  d : BitVec 8
  a : BitVec 8
  b : BitVec 8
  deriving DecidableEq, Repr

/-- The pack targets of CVTP4 (09 R207). -/
inductive PackTy where
  | e4m3 | e5m2 | e2m1 | s8 | z8
  deriving DecidableEq, Repr

structure Cvtp4Op where
  g : Guard
  rnd : Rnd
  dt : PackTy
  scale : Option (BitVec 8)
  d : BitVec 8
  a : BitVec 8
  deriving DecidableEq, Repr

structure CvtdsOp where
  g : Guard
  rnd : Rnd
  scale : Option (BitVec 8)
  d : BitVec 8
  a : BitVec 8
  deriving DecidableEq, Repr

/-- The source types of UNPK (09 R208). -/
inductive UnpkTy where
  | f16 | bf16 | e4m3 | e5m2 | e2m1 | ds8 | s8 | z8 | s16 | z16
  deriving DecidableEq, Repr

structure UnpkOp where
  g : Guard
  st : UnpkTy
  i : BitVec 3
  scale : Option (BitVec 8)
  d : BitVec 8
  a : BitVec 8
  deriving DecidableEq, Repr

inductive ShflMode where
  | idx | up | down | xor
  deriving DecidableEq, Repr

structure ShflOp where
  g : Guard
  b64 : Bool
  mode : ShflMode
  d : BitVec 8
  a : BitVec 8
  b : Src
  deriving DecidableEq, Repr

/-- What a VOTE writes: a predicate (modes .all, .any, .uni) or the ballot mask (09 R212). -/
inductive VoteDst where
  | all (d : BitVec 3)
  | any (d : BitVec 3)
  | uni (d : BitVec 3)
  | ballot (d : BitVec 8)
  deriving DecidableEq, Repr

structure VoteOp where
  g : Guard
  dst : VoteDst
  pa : BitVec 3
  pan : Bool
  deriving DecidableEq, Repr

/-- The reduction operations with their types (09 R213). -/
inductive RedOp where
  | add (b64 : Bool)
  | min (b64 uns : Bool)
  | max (b64 uns : Bool)
  | and (b64 : Bool)
  | or (b64 : Bool)
  | xor (b64 : Bool)
  | fadd
  | fmin
  | fmax
  deriving DecidableEq, Repr

structure ReduxOp where
  g : Guard
  op : RedOp
  d : BitVec 8
  a : BitVec 8
  deriving DecidableEq, Repr

structure ScanOp where
  g : Guard
  op : RedOp
  excl : Bool
  d : BitVec 8
  a : BitVec 8
  deriving DecidableEq, Repr

structure MatchOp where
  g : Guard
  b64 : Bool
  d : BitVec 8
  a : BitVec 8
  deriving DecidableEq, Repr

/-- Forms that write one scalar and read none (16 R359; 11 R249). -/
structure SDst where
  g : Guard
  d : BitVec 6
  deriving DecidableEq, Repr

structure PmcOp where
  g : Guard
  d : BitVec 6
  n : BitVec 3
  deriving DecidableEq, Repr

structure GstatOp where
  g : Guard
  d : BitVec 6
  sel : BitVec 2
  deriving DecidableEq, Repr

inductive NodeField where
  | depth | src | slot | count
  deriving DecidableEq, Repr

structure NodeidOp where
  g : Guard
  field : NodeField
  d : BitVec 8
  deriving DecidableEq, Repr

/-- The B operand of a compact operation: v0 to v127, or s0 to s63 under UB (02 R49). -/
inductive VOrS7 where
  | v (n : BitVec 7)
  | s (n : BitVec 6)
  deriving DecidableEq, Repr

/-- One half of a pair word (02 R49): guard predicate code `gp` (3 is p7). -/
structure Compact where
  d : BitVec 7
  a : BitVec 7
  b : VOrS7
  gn : Bool
  gp : BitVec 2
  deriving DecidableEq, Repr

/-- The compact MOV: it has no B, so B and `ub`, its bit 4, must be zero (02 R45, R49, R50). -/
structure CompactMov where
  d : BitVec 7
  a : BitVec 7
  ub : Bool
  gn : Bool
  gp : BitVec 2
  deriving DecidableEq, Repr

/-- The types of LD, ST, LDNT and RECLD (02 R48). -/
inductive MemTy where
  | b32 | b64 | b128 | s8 | z8 | s16 | z16
  deriving DecidableEq, Repr

/-- The memory operand [sA + vB*scale + imm] (02 R48); no base when `base` is none; B = v255 adds zero. -/
structure MemOpd where
  base : Option (BitVec 6)
  idx : BitVec 8
  scale : BitVec 2
  off : BitVec 16
  deriving DecidableEq, Repr

structure LdOp where
  g : Guard
  ty : MemTy
  ord : Ord
  scope : Scope
  d : BitVec 8
  m : MemOpd
  deriving DecidableEq, Repr

/-- LDNT is always .rlx; ST.bnd is always .rlx.team (06 R131). -/
structure LdntOp where
  g : Guard
  ty : MemTy
  scope : Scope
  d : BitVec 8
  m : MemOpd
  deriving DecidableEq, Repr

structure StBndOp where
  g : Guard
  ty : MemTy
  d : BitVec 8
  m : MemOpd
  deriving DecidableEq, Repr

/-- PREF.team, or PREF.die when `die` (06 R136). -/
structure PrefOp where
  g : Guard
  die : Bool
  m : MemOpd
  deriving DecidableEq, Repr

/-- The atomics but MIN and MAX and the float ones: `b64` selects the type (06 R137). -/
structure AtomOp where
  g : Guard
  b64 : Bool
  ord : Ord
  scope : Scope
  d : BitVec 8
  base : Option (BitVec 6)
  idx : BitVec 8
  scale : BitVec 2
  c : BitVec 8
  deriving DecidableEq, Repr

/-- ATOM.MIN and ATOM.MAX admit .uns (06 R131, R137). -/
structure AtomMmOp where
  g : Guard
  b64 : Bool
  uns : Bool
  ord : Ord
  scope : Scope
  d : BitVec 8
  base : Option (BitVec 6)
  idx : BitVec 8
  scale : BitVec 2
  c : BitVec 8
  deriving DecidableEq, Repr

/-- The .f32 atomics (06 R137). -/
structure AtomFOp where
  g : Guard
  ord : Ord
  scope : Scope
  d : BitVec 8
  base : Option (BitVec 6)
  idx : BitVec 8
  scale : BitVec 2
  c : BitVec 8
  deriving DecidableEq, Repr

structure FenceOp where
  g : Guard
  pd : Option (BitVec 3)
  ord : Ord
  scope : Scope
  deriving DecidableEq, Repr

structure GuardOnly where
  g : Guard
  deriving DecidableEq, Repr

structure WaitvOp where
  g : Guard
  b64 : Bool
  acq : Bool
  scope : Scope
  d : BitVec 6
  a : BitVec 6
  b : BitVec 6
  c : BitVec 6
  deriving DecidableEq, Repr

/-- WAKE, LINKQ, CONDQ (06 R131). -/
structure SyncOp where
  g : Guard
  ord : Ord
  scope : Scope
  d : BitVec 6
  a : BitVec 6
  b : BitVec 6
  deriving DecidableEq, Repr

structure FreeOp where
  g : Guard
  a : BitVec 8
  deriving DecidableEq, Repr

/-- ACCLD: 2^`cnt` elements, `cnt` 0 to 2 (10 R232). -/
structure AccldOp where
  g : Guard
  cnt : BitVec 2
  d : BitVec 8
  acc : BitVec 5
  b : VOrS
  deriving DecidableEq, Repr

structure KickOp where
  g : Guard
  rel : Bool
  scope : Scope
  slot : Option (BitVec 4)
  a : BitVec 6
  b : BitVec 6
  deriving DecidableEq, Repr

structure BobjInitOp where
  g : Guard
  a : BitVec 6
  n : BitVec 7
  deriving DecidableEq, Repr

structure BobjExpectOp where
  g : Guard
  a : BitVec 6
  b : BitVec 6
  arrive : Bool
  deriving DecidableEq, Repr

structure SAddr where
  g : Guard
  a : BitVec 6
  deriving DecidableEq, Repr

/-- Forms with a scalar destination and two scalar sources: BOBJ.WAIT, TDSET (07 R168, R156). -/
structure SThree where
  g : Guard
  d : BitVec 6
  a : BitVec 6
  b : BitVec 6
  deriving DecidableEq, Repr

structure STwo where
  g : Guard
  a : BitVec 6
  b : BitVec 6
  deriving DecidableEq, Repr

structure BopenOp where
  g : Guard
  scope : Scope
  d : BitVec 6
  a : BitVec 6
  deriving DecidableEq, Repr

/-- Forms with a scalar destination and one scalar source: BOPEN.join, QSTAT, GEOSTAT. -/
structure SPair where
  g : Guard
  d : BitVec 6
  a : BitVec 6
  deriving DecidableEq, Repr

/-- BSTAT: `a` is none for BCUR (11 R249). -/
structure BstatOp where
  g : Guard
  d : BitVec 6
  a : Option (BitVec 6)
  deriving DecidableEq, Repr

structure SpawnOp where
  g : Guard
  a : BitVec 6
  b : BitVec 8
  sz : BitVec 4
  deriving DecidableEq, Repr

structure RecldOp where
  g : Guard
  ty : MemTy
  d : BitVec 8
  b : BitVec 8
  off : BitVec 8
  deriving DecidableEq, Repr

/-- TRACE, CONT, CONT.end (14 R314). -/
structure RayOp where
  g : Guard
  d : BitVec 8
  a : BitVec 6
  b : BitVec 8
  slot : Option (BitVec 4)
  deriving DecidableEq, Repr

structure RayldOp where
  g : Guard
  cnt : BitVec 2
  d : BitVec 8
  a : BitVec 6
  b : BitVec 8
  w : BitVec 4
  deriving DecidableEq, Repr

structure BraOp where
  g : Guard
  off : BitVec 32
  deriving DecidableEq, Repr

structure BrxOp where
  g : Guard
  t : VOrS
  deriving DecidableEq, Repr

structure CallOp where
  g : Guard
  d : BitVec 8
  off : BitVec 32
  deriving DecidableEq, Repr

/-- SETMODE: `clr` clears the flags; `ftz` writes FTZ (09 R209). -/
structure SetmodeOp where
  clr : Bool
  ftz : Option Bool
  deriving DecidableEq, Repr

structure BarOp where
  n : BitVec 4
  count : BitVec 6
  deriving DecidableEq, Repr

/-- GSET's value: a predicate of the lowest active lane, or an immediate (12 R273). -/
inductive GsetVal where
  | pred (pa : BitVec 3) (neg : Bool)
  | imm (v : Bool)
  deriving DecidableEq, Repr

structure GsetOp where
  g : Guard
  val : GsetVal
  n : BitVec 4
  deriving DecidableEq, Repr

structure GclrOp where
  g : Guard
  n : BitVec 4
  deriving DecidableEq, Repr

structure CodeOp where
  g : Guard
  code : BitVec 8
  deriving DecidableEq, Repr

structure UpcallOp where
  g : Guard
  d : BitVec 6
  a : BitVec 6
  code : BitVec 8
  deriving DecidableEq, Repr

/-- An A or B operand of MMA and MMAS (10 R221): a tile register, or a scratchpad operand in qn and qn+1. -/
inductive MOpd where
  | tile (t : BitVec 3)
  | scr (q : BitVec 5)
  deriving DecidableEq, Repr

structure MmaOp where
  z : Bool
  nch : BitVec 3
  d : BitVec 5
  a : MOpd
  b : MOpd
  fa : BitVec 3
  fb : BitVec 3
  slot : Option (BitVec 4)
  deriving DecidableEq, Repr

structure MldOp where
  sc : Bool
  len : BitVec 3
  d : BitVec 3
  a : BitVec 5
  slot : Option (BitVec 4)
  deriving DecidableEq, Repr

structure MzeroOp where
  d : BitVec 5
  slot : Option (BitVec 4)
  deriving DecidableEq, Repr

inductive MstFmt where
  | b32 | bf16 | f16
  deriving DecidableEq, Repr

structure MstOp where
  fmt : MstFmt
  d : BitVec 5
  a : BitVec 5
  slot : Option (BitVec 4)
  deriving DecidableEq, Repr

inductive QSrc where
  | q (n : BitVec 5)
  | imm (i : BitVec 16)
  deriving DecidableEq, Repr

structure QBin where
  d : BitVec 5
  a : BitVec 5
  b : QSrc
  deriving DecidableEq, Repr

structure QMov where
  d : BitVec 5
  a : BitVec 5
  deriving DecidableEq, Repr

structure QImm where
  d : BitVec 5
  imm : BitVec 32
  deriving DecidableEq, Repr

inductive QCond where
  | always
  | z (a : BitVec 5)
  | nz (a : BitVec 5)
  deriving DecidableEq, Repr

structure QBra where
  cond : QCond
  off : BitVec 32
  deriving DecidableEq, Repr

/-- Service-core extension words (02 R63). -/
structure XWaitvOp where
  w32 : Bool
  aq : Bool
  rd : BitVec 5
  rs1 : BitVec 5
  rs2 : BitVec 5
  deriving DecidableEq, Repr

structure XWakeOp where
  rl : Bool
  rd : BitVec 5
  rs1 : BitVec 5
  rs2 : BitVec 5
  deriving DecidableEq, Repr

structure XLinkqOp where
  aq : Bool
  rd : BitVec 5
  rs1 : BitVec 5
  rs2 : BitVec 5
  deriving DecidableEq, Repr

structure XCondqOp where
  aq : Bool
  rl : Bool
  rd : BitVec 5
  rs1 : BitVec 5
  rs2 : BitVec 5
  deriving DecidableEq, Repr

structure XBopenOp where
  rd : BitVec 5
  rs1 : BitVec 5
  rs2 : BitVec 5
  deriving DecidableEq, Repr

structure XBcommitOp where
  rd : BitVec 5
  rs1 : BitVec 5
  deriving DecidableEq, Repr

structure XStrmOp where
  stream : BitVec 7
  rs1 : BitVec 5
  rs2 : BitVec 5
  deriving DecidableEq, Repr

/-- The queue whose head a guard holds (07 R170): a team's request queue, a team's Geode queue, or a sequencer. -/
inductive GuardedQueue where
  | copy (team : Nat)
  | geode (team : Nat)
  | seq (key : Nat)
  deriving DecidableEq, Repr

/-- What an uncorrectable error strikes (16 R357). -/
inductive ErrTarget where
  /-- a 32-byte sector of memory, by its physical key; `scrub` when no consumer reads it -/
  | sector (key : Nat) (scrub : Bool)
  /-- a register, tile or accumulator of a group (the register is named by `item`) -/
  | group (key : Nat) (item : BitVec 64)
  | seq (key : Nat) (item : BitVec 64)
  deriving DecidableEq, Repr

/-- What the boot ROM finds at one image (18 R375, R377): the version, the digest, and the two signature checks. -/
structure ImageFacts where
  version : BitVec 16
  digest : BitVec 384
  readOk : Bool
  ecdsaOk : Bool
  lmsOk : Bool
  deriving DecidableEq, Repr

/-- What the boot ROM meets after a module reset (18 R375): facts of the flash and the memory, which lie outside the machine. -/
structure BootFacts where
  trained : Bool
  imageA : ImageFacts
  imageB : ImageFacts
  entry : BitVec 64
  pool : Nat
  deriving DecidableEq, Repr

/-- A host posted write as it arrives (17 R363): function, prefix (stream, sequence), BAR offset, bytes. -/
structure HostWriteReq where
  fn : Nat
  pfx : Option (BitVec 8 × BitVec 16)
  off : BitVec 64
  bytes : List (BitVec 8)
  deriving DecidableEq, Repr

/-- A piece that another module writes here (17 R368, R371): sender, tag, context, virtual address, physical key, bytes. -/
structure NetPiece where
  src : BitVec 6
  tag : BitVec 32
  asid : BitVec 16
  va : BitVec 64
  key : Nat
  bytes : List (BitVec 8)
  deriving DecidableEq, Repr

/-- The instructions and events of the Z2, one constructor for each row of the table of operations and events. The rows with
    operands stand first. An event without an operand that takes up a pending item (a message, a timer, a command, an agent)
    takes the one that `State.hand` names. -/
inductive Instr where
  -- clauses and control
  | clauseStart (k lane : Nat)
  | instructionComplete (k gio : Nat)
  | bra (o : BraOp)
  | brx (o : BrxOp)
  | call (o : CallOp)
  | ret (o : BrxOp)
  | exit (o : GuardOnly)
  | setmode (o : SetmodeOp)
  | partset (tw : BitVec 3)
  | reggrow (n : BitVec 6)
  | regshrink (n : BitVec 6)
  | barArrive (o : BarOp)
  | barWait (n : BitVec 4)
  | barSync (o : BarOp)
  | gset (o : GsetOp)
  | gclr (o : GclrOp)
  | guardedCommandRelease (q : GuardedQueue)
  | trap (o : CodeOp)
  | upcall (o : UpcallOp)
  | bkpt (o : CodeOp)
  | clock (o : SDst)
  | clockPts (o : SDst)
  | pmc (o : PmcOp)
  | gstat (o : GstatOp)
  -- vector integer
  | iadd (o : IntBin)
  | isub (o : IntBin)
  | imul (o : IntBin)
  | imad (o : IntTer)
  | imulhi (o : IntBin)
  | imin (o : IntBin)
  | imax (o : IntBin)
  | lop3 (o : Lop3V)
  | shl (o : IntBin)
  | shr (o : IntBin)
  | sar (o : IntBin)
  | fshl (o : IntTer)
  | fshr (o : IntTer)
  | popc (o : IntUn)
  | clz (o : IntUn)
  | brev (o : IntUn)
  | bfx (o : IntBin)
  | bfi (o : IntTer)
  | isetp (o : IsetpV)
  | sel (o : SelV)
  | mov (o : IntUn)
  | movImm32 (o : MovImmV)
  | movImm32B64 (o : MovImmV)
  | lea (o : LeaV)
  | s2v (o : S2vOp)
  | v2s (o : V2sOp)
  -- scalar integer
  | iaddScalar (o : SIntBin)
  | isubScalar (o : SIntBin)
  | imulScalar (o : SIntBin)
  | imadScalar (o : SIntTer)
  | imulhiScalar (o : SIntBin)
  | iminScalar (o : SIntBin)
  | imaxScalar (o : SIntBin)
  | lop3Scalar (o : Lop3S)
  | shlScalar (o : SIntBin)
  | shrScalar (o : SIntBin)
  | sarScalar (o : SIntBin)
  | isetpScalar (o : IsetpS)
  | selScalar (o : SelS)
  | movScalar (o : SIntUn)
  | movImm32Scalar (o : MovImmS)
  | movImm32B64Scalar (o : MovImmS)
  | movHiScalar (o : MovImmS)
  | leaScalar (o : LeaS)
  -- floating point, tables, conversion, cross-lane
  | fadd (o : FBin)
  | fmul (o : FBin)
  | ffma (o : FTer)
  | fmin (o : FSel)
  | fmax (o : FSel)
  | fsetp (o : FsetpOp)
  | hfma2 (o : HTer)
  | hadd2 (o : HBin)
  | hmul2 (o : HBin)
  | frcp (o : VUn)
  | frsq (o : VUn)
  | fsqrt (o : VUn)
  | fexp2 (o : VUn)
  | flog2 (o : VUn)
  | fsin (o : VUn)
  | fcos (o : VUn)
  | ftanh (o : VUn)
  | atab (o : VUn)
  | atload (o : AtloadOp)
  | atloadCtl (o : SAddr)
  | atswap (o : GuardOnly)
  | cvt (o : CvtOp)
  | cvtp2 (o : Cvtp2Op)
  | cvtp4 (o : Cvtp4Op)
  | cvtds (o : CvtdsOp)
  | unpk (o : UnpkOp)
  | shfl (o : ShflOp)
  | vote (o : VoteOp)
  | redux (o : ReduxOp)
  | scan (o : ScanOp)
  | matchLanes (o : MatchOp)
  -- compact halves of pair words
  | faddCompact (o : Compact)
  | fmulCompact (o : Compact)
  | ffmaCompact (o : Compact)
  | fminCompact (o : Compact)
  | fmaxCompact (o : Compact)
  | iaddCompact (o : Compact)
  | isubCompact (o : Compact)
  | iminCompact (o : Compact)
  | imaxCompact (o : Compact)
  | shlCompact (o : Compact)
  | shrCompact (o : Compact)
  | sarCompact (o : Compact)
  | movCompact (o : CompactMov)
  | imulCompact (o : Compact)
  | hadd2F16Compact (o : Compact)
  | hmul2F16Compact (o : Compact)
  | hfma2F16Compact (o : Compact)
  | hadd2Bf16Compact (o : Compact)
  | hmul2Bf16Compact (o : Compact)
  | hfma2Bf16Compact (o : Compact)
  -- memory
  | ld (o : LdOp)
  | st (o : LdOp)
  | stBnd (o : StBndOp)
  | ldnt (o : LdntOp)
  | pref (o : PrefOp)
  | atomAdd (o : AtomOp)
  | atomMin (o : AtomMmOp)
  | atomMax (o : AtomMmOp)
  | atomAnd (o : AtomOp)
  | atomOr (o : AtomOp)
  | atomXor (o : AtomOp)
  | atomExch (o : AtomOp)
  | atomInc (o : AtomOp)
  | atomDec (o : AtomOp)
  | atomFadd (o : AtomFOp)
  | atomFmin (o : AtomFOp)
  | atomFmax (o : AtomFOp)
  | atomCas (o : AtomOp)
  | fence (o : FenceOp)
  | fenceLinkTimeout (k gio : Nat)
  | fenceEng (o : GuardOnly)
  | waitv (o : WaitvOp)
  | waitvTimeout (die order : Nat)
  | wake (o : SyncOp)
  | linkq (o : SyncOp)
  | condq (o : SyncOp)
  | alloc (o : VUn)
  | free (o : FreeOp)
  | accld (o : AccldOp)
  -- copy engine
  | kick (o : KickOp)
  | pieceArrive (req piece : Nat)
  | bobjInit (o : BobjInitOp)
  | bobjExpect (o : BobjExpectOp)
  | bobjArrive (o : SAddr)
  | bobjWait (o : SThree)
  | tdset (o : SThree)
  | tdinv (o : STwo)
  -- bundles
  | bopen (o : BopenOp)
  | bopenJoin (o : SPair)
  | bcommit (o : SDst)
  | babort (o : SDst)
  | bstat (o : BstatOp)
  -- nodes and rays
  | spawn (o : SpawnOp)
  | recld (o : RecldOp)
  | nodeid (o : NodeidOp)
  | qstat (o : SPair)
  | trace (o : RayOp)
  | cont (o : RayOp)
  | contEnd (o : RayOp)
  | rayld (o : RayldOp)
  | geostat (o : SPair)
  -- matrix stream
  | mld (o : MldOp)
  | mma (o : MmaOp)
  | mmas (o : MmaOp)
  | mzero (o : MzeroOp)
  | mst (o : MstOp)
  | marr (o : BarOp)
  | mwait (n : BitVec 4)
  | iaddQ (o : QBin)
  | isubQ (o : QBin)
  | movQ (o : QMov)
  | movQImm32 (o : QImm)
  | movQHi (o : QImm)
  | shlQ (o : QBin)
  | braQ (o : QBra)
  -- service-core extension
  | xWaitv (o : XWaitvOp)
  | xWake (o : XWakeOp)
  | xLinkq (o : XLinkqOp)
  | xCondq (o : XCondqOp)
  | xBopen (o : XBopenOp)
  | xBcommit (o : XBcommitOp)
  | xStrm (o : XStrmOp)
  -- translation, homes, coherence
  | scratchRefill (team page : Nat)
  | peerTimeAdvance (t : Nat) (drain : Option (Nat × Nat))
  -- bundle machinery
  | bundlePrepare (slot home : Nat)
  | bundleInstall (slot home : Nat)
  | bundleDrop (slot home : Nat)
  -- launcher
  | doorbellWrite (n : Nat) (tail : BitVec 32)
  | pendmapClear (off n : Nat) (v : BitVec 64)
  | qsEnable (slot : Nat) (cfg : BitVec 64)
  | qsDisable (slot : Nat) (cfg : BitVec 64)
  -- pre-emption, faults, debug window
  | preOut (die : Nat) (v : BitVec 64)
  | preIn (die : Nat) (v : BitVec 64)
  | mbReply (die : Nat) (v : BitVec 64)
  | mbResolve (die : Nat) (v : BitVec 64)
  | mbDecline (die : Nat) (v : BitVec 64)
  | dwDataWrite (die : Nat) (v : BitVec 64)
  | evqBaseWrite (die : Nat) (v : BitVec 64)
  | evqTailwWrite (die : Nat) (v : BitVec 64)
  | evqHeadWrite (die : Nat) (v : BitVec 64)
  | fwsw (die : Nat) (v : BitVec 64)
  -- links and host
  | nmArm (v : BitVec 64)
  | nmEntryWrite (n word : Nat) (v : BitVec 64)
  | networkPieceArrive (p : NetPiece)
  | hostWrite (w : HostWriteReq)
  | hostRead (fn : Nat) (off : BitVec 64) (n : Nat)
  | portStateChange (port : Nat) (st : BitVec 2) (reach : BitVec 64)
  | eccCorrected (key : Nat)
  | eccUncorrectable (t : ErrTarget)
  -- boot, attestation, checkpoint, power
  | moduleReset (b : BootFacts)
  | negotiateAlgorithms (ecdsaP384 sha384 : Bool)
  | getCertificate (slot off len : Nat)
  | challenge (slot : Nat) (nonce : BitVec 256)
  | getMeasurements (index : Nat) (sign : Bool) (nonce : BitVec 256)
  | ckptSave (v : BitVec 64)
  | ckptRestore (v : BitVec 64)
  | powerCapThrottle (on : Bool)
  | registerWrite (pa : BitVec 52) (n : Nat) (v : BitVec 64)
  | hartInstruction (w : BitVec 32)
  | interruptPending (h cause : Nat)
  -- clauses and control, no operand
  | join
  | yield
  | registerGrant
  | trapSave
  | trapResume
  -- floating point, tables, conversion, cross-lane, no operand
  | atloadPerform
  | atswapPerform
  -- compact halves of pair words, no operand
  | filler
  -- memory, no operand
  | freeExchangePush
  -- copy engine, no operand
  | requestFetch
  | requestStart
  -- nodes and rays, no operand
  | contRequest
  | rayGranulesReserved
  | geodePass
  -- matrix stream, no operand
  | exitQ
  -- translation, homes, coherence, no operand
  | pageWalk
  | homeReadLease
  | homeWrite
  | l1FillReturn
  | ptsTick
  | gets
  | getm
  | upgrade
  | puts
  | pute
  | putm
  | puto
  | inv
  | fwdgets
  | fwdgetm
  | putack
  | datas
  | datae
  | datam
  | upgack
  | invack
  | fwdack
  | bisnp
  | bisnpAnswer
  | xlatInvalidate
  | xlatInvalidateAll
  | xlatExtentDrop
  | xlatDrain
  | xlatPeerAdvance
  | xlatCommandDone
  | xlatPeerTimeout
  -- bundle machinery, no operand
  | bundleStoreArrive
  | bundleCommitPoint
  | bundleDone
  | bundleCompletionNotice
  | bundlePrepareTimeout
  | bundleInstallTimeout
  | horizonQuery
  | horizonQueryAnswer
  -- launcher, no operand
  | recordArrive
  | binTimer
  | teamStart
  | groupRetire
  | commandFetch
  | nop
  | dispatch
  | record
  | quiesce
  | poolgrow
  | ctxdown
  -- pre-emption, faults, debug window, no operand
  | groupParked
  | parkBudgetExpire
  | routineBudgetExpire
  | splitRotation
  | dwResume
  | dwSkip
  | dwKill
  | dwDataRead
  -- links and host, no operand
  | functionLevelReset
  | tier5ReadTimeout
  | peerReadTimeout
  | poolReadTimeout
  | poolWriteCompletion
  -- boot, attestation, checkpoint, power, no operand
  | computeReset
  | powerLoss
  | getVersion
  | getCapabilities
  | getDigests
  | ckptDone
  | powerShift
  | matrixCommandPerformed
  deriving DecidableEq, Repr

end Sys2Proof
end

