-- ==== Sys2Proof/WellFormed.lean ====
section
/-! DEFINITION. Which terms of `Instr` an encoding can hold: the ILLEGAL_OP checks of the entries that depend on the word alone. -/

namespace Sys2Proof

/-- GRD 0b1111 is reserved (02 R44). -/
def Guard.wf (g : Guard) : Bool := !(g.neg && g.p == 7)

/-- A range of k registers from vn: one register is any of v0 to v255, a longer range ends at v254 (02 R45, 12 R267). -/
def vRange (n : BitVec 8) (k : Nat) : Bool := k ≤ 1 || n.toNat + k ≤ 255
/-- A range of k scalars from sn ends at s63 (02 R45). -/
def sRange (n : BitVec 6) (k : Nat) : Bool := n.toNat + k ≤ 64
/-- Registers of a .b32 or .b64 operand. -/
def w64 (b64 : Bool) : Nat := if b64 then 2 else 1

def Src.isImm : Src → Bool
  | .imm _ => true
  | _ => false
/-- A source of k registers; the immediate stands only where `immOk`. -/
def Src.wf (immOk : Bool) (k : Nat) : Src → Bool
  | .v n => vRange n k
  | .s _ => true
  | .imm _ => immOk
def SSrc.isImm : SSrc → Bool
  | .imm _ => true
  | _ => false
def SSrc.wf (immOk : Bool) (s : SSrc) : Bool := immOk || !s.isImm

/-- What an integer form admits (08 R183): the immediate, .sat, .uns (0 no, 1 with .sat, 2 yes), a single B. -/
structure IntForm where
  imm : Bool
  sat : Bool
  uns : Nat
  single : Bool
  b64 : Bool := true
  deriving DecidableEq, Repr

def IntForm.flags (fm : IntForm) (b64 sat uns : Bool) : Bool :=
  (fm.b64 || !b64) && (fm.sat || !sat) && (!uns || fm.uns == 2 || (fm.uns == 1 && sat))

def IntBin.wf (fm : IntForm) (o : IntBin) : Bool :=
  o.g.wf && fm.flags o.b64 o.sat o.uns && vRange o.d (w64 o.b64) && o.a.wf false (w64 o.b64)
    && o.b.wf fm.imm (if fm.single then 1 else w64 o.b64)
def IntTer.wf (fm : IntForm) (o : IntTer) : Bool :=
  o.g.wf && fm.flags o.b64 o.sat o.uns && vRange o.d (w64 o.b64) && o.a.wf false (w64 o.b64)
    && o.b.wf fm.imm (if fm.single then 1 else w64 o.b64) && o.c.wf false (w64 o.b64)
/-- Under the immediate LOP3 has no C, and C reads 0 (08 R183): the term then holds the immediate 0 there. -/
def Lop3V.wf (o : Lop3V) : Bool :=
  o.g.wf && vRange o.d (w64 o.b64) && o.a.wf false (w64 o.b64) && o.b.wf true (w64 o.b64)
    && (if o.b.isImm then o.c == .imm 0 else o.c.wf false (w64 o.b64))
def IntUn.wf (immOk : Bool) (o : IntUn) : Bool :=
  o.g.wf && vRange o.d (w64 o.b64) && o.a.wf immOk (w64 o.b64)
def IsetpV.wf (o : IsetpV) : Bool := o.g.wf && o.a.wf false (w64 o.b64) && o.b.wf true (w64 o.b64)
def SelV.wf (o : SelV) : Bool :=
  o.g.wf && vRange o.d (w64 o.b64) && o.a.wf false (w64 o.b64) && o.b.wf true (w64 o.b64)
def LeaV.wf (o : LeaV) : Bool :=
  o.g.wf && vRange o.d (w64 o.b64) && o.a.wf false (w64 o.b64) && o.b.wf true 1 && !(o.b.isImm && o.sx)
def S2vOp.wf (o : S2vOp) : Bool :=
  o.g.wf && vRange o.d (w64 o.b64) && !(o.sel == .all && o.b64)
def V2sOp.wf (o : V2sOp) : Bool := o.g.wf && vRange o.a (w64 o.b64)
def SIntBin.wf (fm : IntForm) (o : SIntBin) : Bool :=
  o.g.wf && fm.flags o.b64 o.sat o.uns && o.a.wf false && o.b.wf fm.imm
def SIntTer.wf (fm : IntForm) (o : SIntTer) : Bool :=
  o.g.wf && fm.flags o.b64 o.sat o.uns && o.a.wf false && o.b.wf fm.imm && o.c.wf false
def Lop3S.wf (o : Lop3S) : Bool :=
  o.g.wf && o.a.wf false && (if o.b.isImm then o.c == .imm 0 else o.c.wf false)
def LeaS.wf (o : LeaS) : Bool := o.g.wf && o.a.wf false && !(o.b.isImm && o.sx)

def FBin.wf (o : FBin) : Bool := o.g.wf && o.a.wf false 1
def FTer.wf (o : FTer) : Bool := o.g.wf && o.a.wf false 1 && o.b.wf false 1 && o.c.wf false 1
def HBin.wf (o : HBin) : Bool := o.g.wf && o.a.wf false 1 && o.b.wf false 1
def HTer.wf (o : HTer) : Bool := o.g.wf && o.a.wf false 1 && o.b.wf false 1 && o.c.wf false 1

def CvtTy.isInt : CvtTy → Bool
  | .f32 | .f16 | .bf16 => false
  | _ => true
def CvtTy.wide : CvtTy → Bool
  | .b32 | .b64 => true
  | _ => false
def CvtTy.regs : CvtTy → Nat
  | .b64 => 2
  | _ => 1
/-- CVT (09 R205). -/
def CvtOp.wf (o : CvtOp) : Bool :=
  o.g.wf && vRange o.d o.dt.regs && vRange o.a o.st.regs && (!o.sat || (o.dt.isInt && o.st.isInt))
    && (!o.uns || o.dt.wide || o.st.wide) && (o.rnd == .dflt || !(o.dt.isInt && o.st.isInt))
def PackTy.count : PackTy → Nat
  | .e2m1 => 8
  | _ => 4
def Cvtp4Op.wf (o : Cvtp4Op) : Bool := o.g.wf && vRange o.a o.dt.count
def CvtdsOp.wf (o : CvtdsOp) : Bool := o.g.wf && vRange o.a 4
def UnpkTy.isInt : UnpkTy → Bool
  | .s8 | .z8 | .s16 | .z16 => true
  | _ => false
/-- Elements of a lane word (09 R208, 01 R20). -/
def UnpkTy.count : UnpkTy → Nat
  | .f16 | .bf16 | .s16 | .z16 => 2
  | .e2m1 => 8
  | _ => 4
def UnpkOp.wf (o : UnpkOp) : Bool := o.g.wf && o.i.toNat < o.st.count && !(o.scale.isSome && o.st.isInt)

def ShflOp.wf (o : ShflOp) : Bool := o.g.wf && vRange o.d (w64 o.b64) && vRange o.a (w64 o.b64) && o.b.wf true 1
def VoteDst.wf : VoteDst → Bool
  | .ballot d => vRange d 2
  | _ => true
def RedOp.b64 : RedOp → Bool
  | .add b | .and b | .or b | .xor b => b
  | .min b _ | .max b _ => b
  | _ => false
def ReduxOp.wf (o : ReduxOp) : Bool := o.g.wf && vRange o.d (w64 o.op.b64) && vRange o.a (w64 o.op.b64)
def ScanOp.wf (o : ScanOp) : Bool := o.g.wf && vRange o.d (w64 o.op.b64) && vRange o.a (w64 o.op.b64)
def MatchOp.wf (o : MatchOp) : Bool := o.g.wf && vRange o.d 2 && vRange o.a (w64 o.b64)

/-- GN = 1 with GP = 3 marks the filler alone (02 R49). -/
def Compact.wf (o : Compact) : Bool := !(o.gn && o.gp == 3)
def CompactMov.wf (o : CompactMov) : Bool := !o.ub && !(o.gn && o.gp == 3)

/-- Registers of a memory type (06 R131). -/
def MemTy.regs : MemTy → Nat
  | .b64 => 2
  | .b128 => 4
  | _ => 1
/-- Bytes of a memory type (06 R135). -/
def MemTy.bytes : MemTy → Nat
  | .b32 => 4
  | .b64 => 8
  | .b128 => 16
  | .s8 | .z8 => 1
  | .s16 | .z16 => 2
def LdOp.ldWf (o : LdOp) : Bool :=
  o.g.wf && vRange o.d o.ty.regs && (o.ord == .rlx || o.ord == .acq || o.ord == .sc)
def LdOp.stWf (o : LdOp) : Bool :=
  o.g.wf && vRange o.d o.ty.regs && (o.ord == .rlx || o.ord == .rel || o.ord == .sc)
def AtomOp.wf (o : AtomOp) : Bool := o.g.wf && vRange o.d (w64 o.b64) && vRange o.c (w64 o.b64)
def AtomOp.casWf (o : AtomOp) : Bool := o.g.wf && vRange o.d (w64 o.b64) && vRange o.c (2 * w64 o.b64)
def AtomMmOp.wf (o : AtomMmOp) : Bool := o.g.wf && vRange o.d (w64 o.b64) && vRange o.c (w64 o.b64)
def SyncOp.wf (ords : List Ord) (o : SyncOp) : Bool := o.g.wf && ords.contains o.ord
def AccldOp.wf (o : AccldOp) : Bool := o.g.wf && o.cnt != 3 && vRange o.d (2 ^ o.cnt.toNat)
def Scope.bundleOk : Scope → Bool
  | .team | .clu => false
  | _ => true
def SpawnOp.wf (o : SpawnOp) : Bool := o.g.wf && vRange o.b (4 * (o.sz.toNat + 1))
def RayldOp.wf (o : RayldOp) : Bool :=
  o.g.wf && o.cnt != 3 && vRange o.d (2 ^ o.cnt.toNat) && o.w.toNat % 2 ^ o.cnt.toNat == 0
    && o.w.toNat + 2 ^ o.cnt.toNat ≤ 16
def BrxOp.wf (o : BrxOp) : Bool :=
  o.g.wf && (match o.t with
    | .v n => vRange n 2
    | .s _ => true)
def BarOp.wf (o : BarOp) : Bool := o.count.toNat ≤ 33

/-- The element-format pairs and largest n of MMA and MMAS (10 R225). -/
def mmaMax (scaled : Bool) (fa fb : Nat) : Nat :=
  if fa == fb && (fa == 1 || fa == 2) then (if scaled then 0 else 2)
  else if (fa == 3 || fa == 4) && (fb == 3 || fb == 4 || fb == 6) then 4
  else if fa == 5 && fb == 5 then 8
  else if fa == 7 && fb == 7 then (if scaled then 0 else 4)
  else 0
def MOpd.wf : MOpd → Bool
  | .tile _ => true
  | .scr q => q.toNat ≤ 30
def MmaOp.wf (scaled : Bool) (o : MmaOp) : Bool :=
  o.a.wf && o.b.wf && o.nch.toNat + 1 ≤ mmaMax scaled o.fa.toNat o.fb.toNat
def MldOp.wf (o : MldOp) : Bool := o.a.toNat ≤ 30
def MstOp.wf (o : MstOp) : Bool := o.a.toNat ≤ 30

def formArith : IntForm := { imm := true, sat := true, uns := 1, single := false }
def formMad : IntForm := { imm := false, sat := true, uns := 1, single := false }
def formUns : IntForm := { imm := true, sat := false, uns := 2, single := false }
def formShift : IntForm := { imm := true, sat := false, uns := 0, single := true }
def formFsh : IntForm := { imm := false, sat := false, uns := 0, single := true, b64 := false }
def formBfx : IntForm := { imm := true, sat := false, uns := 2, single := true }
def formBfi : IntForm := { imm := false, sat := false, uns := 0, single := true }

/-- The checks of each entry that raise ILLEGAL_OP and depend on the word alone (02 R41 step 4). An event is always well formed. -/
def Instr.wf : Instr → Bool
  | .bra o => o.g.wf
  | .brx o | .ret o => o.wf
  | .call o => o.g.wf && vRange o.d 2
  | .exit o | .atswap o | .fenceEng o => o.g.wf
  | .setmode o => o.clr || o.ftz.isSome
  | .partset tw => tw.toNat ≤ 5
  | .reggrow n | .regshrink n => 1 ≤ n.toNat && n.toNat ≤ 32
  | .barArrive o | .barSync o | .marr o => o.wf
  | .gset o => o.g.wf
  | .gclr o => o.g.wf
  | .trap o | .bkpt o => o.g.wf
  | .upcall o => o.g.wf && o.d.toNat ≤ 62 && o.a.toNat ≤ 60 && o.code.toNat < 0xF0
  | .clock o | .clockPts o | .bcommit o | .babort o => o.g.wf
  | .pmc o => o.g.wf
  | .gstat o => o.g.wf
  | .iadd o | .isub o | .imul o => o.wf formArith
  | .imad o => o.wf formMad
  | .imulhi o | .imin o | .imax o => o.wf formUns
  | .lop3 o => o.wf
  | .shl o | .shr o | .sar o => o.wf formShift
  | .fshl o | .fshr o => o.wf formFsh
  | .popc o | .clz o | .brev o => o.wf false
  | .bfx o => o.wf formBfx
  | .bfi o => o.wf formBfi
  | .isetp o => o.wf
  | .sel o => o.wf
  | .mov o => o.wf true
  | .movImm32 o => o.g.wf
  | .movImm32B64 o => o.g.wf && vRange o.d 2
  | .lea o => o.wf
  | .s2v o => o.wf
  | .v2s o => o.wf
  | .iaddScalar o | .isubScalar o | .imulScalar o => o.wf formArith
  | .imadScalar o => o.wf formMad
  | .imulhiScalar o | .iminScalar o | .imaxScalar o => o.wf formUns
  | .lop3Scalar o => o.wf
  | .shlScalar o | .shrScalar o | .sarScalar o => o.wf formShift
  | .isetpScalar o => o.g.wf && o.a.wf false
  | .selScalar o => o.g.wf && o.a.wf false
  | .movScalar o => o.g.wf
  | .movImm32Scalar o | .movImm32B64Scalar o | .movHiScalar o => o.g.wf
  | .leaScalar o => o.wf
  | .fadd o | .fmul o => o.wf
  | .ffma o => o.wf
  | .fmin o | .fmax o => o.g.wf && o.a.wf false 1
  | .fsetp o => o.g.wf && o.a.wf false 1
  | .hfma2 o => o.wf
  | .hadd2 o | .hmul2 o => o.wf
  | .frcp o | .frsq o | .fsqrt o | .fexp2 o | .flog2 o | .fsin o | .fcos o | .ftanh o | .atab o => o.g.wf
  | .atload o => o.g.wf && vRange o.a 2
  | .atloadCtl o | .bobjArrive o => o.g.wf
  | .cvt o => o.wf
  | .cvtp2 o => o.g.wf
  | .cvtp4 o => o.wf
  | .cvtds o => o.wf
  | .unpk o => o.wf
  | .shfl o => o.wf
  | .vote o => o.g.wf && o.dst.wf
  | .redux o => o.wf
  | .scan o => o.wf
  | .matchLanes o => o.wf
  | .faddCompact o | .fmulCompact o | .ffmaCompact o | .fminCompact o | .fmaxCompact o | .iaddCompact o
  | .isubCompact o | .iminCompact o | .imaxCompact o | .shlCompact o | .shrCompact o | .sarCompact o
  | .imulCompact o | .hadd2F16Compact o | .hmul2F16Compact o | .hfma2F16Compact o | .hadd2Bf16Compact o
  | .hmul2Bf16Compact o | .hfma2Bf16Compact o => o.wf
  | .movCompact o => o.wf
  | .ld o => o.ldWf
  | .st o => o.stWf
  | .stBnd o => o.g.wf && vRange o.d o.ty.regs
  | .ldnt o => o.g.wf && vRange o.d o.ty.regs
  | .pref o => o.g.wf
  | .atomAdd o | .atomAnd o | .atomOr o | .atomXor o | .atomExch o | .atomInc o | .atomDec o => o.wf
  | .atomMin o | .atomMax o => o.wf
  | .atomFadd o | .atomFmin o | .atomFmax o => o.g.wf
  | .atomCas o => o.casWf
  | .fence o => o.g.wf && o.ord != .rlx
  | .waitv o => o.g.wf
  | .wake o => o.wf [.rlx, .rel]
  | .linkq o => o.wf [.rlx, .acq]
  | .condq o => o.wf [.rlx, .acq, .rel, .ar]
  | .alloc o => o.g.wf && vRange o.d 2
  | .free o => o.g.wf && vRange o.a 2
  | .accld o => o.wf
  | .kick o => o.g.wf
  | .bobjInit o => o.g.wf && o.n != 0
  | .bobjExpect o => o.g.wf
  | .bobjWait o | .tdset o => o.g.wf
  | .tdinv o => o.g.wf
  | .bopen o => o.g.wf && o.scope.bundleOk
  | .bopenJoin o | .qstat o | .geostat o => o.g.wf
  | .bstat o => o.g.wf
  | .spawn o => o.wf
  | .recld o => o.g.wf && vRange o.d o.ty.regs
  | .nodeid o => o.g.wf
  | .trace o => o.g.wf && vRange o.b 10
  | .cont o | .contEnd o => o.g.wf
  | .rayld o => o.wf
  | .mld o => o.wf
  | .mma o => o.wf false
  | .mmas o => o.wf true
  | .mst o => o.wf
  | .braQ o => o.off.extractLsb' 0 3 == 0
  | _ => true

/-- A BRA or CALL offset with bits 2:0 non-zero raises ILLEGAL_CLAUSE (02 R42, 12 R267). -/
def Instr.targetAligned : Instr → Bool
  | .bra o => o.off.extractLsb' 0 3 == 0
  | .call o => o.off.extractLsb' 0 3 == 0
  | _ => true

/-- A service-core word that is an instruction of the base set and no word of the four custom opcodes (02 R63, R64). -/
def Instr.baseWord (w : BitVec 32) : Bool :=
  w.extractLsb' 0 2 == 3 && w.extractLsb' 0 7 != 0x0B && w.extractLsb' 0 7 != 0x2B && w.extractLsb' 0 7 != 0x5B
    && w.extractLsb' 0 7 != 0x7B

/-- A well-formed instruction: one the encodings can hold and no decode check refuses. -/
def Instr.WellFormed (i : Instr) : Prop :=
  i.wf = true ∧ i.targetAligned = true ∧ ∀ w, i = .hartInstruction w → Instr.baseWord w = true

end Sys2Proof
end

