-- ==== Sys2Proof/Decode.lean ====
section
/-! DEFINITION. The decoder, total on any word, and after it the encoder, both written from the encoding tables of the entries. -/

namespace Sys2Proof

/-- The fields of a group or stream word (02 R43). -/
structure Fields where
  opc : BitVec 8
  mod : BitVec 4
  grd : BitVec 4
  d : BitVec 8
  a : BitVec 8
  b : BitVec 8
  c : BitVec 8
  x : BitVec 16
  deriving DecidableEq, Repr

def Fields.ofWord (w : Word) : Fields :=
  { opc := w.extractLsb' 56 8, mod := w.extractLsb' 52 4, grd := w.extractLsb' 48 4, d := w.extractLsb' 40 8,
    a := w.extractLsb' 32 8, b := w.extractLsb' 24 8, c := w.extractLsb' 16 8, x := w.extractLsb' 0 16 }
def Fields.toWord (f : Fields) : Word :=
  f.opc ++ f.mod ++ f.grd ++ f.d ++ f.a ++ f.b ++ f.c ++ f.x

/-- The engine class of an opcode (02 R36, R53). -/
inductive Class where
  | vec | pair | mem | async | ctrl | stream
  deriving DecidableEq, Repr

/-- The opcode map (02 R53): the class of each assigned slot. -/
def classOf (opc : Nat) : Option Class :=
  if 0x01 ≤ opc && opc ≤ 0x0E then some .ctrl
  else if 0x10 ≤ opc && opc ≤ 0x14 then some .ctrl
  else if 0x15 ≤ opc && opc ≤ 0x17 then some .vec
  else if 0x20 ≤ opc && opc ≤ 0x38 then some .vec
  else if 0x40 ≤ opc && opc ≤ 0x58 then some .vec
  else if 0x60 ≤ opc && opc ≤ 0x6A then some .vec
  else if 0x6C ≤ opc && opc ≤ 0x70 then some .vec
  else if 0x78 ≤ opc && opc ≤ 0x7C then some .vec
  else if 0x80 ≤ opc && opc ≤ 0x8E then some .mem
  else if opc == 0x90 then some .async
  else if 0x91 ≤ opc && opc ≤ 0x94 then some .mem
  else if opc == 0x95 || opc == 0x96 then some .async
  else if 0x98 ≤ opc && opc ≤ 0x9B then some .async
  else if opc == 0xA0 then some .async
  else if opc == 0xA1 || opc == 0xA3 then some .mem
  else if opc == 0xA2 then some .vec
  else if opc == 0xA8 || opc == 0xAA then some .async
  else if opc == 0xA9 || opc == 0xAB then some .mem
  else if 0xC0 ≤ opc && opc ≤ 0xCC then some .stream
  else none

/-- The control transfers (02 R36). -/
def isTransfer (opc : Nat) : Bool := (0x01 ≤ opc && opc ≤ 0x07) || opc == 0x12 || opc == 0x14

namespace Dec

/-- `x` where the check holds, nothing where a field breaks it. -/
def req (ok : Bool) (x : Option α) : Option α := if ok then x else none

def guard (f : Fields) : Guard := ⟨f.grd.getLsbD 3, f.grd.extractLsb' 0 3⟩
def imm16 (f : Fields) : BitVec 16 := f.b ++ f.c
def imm32 (f : Fields) : BitVec 32 := f.b ++ f.c ++ f.x
def sc (r : BitVec 8) : Option (BitVec 6) := if r.toNat < 64 then some (r.extractLsb' 0 6) else none
def five (r : BitVec 8) : Option (BitVec 5) := if r.toNat < 32 then some (r.extractLsb' 0 5) else none
def three (r : BitVec 8) : Option (BitVec 3) := if r.toNat < 8 then some (r.extractLsb' 0 3) else none
def src (u : Bool) (r : BitVec 8) : Option Src := if u then (sc r).map .s else some (.v r)
/-- Operand B under the I bit (02 R46): the immediate, or the register and its uniform bit. -/
def srcB (i u : Bool) (f : Fields) : Option Src := if i then (if u then none else some (.imm (imm16 f))) else src u f.b
def ssrcB (i : Bool) (f : Fields) : Option SSrc := if i then some (.imm (imm16 f)) else (sc f.b).map .s
def base (r : BitVec 8) : Option (Option (BitVec 6)) := if r == 0xFF then some none else (sc r).map some
def vOrS (u : Bool) (r : BitVec 8) : Option VOrS := if u then (sc r).map .s else some (.v r)

def ord (n : Nat) : Option Ord :=
  match n with
  | 0 => some .rlx
  | 1 => some .acq
  | 2 => some .rel
  | 3 => some .ar
  | 4 => some .sc
  | _ => none
def scope (n : Nat) : Option Scope :=
  match n with
  | 0 => some .team
  | 1 => some .clu
  | 2 => some .die
  | 3 => some .dev
  | 4 => some .peer
  | 5 => some .sys
  | _ => none
def rnd (n : Nat) : Option Rnd :=
  match n with
  | 0 => some .dflt
  | 1 => some .rne
  | 2 => some .rna
  | 3 => some .rz
  | 4 => some .rd
  | 5 => some .ru
  | _ => none
def cmp (n : Nat) : Option Cmp :=
  match n with
  | 0 => some .eq
  | 1 => some .ne
  | 2 => some .lt
  | 3 => some .le
  | 4 => some .gt
  | 5 => some .ge
  | _ => none
def fcmp (n : Nat) : Option FCmp :=
  match n with
  | 0 => some .eq
  | 1 => some .ne
  | 2 => some .lt
  | 3 => some .le
  | 4 => some .gt
  | 5 => some .ge
  | 6 => some .num
  | 7 => some .nan
  | _ => none
def bop (n : Nat) : Option Bop :=
  match n with
  | 0 => some .and
  | 1 => some .or
  | 2 => some .xor
  | _ => none
def memTy (n : Nat) : Option MemTy :=
  match n with
  | 0 => some .b32
  | 1 => some .b64
  | 2 => some .b128
  | 3 => some .s8
  | 4 => some .z8
  | 5 => some .s16
  | 6 => some .z16
  | _ => none
def cvtTy (n : Nat) : Option CvtTy :=
  match n with
  | 0 => some .f32
  | 1 => some .f16
  | 2 => some .bf16
  | 8 => some .s8
  | 9 => some .z8
  | 10 => some .s16
  | 11 => some .z16
  | 12 => some .b32
  | 13 => some .b64
  | _ => none
def packTy (n : Nat) : Option PackTy :=
  match n with
  | 3 => some .e4m3
  | 4 => some .e5m2
  | 5 => some .e2m1
  | 8 => some .s8
  | 9 => some .z8
  | _ => none
def unpkTy (n : Nat) : Option UnpkTy :=
  match n with
  | 1 => some .f16
  | 2 => some .bf16
  | 3 => some .e4m3
  | 4 => some .e5m2
  | 5 => some .e2m1
  | 6 => some .ds8
  | 8 => some .s8
  | 9 => some .z8
  | 10 => some .s16
  | 11 => some .z16
  | _ => none
def shflMode (n : Nat) : ShflMode :=
  match n with
  | 0 => .idx
  | 1 => .up
  | 2 => .down
  | _ => .xor
def nodeField (n : Nat) : Option NodeField :=
  match n with
  | 0 => some .depth
  | 1 => some .src
  | 2 => some .slot
  | 3 => some .count
  | _ => none
/-- OP, TYPE and UNS of REDUX and SCAN (09 R213). -/
def redOp (op ty : Nat) (uns : Bool) : Option RedOp :=
  match op, ty, uns with
  | 0, 0, false => some (.add false)
  | 0, 1, false => some (.add true)
  | 1, 0, u => some (.min false u)
  | 1, 1, u => some (.min true u)
  | 2, 0, u => some (.max false u)
  | 2, 1, u => some (.max true u)
  | 3, 0, false => some (.and false)
  | 3, 1, false => some (.and true)
  | 4, 0, false => some (.or false)
  | 4, 1, false => some (.or true)
  | 5, 0, false => some (.xor false)
  | 5, 1, false => some (.xor true)
  | 6, 2, false => some .fadd
  | 7, 2, false => some .fmin
  | 8, 2, false => some .fmax
  | _, _, _ => none

/-- MOD of an integer form: the I bit and the type (08 R182). -/
def tyOk (f : Fields) : Bool := f.mod.extractLsb' 1 2 == 0
def iBit (f : Fields) : Bool := f.mod.getLsbD 3
def ua (f : Fields) : Bool := f.x.getLsbD 15
def ub (f : Fields) : Bool := f.x.getLsbD 14
def uc (f : Fields) : Bool := f.x.getLsbD 13

def intBin (k : IntBin → Instr) (f : Fields) : Option Instr := do
  let a ← src (ua f) f.a
  let b ← srcB (iBit f) (ub f) f
  req (tyOk f && !uc f && (iBit f || f.c == 0) && f.x.extractLsb' 0 11 == 0)
    (some (k ⟨guard f, f.mod.getLsbD 0, f.x.getLsbD 12, f.x.getLsbD 11, f.d, a, b⟩))
def intTer (k : IntTer → Instr) (f : Fields) : Option Instr := do
  let a ← src (ua f) f.a
  let b ← src (ub f) f.b
  let c ← src (uc f) f.c
  req (tyOk f && !iBit f && f.x.extractLsb' 0 11 == 0)
    (some (k ⟨guard f, f.mod.getLsbD 0, f.x.getLsbD 12, f.x.getLsbD 11, f.d, a, b, c⟩))
def lop3 (f : Fields) : Option Instr := do
  let a ← src (ua f) f.a
  let b ← srcB (iBit f) (ub f) f
  let c ← if iBit f then (if uc f then none else some (.imm 0)) else src (uc f) f.c
  req (tyOk f && f.x.extractLsb' 8 5 == 0) (some (.lop3 ⟨guard f, f.mod.getLsbD 0, f.d, a, b, c, f.x.extractLsb' 0 8⟩))
def intUn (k : IntUn → Instr) (f : Fields) : Option Instr := do
  let a ← src (ua f) f.a
  req (tyOk f && !iBit f && f.b == 0 && f.c == 0 && f.x.extractLsb' 0 15 == 0)
    (some (k ⟨guard f, f.mod.getLsbD 0, f.d, a⟩))
def mov (f : Fields) : Option Instr :=
  if iBit f then req (tyOk f && f.a == 0 && f.x == 0) (some (.mov ⟨guard f, f.mod.getLsbD 0, f.d, .imm (imm16 f)⟩))
  else intUn .mov f
def isetp (f : Fields) : Option Instr := do
  let a ← src (ua f) f.a
  let b ← srcB (iBit f) (ub f) f
  let d ← three f.d
  let bo ← bop (f.x.extractLsb' 5 2).toNat
  let cm ← cmp (f.x.extractLsb' 0 3).toNat
  req (tyOk f && !uc f && (iBit f || f.c == 0) && f.x.extractLsb' 3 2 == 0 && !f.x.getLsbD 12)
    (some (.isetp ⟨guard f, f.mod.getLsbD 0, f.x.getLsbD 11, d, a, b, f.x.extractLsb' 8 3, f.x.getLsbD 7, bo, cm⟩))
def sel (f : Fields) : Option Instr := do
  let a ← src (ua f) f.a
  let b ← srcB (iBit f) (ub f) f
  req (tyOk f && (f.x.extractLsb' 11 3 == 0) && (iBit f || f.c == 0) && f.x.extractLsb' 0 7 == 0)
    (some (.sel ⟨guard f, f.mod.getLsbD 0, f.d, a, b, f.x.extractLsb' 8 3, f.x.getLsbD 7⟩))
def lea (f : Fields) : Option Instr := do
  let a ← src (ua f) f.a
  let b ← srcB (iBit f) (ub f) f
  req (tyOk f && (iBit f || f.c == 0) && f.x.extractLsb' 3 11 == 0)
    (some (.lea ⟨guard f, f.mod.getLsbD 0, f.d, a, b, f.x.getLsbD 2, f.x.extractLsb' 0 2⟩))
/-- MODE and LANE of S2V and V2S (08 R190). -/
def laneSel (f : Fields) : Option LaneSel :=
  match (f.x.extractLsb' 6 2).toNat with
  | 0 => some (.lane (f.x.extractLsb' 0 6))
  | 1 => req (f.x.extractLsb' 0 6 == 0) (some .all)
  | _ => none
def s2v (f : Fields) : Option Instr := do
  let a ← sc f.a
  let m ← laneSel f
  req (tyOk f && !iBit f && f.b == 0 && f.c == 0 && f.x.extractLsb' 8 8 == 0)
    (some (.s2v ⟨guard f, f.mod.getLsbD 0, f.d, a, m⟩))
def v2s (f : Fields) : Option Instr := do
  let d ← sc f.d
  let m ← laneSel f
  req (tyOk f && !iBit f && f.b == 0 && f.c == 0 && f.x.extractLsb' 8 8 == 0)
    (some (.v2s ⟨guard f, f.mod.getLsbD 0, d, f.a, m⟩))

def sIntBin (k : SIntBin → Instr) (f : Fields) : Option Instr := do
  let d ← sc f.d
  let a ← sc f.a
  let b ← ssrcB (iBit f) f
  req (tyOk f && f.x.extractLsb' 13 3 == 0 && (iBit f || f.c == 0) && f.x.extractLsb' 0 11 == 0)
    (some (k ⟨guard f, f.mod.getLsbD 0, f.x.getLsbD 12, f.x.getLsbD 11, d, .s a, b⟩))
def sIntTer (k : SIntTer → Instr) (f : Fields) : Option Instr := do
  let d ← sc f.d
  let a ← sc f.a
  let b ← sc f.b
  let c ← sc f.c
  req (tyOk f && !iBit f && f.x.extractLsb' 13 3 == 0 && f.x.extractLsb' 0 11 == 0)
    (some (k ⟨guard f, f.mod.getLsbD 0, f.x.getLsbD 12, f.x.getLsbD 11, d, .s a, .s b, .s c⟩))
def lop3S (f : Fields) : Option Instr := do
  let d ← sc f.d
  let a ← sc f.a
  let b ← ssrcB (iBit f) f
  let c ← if iBit f then some (.imm 0) else (sc f.c).map .s
  req (tyOk f && f.x.extractLsb' 8 8 == 0)
    (some (.lop3Scalar ⟨guard f, f.mod.getLsbD 0, d, .s a, b, c, f.x.extractLsb' 0 8⟩))
def isetpS (f : Fields) : Option Instr := do
  let d ← three f.d
  let a ← sc f.a
  let b ← ssrcB (iBit f) f
  let bo ← bop (f.x.extractLsb' 5 2).toNat
  let cm ← cmp (f.x.extractLsb' 0 3).toNat
  req (tyOk f && f.x.extractLsb' 12 4 == 0 && (iBit f || f.c == 0) && f.x.extractLsb' 3 2 == 0)
    (some (.isetpScalar ⟨guard f, f.mod.getLsbD 0, f.x.getLsbD 11, d, .s a, b, f.x.extractLsb' 8 3, f.x.getLsbD 7, bo, cm⟩))
def selS (f : Fields) : Option Instr := do
  let d ← sc f.d
  let a ← sc f.a
  let b ← ssrcB (iBit f) f
  req (tyOk f && f.x.extractLsb' 11 5 == 0 && (iBit f || f.c == 0) && f.x.extractLsb' 0 7 == 0)
    (some (.selScalar ⟨guard f, f.mod.getLsbD 0, d, .s a, b, f.x.extractLsb' 8 3, f.x.getLsbD 7⟩))
def movS (f : Fields) : Option Instr := do
  let d ← sc f.d
  if iBit f then req (tyOk f && f.a == 0 && f.x == 0) (some (.movScalar ⟨guard f, f.mod.getLsbD 0, d, .imm (imm16 f)⟩))
  else do
    let a ← sc f.a
    req (tyOk f && f.b == 0 && f.c == 0 && f.x == 0) (some (.movScalar ⟨guard f, f.mod.getLsbD 0, d, .s a⟩))
def leaS (f : Fields) : Option Instr := do
  let d ← sc f.d
  let a ← sc f.a
  let b ← ssrcB (iBit f) f
  req (tyOk f && (iBit f || f.c == 0) && f.x.extractLsb' 3 13 == 0)
    (some (.leaScalar ⟨guard f, f.mod.getLsbD 0, d, .s a, b, f.x.getLsbD 2, f.x.extractLsb' 0 2⟩))
def movImmS (k : MovImmS → Instr) (f : Fields) : Option Instr := do
  let d ← sc f.d
  req (f.a == 0) (some (k ⟨guard f, d, imm32 f⟩))

def fBin (k : FBin → Instr) (f : Fields) : Option Instr := do
  let a ← src (ua f) f.a
  let b ← srcB (iBit f) (ub f) f
  let r ← rnd (f.mod.extractLsb' 0 3).toNat
  req (!uc f && (iBit f || f.c == 0) && f.x.extractLsb' 0 11 == 0)
    (some (k ⟨guard f, r, f.x.getLsbD 12, f.x.getLsbD 11, f.d, a, b⟩))
def fTer (f : Fields) : Option Instr := do
  let a ← src (ua f) f.a
  let b ← src (ub f) f.b
  let c ← src (uc f) f.c
  let r ← rnd (f.mod.extractLsb' 0 3).toNat
  req (!iBit f && f.x.extractLsb' 0 10 == 0)
    (some (.ffma ⟨guard f, r, f.x.getLsbD 12, f.x.getLsbD 11, f.x.getLsbD 10, f.d, a, b, c⟩))
def fSel (k : FSel → Instr) (f : Fields) : Option Instr := do
  let a ← src (ua f) f.a
  let b ← srcB (iBit f) (ub f) f
  req (f.mod.extractLsb' 0 3 == 0 && (iBit f || f.c == 0) && f.x.extractLsb' 0 14 == 0) (some (k ⟨guard f, f.d, a, b⟩))
def fsetp (f : Fields) : Option Instr := do
  let a ← src (ua f) f.a
  let b ← srcB (iBit f) (ub f) f
  let d ← three f.d
  let bo ← bop (f.x.extractLsb' 5 2).toNat
  let cm ← fcmp (f.x.extractLsb' 0 3).toNat
  req (f.mod.extractLsb' 0 3 == 0 && (iBit f || f.c == 0) && f.x.extractLsb' 11 3 == 0 && f.x.extractLsb' 3 2 == 0)
    (some (.fsetp ⟨guard f, d, a, b, f.x.extractLsb' 8 3, f.x.getLsbD 7, bo, cm⟩))
def hBin (k : HBin → Instr) (f : Fields) : Option Instr := do
  let a ← src (ua f) f.a
  let b ← src (ub f) f.b
  let r ← rnd (f.mod.extractLsb' 0 3).toNat
  req (!iBit f && !uc f && f.c == 0 && f.x.extractLsb' 4 7 == 0 && f.x.extractLsb' 0 3 == 0)
    (some (k ⟨guard f, r, f.x.getLsbD 3, f.x.getLsbD 12, f.x.getLsbD 11, f.d, a, b⟩))
def hTer (f : Fields) : Option Instr := do
  let a ← src (ua f) f.a
  let b ← src (ub f) f.b
  let c ← src (uc f) f.c
  let r ← rnd (f.mod.extractLsb' 0 3).toNat
  req (!iBit f && f.x.extractLsb' 4 6 == 0 && f.x.extractLsb' 0 3 == 0)
    (some (.hfma2 ⟨guard f, r, f.x.getLsbD 3, f.x.getLsbD 12, f.x.getLsbD 11, f.x.getLsbD 10, f.d, a, b, c⟩))
def vUn (k : VUn → Instr) (f : Fields) : Option Instr :=
  req (f.mod == 0 && f.b == 0 && f.c == 0 && f.x == 0) (some (k ⟨guard f, f.d, f.a⟩))
def atload (f : Fields) : Option Instr :=
  if f.x.getLsbD 0 then do
    let a ← sc f.a
    req (f.mod == 0 && f.d == 0 && f.b == 0 && f.c == 0 && f.x == 1) (some (.atloadCtl ⟨guard f, a⟩))
  else do
    let b ← sc f.b
    req (f.mod == 0 && f.d == 0 && f.c == 0 && f.x == 0) (some (.atload ⟨guard f, f.a, b⟩))
def cvt (f : Fields) : Option Instr := do
  let r ← rnd (f.mod.extractLsb' 0 3).toNat
  let dt ← cvtTy (f.x.extractLsb' 4 4).toNat
  let st ← cvtTy (f.x.extractLsb' 0 4).toNat
  req (!iBit f && f.b == 0 && f.c == 0 && f.x.extractLsb' 13 3 == 0 && f.x.extractLsb' 10 2 == 0 && !f.x.getLsbD 8)
    (some (.cvt ⟨guard f, r, dt, st, f.x.getLsbD 9, f.x.getLsbD 12, f.d, f.a⟩))
def cvtp2 (f : Fields) : Option Instr := do
  let r ← rnd (f.mod.extractLsb' 0 3).toNat
  req (!iBit f && f.c == 0 && (f.x == 0x10 || f.x == 0x20)) (some (.cvtp2 ⟨guard f, r, f.x.getLsbD 5, f.d, f.a, f.b⟩))
/-- SC and the B field of CVTP4, CVTDS and UNPK (09 R207, R208). -/
def scaleB (f : Fields) : Option (Option (BitVec 8)) :=
  if f.x.getLsbD 8 then some (some f.b) else req (f.b == 0) (some none)
def cvtp4 (f : Fields) : Option Instr := do
  let r ← rnd (f.mod.extractLsb' 0 3).toNat
  let dt ← packTy (f.x.extractLsb' 4 4).toNat
  let s ← scaleB f
  req (!iBit f && f.c == 0 && f.x.extractLsb' 9 7 == 0 && f.x.extractLsb' 0 4 == 0)
    (some (.cvtp4 ⟨guard f, r, dt, s, f.d, f.a⟩))
def cvtds (f : Fields) : Option Instr := do
  let r ← rnd (f.mod.extractLsb' 0 3).toNat
  let s ← scaleB f
  req (!iBit f && f.c == 0 && f.x.extractLsb' 9 7 == 0 && f.x.extractLsb' 0 8 == 0) (some (.cvtds ⟨guard f, r, s, f.d, f.a⟩))
def unpk (f : Fields) : Option Instr := do
  let st ← unpkTy (f.x.extractLsb' 0 4).toNat
  let s ← scaleB f
  req (f.mod == 0 && f.c == 0 && f.x.extractLsb' 12 4 == 0 && f.x.extractLsb' 4 4 == 0)
    (some (.unpk ⟨guard f, st, f.x.extractLsb' 9 3, s, f.d, f.a⟩))
def setmode (f : Fields) : Option Instr :=
  req (f.mod == 0 && f.grd == 7 && f.d == 0 && f.a == 0 && f.b == 0 && f.c == 0 && f.x.extractLsb' 3 13 == 0
      && (f.x.getLsbD 1 || !f.x.getLsbD 0))
    (some (.setmode ⟨f.x.getLsbD 2, if f.x.getLsbD 1 then some (f.x.getLsbD 0) else none⟩))
def shfl (f : Fields) : Option Instr := do
  let b ← srcB (iBit f) (ub f) f
  req (tyOk f && !ua f && !uc f && (iBit f || f.c == 0) && f.x.extractLsb' 2 11 == 0)
    (some (.shfl ⟨guard f, f.mod.getLsbD 0, shflMode (f.x.extractLsb' 0 2).toNat, f.d, f.a, b⟩))
def voteDst (m : Nat) (f : Fields) : Option VoteDst :=
  match m with
  | 0 => (three f.d).map .all
  | 1 => (three f.d).map .any
  | 2 => (three f.d).map .uni
  | _ => some (.ballot f.d)
def vote (f : Fields) : Option Instr := do
  let d ← voteDst (f.x.extractLsb' 0 2).toNat f
  req (f.mod == 0 && f.a == 0 && f.b == 0 && f.c == 0 && f.x.extractLsb' 11 5 == 0 && f.x.extractLsb' 2 5 == 0)
    (some (.vote ⟨guard f, d, f.x.extractLsb' 8 3, f.x.getLsbD 7⟩))
def redux (f : Fields) : Option Instr := do
  let op ← redOp (f.x.extractLsb' 0 4).toNat (f.mod.extractLsb' 0 3).toNat (f.x.getLsbD 11)
  req (!iBit f && f.b == 0 && f.c == 0 && f.x.extractLsb' 12 4 == 0 && f.x.extractLsb' 4 7 == 0)
    (some (.redux ⟨guard f, op, f.d, f.a⟩))
def scan (f : Fields) : Option Instr := do
  let op ← redOp (f.x.extractLsb' 0 4).toNat (f.mod.extractLsb' 0 3).toNat (f.x.getLsbD 11)
  req (!iBit f && f.b == 0 && f.c == 0 && f.x.extractLsb' 12 4 == 0 && f.x.extractLsb' 5 6 == 0)
    (some (.scan ⟨guard f, op, f.x.getLsbD 4, f.d, f.a⟩))
def matchL (f : Fields) : Option Instr :=
  req (tyOk f && !iBit f && f.b == 0 && f.c == 0 && f.x == 0) (some (.matchLanes ⟨guard f, f.mod.getLsbD 0, f.d, f.a⟩))

/-- X[15:13] order and X[12:10] scope (02 R47). -/
def ordOf (f : Fields) : Option Ord := ord (f.x.extractLsb' 13 3).toNat
def scopeOf (f : Fields) : Option Scope := scope (f.x.extractLsb' 10 3).toNat
/-- The memory operand of LD, ST, LDNT and PREF (02 R48). -/
def memOpd (f : Fields) : Option MemOpd := do
  let s ← base f.a
  some ⟨s, f.b, f.x.extractLsb' 8 2, f.c ++ f.x.extractLsb' 0 8⟩
def ld (k : LdOp → Instr) (f : Fields) : Option Instr := do
  let t ← memTy (f.mod.extractLsb' 0 3).toNat
  let o ← ordOf f
  let s ← scopeOf f
  let m ← memOpd f
  req (!iBit f) (some (k ⟨guard f, t, o, s, f.d, m⟩))
def st (f : Fields) : Option Instr :=
  if iBit f then do
    let t ← memTy (f.mod.extractLsb' 0 3).toNat
    let m ← memOpd f
    req (f.x.extractLsb' 10 6 == 0) (some (.stBnd ⟨guard f, t, f.d, m⟩))
  else ld .st f
def ldnt (f : Fields) : Option Instr := do
  let t ← memTy (f.mod.extractLsb' 0 3).toNat
  let s ← scopeOf f
  let m ← memOpd f
  req (!iBit f && f.x.extractLsb' 13 3 == 0) (some (.ldnt ⟨guard f, t, s, f.d, m⟩))
def pref (f : Fields) : Option Instr := do
  let m ← memOpd f
  req (f.mod == 0 && f.d == 0 && f.x.extractLsb' 13 3 == 0 && (f.x.extractLsb' 10 3 == 0 || f.x.extractLsb' 10 3 == 2))
    (some (.pref ⟨guard f, f.x.getLsbD 11, m⟩))
def atomI (k : AtomOp → Instr) (f : Fields) : Option Instr := do
  let o ← ordOf f
  let s ← scopeOf f
  let p ← base f.a
  req (tyOk f && !iBit f && f.x.extractLsb' 0 4 == 0)
    (some (k ⟨guard f, f.mod.getLsbD 0, o, s, f.d, p, f.b, f.x.extractLsb' 8 2, f.c⟩))
def atomMm (k : AtomMmOp → Instr) (f : Fields) : Option Instr := do
  let o ← ordOf f
  let s ← scopeOf f
  let p ← base f.a
  req (tyOk f && f.x.extractLsb' 0 4 == 0)
    (some (k ⟨guard f, f.mod.getLsbD 0, iBit f, o, s, f.d, p, f.b, f.x.extractLsb' 8 2, f.c⟩))
def atomF (k : AtomFOp → Instr) (f : Fields) : Option Instr := do
  let o ← ordOf f
  let s ← scopeOf f
  let p ← base f.a
  req (f.mod == 2 && f.x.extractLsb' 0 4 == 0)
    (some (k ⟨guard f, o, s, f.d, p, f.b, f.x.extractLsb' 8 2, f.c⟩))
/-- OP of ATOM (06 R137). -/
def atom (f : Fields) : Option Instr :=
  match (f.x.extractLsb' 4 4).toNat with
  | 0 => atomI .atomAdd f
  | 1 => atomMm .atomMin f
  | 2 => atomMm .atomMax f
  | 3 => atomI .atomAnd f
  | 4 => atomI .atomOr f
  | 5 => atomI .atomXor f
  | 6 => atomI .atomExch f
  | 7 => atomI .atomInc f
  | 8 => atomI .atomDec f
  | 9 => atomF .atomFadd f
  | 10 => atomF .atomFmin f
  | 11 => atomF .atomFmax f
  | _ => none
def cas (f : Fields) : Option Instr := req (f.x.extractLsb' 4 4 == 0) (atomI .atomCas f)
def fence (f : Fields) : Option Instr := do
  let o ← ordOf f
  let s ← scopeOf f
  let p ← if iBit f then (three f.d).map some else req (f.d == 0) (some none)
  req (f.mod.extractLsb' 0 3 == 0 && f.a == 0 && f.b == 0 && f.c == 0 && f.x.extractLsb' 0 10 == 0)
    (some (.fence ⟨guard f, p, o, s⟩))
/-- A form with a guard and no operand. -/
def bare (k : GuardOnly → Instr) (f : Fields) : Option Instr :=
  req (f.mod == 0 && f.d == 0 && f.a == 0 && f.b == 0 && f.c == 0 && f.x == 0) (some (k ⟨guard f⟩))
def waitv (f : Fields) : Option Instr := do
  let o ← ordOf f
  let s ← scopeOf f
  let d ← sc f.d
  let a ← sc f.a
  let b ← sc f.b
  let c ← sc f.c
  req (tyOk f && !iBit f && f.x.extractLsb' 0 10 == 0 && (o == .rlx || o == .acq))
    (some (.waitv ⟨guard f, f.mod.getLsbD 0, o == .acq, s, d, a, b, c⟩))
def sync (k : SyncOp → Instr) (f : Fields) : Option Instr := do
  let o ← ordOf f
  let s ← scopeOf f
  let d ← sc f.d
  let a ← sc f.a
  let b ← sc f.b
  req (f.mod == 0 && f.c == 0 && f.x.extractLsb' 0 10 == 0) (some (k ⟨guard f, o, s, d, a, b⟩))
def free (f : Fields) : Option Instr :=
  req (f.mod == 0 && f.d == 0 && f.b == 0 && f.c == 0 && f.x == 0) (some (.free ⟨guard f, f.a⟩))
def accld (f : Fields) : Option Instr := do
  let b ← vOrS (ub f) f.b
  let a ← five f.a
  req (f.mod.extractLsb' 2 2 == 0 && f.c == 0 && !ua f && f.x.extractLsb' 0 14 == 0)
    (some (.accld ⟨guard f, f.mod.extractLsb' 0 2, f.d, a, b⟩))
/-- GV and the guard slot in X[4:0] (07 R162). -/
def slotOf (f : Fields) : Option (Option (BitVec 4)) :=
  if f.x.getLsbD 4 then some (some (f.x.extractLsb' 0 4)) else req (f.x.extractLsb' 0 4 == 0) (some none)
def kick (f : Fields) : Option Instr := do
  let s ← scopeOf f
  let a ← sc f.a
  let b ← sc f.b
  let g ← slotOf f
  req (f.mod == 0 && f.d == 0 && f.c == 0 && f.x.extractLsb' 5 5 == 0 && (f.x.extractLsb' 13 3 == 0 || f.x.extractLsb' 13 3 == 2))
    (some (.kick ⟨guard f, f.x.getLsbD 14, s, g, a, b⟩))
def bobjInit (f : Fields) : Option Instr := do
  let a ← sc f.a
  req (f.mod == 0 && f.d == 0 && f.b == 0 && f.c == 0 && f.x.extractLsb' 7 9 == 0)
    (some (.bobjInit ⟨guard f, a, f.x.extractLsb' 0 7⟩))
def bobjExpect (f : Fields) : Option Instr := do
  let a ← sc f.a
  let b ← sc f.b
  req (f.mod == 0 && f.d == 0 && f.c == 0 && f.x.extractLsb' 1 15 == 0)
    (some (.bobjExpect ⟨guard f, a, b, f.x.getLsbD 0⟩))
def sAddr (k : SAddr → Instr) (f : Fields) : Option Instr := do
  let a ← sc f.a
  req (f.mod == 0 && f.d == 0 && f.b == 0 && f.c == 0 && f.x == 0) (some (k ⟨guard f, a⟩))
def sThree (k : SThree → Instr) (f : Fields) : Option Instr := do
  let d ← sc f.d
  let a ← sc f.a
  let b ← sc f.b
  req (f.mod == 0 && f.c == 0 && f.x == 0) (some (k ⟨guard f, d, a, b⟩))
def sTwo (k : STwo → Instr) (f : Fields) : Option Instr := do
  let a ← sc f.a
  let b ← sc f.b
  req (f.mod == 0 && f.d == 0 && f.c == 0 && f.x == 0) (some (k ⟨guard f, a, b⟩))
def sPair (k : SPair → Instr) (x : BitVec 16) (f : Fields) : Option Instr := do
  let d ← sc f.d
  let a ← sc f.a
  req (f.mod == 0 && f.b == 0 && f.c == 0 && f.x == x) (some (k ⟨guard f, d, a⟩))
def bopen (f : Fields) : Option Instr :=
  if f.x.getLsbD 0 then sPair .bopenJoin 1 f
  else do
    let s ← scopeOf f
    let d ← sc f.d
    let a ← sc f.a
    req (f.mod == 0 && f.b == 0 && f.c == 0 && f.x.extractLsb' 13 3 == 0 && f.x.extractLsb' 0 10 == 0)
      (some (.bopen ⟨guard f, s, d, a⟩))
/-- A form that writes one scalar and has a selector in X (16 R359, 11 R249). -/
def sDst (k : SDst → Instr) (x : BitVec 16) (f : Fields) : Option Instr := do
  let d ← sc f.d
  req (f.mod == 0 && f.a == 0 && f.b == 0 && f.c == 0 && f.x == x) (some (k ⟨guard f, d⟩))
def bstat (f : Fields) : Option Instr := do
  let d ← sc f.d
  let a ← base f.a
  req (f.mod == 0 && f.b == 0 && f.c == 0 && f.x == 0) (some (.bstat ⟨guard f, d, a⟩))
def spawn (f : Fields) : Option Instr := do
  let a ← sc f.a
  req (f.mod == 0 && f.d == 0 && f.c == 0 && f.x.extractLsb' 4 12 == 0) (some (.spawn ⟨guard f, a, f.b, f.x.extractLsb' 0 4⟩))
def recld (f : Fields) : Option Instr := do
  let t ← memTy (f.mod.extractLsb' 0 3).toNat
  req (!iBit f && f.a == 0 && f.c == 0 && f.x.extractLsb' 8 8 == 0) (some (.recld ⟨guard f, t, f.d, f.b, f.x.extractLsb' 0 8⟩))
def nodeid (f : Fields) : Option Instr := do
  let n ← nodeField f.x.toNat
  req (f.mod == 0 && f.a == 0 && f.b == 0 && f.c == 0) (some (.nodeid ⟨guard f, n, f.d⟩))
def ray (k : RayOp → Instr) (en : Bool) (f : Fields) : Option Instr := do
  let a ← sc f.a
  let g ← slotOf f
  req (f.mod == 0 && f.c == 0 && f.x.extractLsb' 6 10 == 0 && f.x.getLsbD 5 == en) (some (k ⟨guard f, f.d, a, f.b, g⟩))
def cont (f : Fields) : Option Instr := if f.x.getLsbD 5 then ray .contEnd true f else ray .cont false f
def rayld (f : Fields) : Option Instr := do
  let a ← sc f.a
  req (f.mod.extractLsb' 2 2 == 0 && f.c == 0 && f.x.extractLsb' 4 12 == 0)
    (some (.rayld ⟨guard f, f.mod.extractLsb' 0 2, f.d, a, f.b, f.x.extractLsb' 0 4⟩))

/-- The control forms without a guard (12 R267, 08 R178, 06 R143). -/
def plainCtrl (f : Fields) : Bool := f.mod == 0 && f.grd == 7 && f.d == 0 && f.a == 0 && f.b == 0 && f.c == 0
def brx (k : BrxOp → Instr) (f : Fields) : Option Instr := do
  let t ← vOrS (ua f) f.a
  req (f.mod == 0 && f.d == 0 && f.b == 0 && f.c == 0 && f.x.extractLsb' 0 15 == 0) (some (k ⟨guard f, t⟩))
def bar (k : BarOp → Instr) (f : Fields) : Option Instr :=
  req (plainCtrl f && f.x.extractLsb' 10 6 == 0) (some (k ⟨f.x.extractLsb' 0 4, f.x.extractLsb' 4 6⟩))
def barWait (k : BitVec 4 → Instr) (f : Fields) : Option Instr :=
  req (plainCtrl f && f.x.extractLsb' 4 12 == 0) (some (k (f.x.extractLsb' 0 4)))
def blocks (k : BitVec 6 → Instr) (f : Fields) : Option Instr :=
  req (plainCtrl f && f.x.extractLsb' 6 10 == 0) (some (k (f.x.extractLsb' 0 6)))
def gset (f : Fields) : Option Instr :=
  req (f.mod == 0 && f.d == 0 && f.a == 0 && f.b == 0 && f.c == 0 && f.x.extractLsb' 11 5 == 0 && !f.x.getLsbD 6)
    (if f.x.getLsbD 4 then req (f.x.extractLsb' 7 4 == 0) (some (.gset ⟨guard f, .imm (f.x.getLsbD 5), f.x.extractLsb' 0 4⟩))
     else req (!f.x.getLsbD 5)
      (some (.gset ⟨guard f, .pred (f.x.extractLsb' 8 3) (f.x.getLsbD 7), f.x.extractLsb' 0 4⟩)))
def gclr (f : Fields) : Option Instr :=
  req (f.mod == 0 && f.d == 0 && f.a == 0 && f.b == 0 && f.c == 0 && f.x.extractLsb' 4 12 == 0)
    (some (.gclr ⟨guard f, f.x.extractLsb' 0 4⟩))
/-- TRAP in its three modes (16 R358). -/
def trap (f : Fields) : Option Instr :=
  req (f.mod == 0 && f.d == 0 && f.a == 0 && f.b == 0 && f.c == 0 && f.x.extractLsb' 8 6 == 0)
    (match (f.x.extractLsb' 14 2).toNat with
     | 0 => some (.trap ⟨guard f, f.x.extractLsb' 0 8⟩)
     | 1 => req (f.grd == 7 && f.x.extractLsb' 0 8 == 0) (some .trapSave)
     | 2 => req (f.grd == 7 && f.x.extractLsb' 0 8 == 0) (some .trapResume)
     | _ => none)
def bkpt (f : Fields) : Option Instr :=
  req (f.mod == 0 && f.d == 0 && f.a == 0 && f.b == 0 && f.c == 0 && f.x.extractLsb' 8 8 == 0)
    (some (.bkpt ⟨guard f, f.x.extractLsb' 0 8⟩))
def upcall (f : Fields) : Option Instr := do
  let d ← sc f.d
  let a ← sc f.a
  req (f.mod == 0 && f.b == 0 && f.c == 0 && f.x.extractLsb' 8 8 == 0) (some (.upcall ⟨guard f, d, a, f.x.extractLsb' 0 8⟩))
def pmc (f : Fields) : Option Instr := do
  let d ← sc f.d
  req (f.mod == 0 && f.a == 0 && f.b == 0 && f.c == 0 && f.x.extractLsb' 3 13 == 0) (some (.pmc ⟨guard f, d, f.x.extractLsb' 0 3⟩))
def gstat (f : Fields) : Option Instr := do
  let d ← sc f.d
  req (f.mod == 0 && f.a == 0 && f.b == 0 && f.c == 0 && f.x.extractLsb' 2 14 == 0) (some (.gstat ⟨guard f, d, f.x.extractLsb' 0 2⟩))

/-- Operands of the stream words (10 R219 to R230). -/
def mopd (r : BitVec 8) : Option MOpd :=
  if r.toNat < 8 then some (.tile (r.extractLsb' 0 3))
  else if r.getLsbD 7 && r.extractLsb' 5 2 == 0 then some (.scr (r.extractLsb' 0 5)) else none
def scrq (r : BitVec 8) : Option (BitVec 5) :=
  if r.getLsbD 7 && r.extractLsb' 5 2 == 0 then some (r.extractLsb' 0 5) else none
def mld (f : Fields) : Option Instr := do
  let d ← three f.d
  let a ← scrq f.a
  let g ← slotOf f
  req (f.grd == 7 && f.b == 0 && f.c == 0 && f.x.extractLsb' 5 11 == 0)
    (some (.mld ⟨f.mod.getLsbD 3, f.mod.extractLsb' 0 3, d, a, g⟩))
def mma (k : MmaOp → Instr) (f : Fields) : Option Instr := do
  let d ← five f.d
  let a ← mopd f.a
  let b ← mopd f.b
  let g ← slotOf f
  req (f.grd == 7 && f.c == 0 && f.x.extractLsb' 5 5 == 0)
    (some (k ⟨f.mod.getLsbD 3, f.mod.extractLsb' 0 3, d, a, b, f.x.extractLsb' 13 3, f.x.extractLsb' 10 3, g⟩))
def mzero (f : Fields) : Option Instr := do
  let d ← five f.d
  let g ← slotOf f
  req (f.mod == 0 && f.grd == 7 && f.a == 0 && f.b == 0 && f.c == 0 && f.x.extractLsb' 5 11 == 0) (some (.mzero ⟨d, g⟩))
def mstFmt (n : Nat) : Option MstFmt :=
  match n with
  | 0 => some .b32
  | 1 => some .bf16
  | 2 => some .f16
  | _ => none
def mst (f : Fields) : Option Instr := do
  let m ← mstFmt f.mod.toNat
  let d ← five f.d
  let a ← scrq f.a
  let g ← slotOf f
  req (f.grd == 7 && f.b == 0 && f.c == 0 && f.x.extractLsb' 5 11 == 0) (some (.mst ⟨m, d, a, g⟩))
def qBin (k : QBin → Instr) (f : Fields) : Option Instr := do
  let d ← five f.d
  let a ← five f.a
  let b ← if iBit f then some (.imm (imm16 f)) else (five f.b).map .q
  req (f.grd == 7 && f.mod.extractLsb' 0 3 == 0 && (iBit f || f.c == 0) && f.x == 0) (some (k ⟨d, a, b⟩))
def qMov (f : Fields) : Option Instr := do
  let d ← five f.d
  if f.mod == 0 then do
    let a ← five f.a
    req (f.grd == 7 && f.b == 0 && f.c == 0 && f.x == 0) (some (.movQ ⟨d, a⟩))
  else if f.mod == 8 then req (f.grd == 7 && f.a == 0) (some (.movQImm32 ⟨d, imm32 f⟩))
  else if f.mod == 9 then req (f.grd == 7 && f.a == 0) (some (.movQHi ⟨d, imm32 f⟩))
  else none
def qBra (f : Fields) : Option Instr :=
  if f.mod == 0 then req (f.grd == 7 && f.d == 0 && f.a == 0) (some (.braQ ⟨.always, imm32 f⟩))
  else if f.mod == 1 then do
    let a ← five f.a
    req (f.grd == 7 && f.d == 0) (some (.braQ ⟨.z a, imm32 f⟩))
  else if f.mod == 2 then do
    let a ← five f.a
    req (f.grd == 7 && f.d == 0) (some (.braQ ⟨.nz a, imm32 f⟩))
  else none

end Dec

/-- The instruction a group word holds, before the checks of `Instr.wf`. -/
def parseGroup (f : Fields) : Option Instr :=
  match f.opc.toNat with
  | 0x01 => Dec.req (f.mod == 0 && f.d == 0 && f.a == 0) (some (.bra ⟨Dec.guard f, Dec.imm32 f⟩))
  | 0x02 => Dec.brx .brx f
  | 0x03 => Dec.req (f.mod == 0 && f.a == 0) (some (.call ⟨Dec.guard f, f.d, Dec.imm32 f⟩))
  | 0x04 => Dec.brx .ret f
  | 0x05 => Dec.req (Dec.plainCtrl f && f.x == 0) (some .join)
  | 0x06 => Dec.bare .exit f
  | 0x07 => Dec.req (Dec.plainCtrl f && f.x == 0) (some .yield)
  | 0x08 => Dec.setmode f
  | 0x09 => Dec.req (Dec.plainCtrl f && f.x.extractLsb' 3 13 == 0) (some (.partset (f.x.extractLsb' 0 3)))
  | 0x0A => Dec.blocks .reggrow f
  | 0x0B => Dec.blocks .regshrink f
  | 0x0C => Dec.bar .barArrive f
  | 0x0D => Dec.barWait .barWait f
  | 0x0E => Dec.bar .barSync f
  | 0x10 => Dec.gset f
  | 0x11 => Dec.gclr f
  | 0x12 => Dec.trap f
  | 0x13 => Dec.upcall f
  | 0x14 => Dec.bkpt f
  | 0x15 => if f.x.getLsbD 0 then Dec.sDst .clockPts 1 f else Dec.sDst .clock 0 f
  | 0x16 => Dec.pmc f
  | 0x17 => Dec.gstat f
  | 0x20 => Dec.intBin .iadd f
  | 0x21 => Dec.intBin .isub f
  | 0x22 => Dec.intBin .imul f
  | 0x23 => Dec.intTer .imad f
  | 0x24 => Dec.intBin .imulhi f
  | 0x25 => Dec.intBin .imin f
  | 0x26 => Dec.intBin .imax f
  | 0x27 => Dec.lop3 f
  | 0x28 => Dec.intBin .shl f
  | 0x29 => Dec.intBin .shr f
  | 0x2A => Dec.intBin .sar f
  | 0x2B => Dec.intTer .fshl f
  | 0x2C => Dec.intTer .fshr f
  | 0x2D => Dec.intUn .popc f
  | 0x2E => Dec.intUn .clz f
  | 0x2F => Dec.intUn .brev f
  | 0x30 => Dec.intBin .bfx f
  | 0x31 => Dec.intTer .bfi f
  | 0x32 => Dec.isetp f
  | 0x33 => Dec.sel f
  | 0x34 => Dec.mov f
  | 0x35 =>
    if f.mod == 0 then Dec.req (f.a == 0) (some (.movImm32 ⟨Dec.guard f, f.d, Dec.imm32 f⟩))
    else Dec.req (f.mod == 1 && f.a == 0) (some (.movImm32B64 ⟨Dec.guard f, f.d, Dec.imm32 f⟩))
  | 0x36 => Dec.lea f
  | 0x37 => Dec.s2v f
  | 0x38 => Dec.v2s f
  | 0x40 => Dec.sIntBin .iaddScalar f
  | 0x41 => Dec.sIntBin .isubScalar f
  | 0x42 => Dec.sIntBin .imulScalar f
  | 0x43 => Dec.sIntTer .imadScalar f
  | 0x44 => Dec.sIntBin .imulhiScalar f
  | 0x45 => Dec.sIntBin .iminScalar f
  | 0x46 => Dec.sIntBin .imaxScalar f
  | 0x47 => Dec.lop3S f
  | 0x48 => Dec.sIntBin .shlScalar f
  | 0x49 => Dec.sIntBin .shrScalar f
  | 0x4A => Dec.sIntBin .sarScalar f
  | 0x4B => Dec.isetpS f
  | 0x4C => Dec.selS f
  | 0x4D => Dec.movS f
  | 0x4E =>
    if f.mod == 0 then Dec.movImmS .movImm32Scalar f
    else if f.mod == 1 then Dec.movImmS .movImm32B64Scalar f
    else Dec.req (f.mod == 2) (Dec.movImmS .movHiScalar f)
  | 0x4F => Dec.leaS f
  | 0x50 => Dec.fBin .fadd f
  | 0x51 => Dec.fBin .fmul f
  | 0x52 => Dec.fTer f
  | 0x53 => Dec.fSel .fmin f
  | 0x54 => Dec.fSel .fmax f
  | 0x55 => Dec.fsetp f
  | 0x56 => Dec.hTer f
  | 0x57 => Dec.hBin .hadd2 f
  | 0x58 => Dec.hBin .hmul2 f
  | 0x60 => Dec.vUn .frcp f
  | 0x61 => Dec.vUn .frsq f
  | 0x62 => Dec.vUn .fsqrt f
  | 0x63 => Dec.vUn .fexp2 f
  | 0x64 => Dec.vUn .flog2 f
  | 0x65 => Dec.vUn .fsin f
  | 0x66 => Dec.vUn .fcos f
  | 0x67 => Dec.vUn .ftanh f
  | 0x68 => Dec.vUn .atab f
  | 0x69 => Dec.atload f
  | 0x6A => Dec.bare .atswap f
  | 0x6C => Dec.cvt f
  | 0x6D => Dec.cvtp2 f
  | 0x6E => Dec.cvtp4 f
  | 0x6F => Dec.cvtds f
  | 0x70 => Dec.unpk f
  | 0x78 => Dec.shfl f
  | 0x79 => Dec.vote f
  | 0x7A => Dec.redux f
  | 0x7B => Dec.scan f
  | 0x7C => Dec.matchL f
  | 0x80 => Dec.ld .ld f
  | 0x81 => Dec.st f
  | 0x82 => Dec.ldnt f
  | 0x83 => Dec.pref f
  | 0x84 => Dec.atom f
  | 0x85 => Dec.cas f
  | 0x86 => Dec.fence f
  | 0x87 => Dec.bare .fenceEng f
  | 0x88 => Dec.waitv f
  | 0x89 => Dec.sync .wake f
  | 0x8A => Dec.sync .linkq f
  | 0x8B => Dec.sync .condq f
  | 0x8C => Dec.vUn .alloc f
  | 0x8D => Dec.free f
  | 0x8E => Dec.accld f
  | 0x90 => Dec.kick f
  | 0x91 => Dec.bobjInit f
  | 0x92 => Dec.bobjExpect f
  | 0x93 => Dec.sAddr .bobjArrive f
  | 0x94 => Dec.sThree .bobjWait f
  | 0x95 => Dec.sThree .tdset f
  | 0x96 => Dec.sTwo .tdinv f
  | 0x98 => Dec.bopen f
  | 0x99 => Dec.sDst .bcommit 0 f
  | 0x9A => Dec.sDst .babort 0 f
  | 0x9B => Dec.bstat f
  | 0xA0 => Dec.spawn f
  | 0xA1 => Dec.recld f
  | 0xA2 => Dec.nodeid f
  | 0xA3 => Dec.sPair .qstat 0 f
  | 0xA8 => Dec.ray .trace false f
  | 0xA9 => Dec.rayld f
  | 0xAA => Dec.cont f
  | 0xAB => Dec.sPair .geostat 0 f
  | _ => none

/-- The instruction a stream word holds (10 R219, R220), before the checks of `Instr.wf`. -/
def parseStream (f : Fields) : Option Instr :=
  match f.opc.toNat with
  | 0xC0 => Dec.mld f
  | 0xC1 => Dec.mma .mma f
  | 0xC2 => Dec.mma .mmas f
  | 0xC3 => Dec.mzero f
  | 0xC4 => Dec.mst f
  | 0xC5 => Dec.bar .marr f
  | 0xC6 => Dec.barWait .mwait f
  | 0xC7 => Dec.qBin .iaddQ f
  | 0xC8 => Dec.qBin .isubQ f
  | 0xC9 => Dec.qMov f
  | 0xCA => Dec.qBin .shlQ f
  | 0xCB => Dec.qBra f
  | 0xCC => Dec.req (Dec.plainCtrl f && f.x == 0) (some .exitQ)
  | _ => none

/-- Why a word is refused: the cause that the check raises. -/
inductive Illegal where
  /-- a reserved slot, a reserved value, a field out of range: ILLEGAL_OP (02 R45, R54), or on a hart the
      illegal-instruction exception (02 R64) -/
  | op
  deriving DecidableEq, Repr

/-- An instruction that passes the word checks, or the name of its refusal. -/
def checked (o : Option Instr) : Except Illegal Instr :=
  match o with
  | some i => if i.wf then .ok i else .error .op
  | none => .error .op

/-- The decoder of group words (02 R43 to R54). -/
def decodeGroup (w : Word) : Except Illegal Instr := checked (parseGroup (Fields.ofWord w))
/-- The decoder of stream words (02 R55). -/
def decodeStream (w : Word) : Except Illegal Instr := checked (parseStream (Fields.ofWord w))

/-- The fields of a compact half (02 R49). -/
def compactB (h : BitVec 32) : Option VOrS7 :=
  if h.getLsbD 4 then (if h.getLsbD 11 then none else some (.s (h.extractLsb' 5 6))) else some (.v (h.extractLsb' 5 7))
def compactOp (k : Compact → Instr) (h : BitVec 32) : Option Instr :=
  (compactB h).map fun b => k ⟨h.extractLsb' 19 7, h.extractLsb' 12 7, b, h.getLsbD 3, h.extractLsb' 1 2⟩
/-- MOV has no B: the field is zero; its bit UB stays as written (02 R50). -/
def compactMov (h : BitVec 32) : Option Instr :=
  if h.extractLsb' 4 8 == 0 then some (.movCompact ⟨h.extractLsb' 19 7, h.extractLsb' 12 7, h.getLsbD 4, h.getLsbD 3, h.extractLsb' 1 2⟩)
  else none
/-- COP (02 R50). -/
def parseHalf (h : BitVec 32) : Option Instr :=
  if h.getLsbD 0 then none
  else if h == 0x3C00000E then some .filler
  else match (h.extractLsb' 26 6).toNat with
    | 0x01 => compactOp .faddCompact h
    | 0x02 => compactOp .fmulCompact h
    | 0x03 => compactOp .ffmaCompact h
    | 0x04 => compactOp .fminCompact h
    | 0x05 => compactOp .fmaxCompact h
    | 0x08 => compactOp .iaddCompact h
    | 0x09 => compactOp .isubCompact h
    | 0x0A => compactOp .iminCompact h
    | 0x0B => compactOp .imaxCompact h
    | 0x0C => compactOp .shlCompact h
    | 0x0D => compactOp .shrCompact h
    | 0x0E => compactOp .sarCompact h
    | 0x0F => compactMov h
    | 0x10 => compactOp .imulCompact h
    | 0x11 => compactOp .hadd2F16Compact h
    | 0x12 => compactOp .hmul2F16Compact h
    | 0x13 => compactOp .hfma2F16Compact h
    | 0x14 => compactOp .hadd2Bf16Compact h
    | 0x15 => compactOp .hmul2Bf16Compact h
    | 0x16 => compactOp .hfma2Bf16Compact h
    | _ => none
/-- The decoder of one compact half. -/
def decodeHalf (h : BitVec 32) : Except Illegal Instr := checked (parseHalf h)

/-- The service-core extension's words (02 R63, R64); every other word of a custom opcode is refused, and a word of the base set
    is handed on whole. -/
def parseHart (w : BitVec 32) : Option Instr :=
  let rd := w.extractLsb' 7 5
  let rs1 := w.extractLsb' 15 5
  let rs2 := w.extractLsb' 20 5
  let f7 := w.extractLsb' 25 7
  if w.extractLsb' 0 7 == 0x0B then
    match (w.extractLsb' 12 3).toNat with
    | 0 => Dec.req (f7 &&& 0x79 == 0) (some (.xWaitv ⟨f7.getLsbD 2, f7.getLsbD 1, rd, rs1, rs2⟩))
    | 1 => Dec.req (f7 &&& 0x7E == 0) (some (.xWake ⟨f7.getLsbD 0, rd, rs1, rs2⟩))
    | 2 => Dec.req (f7 &&& 0x7D == 0) (some (.xLinkq ⟨f7.getLsbD 1, rd, rs1, rs2⟩))
    | 3 => Dec.req (f7 &&& 0x7C == 0) (some (.xCondq ⟨f7.getLsbD 1, f7.getLsbD 0, rd, rs1, rs2⟩))
    | _ => none
  else if w.extractLsb' 0 7 == 0x2B then
    match (w.extractLsb' 12 3).toNat with
    | 0 => Dec.req (f7 == 0) (some (.xBopen ⟨rd, rs1, rs2⟩))
    | 1 => Dec.req (f7 == 0 && rs2 == 0) (some (.xBcommit ⟨rd, rs1⟩))
    | 2 => Dec.req (rd == 0) (some (.xStrm ⟨f7, rs1, rs2⟩))
    | _ => none
  else Dec.req (Instr.baseWord w) (some (.hartInstruction w))
/-- The decoder of a hart's word. -/
def decodeHart (w : BitVec 32) : Except Illegal Instr := checked (parseHart w)

/-- Is a word of 64 bits a stream word? Class S holds the slots 0xC0 to 0xCC (02 R53). -/
def isStreamWord (w : Word) : Bool := w.extractLsb' 60 4 == 0xC

/-- An answer without its name. -/
def Illegal.toOption (e : Except Illegal Instr) : Option Instr :=
  match e with
  | .ok i => some i
  | .error _ => none

/-- The instruction the decoder reads from the bits of a table row: 64 bits are a group word or a stream word, 32 bits with bit 0
    set are a hart's word and with bit 0 clear a compact half (bit 0 of a half is reserved, 02 R49; a RISC-V word of 32 bits ends
    in 0b11). -/
def decodeTableWord (nbits w : Nat) : Option Instr :=
  if nbits = 64 then
    Illegal.toOption (if isStreamWord (BitVec.ofNat 64 w) then decodeStream (BitVec.ofNat 64 w) else decodeGroup (BitVec.ofNat 64 w))
  else if nbits = 32 then
    Illegal.toOption (if w.testBit 0 then decodeHart (BitVec.ofNat 32 w) else decodeHalf (BitVec.ofNat 32 w))
  else none

namespace Enc

def bit (b : Bool) : BitVec 1 := BitVec.ofBool b
def grd (g : Guard) : BitVec 4 := bit g.neg ++ g.p
def s8 (n : BitVec 6) : BitVec 8 := 0#2 ++ n
def q8 (n : BitVec 5) : BitVec 8 := 0#3 ++ n
def t8 (n : BitVec 3) : BitVec 8 := 0#5 ++ n
def isS : Src → Bool
  | .s _ => true
  | _ => false
def reg : Src → BitVec 8
  | .v n => n
  | .s n => s8 n
  | .imm i => i.extractLsb' 8 8
/-- The C field under operand B's immediate (02 R46). -/
def lowImm : Src → BitVec 8
  | .imm i => i.extractLsb' 0 8
  | _ => 0
def sreg : SSrc → BitVec 8
  | .s n => s8 n
  | .imm i => i.extractLsb' 8 8
def slowImm : SSrc → BitVec 8
  | .imm i => i.extractLsb' 0 8
  | _ => 0
def baseF : Option (BitVec 6) → BitVec 8
  | none => 0xFF
  | some n => s8 n
def isSR : VOrS → Bool
  | .s _ => true
  | _ => false
def vOrS : VOrS → BitVec 8
  | .v n => n
  | .s n => s8 n
def ord : Ord → BitVec 3
  | .rlx => 0
  | .acq => 1
  | .rel => 2
  | .ar => 3
  | .sc => 4
def scope : Scope → BitVec 3
  | .team => 0
  | .clu => 1
  | .die => 2
  | .dev => 3
  | .peer => 4
  | .sys => 5
def rnd : Rnd → BitVec 3
  | .dflt => 0
  | .rne => 1
  | .rna => 2
  | .rz => 3
  | .rd => 4
  | .ru => 5
def cmp : Cmp → BitVec 3
  | .eq => 0
  | .ne => 1
  | .lt => 2
  | .le => 3
  | .gt => 4
  | .ge => 5
def fcmp : FCmp → BitVec 3
  | .eq => 0
  | .ne => 1
  | .lt => 2
  | .le => 3
  | .gt => 4
  | .ge => 5
  | .num => 6
  | .nan => 7
def bop : Bop → BitVec 2
  | .and => 0
  | .or => 1
  | .xor => 2
def memTy : MemTy → BitVec 3
  | .b32 => 0
  | .b64 => 1
  | .b128 => 2
  | .s8 => 3
  | .z8 => 4
  | .s16 => 5
  | .z16 => 6
def cvtTy : CvtTy → BitVec 4
  | .f32 => 0
  | .f16 => 1
  | .bf16 => 2
  | .s8 => 8
  | .z8 => 9
  | .s16 => 10
  | .z16 => 11
  | .b32 => 12
  | .b64 => 13
def packTy : PackTy → BitVec 4
  | .e4m3 => 3
  | .e5m2 => 4
  | .e2m1 => 5
  | .s8 => 8
  | .z8 => 9
def unpkTy : UnpkTy → BitVec 4
  | .f16 => 1
  | .bf16 => 2
  | .e4m3 => 3
  | .e5m2 => 4
  | .e2m1 => 5
  | .ds8 => 6
  | .s8 => 8
  | .z8 => 9
  | .s16 => 10
  | .z16 => 11
def shflMode : ShflMode → BitVec 2
  | .idx => 0
  | .up => 1
  | .down => 2
  | .xor => 3
def nodeField : NodeField → BitVec 16
  | .depth => 0
  | .src => 1
  | .slot => 2
  | .count => 3
def redOp : RedOp → BitVec 4
  | .add _ => 0
  | .min _ _ => 1
  | .max _ _ => 2
  | .and _ => 3
  | .or _ => 4
  | .xor _ => 5
  | .fadd => 6
  | .fmin => 7
  | .fmax => 8
def redTy : RedOp → BitVec 3
  | .add b | .and b | .or b | .xor b => 0#2 ++ bit b
  | .min b _ | .max b _ => 0#2 ++ bit b
  | _ => 2
def redUns : RedOp → Bool
  | .min _ u | .max _ u => u
  | _ => false
def slot : Option (BitVec 4) → BitVec 5
  | none => 0
  | some n => 1#1 ++ n

/-- MOD of an integer form. -/
def ty (i b64 : Bool) : BitVec 4 := bit i ++ 0#2 ++ bit b64
/-- The guard code of a form that takes none. -/
def noGrd : BitVec 4 := 7

def intBin (opc : BitVec 8) (o : IntBin) : Fields :=
  ⟨opc, ty o.b.isImm o.b64, grd o.g, o.d, reg o.a, reg o.b, lowImm o.b,
    bit (isS o.a) ++ bit (isS o.b) ++ 0#1 ++ bit o.sat ++ bit o.uns ++ 0#11⟩
def intTer (opc : BitVec 8) (o : IntTer) : Fields :=
  ⟨opc, ty false o.b64, grd o.g, o.d, reg o.a, reg o.b, reg o.c,
    bit (isS o.a) ++ bit (isS o.b) ++ bit (isS o.c) ++ bit o.sat ++ bit o.uns ++ 0#11⟩
def lop3 (o : Lop3V) : Fields :=
  ⟨0x27, ty o.b.isImm o.b64, grd o.g, o.d, reg o.a, reg o.b, if o.b.isImm then lowImm o.b else reg o.c,
    bit (isS o.a) ++ bit (isS o.b) ++ bit (isS o.c) ++ 0#5 ++ o.lut⟩
def intUn (opc : BitVec 8) (o : IntUn) : Fields :=
  ⟨opc, ty false o.b64, grd o.g, o.d, reg o.a, 0, 0, bit (isS o.a) ++ 0#15⟩
def mov (o : IntUn) : Fields :=
  match o.a with
  | .imm i => ⟨0x34, ty true o.b64, grd o.g, o.d, 0, i.extractLsb' 8 8, i.extractLsb' 0 8, 0⟩
  | _ => intUn 0x34 o
def isetp (o : IsetpV) : Fields :=
  ⟨0x32, ty o.b.isImm o.b64, grd o.g, t8 o.d, reg o.a, reg o.b, lowImm o.b,
    bit (isS o.a) ++ bit (isS o.b) ++ 0#2 ++ bit o.uns ++ o.pc ++ bit o.pcn ++ bop o.bop ++ 0#2 ++ cmp o.cmp⟩
def sel (o : SelV) : Fields :=
  ⟨0x33, ty o.b.isImm o.b64, grd o.g, o.d, reg o.a, reg o.b, lowImm o.b,
    bit (isS o.a) ++ bit (isS o.b) ++ 0#3 ++ o.pc ++ bit o.pcn ++ 0#7⟩
def lea (o : LeaV) : Fields :=
  ⟨0x36, ty o.b.isImm o.b64, grd o.g, o.d, reg o.a, reg o.b, lowImm o.b,
    bit (isS o.a) ++ bit (isS o.b) ++ 0#11 ++ bit o.sx ++ o.sh⟩
def laneSel : LaneSel → BitVec 8
  | .lane l => 0#2 ++ l
  | .all => 0x40
def s2v (o : S2vOp) : Fields := ⟨0x37, ty false o.b64, grd o.g, o.d, s8 o.a, 0, 0, 0#8 ++ laneSel o.sel⟩
def v2s (o : V2sOp) : Fields := ⟨0x38, ty false o.b64, grd o.g, s8 o.d, o.a, 0, 0, 0#8 ++ laneSel o.sel⟩
def sIntBin (opc : BitVec 8) (o : SIntBin) : Fields :=
  ⟨opc, ty o.b.isImm o.b64, grd o.g, s8 o.d, sreg o.a, sreg o.b, slowImm o.b, 0#3 ++ bit o.sat ++ bit o.uns ++ 0#11⟩
def sIntTer (opc : BitVec 8) (o : SIntTer) : Fields :=
  ⟨opc, ty false o.b64, grd o.g, s8 o.d, sreg o.a, sreg o.b, sreg o.c, 0#3 ++ bit o.sat ++ bit o.uns ++ 0#11⟩
def lop3S (o : Lop3S) : Fields :=
  ⟨0x47, ty o.b.isImm o.b64, grd o.g, s8 o.d, sreg o.a, sreg o.b, if o.b.isImm then slowImm o.b else sreg o.c, 0#8 ++ o.lut⟩
def isetpS (o : IsetpS) : Fields :=
  ⟨0x4B, ty o.b.isImm o.b64, grd o.g, t8 o.d, sreg o.a, sreg o.b, slowImm o.b,
    0#4 ++ bit o.uns ++ o.pc ++ bit o.pcn ++ bop o.bop ++ 0#2 ++ cmp o.cmp⟩
def selS (o : SelS) : Fields :=
  ⟨0x4C, ty o.b.isImm o.b64, grd o.g, s8 o.d, sreg o.a, sreg o.b, slowImm o.b, 0#5 ++ o.pc ++ bit o.pcn ++ 0#7⟩
def movS (o : SIntUn) : Fields :=
  match o.a with
  | .imm i => ⟨0x4D, ty true o.b64, grd o.g, s8 o.d, 0, i.extractLsb' 8 8, i.extractLsb' 0 8, 0⟩
  | .s n => ⟨0x4D, ty false o.b64, grd o.g, s8 o.d, s8 n, 0, 0, 0⟩
def leaS (o : LeaS) : Fields :=
  ⟨0x4F, ty o.b.isImm o.b64, grd o.g, s8 o.d, sreg o.a, sreg o.b, slowImm o.b, 0#13 ++ bit o.sx ++ o.sh⟩
/-- A form with a 32-bit immediate. -/
def wide (opc : BitVec 8) (mod grd : BitVec 4) (d a : BitVec 8) (i : BitVec 32) : Fields :=
  ⟨opc, mod, grd, d, a, i.extractLsb' 24 8, i.extractLsb' 16 8, i.extractLsb' 0 16⟩
def fBin (opc : BitVec 8) (o : FBin) : Fields :=
  ⟨opc, bit o.b.isImm ++ rnd o.rnd, grd o.g, o.d, reg o.a, reg o.b, lowImm o.b,
    bit (isS o.a) ++ bit (isS o.b) ++ 0#1 ++ bit o.na ++ bit o.nb ++ 0#11⟩
def fTer (o : FTer) : Fields :=
  ⟨0x52, 0#1 ++ rnd o.rnd, grd o.g, o.d, reg o.a, reg o.b, reg o.c,
    bit (isS o.a) ++ bit (isS o.b) ++ bit (isS o.c) ++ bit o.na ++ bit o.nb ++ bit o.nc ++ 0#10⟩
def fSel (opc : BitVec 8) (o : FSel) : Fields :=
  ⟨opc, bit o.b.isImm ++ 0#3, grd o.g, o.d, reg o.a, reg o.b, lowImm o.b, bit (isS o.a) ++ bit (isS o.b) ++ 0#14⟩
def fsetp (o : FsetpOp) : Fields :=
  ⟨0x55, bit o.b.isImm ++ 0#3, grd o.g, t8 o.d, reg o.a, reg o.b, lowImm o.b,
    bit (isS o.a) ++ bit (isS o.b) ++ 0#3 ++ o.pc ++ bit o.pcn ++ bop o.bop ++ 0#2 ++ fcmp o.cmp⟩
def hBin (opc : BitVec 8) (o : HBin) : Fields :=
  ⟨opc, 0#1 ++ rnd o.rnd, grd o.g, o.d, reg o.a, reg o.b, 0,
    bit (isS o.a) ++ bit (isS o.b) ++ 0#1 ++ bit o.na ++ bit o.nb ++ 0#7 ++ bit o.bf ++ 0#3⟩
def hTer (o : HTer) : Fields :=
  ⟨0x56, 0#1 ++ rnd o.rnd, grd o.g, o.d, reg o.a, reg o.b, reg o.c,
    bit (isS o.a) ++ bit (isS o.b) ++ bit (isS o.c) ++ bit o.na ++ bit o.nb ++ bit o.nc ++ 0#6 ++ bit o.bf ++ 0#3⟩
def vUn (opc : BitVec 8) (o : VUn) : Fields := ⟨opc, 0, grd o.g, o.d, o.a, 0, 0, 0⟩
def scaleB : Option (BitVec 8) → BitVec 8
  | none => 0
  | some n => n
def setmodeX (o : SetmodeOp) : BitVec 16 :=
  0#13 ++ bit o.clr ++ bit o.ftz.isSome ++ bit (o.ftz.getD false)
def voteX : VoteDst → BitVec 2
  | .all _ => 0
  | .any _ => 1
  | .uni _ => 2
  | .ballot _ => 3
def voteD : VoteDst → BitVec 8
  | .all d | .any d | .uni d => t8 d
  | .ballot d => d
def memX (o : Ord) (s : Scope) (m : MemOpd) : BitVec 16 := ord o ++ scope s ++ m.scale ++ m.off.extractLsb' 0 8
def memC (m : MemOpd) : BitVec 8 := m.off.extractLsb' 8 8
def ldF (opc : BitVec 8) (o : LdOp) : Fields :=
  ⟨opc, 0#1 ++ memTy o.ty, grd o.g, o.d, baseF o.m.base, o.m.idx, memC o.m, memX o.ord o.scope o.m⟩
def atomF (op : BitVec 4) (opc : BitVec 8) (o : AtomOp) : Fields :=
  ⟨opc, ty false o.b64, grd o.g, o.d, baseF o.base, o.idx, o.c, ord o.ord ++ scope o.scope ++ o.scale ++ op ++ 0#4⟩
def atomMm (op : BitVec 4) (o : AtomMmOp) : Fields :=
  ⟨0x84, ty o.uns o.b64, grd o.g, o.d, baseF o.base, o.idx, o.c, ord o.ord ++ scope o.scope ++ o.scale ++ op ++ 0#4⟩
def atomFl (op : BitVec 4) (o : AtomFOp) : Fields :=
  ⟨0x84, 2, grd o.g, o.d, baseF o.base, o.idx, o.c, ord o.ord ++ scope o.scope ++ o.scale ++ op ++ 0#4⟩
def osX (o : Ord) (s : Scope) : BitVec 16 := ord o ++ scope s ++ 0#10
def sync (opc : BitVec 8) (o : SyncOp) : Fields := ⟨opc, 0, grd o.g, s8 o.d, s8 o.a, s8 o.b, 0, osX o.ord o.scope⟩
def sThree (opc : BitVec 8) (o : SThree) : Fields := ⟨opc, 0, grd o.g, s8 o.d, s8 o.a, s8 o.b, 0, 0⟩
def ray (opc : BitVec 8) (en : Bool) (o : RayOp) : Fields :=
  ⟨opc, 0, grd o.g, o.d, s8 o.a, o.b, 0, 0#10 ++ bit en ++ slot o.slot⟩
def barX (o : BarOp) : BitVec 16 := 0#6 ++ o.count ++ o.n
def plain (opc : BitVec 8) (x : BitVec 16) : Fields := ⟨opc, 0, noGrd, 0, 0, 0, 0, x⟩
def mopd : MOpd → BitVec 8
  | .tile t => t8 t
  | .scr q => 4#3 ++ q
def mma (opc : BitVec 8) (o : MmaOp) : Fields :=
  ⟨opc, bit o.z ++ o.nch, noGrd, q8 o.d, mopd o.a, mopd o.b, 0, o.fa ++ o.fb ++ 0#5 ++ slot o.slot⟩
def mstFmt : MstFmt → BitVec 4
  | .b32 => 0
  | .bf16 => 1
  | .f16 => 2
def qIsImm : QSrc → Bool
  | .imm _ => true
  | _ => false
def qB : QSrc → BitVec 8
  | .q n => q8 n
  | .imm i => i.extractLsb' 8 8
def qC : QSrc → BitVec 8
  | .q _ => 0
  | .imm i => i.extractLsb' 0 8
def qBin (opc : BitVec 8) (o : QBin) : Fields :=
  ⟨opc, bit (qIsImm o.b) ++ 0#3, noGrd, q8 o.d, q8 o.a, qB o.b, qC o.b, 0⟩

end Enc

/-- The fields of a group or stream instruction, from the same tables; none for a row that no group or stream word holds. -/
def encodeFields : Instr → Option Fields
  | .bra o => some (Enc.wide 0x01 0 (Enc.grd o.g) 0 0 o.off)
  | .brx o => some ⟨0x02, 0, Enc.grd o.g, 0, Enc.vOrS o.t, 0, 0, Enc.bit (Enc.isSR o.t) ++ 0#15⟩
  | .call o => some (Enc.wide 0x03 0 (Enc.grd o.g) o.d 0 o.off)
  | .ret o => some ⟨0x04, 0, Enc.grd o.g, 0, Enc.vOrS o.t, 0, 0, Enc.bit (Enc.isSR o.t) ++ 0#15⟩
  | .join => some (Enc.plain 0x05 0)
  | .exit o => some ⟨0x06, 0, Enc.grd o.g, 0, 0, 0, 0, 0⟩
  | .yield => some (Enc.plain 0x07 0)
  | .setmode o => some (Enc.plain 0x08 (Enc.setmodeX o))
  | .partset tw => some (Enc.plain 0x09 (0#13 ++ tw))
  | .reggrow n => some (Enc.plain 0x0A (0#10 ++ n))
  | .regshrink n => some (Enc.plain 0x0B (0#10 ++ n))
  | .barArrive o => some (Enc.plain 0x0C (Enc.barX o))
  | .barWait n => some (Enc.plain 0x0D (0#12 ++ n))
  | .barSync o => some (Enc.plain 0x0E (Enc.barX o))
  | .gset o =>
    some ⟨0x10, 0, Enc.grd o.g, 0, 0, 0, 0,
      match o.val with
      | .pred pa neg => 0#5 ++ pa ++ Enc.bit neg ++ 0#3 ++ o.n
      | .imm v => 0#10 ++ Enc.bit v ++ 1#1 ++ o.n⟩
  | .gclr o => some ⟨0x11, 0, Enc.grd o.g, 0, 0, 0, 0, 0#12 ++ o.n⟩
  | .trap o => some ⟨0x12, 0, Enc.grd o.g, 0, 0, 0, 0, 0#8 ++ o.code⟩
  | .trapSave => some (Enc.plain 0x12 0x4000)
  | .trapResume => some (Enc.plain 0x12 0x8000)
  | .upcall o => some ⟨0x13, 0, Enc.grd o.g, Enc.s8 o.d, Enc.s8 o.a, 0, 0, 0#8 ++ o.code⟩
  | .bkpt o => some ⟨0x14, 0, Enc.grd o.g, 0, 0, 0, 0, 0#8 ++ o.code⟩
  | .clock o => some ⟨0x15, 0, Enc.grd o.g, Enc.s8 o.d, 0, 0, 0, 0⟩
  | .clockPts o => some ⟨0x15, 0, Enc.grd o.g, Enc.s8 o.d, 0, 0, 0, 1⟩
  | .pmc o => some ⟨0x16, 0, Enc.grd o.g, Enc.s8 o.d, 0, 0, 0, 0#13 ++ o.n⟩
  | .gstat o => some ⟨0x17, 0, Enc.grd o.g, Enc.s8 o.d, 0, 0, 0, 0#14 ++ o.sel⟩
  | .iadd o => some (Enc.intBin 0x20 o)
  | .isub o => some (Enc.intBin 0x21 o)
  | .imul o => some (Enc.intBin 0x22 o)
  | .imad o => some (Enc.intTer 0x23 o)
  | .imulhi o => some (Enc.intBin 0x24 o)
  | .imin o => some (Enc.intBin 0x25 o)
  | .imax o => some (Enc.intBin 0x26 o)
  | .lop3 o => some (Enc.lop3 o)
  | .shl o => some (Enc.intBin 0x28 o)
  | .shr o => some (Enc.intBin 0x29 o)
  | .sar o => some (Enc.intBin 0x2A o)
  | .fshl o => some (Enc.intTer 0x2B o)
  | .fshr o => some (Enc.intTer 0x2C o)
  | .popc o => some (Enc.intUn 0x2D o)
  | .clz o => some (Enc.intUn 0x2E o)
  | .brev o => some (Enc.intUn 0x2F o)
  | .bfx o => some (Enc.intBin 0x30 o)
  | .bfi o => some (Enc.intTer 0x31 o)
  | .isetp o => some (Enc.isetp o)
  | .sel o => some (Enc.sel o)
  | .mov o => some (Enc.mov o)
  | .movImm32 o => some (Enc.wide 0x35 0 (Enc.grd o.g) o.d 0 o.imm)
  | .movImm32B64 o => some (Enc.wide 0x35 1 (Enc.grd o.g) o.d 0 o.imm)
  | .lea o => some (Enc.lea o)
  | .s2v o => some (Enc.s2v o)
  | .v2s o => some (Enc.v2s o)
  | .iaddScalar o => some (Enc.sIntBin 0x40 o)
  | .isubScalar o => some (Enc.sIntBin 0x41 o)
  | .imulScalar o => some (Enc.sIntBin 0x42 o)
  | .imadScalar o => some (Enc.sIntTer 0x43 o)
  | .imulhiScalar o => some (Enc.sIntBin 0x44 o)
  | .iminScalar o => some (Enc.sIntBin 0x45 o)
  | .imaxScalar o => some (Enc.sIntBin 0x46 o)
  | .lop3Scalar o => some (Enc.lop3S o)
  | .shlScalar o => some (Enc.sIntBin 0x48 o)
  | .shrScalar o => some (Enc.sIntBin 0x49 o)
  | .sarScalar o => some (Enc.sIntBin 0x4A o)
  | .isetpScalar o => some (Enc.isetpS o)
  | .selScalar o => some (Enc.selS o)
  | .movScalar o => some (Enc.movS o)
  | .movImm32Scalar o => some (Enc.wide 0x4E 0 (Enc.grd o.g) (Enc.s8 o.d) 0 o.imm)
  | .movImm32B64Scalar o => some (Enc.wide 0x4E 1 (Enc.grd o.g) (Enc.s8 o.d) 0 o.imm)
  | .movHiScalar o => some (Enc.wide 0x4E 2 (Enc.grd o.g) (Enc.s8 o.d) 0 o.imm)
  | .leaScalar o => some (Enc.leaS o)
  | .fadd o => some (Enc.fBin 0x50 o)
  | .fmul o => some (Enc.fBin 0x51 o)
  | .ffma o => some (Enc.fTer o)
  | .fmin o => some (Enc.fSel 0x53 o)
  | .fmax o => some (Enc.fSel 0x54 o)
  | .fsetp o => some (Enc.fsetp o)
  | .hfma2 o => some (Enc.hTer o)
  | .hadd2 o => some (Enc.hBin 0x57 o)
  | .hmul2 o => some (Enc.hBin 0x58 o)
  | .frcp o => some (Enc.vUn 0x60 o)
  | .frsq o => some (Enc.vUn 0x61 o)
  | .fsqrt o => some (Enc.vUn 0x62 o)
  | .fexp2 o => some (Enc.vUn 0x63 o)
  | .flog2 o => some (Enc.vUn 0x64 o)
  | .fsin o => some (Enc.vUn 0x65 o)
  | .fcos o => some (Enc.vUn 0x66 o)
  | .ftanh o => some (Enc.vUn 0x67 o)
  | .atab o => some (Enc.vUn 0x68 o)
  | .atload o => some ⟨0x69, 0, Enc.grd o.g, 0, o.a, Enc.s8 o.b, 0, 0⟩
  | .atloadCtl o => some ⟨0x69, 0, Enc.grd o.g, 0, Enc.s8 o.a, 0, 0, 1⟩
  | .atswap o => some ⟨0x6A, 0, Enc.grd o.g, 0, 0, 0, 0, 0⟩
  | .cvt o =>
    some ⟨0x6C, 0#1 ++ Enc.rnd o.rnd, Enc.grd o.g, o.d, o.a, 0, 0,
      0#3 ++ Enc.bit o.sat ++ 0#2 ++ Enc.bit o.uns ++ 0#1 ++ Enc.cvtTy o.dt ++ Enc.cvtTy o.st⟩
  | .cvtp2 o => some ⟨0x6D, 0#1 ++ Enc.rnd o.rnd, Enc.grd o.g, o.d, o.a, o.b, 0, if o.bf then 0x20 else 0x10⟩
  | .cvtp4 o =>
    some ⟨0x6E, 0#1 ++ Enc.rnd o.rnd, Enc.grd o.g, o.d, o.a, Enc.scaleB o.scale, 0,
      0#7 ++ Enc.bit o.scale.isSome ++ Enc.packTy o.dt ++ 0#4⟩
  | .cvtds o =>
    some ⟨0x6F, 0#1 ++ Enc.rnd o.rnd, Enc.grd o.g, o.d, o.a, Enc.scaleB o.scale, 0, 0#7 ++ Enc.bit o.scale.isSome ++ 0#8⟩
  | .unpk o =>
    some ⟨0x70, 0, Enc.grd o.g, o.d, o.a, Enc.scaleB o.scale, 0, 0#4 ++ o.i ++ Enc.bit o.scale.isSome ++ 0#4 ++ Enc.unpkTy o.st⟩
  | .shfl o =>
    some ⟨0x78, Enc.ty o.b.isImm o.b64, Enc.grd o.g, o.d, o.a, Enc.reg o.b, Enc.lowImm o.b,
      0#1 ++ Enc.bit (Enc.isS o.b) ++ 0#12 ++ Enc.shflMode o.mode⟩
  | .vote o => some ⟨0x79, 0, Enc.grd o.g, Enc.voteD o.dst, 0, 0, 0, 0#5 ++ o.pa ++ Enc.bit o.pan ++ 0#5 ++ Enc.voteX o.dst⟩
  | .redux o =>
    some ⟨0x7A, 0#1 ++ Enc.redTy o.op, Enc.grd o.g, o.d, o.a, 0, 0, 0#4 ++ Enc.bit (Enc.redUns o.op) ++ 0#7 ++ Enc.redOp o.op⟩
  | .scan o =>
    some ⟨0x7B, 0#1 ++ Enc.redTy o.op, Enc.grd o.g, o.d, o.a, 0, 0,
      0#4 ++ Enc.bit (Enc.redUns o.op) ++ 0#6 ++ Enc.bit o.excl ++ Enc.redOp o.op⟩
  | .matchLanes o => some ⟨0x7C, Enc.ty false o.b64, Enc.grd o.g, o.d, o.a, 0, 0, 0⟩
  | .ld o => some (Enc.ldF 0x80 o)
  | .st o => some (Enc.ldF 0x81 o)
  | .stBnd o =>
    some ⟨0x81, 1#1 ++ Enc.memTy o.ty, Enc.grd o.g, o.d, Enc.baseF o.m.base, o.m.idx, Enc.memC o.m, Enc.memX .rlx .team o.m⟩
  | .ldnt o =>
    some ⟨0x82, 0#1 ++ Enc.memTy o.ty, Enc.grd o.g, o.d, Enc.baseF o.m.base, o.m.idx, Enc.memC o.m, Enc.memX .rlx o.scope o.m⟩
  | .pref o =>
    some ⟨0x83, 0, Enc.grd o.g, 0, Enc.baseF o.m.base, o.m.idx, Enc.memC o.m,
      Enc.memX .rlx (if o.die then .die else .team) o.m⟩
  | .atomAdd o => some (Enc.atomF 0 0x84 o)
  | .atomMin o => some (Enc.atomMm 1 o)
  | .atomMax o => some (Enc.atomMm 2 o)
  | .atomAnd o => some (Enc.atomF 3 0x84 o)
  | .atomOr o => some (Enc.atomF 4 0x84 o)
  | .atomXor o => some (Enc.atomF 5 0x84 o)
  | .atomExch o => some (Enc.atomF 6 0x84 o)
  | .atomInc o => some (Enc.atomF 7 0x84 o)
  | .atomDec o => some (Enc.atomF 8 0x84 o)
  | .atomFadd o => some (Enc.atomFl 9 o)
  | .atomFmin o => some (Enc.atomFl 10 o)
  | .atomFmax o => some (Enc.atomFl 11 o)
  | .atomCas o => some (Enc.atomF 0 0x85 o)
  | .fence o =>
    some ⟨0x86, Enc.bit o.pd.isSome ++ 0#3, Enc.grd o.g, Enc.t8 (o.pd.getD 0), 0, 0, 0, Enc.osX o.ord o.scope⟩
  | .fenceEng o => some ⟨0x87, 0, Enc.grd o.g, 0, 0, 0, 0, 0⟩
  | .waitv o =>
    some ⟨0x88, Enc.ty false o.b64, Enc.grd o.g, Enc.s8 o.d, Enc.s8 o.a, Enc.s8 o.b, Enc.s8 o.c,
      Enc.osX (if o.acq then .acq else .rlx) o.scope⟩
  | .wake o => some (Enc.sync 0x89 o)
  | .linkq o => some (Enc.sync 0x8A o)
  | .condq o => some (Enc.sync 0x8B o)
  | .alloc o => some (Enc.vUn 0x8C o)
  | .free o => some ⟨0x8D, 0, Enc.grd o.g, 0, o.a, 0, 0, 0⟩
  | .accld o => some ⟨0x8E, 0#2 ++ o.cnt, Enc.grd o.g, o.d, Enc.q8 o.acc, Enc.vOrS o.b, 0, 0#1 ++ Enc.bit (Enc.isSR o.b) ++ 0#14⟩
  | .kick o =>
    some ⟨0x90, 0, Enc.grd o.g, 0, Enc.s8 o.a, Enc.s8 o.b, 0,
      0#1 ++ Enc.bit o.rel ++ 0#1 ++ Enc.scope o.scope ++ 0#5 ++ Enc.slot o.slot⟩
  | .bobjInit o => some ⟨0x91, 0, Enc.grd o.g, 0, Enc.s8 o.a, 0, 0, 0#9 ++ o.n⟩
  | .bobjExpect o => some ⟨0x92, 0, Enc.grd o.g, 0, Enc.s8 o.a, Enc.s8 o.b, 0, 0#15 ++ Enc.bit o.arrive⟩
  | .bobjArrive o => some ⟨0x93, 0, Enc.grd o.g, 0, Enc.s8 o.a, 0, 0, 0⟩
  | .bobjWait o => some (Enc.sThree 0x94 o)
  | .tdset o => some (Enc.sThree 0x95 o)
  | .tdinv o => some ⟨0x96, 0, Enc.grd o.g, 0, Enc.s8 o.a, Enc.s8 o.b, 0, 0⟩
  | .bopen o => some ⟨0x98, 0, Enc.grd o.g, Enc.s8 o.d, Enc.s8 o.a, 0, 0, 0#3 ++ Enc.scope o.scope ++ 0#10⟩
  | .bopenJoin o => some ⟨0x98, 0, Enc.grd o.g, Enc.s8 o.d, Enc.s8 o.a, 0, 0, 1⟩
  | .bcommit o => some ⟨0x99, 0, Enc.grd o.g, Enc.s8 o.d, 0, 0, 0, 0⟩
  | .babort o => some ⟨0x9A, 0, Enc.grd o.g, Enc.s8 o.d, 0, 0, 0, 0⟩
  | .bstat o => some ⟨0x9B, 0, Enc.grd o.g, Enc.s8 o.d, Enc.baseF o.a, 0, 0, 0⟩
  | .spawn o => some ⟨0xA0, 0, Enc.grd o.g, 0, Enc.s8 o.a, o.b, 0, 0#12 ++ o.sz⟩
  | .recld o => some ⟨0xA1, 0#1 ++ Enc.memTy o.ty, Enc.grd o.g, o.d, 0, o.b, 0, 0#8 ++ o.off⟩
  | .nodeid o => some ⟨0xA2, 0, Enc.grd o.g, o.d, 0, 0, 0, Enc.nodeField o.field⟩
  | .qstat o => some ⟨0xA3, 0, Enc.grd o.g, Enc.s8 o.d, Enc.s8 o.a, 0, 0, 0⟩
  | .trace o => some (Enc.ray 0xA8 false o)
  | .cont o => some (Enc.ray 0xAA false o)
  | .contEnd o => some (Enc.ray 0xAA true o)
  | .rayld o => some ⟨0xA9, 0#2 ++ o.cnt, Enc.grd o.g, o.d, Enc.s8 o.a, o.b, 0, 0#12 ++ o.w⟩
  | .geostat o => some ⟨0xAB, 0, Enc.grd o.g, Enc.s8 o.d, Enc.s8 o.a, 0, 0, 0⟩
  | .mld o => some ⟨0xC0, Enc.bit o.sc ++ o.len, Enc.noGrd, Enc.t8 o.d, 4#3 ++ o.a, 0, 0, 0#11 ++ Enc.slot o.slot⟩
  | .mma o => some (Enc.mma 0xC1 o)
  | .mmas o => some (Enc.mma 0xC2 o)
  | .mzero o => some ⟨0xC3, 0, Enc.noGrd, Enc.q8 o.d, 0, 0, 0, 0#11 ++ Enc.slot o.slot⟩
  | .mst o => some ⟨0xC4, Enc.mstFmt o.fmt, Enc.noGrd, Enc.q8 o.d, 4#3 ++ o.a, 0, 0, 0#11 ++ Enc.slot o.slot⟩
  | .marr o => some (Enc.plain 0xC5 (Enc.barX o))
  | .mwait n => some (Enc.plain 0xC6 (0#12 ++ n))
  | .iaddQ o => some (Enc.qBin 0xC7 o)
  | .isubQ o => some (Enc.qBin 0xC8 o)
  | .movQ o => some ⟨0xC9, 0, Enc.noGrd, Enc.q8 o.d, Enc.q8 o.a, 0, 0, 0⟩
  | .movQImm32 o => some (Enc.wide 0xC9 8 Enc.noGrd (Enc.q8 o.d) 0 o.imm)
  | .movQHi o => some (Enc.wide 0xC9 9 Enc.noGrd (Enc.q8 o.d) 0 o.imm)
  | .shlQ o => some (Enc.qBin 0xCA o)
  | .braQ o =>
    some (match o.cond with
      | .always => Enc.wide 0xCB 0 Enc.noGrd 0 0 o.off
      | .z a => Enc.wide 0xCB 1 Enc.noGrd 0 (Enc.q8 a) o.off
      | .nz a => Enc.wide 0xCB 2 Enc.noGrd 0 (Enc.q8 a) o.off)
  | .exitQ => some (Enc.plain 0xCC 0)
  | _ => none

/-- A compact half (02 R49). -/
def encodeCompact (cop : BitVec 6) (o : Compact) : BitVec 32 :=
  cop ++ o.d ++ o.a ++ (match o.b with
    | .v n => n ++ 0#1
    | .s n => 0#1 ++ n ++ 1#1) ++ Enc.bit o.gn ++ o.gp ++ 0#1
def encodeHalf : Instr → Option (BitVec 32)
  | .faddCompact o => some (encodeCompact 0x01 o)
  | .fmulCompact o => some (encodeCompact 0x02 o)
  | .ffmaCompact o => some (encodeCompact 0x03 o)
  | .fminCompact o => some (encodeCompact 0x04 o)
  | .fmaxCompact o => some (encodeCompact 0x05 o)
  | .iaddCompact o => some (encodeCompact 0x08 o)
  | .isubCompact o => some (encodeCompact 0x09 o)
  | .iminCompact o => some (encodeCompact 0x0A o)
  | .imaxCompact o => some (encodeCompact 0x0B o)
  | .shlCompact o => some (encodeCompact 0x0C o)
  | .shrCompact o => some (encodeCompact 0x0D o)
  | .sarCompact o => some (encodeCompact 0x0E o)
  | .movCompact o => some (0x0F#6 ++ o.d ++ o.a ++ 0#7 ++ Enc.bit o.ub ++ Enc.bit o.gn ++ o.gp ++ 0#1)
  | .filler => some 0x3C00000E
  | .imulCompact o => some (encodeCompact 0x10 o)
  | .hadd2F16Compact o => some (encodeCompact 0x11 o)
  | .hmul2F16Compact o => some (encodeCompact 0x12 o)
  | .hfma2F16Compact o => some (encodeCompact 0x13 o)
  | .hadd2Bf16Compact o => some (encodeCompact 0x14 o)
  | .hmul2Bf16Compact o => some (encodeCompact 0x15 o)
  | .hfma2Bf16Compact o => some (encodeCompact 0x16 o)
  | _ => none

/-- A service-core word (02 R63). -/
def rType (f7 : BitVec 7) (rs2 rs1 : BitVec 5) (f3 : BitVec 3) (rd : BitVec 5) (opc : BitVec 7) : BitVec 32 :=
  f7 ++ rs2 ++ rs1 ++ f3 ++ rd ++ opc
def encodeHart : Instr → Option (BitVec 32)
  | .xWaitv o => some (rType (0#4 ++ Enc.bit o.w32 ++ Enc.bit o.aq ++ 0#1) o.rs2 o.rs1 0 o.rd 0x0B)
  | .xWake o => some (rType (0#6 ++ Enc.bit o.rl) o.rs2 o.rs1 1 o.rd 0x0B)
  | .xLinkq o => some (rType (0#5 ++ Enc.bit o.aq ++ 0#1) o.rs2 o.rs1 2 o.rd 0x0B)
  | .xCondq o => some (rType (0#5 ++ Enc.bit o.aq ++ Enc.bit o.rl) o.rs2 o.rs1 3 o.rd 0x0B)
  | .xBopen o => some (rType 0 o.rs2 o.rs1 0 o.rd 0x2B)
  | .xBcommit o => some (rType 0 0 o.rs1 1 o.rd 0x2B)
  | .xStrm o => some (rType o.stream o.rs2 o.rs1 2 0 0x2B)
  | .hartInstruction w => some w
  | _ => none

/-- The word of an instruction and how many bits it has; none for a row that is an event and has no word. -/
def encode (i : Instr) : Option (Nat × Nat) :=
  match encodeFields i with
  | some f => some (64, f.toWord.toNat)
  | none =>
    match encodeHalf i with
    | some h => some (32, h.toNat)
    | none => (encodeHart i).map fun w => (32, w.toNat)

end Sys2Proof
end

