-- ==== Sys2Proof/Machine/Tab.lean ====
section
/-! DEFINITION. Finite tables: lists of key and value in rising order of key. Registers, memory and every other sparse array of the
machine are tables, so that equal contents are equal data. -/

namespace Sys2Proof.Machine

/-- A table: keys strictly rising. -/
abbrev Tab (α : Type) := List (Nat × α)

/-- The value at a key, if it is listed. -/
def Tab.get? {α : Type} : Tab α → Nat → Option α
  | [], _ => none
  | (k, v) :: t, n => if k = n then some v else Tab.get? t n
/-- The value at a key, or `d` where none is listed. -/
def Tab.getD {α : Type} (t : Tab α) (n : Nat) (d : α) : α := (Tab.get? t n).getD d
/-- The table without a key. -/
def Tab.del {α : Type} : Tab α → Nat → Tab α
  | [], _ => []
  | (k, v) :: t, n => if k = n then Tab.del t n else (k, v) :: Tab.del t n
/-- The table with a value at a key. -/
def Tab.put {α : Type} : Tab α → Nat → α → Tab α
  | [], n, x => [(n, x)]
  | (k, v) :: t, n, x => if n < k then (n, x) :: (k, v) :: t else if k = n then (n, x) :: t else (k, v) :: Tab.put t n x
/-- The table with a value at a key, where `d` is what an unlisted key reads as: writing `d` removes the entry. -/
def Tab.putD {α : Type} [DecidableEq α] (d : α) (t : Tab α) (n : Nat) (x : α) : Tab α :=
  if x = d then Tab.del t n else Tab.put t n x
/-- The table changed at one listed key. -/
def Tab.upd {α : Type} (t : Tab α) (n : Nat) (f : α → α) : Tab α :=
  match Tab.get? t n with
  | some x => Tab.put t n (f x)
  | none => t
/-- Several values, in order. -/
def Tab.putAll {α : Type} (t : Tab α) : List (Nat × α) → Tab α
  | [] => t
  | (n, x) :: l => Tab.putAll (Tab.put t n x) l
/-- The smallest key from `n` on that is not listed, within `fuel` tries. -/
def Tab.fresh {α : Type} (t : Tab α) : Nat → Nat → Nat
  | 0, n => n
  | fuel + 1, n => if (Tab.get? t n).isSome then Tab.fresh t fuel (n + 1) else n
/-- The key after every listed key. -/
def Tab.next {α : Type} : Tab α → Nat
  | [] => 0
  | (k, _) :: t => max (k + 1) (Tab.next t)
/-- Keys strictly rising from `n`. -/
def Tab.risesFrom {α : Type} : Nat → Tab α → Bool
  | _, [] => true
  | n, (k, _) :: t => n ≤ k && Tab.risesFrom (k + 1) t
/-- Keys strictly rising. -/
def Tab.rises {α : Type} (t : Tab α) : Bool := Tab.risesFrom 0 t

end Sys2Proof.Machine
end

