-- ==== Sys2Proof/Machine/State.lean ====
section
/-! DEFINITION. The whole state of one module, as plain data, the reasons a step can stop, and the state after reset. -/

namespace Sys2Proof.Machine

/-- Why the machine stops. -/
inductive Fault where
  /-- a physical address at or beyond its tier's limit, named by an input of the environment (03
      R66); raised by the input rows; safe: the machine stops where the hardware's answer is not given -/
  | noSuchAddress (key : Nat)
  deriving DecidableEq, Repr

/-- Why a step has no meaning here. -/
inductive Refusal where
  /-- an instruction whose arm of `exec` is not written yet; raised by `exec` alone; safe -/
  | notModelled (mnemonic : String)
  /-- a service-core word of a RISC-V extension that the manual names (RVA23) and does not describe: floating point, vector, compressed,
      bit manipulation, hypervisor; raised by `execHartInstruction`; safe -/
  | riscvExtension (word : BitVec 32)
  deriving DecidableEq, Repr

/-! ### Groups (08 R172 to R179, 12 R256 to R273, 02 R35 to R42, 16 R336, R343) -/

/-- The kinds of access that a walk checks; `rmw` is an atomic, a write that needs R as well (03 R71). -/
inductive AccKind where
  | read | write | rmw | fetch
  deriving DecidableEq, Repr

/-- What a sleeping split waits for (12 R259: barrier, WAITV, BOBJ.WAIT, REGGROW; 16 R348: UPCALL). -/
inductive WaitFor where
  | nothing
  /-- at a JOIN (STATE JOINW): the address after its clause -/
  | join (fall : Addr)
  | barrier (n : BitVec 4) (target : BitVec 16)
  /-- the instruction of that gio: WAITV or BOBJ.WAIT -/
  | op (gio : Nat)
  | grow (blocks : Nat)
  | upcall (tag : Nat) (d : BitVec 6)
  deriving DecidableEq, Repr

/-- STATE of a split entry (12 R259); FREE is absence. -/
inductive SplitState where
  | ready | joinw | sleep | stopped
  deriving DecidableEq, Repr

/-- A clause in progress (02 R41, R392): the words it decoded, the next word, its number in the group. -/
structure Run where
  hdr : Word
  words : List Word
  idx : Nat
  clause : Nat
  /-- its group stopped inside it: it takes the issue slot again before it goes on (02 R39; 16 R347) -/
  back : Bool := false
  /-- the activation-table bank it latched (09 R201) -/
  atb : Bool := false
  deriving DecidableEq, Repr

/-- The routine a split runs at a pre-emption (16 R354). -/
inductive Routine where
  | none | save | restore
  deriving DecidableEq, Repr

/-- A split entry (12 R259), with the clause it runs and what it waits for. -/
structure Split where
  mask : LaneMask
  pc : Addr
  jid : Nat := 0
  depth : Nat := 0
  st : SplitState := .ready
  last : Nat := 0
  /-- the core partition's issue count when it last issued (15 R333) -/
  coreLast : Nat := 0
  run : Option Run := none
  wait : WaitFor := .nothing
  /-- YIELD passes it over until another split has issued (12 R271): the partition's issue count and the cycle then -/
  yielded : Option (Nat × Nat) := none
  /-- faults that answered the walks it waited for: virtual granule, access, kind -/
  xfaults : List (Nat × AccKind × Nat) := []
  /-- a fault on its clause fetch is posted and waits for RESOLVE (16 R343) -/
  fetchFault : Bool := false
  /-- words of the next clause to pass over: the word index of a resume point (16 R336) -/
  skip : Nat := 0
  /-- its entry of the split table, 0 to 3, while it is there (12 R259) -/
  place : Nat := 0
  routine : Routine := .none
  /-- the clause header to come back to after a routine, and its SPID (16 R354) -/
  safePc : Addr := 0
  spid : Nat := 0
  deriving DecidableEq, Repr

/-- A join record (12 R260); `chip`: held on chip (R261). REF is counted from the splits and records (`Group.refs`). -/
structure JoinRec where
  jmask : LaneMask
  parent : Nat
  chip : Bool := true
  deriving DecidableEq, Repr

/-- Where one lane's part of a long-latency instruction stands (06 R132, R133; 16 R343). -/
inductive LanePhase where
  /-- not performed -/
  | todo
  /-- its translation faulted and is logged: the kind -/
  | faulted (kind : Nat)
  /-- a request of that number is on its way to the home -/
  | atHome (req : Nat)
  /-- performed; the value read, if any -/
  | done (x : Nat)
  deriving DecidableEq, Repr

/-- One lane's access. -/
structure LaneAcc where
  lane : Nat
  ea : Addr
  data : Nat := 0
  phase : LanePhase := .todo
  deriving DecidableEq, Repr

/-- How a fault has placed an instruction (16 R343): a log entry of the core, or a hold entry of the group. -/
inductive LogPlace where
  | free
  | logged (entry : Nat)
  | held
  deriving DecidableEq, Repr

/-- A long-latency instruction in flight (02 R38): issued and not yet complete. -/
structure Op where
  gio : Nat
  instr : Instr
  word : Word
  /-- its clause header and word index: the resume point (16 R336) -/
  pc : Addr
  idx : Nat
  /-- the clause's number and the flag it attached to -/
  clause : Nat
  flag : Option Nat
  mask : LaneMask
  /-- the lowest lane of the split that issued it, and that split's whole mask -/
  split : Nat
  whole : LaneMask := 0
  accs : List LaneAcc := []
  /-- operands captured at issue: scalars and memory blocks, in the entry's order -/
  args : List Nat := []
  /-- performed: only its register writes and its flag's release are outstanding -/
  performed : Bool := false
  /-- registers it will write: vector, scalar, predicate -/
  vd : List Nat := []
  sd : List Nat := []
  pd : Option Nat := none
  /-- the values to write at completion -/
  vOut : List (Nat × LaneWord) := []
  sOut : List (Nat × BitVec 64) := []
  pOut : List (Nat × LaneMask) := []
  /-- registers written meanwhile by another instruction: unpredictable afterwards (02 R38); vector and predicate ones by 64 · register + lane -/
  spoiltV : List Nat := []
  spoiltS : List Nat := []
  spoiltP : List Nat := []
  place : LogPlace := .free
  /-- its faulted lanes that a FAULT event has reported -/
  told : LaneMask := 0
  /-- what it waits for beside memory: a cycle, a tag, a request count -/
  aux : Nat := 0
  deriving DecidableEq, Repr

/-- A link (06 R148): the virtual address of the region, the slots' lines with their stamps, and whether a back-invalidate passed. -/
structure Link where
  region : Addr
  mask : BitVec 4
  lines : List (Nat × Nat × Nat)
  broken : Bool := false
  deriving DecidableEq, Repr

/-- Why and where a group or a sequencer stopped (16 R336, R337, R340). -/
structure Stop where
  cause : BitVec 8
  detail : BitVec 8
  pc : Addr
  idx : Nat
  lanes : LaneMask
  vaddr : Addr := 0
  /-- the faulted instruction's gio, when the cause is a declined fault -/
  gio : Option Nat := none
  done : BitVec 64 := 0
  /-- the fall-through to continue at (user TRAP and BKPT, 16 R358) -/
  fall : Option Addr := none
  arg0 : BitVec 64 := 0
  arg1 : BitVec 64 := 0
  deriving DecidableEq, Repr

/-- A group in pre-emption (16 R353 to R355). -/
inductive Park where
  | no
  /-- told to park -/
  | asked
  /-- save routines run for the splits of these lowest lanes -/
  | saving (left : List Nat)
  | parked
  /-- every READY split stops at its next clause boundary for the full dump -/
  | dumping
  /-- restore routines run for the splits of these lowest lanes -/
  | restoring (left : List Nat)
  deriving DecidableEq, Repr

/-- One resident group. -/
structure Group where
  team : Nat
  gidx : Nat
  role : Nat
  width : Nat
  /-- the age of 08 R179: time of its first start, start number of its team -/
  bornAt : Nat
  born : Nat
  /-- the core partition it was placed on (15 R333) -/
  part : Nat := 0
  /-- allocation and VMAX in blocks of 8 registers (08 R176) -/
  blocks : Nat
  vmax : Nat
  /-- vector registers: key 64 n + l; an unlisted register reads 0 (08 R173) -/
  v : Tab LaneWord := []
  /-- scalars; an unlisted one reads 0 -/
  s : Tab (BitVec 64) := []
  /-- p0 to p6 as lane masks; an unlisted one reads 0 -/
  p : Tab LaneMask := []
  /-- completion flag counts (02 R38) -/
  cf : Tab Nat := []
  /-- clauses' attachments still to be released: clause number, flag, instructions left -/
  att : List (Nat × Nat × Nat) := []
  ftz : Bool := false
  atb : Bool := false
  tw : BitVec 3 := 0
  /-- NX UF OF DZ NV (01 R30) -/
  flags : BitVec 5 := 0
  ferr : Bool := false
  jrel : Bool := false
  /-- lanes not yet exited -/
  live : LaneMask
  bcur : BitVec 16 := 0
  link : Option Link := none
  lph : Tab (BitVec 16) := []
  arr : BitVec 16 := 0
  splits : List Split
  /-- the spill stack's splits, longest spilled first (12 R261) -/
  spilled : List Split := []
  /-- what the debug window has left in FREE entries of the table (12 R259) -/
  freeEntries : Tab Split := []
  recs : Tab JoinRec
  gio : Nat := 0
  clauses : Nat := 0
  ops : List Op := []
  sent : Tab Nat := []
  /-- the sequencer events known to happen before (05 R125) -/
  seqSeen : Nat := 0
  /-- those that an acquire fence would add, from its relaxed reads; those that a release fence made heads of its later writes (05 R117) -/
  seqRead : Nat := 0
  seqHead : Nat := 0
  pmc : Tab Nat := []
  stop : Option Stop := none
  /-- a declined entry's gio: the group stops when its other work is complete, logged or held (16 R345) -/
  declined : Option Nat := none
  /-- its private region (15 R321) -/
  priv : Addr := 0
  park : Park := .no
  dumped : Bool := false
  /-- S[62] and S[63] as saved (16 R354) -/
  saved62 : BitVec 64 := 0
  saved63 : BitVec 64 := 0
  /-- lanes whose split ran a save routine, and when the group's first routine began (16 R354, R355) -/
  swept : LaneMask := 0
  savedAt : Nat := 0
  /-- the clause count at the last rotation of the spill stack (12 R261) -/
  rotated : Nat := 0
  deriving DecidableEq, Repr

/-! ### Teams (12 R256, 06 R142, 07 R169, 10 R224, 15 R321) -/

/-- The fields of a kernel header that the launcher latches (02 R59). -/
structure Header where
  sptab : Addr := 0
  roletab : Addr := 0
  mstream : Addr := 0
  entry : Addr := 0
  nsp : Nat := 0
  maxdepth : Nat := 0
  fanout : Nat := 0
  recsz : Nat := 0
  timer : Nat := 0
  priv : Nat := 0
  scratch : Nat := 0
  acct : Nat := 0
  seq : Bool := false
  vmax : Nat := 0
  vinit : Nat := 0
  roles : Nat := 0
  groups : Nat := 0
  gw : Nat := 0
  tpair : Bool := false
  fuse : Bool := false
  kind : Nat := 0
  deriving DecidableEq, Repr

/-- A role (02 R62). -/
structure RoleEntry where
  entry : Addr
  vmax : Nat
  vinit : Nat
  groups : Nat
  deriving DecidableEq, Repr

/-- A launch: the header with the tables the launcher read at launch (02 R60). -/
structure Kernel where
  hdr : Header
  roles : List RoleEntry
  /-- the safe-point table: save and restore addresses -/
  safe : List (Addr × Addr)
  deriving DecidableEq, Repr

/-- A team barrier (06 R142); `seen` is the sequencer time that the arrivals of the open phase carry, `seenAt` that of each completed one
    (05 R118, R125). -/
structure Barrier where
  ph : BitVec 16 := 0
  rem : Nat := 0
  isOpen : Bool := false
  dflt : Bool := false
  seen : Nat := 0
  seenAt : Tab Nat := []
  deriving DecidableEq, Repr

/-- An extent (03 R73). -/
structure Extent where
  vbase : Addr
  vend : Nat
  tier : Nat
  peer : Nat
  paddr : Nat
  spec : Bool
  x : Bool
  w : Bool
  r : Bool
  deriving DecidableEq, Repr

/-- A companion reference, and a bundle horizon entry (11 R245, R246): opening module, handle, declared scope, commit time. -/
structure Horizon where
  modu : Nat
  handle : BitVec 16
  scope : Scope
  t : Nat
  deriving DecidableEq, Repr

/-- One record as a lane holds it (13 R275). -/
structure LaneRec where
  data : List Byte
  depth : Nat
  src : Nat
  deriving DecidableEq, Repr

/-- An accepted request of the request queue (07 R162): its address, the group and gio that issued it, its guard slot and binding (07
R169), and what the engine read. -/
structure QueueEntry where
  id : Nat
  va : Addr
  group : Nat
  gio : Nat
  slot : Option (BitVec 4) := none
  bound : Option Bool := none
  /-- the request's 512 bits and the descriptor's, once read -/
  read : Option (BitVec 512) := none
  desc : Option (BitVec 512) := none
  /-- the refusal's status, when the checks of 07 R160 refuse it -/
  status : Nat := 0
  /-- the record's node header, as the engine read it, takes the record -/
  nodeOk : Bool := false
  /-- its fetch waits on a fault record -/
  waiting : Bool := false
  pc : Addr := 0
  idx : Nat := 0
  lanes : LaneMask := 0
  deriving DecidableEq, Repr

/-- A TRACE or CONT in its team's Geode command queue (14 R314). -/
structure RayCmd where
  id : Nat
  group : Nat
  gio : Nat
  slot : Option (BitVec 4)
  bound : Option Bool
  deriving DecidableEq, Repr

/-- A resident team. -/
structure Team where
  asid : BitVec 16
  cluster : Nat
  /-- the lower core; the pair's other core follows it under `pair` -/
  core : Nat
  pair : Bool := false
  slot : Nat
  num : Nat
  kern : Kernel
  /-- the header's address -/
  hdrVa : Addr
  /-- the command that started it, or none for a node team -/
  cmd : Option Nat
  tIndex : Nat := 0
  /-- m of 13 R280 -/
  count : Nat := 0
  /-- records by 64 g + l -/
  recs : Tab LaneRec := []
  /-- granules its input records hold -/
  inGran : Nat := 0
  /-- granules of its reservation left (13 R282) -/
  reserve : Nat := 0
  groups : List Nat
  seq : Option Nat := none
  bars : Tab Barrier := []
  /-- resolved guard slots (07 R169); an unlisted slot is UNRESOLVED -/
  guards : Tab Bool := []
  horizon : List Horizon := []
  extents : List Extent := []
  /-- the pinned scratchpad, byte by byte; an unlisted byte is 0 (04 R106) -/
  scr : Tab Byte := []
  /-- poisoned 32-byte sectors of it (07 R161, 16 R357) -/
  scrPoison : Tab Unit := []
  /-- by byte, the sequencer time that the release at the head of its last writes carries (05 R117, R125) -/
  relSeen : Tab Nat := []
  /-- pages not refilled since the team was restored (04 R106) -/
  unpinned : List Nat := []
  /-- those of them that an access has asked for, and those whose backing page has faulted (15 R321) -/
  asked : List Nat := []
  pageWait : List Nat := []
  /-- accumulator tiles: key 4096 t + e; an unlisted element is 0 -/
  acc : Tab LaneWord := []
  /-- the sequencer's command count at the last write of each tile (05 R125) -/
  accWritten : Tab Nat := []
  queue : List QueueEntry := []
  rays : List RayCmd := []
  deriving DecidableEq, Repr

/-! ### Sequencers (10 R215 to R235) -/

/-- A matrix command with its captured operands (10 R217): the q values its operands had. -/
structure SeqCmd where
  instr : Instr
  args : List (BitVec 64)
  pc : Addr
  deriving DecidableEq, Repr

/-- A team sequencer (10 R216); keys 4 core + s. -/
structure Seq where
  team : Nat
  pc : Addr
  q : Tab (BitVec 64) := []
  /-- tile registers: key 8704 t + 136 row + byte, the eight scales after the 128 data bytes; an unlisted byte is 0 -/
  t : Tab Byte := []
  lph : Tab (BitVec 16) := []
  arr : BitVec 16 := 0
  waiting : Option (BitVec 4 × BitVec 16) := none
  /-- commands taken and not yet performed, oldest first -/
  cmds : List SeqCmd := []
  /-- a held guarded command (07 R170), with its binding -/
  held : Option (SeqCmd × BitVec 4 × Option Bool) := none
  /-- commands performed: the sequencer's own time (05 R125) -/
  count : Nat := 0
  exited : Bool := false
  stop : Option Stop := none
  fetchFault : Option Nat := none
  deriving DecidableEq, Repr

/-! ### Cores and clusters (04 R90 to R98, 09 R200) -/

/-- A line of an L1 (04 R92, R96 to R98): stamps, clamp bit, valid and dirty words, data, the companion reference (11 R245). -/
structure L1Line where
  wts : Nat
  rts : Nat
  clamp : Bool := false
  valid : BitVec 32 := 0
  dirty : BitVec 32 := 0
  data : Tab LaneWord := []
  ref : Option Horizon := none
  deriving DecidableEq, Repr

/-- An operation at the activation table (09 R201), not yet performed. -/
inductive AtOp where
  | entry (who : Nat × Nat) (index : Nat) (v : BitVec 64)
  | ctl (v : BitVec 64)
  | swap
  deriving DecidableEq, Repr

/-- One SIMT core. -/
structure Core where
  pts : Nat := 0
  base : Nat := 0
  /-- ticks of 16 cycles already counted into PTS (04 R95) -/
  ticks : Nat := 0
  l1 : Tab L1Line := []
  /-- activation table: entries by 256 bank + i, control words by bank, ACT, the owning context -/
  atab : Tab (BitVec 64) := []
  atctl : Tab (BitVec 64) := []
  act : Bool := false
  owner : Option (BitVec 16) := none
  /-- operations at the table not yet performed, with their groups, oldest first -/
  atops : List (Nat × AtOp) := []
  /-- what each group has written to an entry of the inactive bank since the last swap (09 R202) -/
  atwritten : Tab (List ((Nat × Nat) × BitVec 64)) := []
  /-- issue counts of the four partitions (15 R333) -/
  issued : Tab Nat := []
  /-- operand-log entries in use, with their groups' keys (16 R343) -/
  log : Tab Nat := []
  /-- the sequencer whose command the engine takes next (10 R234) -/
  turn : Nat := 0
  deriving DecidableEq, Repr

/-! ### Homes and coherence (04 R87 to R104, 11 R240 to R247) -/

/-- Directory states (04 R101). -/
inductive DirState where
  | i | s | em | o | sInv | fwdWait | recall
  deriving DecidableEq, Repr

/-- MOESI messages (04 R99). -/
inductive MsgKind where
  | gets | getm | upgrade | puts | pute | putm | puto | inv | fwdgets | fwdgetm | putack
  | datas | datae | datam | upgack | invack | fwdack
  deriving DecidableEq, Repr

/-- A message: the service core concerned, the line, the requester a forward names, the data and the stamp it carries. -/
structure Msg where
  kind : MsgKind
  core : Nat
  line : Nat
  req : Option Nat := none
  data : Option (List Byte) := none
  stamp : Nat := 0
  pts : Nat := 0
  /-- FwdAck: its sender stays owner, in O; DataS, FwdGetS: not to be kept (11 R243) -/
  own : Bool := false
  /-- the owner that supplies a requester (04 R99); none: the home sends it -/
  src : Option Nat := none
  deriving DecidableEq, Repr
/-- What queues at a home behind a transaction (04 R101): a service core's request, or a request of the SIMT side by its number. -/
inductive Queued where
  | msg (m : Msg)
  | req (n : Nat)
  deriving DecidableEq, Repr

/-- The directory's record of a line: its state, its sharers, its owner, and the transaction in progress. -/
structure Dir where
  st : DirState := .i
  sharers : BitVec 24 := 0
  owner : Option Nat := none
  /-- sharers whose InvAck is outstanding -/
  acks : BitVec 24 := 0
  /-- the request being served: its kind, its core, its PTS -/
  winner : Option (MsgKind × Nat × Nat) := none
  /-- requests that arrived meanwhile, oldest first -/
  queue : List Queued := []
  /-- a forward is outstanding (04 R102) -/
  fwdOut : Bool := false
  /-- the owner has supplied the winner (04 R99) -/
  given : Bool := false
  /-- the SIMT request for which the forward or the recall was made (04 R103) -/
  held : Option Nat := none
  deriving DecidableEq, Repr

/-- The local proxy's copy of a peer line (04 R100): the peer home's stamp, the proxy's lease, its own next lease, the data. -/
structure Proxy where
  wts : Nat
  rts : Nat
  lease : Nat := 16
  data : List Byte
  ref : Option Horizon := none
  deriving DecidableEq, Repr

/-- A pending bundle version of a line (11 R240): opening module, handle, scope, the masked bytes, whether the line lies in a companion
    range, whether a byte is poisoned. -/
structure Pending where
  modu : Nat
  handle : BitVec 16
  scope : Scope
  bytes : Tab Byte
  companion : Bool
  /-- offsets of its poisoned bytes (16 R357) -/
  poison : List Nat := []
  deriving DecidableEq, Repr

/-- What a home holds for a line beside its data (04 R88). -/
structure HomeLine where
  wts : Nat
  rts : Nat
  lease : Nat := 16
  dir : Dir := {}
  pend : List Pending := []
  /-- leases are capped there while a bundle prepares (11 R243) -/
  cap : Option Nat := none
  ref : Option Horizon := none
  /-- LDNT marked it first for replacement (06 R135) -/
  nt : Bool := false
  /-- a service-core copy waits for no caching until install (11 R243) -/
  noCache : Bool := false
  deriving DecidableEq, Repr

/-- What a request asks of a home. -/
inductive ReqKind where
  /-- a fill of words `fw` to `fw + cnt - 1`, or a renewal of the copy stamped `wts` -/
  | fill (fw cnt : Nat)
  | renew (wts fw cnt : Nat)
  /-- a load served at the home: byte offset, bytes -/
  | load (off n : Nat)
  /-- a write of the bytes from an offset -/
  | write (off : Nat) (bytes : List Byte)
  /-- a read-modify-write by the instruction that waits for it -/
  | rmw
  /-- a pending version's bytes (11 R240) -/
  | bundled (off : Nat) (bytes : List Byte) (modu : Nat) (handle : BitVec 16)
  deriving DecidableEq, Repr

/-- Who waits for a home's answer. -/
inductive Waiter where
  | op (group gio lane : Nat)
  | hart (h : Nat)
  | piece (req piece : Nat)
  /-- a dirty span written back that waits at its home, for the group and instruction that made the L1 write it (04 R94) -/
  | span (group gio : Nat)
  | nobody
  deriving DecidableEq, Repr

/-- A request on its way to a home, or its answer on the way back (04 R96, R97). -/
structure HomeReq where
  core : Nat
  line : Nat
  kind : ReqKind
  pts : Nat
  who : Waiter
  horizon : List Horizon := []
  /-- the answer: data words, stamp, expiry, whether it is a renewal without data -/
  answer : Option (List (Nat × LaneWord) × Nat × Nat × Bool) := none
  /-- the companion reference that an answer carries (11 R245) -/
  ref : Option Horizon := none
  /-- LINK_WAIT for an answer of another agent ends at that cycle (17 R362, R366, R367, R374) -/
  due : Nat := 0
  /-- it waits behind another bundle: until that one is DONE or ABORTED, or until its versions are dropped everywhere (11 R242) -/
  behind : Option (BitVec 16 × Bool) := none
  poisoned : Bool := false
  deriving DecidableEq, Repr

/-- A service core's copy of a line. -/
inductive CopyState where
  | m | o | e | s
  deriving DecidableEq, Repr

structure CacheLine where
  st : CopyState
  data : List Byte
  deriving DecidableEq, Repr

/-! ### Translation (03 R65 to R86) -/

/-- A cached leaf: the context, G, the first virtual address it covers, its size, the entry. -/
structure TlbEntry where
  asid : BitVec 16
  vbase : Nat
  size : Nat
  pte : BitVec 64
  /-- the greatest stamp of the entries that its walk read: whoever uses it has acquired them (03 R71, R83) -/
  wts : Nat := 0
  deriving DecidableEq, Repr

/-- A cached non-leaf entry of a die: the level it leads to and the addresses it covers (03 R76). -/
structure WalkEntry where
  asid : BitVec 16
  level : Nat
  vbase : Nat
  size : Nat
  pte : BitVec 64
  wts : Nat := 0
  deriving DecidableEq, Repr

/-- Who waits on a walk (03 R77). -/
inductive WalkFor where
  | op (group gio lane : Nat)
  /-- a split that fetches a clause or issues a word -/
  | split (group lane : Nat)
  | hart (h : Nat)
  deriving DecidableEq, Repr

/-- A pending walk of a die: one per context and 64 KB granule, with its attached misses. -/
structure Walk where
  die : Nat
  asid : BitVec 16
  root : BitVec 64
  granule : Nat
  /-- the die's invalidation number when it began (03 R78) -/
  inval : Nat
  waits : List (WalkFor × AccKind × Addr)
  deriving DecidableEq, Repr

/-! ### Bundles (11 R236 to R255) -/

/-- The states of a bundle (11 R239). -/
inductive BundleState where
  | none | opened | doomed | closing | committed | done | aborted
  deriving DecidableEq, Repr

/-- Who waits for a bundle's end: a group's BCOMMIT or BABORT, or a hart's x.bcommit. -/
inductive BundleWait where
  | commit (group gio : Nat)
  | abort (group gio : Nat)
  | hart (h : Nat)
  deriving DecidableEq, Repr

/-- A slot of the bundle table. -/
structure Bundle where
  gen : BitVec 4
  st : BundleState
  asid : BitVec 16
  /-- the opening agent's die -/
  die : Nat := 0
  age : Nat
  scope : Scope
  ranges : List (Nat × Nat)
  /-- the record's physical key -/
  recKey : Nat
  reason : Nat := 0
  late : Bool := false
  nlines : Nat := 0
  t : Nat := 0
  /-- it is being aborted: its versions are dropped home by home (11 R244) -/
  aborting : Bool := false
  /-- homes that held a pending line (11 R243) -/
  held : List Nat := []
  /-- homes (die and slice) whose prepare, install or drop is outstanding, and the largest reply -/
  homes : List Nat := []
  reply : Nat := 0
  committer : Nat := 0
  waits : List BundleWait := []
  /-- its LINK_WAIT ends at that cycle (11 R244) -/
  due : Nat := 0
  lagging : Bool := false
  deriving DecidableEq, Repr

/-! ### Service cores (15 R393, 02 R63, 06 R152) -/

inductive Mode where
  | m | s | u
  deriving DecidableEq, Repr

/-- Why a service core issues nothing. -/
inductive HartWait where
  | no
  | wfi
  /-- x.waitv sleeps: the destination -/
  | waitv (rd : BitVec 5)
  /-- x.bcommit stalls: destination and handle -/
  | bcommit (rd : BitVec 5) (handle : BitVec 16)
  deriving DecidableEq, Repr

/-- One service core (PRESUMED, log 7 and 8: the RISC-V privileged architecture, which the manual names and does not restate). -/
structure Hart where
  pc : BitVec 64 := 0
  x : Tab (BitVec 64) := []
  mode : Mode := .m
  mstatus : BitVec 64 := 0
  mtvec : BitVec 64 := 0
  medeleg : BitVec 64 := 0
  mideleg : BitVec 64 := 0
  mie : BitVec 64 := 0
  mip : BitVec 64 := 0
  mepc : BitVec 64 := 0
  mcause : BitVec 64 := 0
  mtval : BitVec 64 := 0
  mscratch : BitVec 64 := 0
  mcounteren : BitVec 64 := 0
  stvec : BitVec 64 := 0
  sepc : BitVec 64 := 0
  scause : BitVec 64 := 0
  stval : BitVec 64 := 0
  sscratch : BitVec 64 := 0
  scounteren : BitVec 64 := 0
  satp : BitVec 64 := 0
  stimecmp : BitVec 64 := 0
  instret : Nat := 0
  /-- LR's reservation: the line and its bytes' address -/
  resv : Option (Nat × Nat) := none
  link : Option Link := none
  horizon : List Horizon := []
  wait : HartWait := .no
  pts : Nat := 0
  /-- ticks of 16 cycles already counted into PTS (04 R95) -/
  ticks : Nat := 0
  /-- a translation fault answered its walk: kind and address -/
  xfault : Option (Nat × Addr) := none
  /-- a line that its home supplied and that is not to be kept (11 R243) -/
  answer : Option (Nat × List Byte) := none
  /-- when an access that no module answers faults; 0 while none waits (17 R366) -/
  due : Nat := 0
  /-- released by the boot ROM (18 R375) -/
  running : Bool := false
  tlb : List TlbEntry := []
  /-- the private cache by line, and lines held in the write-back buffer until PutAck (04 R102) -/
  cache : Tab CacheLine := []
  wb : Tab (CopyState × List Byte) := []
  /-- the outstanding request: its line, its kind -/
  want : Option (Nat × MsgKind) := none
  /-- a line's data from its owner that waits for the home's grant, and a grant with its stamp that waits for the data (04 R99, R102) -/
  part : Option (Nat × List Byte) := none
  granted : Option (Nat × Nat) := none
  /-- an Inv reached the line of the outstanding read: its owner's data answers one access and is not kept (04 R102; log 27) -/
  stale : Bool := false
  deriving DecidableEq, Repr

/-! ### The launcher (13, 15) -/

/-- A context as its descriptor gives it (15 R320), with its pool's account. -/
structure Ctx where
  root : BitVec 64
  heapb : Addr
  tdtab : Addr
  pool : BitVec 64
  poolsz : Nat
  privb : Addr
  asid : BitVec 16
  part : Nat
  privstr : Nat
  scrb : Addr
  /-- the descriptor's physical key -/
  key : Nat
  /-- granules in use (13 R277, R282) -/
  used : Nat := 0
  /-- dies that have posted QUEUE_EXHAUSTED and still wait (13 R283) -/
  exhausted : BitVec 2 := 0
  gone : Bool := false
  deriving DecidableEq, Repr

/-- A record on its way to a bin, or in one (13 R275, R278). -/
structure RecMsg where
  die : Nat
  asid : BitVec 16
  node : Addr
  data : List Byte
  depth : Nat
  src : Nat
  gran : Nat
  arrived : Nat := 0
  /-- the RECORD command that made it -/
  cmd : Option Nat := none
  /-- its header read waits on a fault record -/
  waiting : Bool := false
  /-- the team, the group's number in it and the gio of the SPAWN that pushed it -/
  spawn : Option (Nat × Nat × Nat) := none
  deriving DecidableEq, Repr

/-- A bin (13 R278): die, context, node, the launcher's copy of the header, the records, oldest first. -/
structure Bin where
  die : Nat
  asid : BitVec 16
  node : Addr
  kern : Kernel
  recs : List RecMsg
  /-- ready since that cycle for a timed launch (13 R280) -/
  timed : Bool := false
  /-- records of its head in launcher SRAM (13 R278) -/
  sram : Nat := 0
  framed : Bool := false
  deriving DecidableEq, Repr

/-- A queue slot (15 R322). -/
structure QSlot where
  base : BitVec 64 := 0
  cfg : BitVec 64 := 0
  head : BitVec 32 := 0
  ctxd : BitVec 64 := 0
  flt : Bool := false
  ovr : Bool := false
  err : Bool := false
  /-- a declined or overrun ring: EN falls when the fetched commands have completed -/
  stopping : Bool := false
  /-- the doorbell of an overrun whose event is still to be posted (15 R323) -/
  ovrDue : Option Nat := none
  waiting : Bool := false
  /-- when it last started a team (15 R327) -/
  lastStart : Nat := 0
  deriving DecidableEq, Repr

/-- A fetched command (15 R324). -/
structure Cmd where
  slot : Nat
  asid : BitVec 16
  raw : BitVec 512
  order : Nat
  ready : Nat
  started : Bool := false
  /-- it was its turn to start, and it waits by itself, for a faulted read or for pool granules: the commands after it start (15 R326, R396) -/
  begun : Bool := false
  done : Bool := false
  kern : Option Kernel := none
  extents : List Extent := []
  nextTeam : Nat := 0
  /-- teams of a DISPATCH retired; for a RECORD, 1 once its record is in its bin, 2 once it was dropped there -/
  retired : Nat := 0
  status : Nat := 0
  waiting : Bool := false
  /-- granules that a RECORD waits for, once it has found too few (13 R282) -/
  short : Nat := 0
  /-- completion writes left: DONEA + 8, then DONEA -/
  writes : List (Addr × BitVec 64) := []
  deriving DecidableEq, Repr

/-! ### Copies (07) -/

/-- A piece (07 R159, R165): the bytes from `va` on, with the scratchpad offset and the bits of each (E2M1 nibbles), the bytes outside the
tensor that a LOAD fills, and the bytes counted. -/
structure Piece where
  va : Addr
  offs : List (Nat × Byte)
  fills : List (Nat × Byte)
  bytes : Nat
  done : Bool := false
  waiting : Bool := false
  /-- a bundled one waits behind another bundle (11 R242) -/
  behind : Option (BitVec 16 × Bool) := none
  deriving DecidableEq, Repr

/-- A started request (07 R163). -/
structure Req where
  team : Nat
  cluster : Nat
  group : Nat
  va : Addr
  raw : BitVec 512
  desc : BitVec 512
  pieces : List Piece
  load : Bool
  n : Nat
  poison : Bool := false
  fault : Bool := false
  badTarget : Bool := false
  aborted : Bool := false
  deriving DecidableEq, Repr

/-! ### Rays (14) -/

/-- A scene in flight: the header's bits and the node headers the Geode copied (14 R293). -/
structure Scene where
  asid : BitVec 16
  va : Addr
  raw : BitVec 2048
  nodes : List (Nat × Header)
  /-- the clusters whose queue heads lie in the queue area, written there when the context was switched out (14 R313) -/
  away : List Nat := []
  deriving DecidableEq, Repr

/-- A ray in flight (14 R298, R299): the Geode's half of its slot, and the record as the Geode holds it, which it writes to the slot. -/
structure Ray where
  asid : BitVec 16
  scene : Addr
  idx : Nat
  cluster : Nat
  team : Nat
  /-- the group of its last TRACE or CONT -/
  group : Nat
  /-- granules still reserved -/
  gran : Nat
  data : BitVec 512
  /-- when it entered its queue or began to wait: the cycle, and the order of entry -/
  enq : Nat
  ord : Nat
  /-- block offset and triangle of the closest hit (14 R301) -/
  hitKey : Nat := 0
  /-- its record's write is outstanding -/
  unsaved : Bool := false
  /-- the scene's GPRIV word is to be written for its slot, taken or freed (14 R292) -/
  gpriv : Bool := false
  /-- it has completed: its record goes to its shading node once its writes are made (14 R305, R312) -/
  ending : Bool := false
  /-- it waits on a fault record of its own -/
  waiting : Bool := false
  /-- it waits on a fault of the queue area or of GPRIV (14 R312) -/
  areaWait : Bool := false
  deriving DecidableEq, Repr

/-- A CONT's request for one lane on its way to the Geode that holds the ray (14 R316). -/
structure ContReq where
  cluster : Nat
  team : Nat
  group : Nat
  gio : Nat
  lane : Nat
  asid : BitVec 16
  scene : Addr
  ray : Nat
  depth : Nat
  isEnd : Bool
  deriving DecidableEq, Repr

/-! ### Dies: events, mailbox, pre-emption, debug window (16) -/

/-- An event as it waits at its source or is written (16 R339). -/
structure Ev where
  die : Nat
  raw : BitVec 512
  deriving DecidableEq, Repr

/-- A pre-emption command in progress (16 R351): the context, the clusters of the module, OUT or IN, the cycle it began. -/
structure PreCmd where
  asid : BitVec 16
  clusters : BitVec 36
  out : Bool
  start : Nat
  deriving DecidableEq, Repr

/-- The registers of one die's queue block (16 R338, R346, R351). -/
structure Die where
  evqBase : BitVec 64 := 0
  evqCfg : BitVec 64 := 0
  evqHead : BitVec 64 := 0
  evqTail : BitVec 64 := 0
  evqTailw : BitVec 64 := 0
  fwver : BitVec 16 := 0
  mbVal : BitVec 64 := 0
  preSeq : BitVec 8 := 0
  dumped : Bool := false
  preStatus : BitVec 3 := 0
  preBudget : BitVec 64 := 0x0000000000140014
  dwSel : BitVec 64 := 0
  dwAddr : BitVec 64 := 0
  dwErr : Bool := false
  /-- the pre-emption command in progress -/
  pre : Option PreCmd := none
  inval : Nat := 0
  /-- the kind of the last team it started, for 15 R327: true for a bin -/
  lastBin : Bool := false
  teams : Nat := 0
  deriving DecidableEq, Repr

/-- An outstanding upcall (16 R348, R349), by 65,536 times its die plus its tag. -/
structure Upcall where
  core : Nat
  group : Nat
  gio : Nat
  lane : Nat
  code : BitVec 8
  d : BitVec 6
  /-- the firmware version that took its event, once taken -/
  taken : Option (BitVec 16) := none
  deriving DecidableEq, Repr

/-- A fault record's work (16 R390). -/
inductive FaultWork where
  | seqFetch (seq : Nat)
  | request (team id : Nat)
  | piece (req piece : Nat)
  /-- a write of the tensor descriptor table by a TDSET or TDINV in flight -/
  | table (group gio : Nat)
  | ray (asid : BitVec 16) (scene : Addr) (idx : Nat)
  /-- a Geode's access to a scene's queue area or to its GPRIV word -/
  | area (asid : BitVec 16) (scene : Addr) (cluster : Nat)
  | ring (slot : Nat)
  /-- a scratchpad page's backing page -/
  | page (team page : Nat)
  | command (cmd : Nat)
  | completion (cmd : Nat)
  | node (n : Nat)
  deriving DecidableEq, Repr

/-- A fault record of an engine (16 R390): MB_CMD's CORE code, the tag. -/
structure FaultRec where
  die : Nat
  code : Nat
  tag : Nat
  work : FaultWork
  deriving DecidableEq, Repr

/-- A waiter of the wait-and-wake table (06 R144). -/
structure WaitEntry where
  die : Nat
  va : Addr
  key : Nat
  size : Nat
  who : Waiter
  order : Nat
  /-- installed at that cycle; 0 cycles for no timeout -/
  since : Nat
  cycles : Nat
  deriving DecidableEq, Repr

/-- A team switched out (16 R352): its state, its groups and its sequencer, with the places they left. -/
structure SavedTeam where
  die : Nat
  key : Nat
  team : Team
  groups : List (Nat × Group)
  seq : Option (Nat × Seq)
  deriving DecidableEq, Repr

/-! ### Links, host, boot, power (17, 18) -/

/-- A prefixed host write held by the stream sequencer (17 R363). -/
structure HeldWrite where
  fn : Nat
  stream : BitVec 8
  seq : BitVec 16
  off : BitVec 64
  bytes : List Byte
  deriving DecidableEq, Repr

/-- A write held at this module for a peer with no route (17 R366), or on its way to pool or host memory. -/
structure OutWrite where
  peer : Nat
  key : Nat
  bytes : List Byte
  group : Nat
  gio : Nat
  deriving DecidableEq, Repr

/-- A read that a module has not answered (17 R366): the agent, its context and address, the module, and the cycle at which LINK_WAIT ends. -/
structure PeerWait where
  who : Nat
  asid : BitVec 16
  va : Nat
  peer : Nat
  due : Nat
  deriving DecidableEq, Repr

/-- The link controller (17 R360, R361, R363, R369). -/
structure Links where
  pgMap : BitVec 64 := 1
  lnkWait : BitVec 32 := 1000
  reach : BitVec 64 := 0
  /-- bytes of the CXL pool, configured at boot (03 R66) -/
  pool : Nat := 0
  portStat : BitVec 24 := 0
  hsDrop : Nat := 0
  nmMiss : Nat := 0
  nmStat : BitVec 2 := 0
  nm : Tab (BitVec 256) := []
  /-- entries whose release found no granules (17 R371) -/
  nmHeld : List Nat := []
  bindBase : Tab (BitVec 64) := []
  bindAsid : Tab (BitVec 64) := []
  next : Tab (BitVec 16) := []
  held : List HeldWrite := []
  out : List OutWrite := []
  /-- completions the pool still owes (17 R374) -/
  poolOut : Tab OutWrite := []
  /-- read completions sent to the host: function, data (none: Unsupported Request) -/
  hostReads : List (Nat × Option (List Byte)) := []
  /-- reads that an unreachable module has not answered (17 R366) -/
  peerWaits : List PeerWait := []
  /-- the pool snoop filter: lines in order of allocation (04 R104), and the cycle of the last lease of each -/
  filter : List Nat := []
  poolLease : Tab Nat := []
  /-- BISnp in progress: line and the cycle it arrived -/
  bisnp : Tab Nat := []
  /-- lines among them that leave to make room in the filter (04 R104) -/
  evicting : List Nat := []
  answered : List Nat := []
  deriving DecidableEq, Repr

/-- A window of barrier phases of one DISPATCH (15 R335): its completions, and of each cluster the times first and last. -/
structure PowerWindow where
  window : Nat := 0
  firsts : Tab Nat := []
  lasts : Tab Nat := []
  deriving DecidableEq, Repr

/-- Boot, attestation, power and checkpoint (18). -/
structure Platform where
  bootst : BitVec 64 := 0
  /-- the SIMT cores are enabled (18 R375 step 5) -/
  simt : Bool := false
  halted : Bool := true
  meas : Tab (BitVec 384) := []
  fuse : BitVec 16 := 0
  spdmVersion : Bool := false
  spdmCaps : Bool := false
  spdmAlgs : Bool := false
  /-- responses sent: the request's code and the payload -/
  spdm : List (Nat × Nat) := []
  pwrctl : BitVec 64 := 1
  pwrcap : BitVec 64 := 2400
  /-- steps of each cluster, 4 standing for 1.05 GHz (15 R335) -/
  steps : Tab Nat := []
  /-- by DISPATCH, its window of barrier phases (15 R335) -/
  windows : Tab PowerWindow := []
  throttled : Bool := false
  /-- phases of team barriers as they complete: command, barrier, phase, cluster (15 R335) -/
  phases : List (Nat × Nat × Nat × Nat) := []
  ckptSeq : BitVec 8 := 0
  ckptStatus : BitVec 3 := 0
  /-- a checkpoint copy in progress: SAVE or RESTORE, region -/
  ckpt : Option (Bool × Nat) := none
  /-- the safe tier was left in self-refresh intact (18 R375, R382) -/
  intact : Bool := false
  /-- writes that wait for it at their homes -/
  ckptHeld : List (Nat × List Byte) := []
  deriving DecidableEq, Repr

/-- The translation control block (03 R79). -/
structure Xlat where
  inva : BitVec 64 := 0
  drnp : BitVec 64 := 0
  seq : BitVec 8 := 0
  lost : Bool := false
  status : BitVec 3 := 0
  /-- the command in progress and the step it has reached -/
  cmd : BitVec 64 := 0
  stage : Nat := 0
  since : Nat := 0
  deriving DecidableEq, Repr

/-! ### The machine -/

/-- Whose turn it is (log 2): a group's split by its lowest lane, a sequencer, a service core, an event with the pending item it takes up, or
    the passing of cycles. -/
inductive Turn where
  | group (k lane : Nat)
  | seq (k : Nat)
  | hart (h : Nat)
  | event (i : Instr) (hand : Nat)
  | elapse (n : Nat)
  deriving DecidableEq, Repr

/-- The agent whose instruction `exec` performs. -/
inductive Cur where
  | none
  | grp (k lane : Nat)
  | seq (k : Nat)
  | hart (h : Nat)
  deriving DecidableEq, Repr

/-- The state of one module and of the memory its agents reach. -/
structure State where
  /-- the model's own schedule (log 2) -/
  turns : List Turn := []
  /-- the model's own: whose instruction is being performed (log 2) -/
  cur : Cur := .none
  /-- the model's own: the pending item an event takes up (log 2) -/
  hand : Nat := 0
  /-- the model's own: the draw of free values (log 3) -/
  fresh : Nat := 0
  /-- the model's own: vector registers as they stood before a pair word (02 R52) -/
  pairV : Option (Tab LaneWord) := none
  /-- 1.05 GHz cycles since module reset (16 R359) -/
  cycle : Nat := 0
  mem : Tab Byte := []
  /-- poisoned 32-byte sectors (16 R357) -/
  poison : Tab Unit := []
  homes : Tab HomeLine := []
  memts : Tab Nat := []
  /-- the local proxies' copies of peer lines (04 R100) -/
  proxies : Tab Proxy := []
  /-- the model's own: the latest stamp of a write by an engine or a device agent (log 28) -/
  devPts : Nat := 0
  reqs : Tab HomeReq := []
  /-- register writes of engines and device agents, performed before the next step (15 R391) -/
  regOut : List (Nat × List Byte) := []
  /-- spill stacks that hardware has rearranged in this step: groups, and the bytes at the top of their private regions (12 R261) -/
  spillOut : List (Nat × Nat) := []
  /-- the model's own: stores of this step in tier 0 that may reach a record pool (13 R278) -/
  storeOut : List (Nat × Nat) := []
  msgs : Tab Msg := []
  cores : Tab Core := []
  /-- clusters whose L1s are fused (04 R90) -/
  fused : BitVec 36 := 0
  groups : Tab Group := []
  teams : Tab Team := []
  seqs : Tab Seq := []
  harts : Tab Hart := []
  tlbCore : Tab (List TlbEntry) := []
  tlbCluster : Tab (List TlbEntry) := []
  tlbDie : Tab (List TlbEntry) := []
  walkDie : Tab (List WalkEntry) := []
  walks : Tab Walk := []
  xlat : Xlat := {}
  waits : List WaitEntry := []
  waitOrder : Nat := 0
  /-- free lists by cluster, context and class (06 R149) -/
  heap : Tab (List Nat) := []
  /-- blocks in the hardware exchange (06 R151): key of the owner's list, block -/
  exchange : Tab (Nat × Nat) := []
  /-- descriptor entries cached by the request engines (07 R153): key 4096 asid + index by cluster -/
  tdCache : Tab (Tab (BitVec 512)) := []
  copies : Tab Req := []
  /-- the team slot that a cluster's request engine served last (07 R163) -/
  reqTurn : Tab Nat := []
  bundles : Tab Bundle := []
  /-- slots never taken start here; freed slots in the order freed (11 R236) -/
  bunNew : Nat := 0
  bunFreed : List Nat := []
  /-- completion notices and horizon queries on their way: die, opening module, handle -/
  notices : Tab (Nat × Nat × BitVec 16) := []
  queries : Tab (Nat × Nat × BitVec 16) := []
  answers : Tab (Nat × Nat × BitVec 16) := []
  ctxs : Tab Ctx := []
  inflight : Tab RecMsg := []
  bins : Tab Bin := []
  slots : Tab QSlot := []
  tails : Tab (BitVec 32) := []
  pend : Tab (BitVec 8) := []
  cmds : Tab Cmd := []
  quotas : Tab (BitVec 64) := []
  geoAge : Tab (BitVec 32) := []
  scenes : Tab Scene := []
  rays : Tab Ray := []
  contReqs : Tab ContReq := []
  /-- the order of entry of the next ray -/
  rayOrder : Nat := 0
  /-- clusters that a context is switched out of (16 R352), by context -/
  outOf : Tab (BitVec 36) := []
  dies : Tab Die := []
  evSeq : Tab Nat := []
  evWait : List Ev := []
  upcalls : Tab Upcall := []
  frecs : List FaultRec := []
  outTeams : List SavedTeam := []
  links : Links := {}
  plat : Platform := {}
  /-- what the last register read or debug-window read returned to its agent -/
  bus : BitVec 64 := 0
  deriving DecidableEq, Repr

/-- The module right after reset (18 R375, 03 R79, 15 R322, R331, R335, 16 R338, R351, 17 R360, 11 R236): no work, no translation, memory with
    nothing listed, every register at the value its field's default names; service core 0 of die 0 is the boot ROM's, and every agent waits
    for it. Where the manual gives no reset value, logs 8 and 9 name it. -/
def State.reset : State := {}

end Sys2Proof.Machine
end

