-- ==== Sys2Proof/Machine/Bits.lean ====
section
/-! DEFINITION. Bit fields, byte order and lane sets: the small helpers that every other file of the machine uses. -/

namespace Sys2Proof.Machine

/-- `len` bits of `x` from bit `lo` on. -/
def fld (x lo len : Nat) : Nat := x / 2 ^ lo % 2 ^ len
/-- Bit `i` of `x`. -/
def bitOf (x i : Nat) : Bool := x / 2 ^ i % 2 == 1
/-- One as a bit. -/
def b2n (b : Bool) : Nat := if b then 1 else 0

/-- The lanes of a set, in increasing order. -/
def lanesOf (m : LaneMask) : List Nat := (List.range 64).filter fun l => m.getLsbD l
/-- The set of the first `w` lanes. -/
def allLanes (w : Nat) : LaneMask := BitVec.ofNat 64 (2 ^ w - 1)
/-- The set of the lanes of a list. -/
def maskOf (l : List Nat) : LaneMask := l.foldl (fun m i => m ||| BitVec.ofNat 64 (2 ^ i)) 0
/-- The set of the lanes below 64 that pass a test. -/
def maskWhere (f : Nat → Bool) : LaneMask := maskOf ((List.range 64).filter f)
/-- The lowest lane of a set; 64 for the empty set. -/
def lowest (m : LaneMask) : Nat := (lanesOf m).headD 64

/-- The `n` bytes of a value, least significant first (00 R6). -/
def toBytes : Nat → Nat → List Byte
  | 0, _ => []
  | n + 1, x => BitVec.ofNat 8 x :: toBytes n (x / 256)
/-- The value of bytes, least significant first (00 R6). -/
def ofBytes : List Byte → Nat
  | [] => 0
  | b :: l => b.toNat + 256 * ofBytes l

/-- A list's elements from `i` on, `n` of them. -/
def slice {α : Type} (l : List α) (i n : Nat) : List α := (l.drop i).take n
/-- Replace element `i`. -/
def listSet {α : Type} : List α → Nat → α → List α
  | [], _, _ => []
  | _ :: t, 0, x => x :: t
  | a :: t, i + 1, x => a :: listSet t i x
/-- Elements with their positions, counted from `n`. -/
def enum {α : Type} : Nat → List α → List (Nat × α)
  | _, [] => []
  | n, a :: t => (n, a) :: enum (n + 1) t
/-- The largest of a list, at least 0. -/
def maxOf (l : List Nat) : Nat := l.foldl max 0

end Sys2Proof.Machine
end

