-- ==== Sys2Proof/Machine/Alu.lean ====
section
/-! DEFINITION. Integer arithmetic at a width `w` of 32 or 64 (08 R184 to R189): exact, then narrowed. -/

namespace Sys2Proof.Machine

/-- A w-bit source read as signed, or as unsigned under .uns (08 R184). -/
def intVal (uns : Bool) {w : Nat} (a : BitVec w) : Int := if uns then (a.toNat : Int) else a.toInt
/-- The exact result x narrowed: clamped under .sat, else modulo 2^w (08 R184, 00 R10). -/
def narrow (w : Nat) (sat uns : Bool) (x : Int) : BitVec w :=
  if sat then
    if uns then BitVec.ofInt w (max 0 (min x (2 ^ w - 1)))
    else BitVec.ofInt w (max (-(2 ^ (w - 1))) (min x (2 ^ (w - 1) - 1)))
  else BitVec.ofInt w x

/-- The arithmetic forms of 08 R184. -/
inductive Arith where
  | add | sub | mul | mad
  deriving DecidableEq, Repr
def Arith.exact : Arith → Int → Int → Int → Int
  | .add, a, b, _ => a + b
  | .sub, a, b, _ => a - b
  | .mul, a, b, _ => a * b
  | .mad, a, b, c => a * b + c
def arith (f : Arith) (sat uns : Bool) (w : Nat) (a b c : BitVec w) : BitVec w :=
  narrow w sat uns (f.exact (intVal uns a) (intVal uns b) (intVal uns c))
def mulHi (uns : Bool) (w : Nat) (a b : BitVec w) : BitVec w := BitVec.ofInt w (intVal uns a * intVal uns b / 2 ^ w)
def intMin (uns : Bool) (w : Nat) (a b : BitVec w) : BitVec w := if intVal uns a < intVal uns b then a else b
def intMax (uns : Bool) (w : Nat) (a b : BitVec w) : BitVec w := if intVal uns a > intVal uns b then a else b

/-- The shifts of 08 R185: the count is b[7:0], and a count of w or more empties the word. -/
inductive Shift where
  | shl | shr | sar
  deriving DecidableEq, Repr
def shift (f : Shift) (w : Nat) (a b : BitVec w) : BitVec w :=
  let n := b.toNat % 256
  match f with
  | .shl => if n ≥ w then 0 else a <<< n
  | .shr => if n ≥ w then 0 else a >>> n
  | .sar => if n ≥ w then (if a.msb then BitVec.allOnes w else 0) else a.sshiftRight n
/-- Funnel shifts: a is the high word, c the low word (08 R185). -/
def funnel (left : Bool) (a b c : BitVec 32) : BitVec 32 :=
  let y : BitVec 64 := a ++ c
  if left then (y <<< (b.toNat % 32)).extractLsb' 32 32 else (y >>> (b.toNat % 32)).setWidth 32
def popCount (w : Nat) (a : BitVec w) : BitVec w := BitVec.ofNat w ((List.range w).filter fun i => a.getLsbD i).length
def leadZeros (w : Nat) (a : BitVec w) : BitVec w :=
  BitVec.ofNat w ((List.range w).takeWhile fun i => !a.getLsbD (w - 1 - i)).length
/-- The word whose bit i is `f i`. -/
def ofBits (w : Nat) (f : Nat → Bool) : BitVec w :=
  BitVec.ofNat w ((List.range w).foldl (fun x i => if f i then x + 2 ^ i else x) 0)
def bitRev (w : Nat) (a : BitVec w) : BitVec w := ofBits w fun i => a.getLsbD (w - 1 - i)
/-- BFX: the position is b[7:0] and the length b[15:8], both at most w (08 R185). -/
def bitExtract (uns : Bool) (w : Nat) (a b : BitVec w) : BitVec w :=
  let pos := min (b.toNat % 256) w
  let len := min (b.toNat / 256 % 256) w
  let y := if uns then a >>> pos else a.sshiftRight pos
  if len = 0 then 0 else if uns then (y.setWidth len).setWidth w else (y.setWidth len).signExtend w
def bitInsert (w : Nat) (a b c : BitVec w) : BitVec w :=
  let pos := b.toNat % 256
  let len := min (b.toNat / 256 % 256) w
  let m : BitVec w := BitVec.ofNat w (2 ^ len - 1) <<< pos
  (c &&& ~~~m) ||| ((a <<< pos) &&& m)
/-- LOP3: bit i of the result is entry 4 a[i] + 2 b[i] + c[i] of the table (08 R186). -/
def lop3 (lut : BitVec 8) (w : Nat) (a b c : BitVec w) : BitVec w :=
  ofBits w fun i => lut.getLsbD (4 * b2n (a.getLsbD i) + 2 * b2n (b.getLsbD i) + b2n (c.getLsbD i))
/-- Comparisons of 08 R187. -/
def intCompare (uns : Bool) (c : Cmp) (w : Nat) (a b : BitVec w) : Bool :=
  let x := intVal uns a
  let y := intVal uns b
  match c with
  | .eq => x == y
  | .ne => x != y
  | .lt => decide (x < y)
  | .le => decide (x ≤ y)
  | .gt => decide (x > y)
  | .ge => decide (x ≥ y)
/-- LEA: b' is b extended, or the immediate (08 R189). -/
def leaSum (sh w : Nat) (a b' : BitVec w) : BitVec w := a + (b' <<< sh)

/-- An operation of one width run on 64-bit containers: at 64 bits, or at 32 with the upper half zero. -/
def at1 (f : (w : Nat) → BitVec w → BitVec w) (b64 : Bool) (a : BitVec 64) : BitVec 64 :=
  if b64 then f 64 a else (f 32 (a.setWidth 32)).setWidth 64
def at2 (f : (w : Nat) → BitVec w → BitVec w → BitVec w) (b64 : Bool) (a b : BitVec 64) : BitVec 64 :=
  if b64 then f 64 a b else (f 32 (a.setWidth 32) (b.setWidth 32)).setWidth 64
def at3 (f : (w : Nat) → BitVec w → BitVec w → BitVec w → BitVec w) (b64 : Bool) (a b c : BitVec 64) : BitVec 64 :=
  if b64 then f 64 a b c else (f 32 (a.setWidth 32) (b.setWidth 32) (c.setWidth 32)).setWidth 64
def atCmp (f : (w : Nat) → BitVec w → BitVec w → Bool) (b64 : Bool) (a b : BitVec 64) : Bool :=
  if b64 then f 64 a b else f 32 (a.setWidth 32) (b.setWidth 32)

end Sys2Proof.Machine
end

