-- ==== Sys2Proof/Machine/Mem.lean ====
section
/-! DEFINITION. Physical memory and its homes: tiers, slices, write stamps and leases, pending bundle versions, the service cores' copies. -/

namespace Sys2Proof.Machine

/-! ### Physical keys -/

/-- A byte's key: its module, tier and physical address. -/
def physKey (modu tier pa : Nat) : Nat := modu * 2 ^ 55 + tier * 2 ^ 52 + pa
def keyPa (k : Nat) : Nat := k % 2 ^ 52
def keyTier (k : Nat) : Nat := k / 2 ^ 52 % 8
def keyMod (k : Nat) : Nat := k / 2 ^ 55
/-- The key of a translated address; tiers 3 and 4 are the peer's tiers 0 and 1, and this module's own index is served as tier 0 or 1
    (03 R66, R67). -/
def tierKey (tier peer pa : Nat) : Nat :=
  if tier = 3 ∨ tier = 4 then physKey peer (tier - 3) pa else physKey Config.selfModule tier pa
def lineOf (k : Nat) : Nat := k / 128
/-- The frame address limit of a tier (03 R66). -/
def State.tierLimit (s : State) (tier : Nat) : Nat :=
  match tier with
  | 0 | 3 => Config.tier0Bytes
  | 1 | 4 => Config.tier1Bytes
  | 2 => s.links.pool
  | _ => 2 ^ 52

/-- The die that owns a tier 6 block (03 R394). -/
def mmioDie (pa : Nat) : Nat :=
  if pa / 2 ^ 16 = 0x10 then 1
  else if 0x100 ≤ pa / 2 ^ 16 ∧ pa / 2 ^ 16 < 0x100 + Config.clusters then (pa / 2 ^ 16 - 0x100) / 18 else 0
/-- The home die of a physical address on its own module (04 R87). -/
def homeDie (k : Nat) : Nat :=
  match keyTier k with
  | 0 => fld (keyPa k) 14 1
  | 1 => fld (keyPa k) 12 1
  | 2 => 0
  | 6 => mmioDie (keyPa k)
  | _ => 1
/-- The die of the local slice that serves a line: a peer line's proxy, or the home (04 R87). -/
def localDie (k : Nat) : Nat := if keyMod k = Config.selfModule then homeDie k else fld (keyPa k) 12 1
/-- The slice on its die (04 R87). -/
def homeSlice (k : Nat) : Nat :=
  match keyTier k with
  | 0 => fld (keyPa k) 15 5 ^^^ fld (keyPa k) 20 5
  | 1 => fld (keyPa k) 13 5 ^^^ fld (keyPa k) 18 5
  | _ => fld (keyPa k) 12 5 ^^^ fld (keyPa k) 17 5
/-- A slice of any module, by number. -/
def sliceOf (line : Nat) : Nat := keyMod (line * 128) * 64 + homeDie (line * 128) * 32 + homeSlice (line * 128)
/-- The local slice of a peer line's proxy (04 R87, R100). -/
def proxySlice (line : Nat) : Nat :=
  Config.selfModule * 64 + localDie (line * 128) * 32 + (fld (keyPa (line * 128)) 13 5 ^^^ fld (keyPa (line * 128)) 18 5)
/-- No cache holds tier 5 or tier 6 (17 R362, 04 R87). -/
def uncached (k : Nat) : Bool := keyTier k == 5 || keyTier k == 6

/-! ### Bytes -/

/-- What a byte that nothing has written reads as (log 4). -/
def freshByte : Byte := 0
/-- The committed byte at a key. -/
def State.byte (s : State) (k : Nat) : Byte := s.mem.getD k freshByte
def State.setByte (s : State) (k : Nat) (b : Byte) : State := { s with mem := s.mem.putD freshByte k b }
def State.bytes (s : State) (k n : Nat) : List Byte := (List.range n).map fun i => s.byte (k + i)
def State.num (s : State) (k n : Nat) : Nat := ofBytes (s.bytes k n)
/-- Memory with bytes stored from a key on. -/
def putBytes (m : Tab Byte) : Nat → List Byte → Tab Byte
  | _, [] => m
  | k, b :: l => putBytes (m.putD freshByte k b) (k + 1) l
/-- Marks of the 32-byte sectors that a write covers whole are cleared (16 R357). -/
def clearMarks (p : Tab Unit) (k n : Nat) : Tab Unit :=
  p.filter fun m => !(k ≤ m.1 * 32 && m.1 * 32 + 32 ≤ k + n)
def State.setBytes (s : State) (k : Nat) (l : List Byte) : State :=
  { s with mem := putBytes s.mem k l, poison := clearMarks s.poison k l.length }
/-- Some byte of a range lies in a poisoned sector (16 R357). -/
def State.poisoned (s : State) (k n : Nat) : Bool := s.poison.any fun m => m.1 * 32 < k + n && k < m.1 * 32 + 32
/-- Every sector of a range is marked (16 R357). -/
def State.markPoison (s : State) (k n : Nat) : State :=
  { s with poison := (List.range ((k + n + 31) / 32 - k / 32)).foldl (fun p i => p.put (k / 32 + i) ()) s.poison }
/-- Memory in its canonical form: keys rise, and no entry equals what an unlisted byte reads as. -/
def Memory.wf (m : Tab Byte) : Bool := m.rises && m.all fun e => e.2 != freshByte

/-! ### Service cores' copies (04 R99 to R103) -/

/-- A service core; one not used yet has only counted its ticks (04 R95). -/
def State.hart (s : State) (h : Nat) : Hart := s.harts.getD h { pts := s.cycle / 16, ticks := s.cycle / 16 }
def State.setHart (s : State) (h : Nat) (x : Hart) : State := { s with harts := s.harts.put h x }
def State.updHart (s : State) (h : Nat) (f : Hart → Hart) : State := s.setHart h (f (s.hart h))

/-- A copy leaves a service core: its line, and a reservation on it. -/
def dropCopy (line : Nat) (x : Hart) : Hart :=
  { x with cache := x.cache.del line, resv := if x.resv.map (·.1) = some line then none else x.resv }
/-- The data of a copy whose owner may have written it. -/
def dirtyCopy (x : Hart) (line : Nat) : Option (List Byte) :=
  match x.cache.get? line with
  | some c => if c.st = .m ∨ c.st = .o ∨ c.st = .e then some c.data else none
  | none => (x.wb.get? line).map (·.2)

def State.homeRec? (s : State) (line : Nat) : Option HomeLine := s.homes.get? line
/-- What a home holds for a line; a line not present starts from its slice's MEMTS (04 R88). -/
def State.home (s : State) (line : Nat) : HomeLine :=
  s.homes.getD line { wts := s.memts.getD (sliceOf line) 0, rts := s.memts.getD (sliceOf line) 0 }
def State.setHomeRec (s : State) (line : Nat) (h : HomeLine) : State := { s with homes := s.homes.put line h }

def Dir.stable (d : Dir) : Bool := d.st == .i || d.st == .s || d.st == .em || d.st == .o

/-- The committed data of a line as its agents see it now: the owner's, or a forward's on its way home, or the home's. -/
def State.current (s : State) (line : Nat) : List Byte :=
  match (s.msgs.find? fun m => m.2.kind == .fwdack && m.2.line == line && m.2.data.isSome) with
  | some m => m.2.data.getD []
  | none =>
    match (s.home line).dir.owner.bind fun o => dirtyCopy (s.hart o) line with
    | some d => d
    | none => s.bytes (line * 128) 128

/-- Messages that carry requests to a home. -/
def MsgKind.isRequest : MsgKind → Bool
  | .gets | .getm | .upgrade => true
  | _ => false
/-- Data or permission for a core. -/
def Msg.grants (m : Msg) : Bool :=
  match m.kind with
  | .datas | .datae | .datam | .upgack => true
  | _ => false
def State.sendMsg (s : State) (m : Msg) : State := { s with msgs := s.msgs.put s.msgs.next m }
/-- Requests of service cores that a line's transaction holds: the winner, then those queued. -/
def State.heldRequests (s : State) (line : Nat) : List Msg :=
  let d := (s.home line).dir
  (match d.winner with
    | some (k, c, p) => if ((s.hart c).want.map (·.1)) = some line then [{ kind := k, core := c, line := line, pts := p }] else []
    | none => []) ++ d.queue.filterMap fun q => match q with
      | .msg m => some m
      | .req _ => none
/-- A hart whose line is taken back: a grant on its way is as if taken back at once, and its access asks again. -/
def dropLine (line : Nat) (granted : Bool) (x : Hart) : Hart :=
  let mine := fun {α : Type} (o : Option (Nat × α)) => if o.map (·.1) = some line then none else o
  { dropCopy line x with wb := x.wb.del line, part := mine x.part, granted := mine x.granted,
                         want := if granted || x.granted.map (·.1) = some line then mine x.want else x.want }
/-- The service cores of a vector. -/
def coresOf (m : BitVec 24) : List Nat := (List.range 24).filter fun i => m.getLsbD i
/-- A recall made whole within one step, for an engine's or a device agent's access (log 51): every message of the line's transactions is
    taken as delivered and answered, every service-core copy is back, its data at the home under a stamp not below its owner's time, the
    directory empty; requests of service cores stand before the home again. -/
def State.recallNow (s : State) (line : Nat) : State :=
  let h := s.home line
  if h.dir.st = .i then s
  else
    let data := s.current line
    let t := match h.dir.owner with
      | some o => (s.hart o).pts
      | none => 0
    let u := maxOf ((coresOf h.dir.sharers).map fun c => (s.hart c).pts)
    let due := fun (c : Nat) => h.dir.winner.map (·.2.1) != some c && s.msgs.any fun e => e.2.line == line && e.2.grants && e.2.core == c
    let s1 : State := { s with mem := putBytes s.mem (line * 128) data,
                               harts := s.harts.map fun (e : Nat × Hart) => (e.1, dropLine line (due e.1) e.2),
                               msgs := s.msgs.filter fun e => e.2.line != line || e.2.kind.isRequest }
    let s1 := s1.setHomeRec line { h with dir := {}, wts := max h.wts t, rts := max (max h.rts t) u }
    (s.heldRequests line).foldl State.sendMsg s1

/-- Bytes written over a line's data. -/
def overlay (data : List Byte) : Nat → List Byte → List Byte
  | _, [] => data
  | i, b :: l => overlay (listSet data i b) (i + 1) l
/-- A recall: FwdGetM to the owner with the home as requester, Inv to each sharer (04 R102). -/
def State.startRecall (s : State) (line : Nat) (held : Option Nat := none) : State :=
  let h := s.home line
  let d := h.dir
  let s := match d.owner with
    | some o => s.sendMsg { kind := .fwdgetm, core := o, line := line }
    | none => s
  let s := (coresOf d.sharers).foldl (fun s c => s.sendMsg { kind := .inv, core := c, line := line }) s
  s.setHomeRec line { h with dir := { d with st := .recall, acks := d.sharers, winner := none, fwdOut := d.owner.isSome, held := held } }

/-! ### Room in a slice (04 R88, R89) -/

/-- A line that no service core holds leaves its slice: MEMTS rises to its expiry (04 R88, R89). -/
def State.evictLine (s : State) (line : Nat) : State :=
  let t := sliceOf line
  { s with memts := s.memts.put t (max (s.memts.getD t 0) (s.home line).rts), homes := s.homes.del line }
/-- A line of a slice that may leave it: no service-core copy, no pending version, no reference that waits for its notice; LDNT's first, then
    the lowest-numbered (04 R89, 06 R135, 11 R241, R245; which one is a DESIGN CHOICE, log 71). -/
def HomeLine.mayLeave (h : HomeLine) : Bool := h.dir.st == .i && h.pend.isEmpty && h.ref.isNone && h.cap.isNone
def State.victim (s : State) (slice : Nat) : Option Nat :=
  let c := s.homes.filter fun e => sliceOf e.1 == slice && e.2.mayLeave
  ((c.find? fun e => e.2.nt).or c.head?).map (·.1)
/-- Lines of a 4 MB slice (04 R87). -/
def sliceLines : Nat := 32768
/-- Lines that a slice holds, the proxies' copies of peer lines with them (04 R87, R100). -/
def State.sliceCount (s : State) (slice : Nat) : Nat :=
  (s.homes.filter fun e => sliceOf e.1 == slice).length + (s.proxies.filter fun e => proxySlice e.1 == slice).length
/-- One line leaves a slice; where each has a service-core copy, one is recalled first, and the slice holds a line more meanwhile (04 R89; log
    71). -/
def State.oneLeaves (s : State) (slice : Nat) : State :=
  match s.victim slice with
  | some v => s.evictLine v
  | none =>
    match s.proxies.find? fun e => proxySlice e.1 == slice with
    | some e => { s with proxies := s.proxies.del e.1 }
    | none =>
      match s.homes.find? fun e => sliceOf e.1 == slice && e.2.dir.stable && e.2.dir.st != .i && e.2.pend.isEmpty with
      | some e => s.startRecall e.1
      | none => s
/-- Room for a line in a slice. -/
def State.makeRoom (s : State) (slice : Nat) : State :=
  let n := s.sliceCount slice
  if n < sliceLines then s
  else if n = sliceLines then s.oneLeaves slice
  else (s.oneLeaves slice).oneLeaves slice
/-- Store a home's record, evicting when its slice is full. -/
def State.setHome (s : State) (line : Nat) (h : HomeLine) : State :=
  if (s.homes.get? line).isSome then s.setHomeRec line h else (s.makeRoom (sliceOf line)).setHomeRec line h

/-! ### Leases and stamps (04 R96) -/

/-- A lease on a pool line never doubles (04 R104). -/
def isPool (line : Nat) : Bool := keyTier (line * 128) == 2
/-- `Write` of 04 R96: the stamp, after every lease and at least the writer's time. -/
def State.stamp (s : State) (line pts : Nat) : State × Nat :=
  let h := s.home line
  let w := max (h.rts + 1) pts
  (s.setHome line { h with wts := w, rts := w, lease := 16 }, w)
/-- Entries of the pool snoop filter (04 R104). -/
def filterEntries : Nat := 2097152
def State.filterAdd (s : State) (line : Nat) : State := { s with links := { s.links with filter := s.links.filter ++ [line] } }
/-- `Write`, where a pool line is cached only under an entry of the snoop filter (04 R104): it takes a free entry, and with none free the write
    leaves no line, its stamp the slice's MEMTS. -/
def State.writeStamp (s : State) (line pts : Nat) : State × Nat :=
  if !isPool line || s.links.filter.contains line then s.stamp line pts
  else if s.links.filter.length < filterEntries then (s.filterAdd line).stamp line pts
  else
    let w := max (max (s.home line).rts (s.memts.getD (sliceOf line) 0) + 1) pts
    ({ s with memts := s.memts.put (sliceOf line) w, homes := s.homes.del line }, w)
/-- `ReadLease` of 04 R96, with the cap of a preparing bundle (11 R243): the stamp, the expiry granted (none when capped), and whether the
    answer is a renewal without data. -/
def State.readLease (s : State) (line pts : Nat) (renewal : Option Nat) : State × Nat × Option Nat × Bool :=
  let h := s.home line
  match h.cap with
  | some c =>
    if pts > c then (s, h.wts, none, false)
    else (s.setHome line h, h.wts, some (min c (max h.wts pts + h.lease)), false)
  | none =>
    let same := renewal = some h.wts
    let lease := if same && !isPool line then min (2 * h.lease) 4096 else h.lease
    let grant := max h.wts pts + lease
    let s := s.setHome line { h with lease := lease, rts := max h.rts grant }
    let s := if isPool line then { s with links := { s.links with poolLease := s.links.poolLease.put line s.cycle } } else s
    (s, h.wts, some grant, same)

/-! ### Writes at the home -/

/-- The links of the groups and harts on a line are broken: by a back-invalidation of a pool line (06 R148), or by a write to a line of tier 5,
    which has no stamp that would show it (17 R362; 05 R122). -/
def breakLinks (line : Nat) (l : Option Link) : Option Link :=
  l.map fun k => if k.lines.any fun e => e.2.1 == line then { k with broken := true } else k
def State.breakLinksOn (s : State) (line : Nat) : State :=
  { s with groups := s.groups.map fun (e : Nat × Group) => (e.1, { e.2 with link := breakLinks line e.2.link }),
           harts := s.harts.map fun (e : Nat × Hart) => (e.1, { e.2 with link := breakLinks line e.2.link }) }

/-- A module (its number has six bits) is reachable over some route in state UP (17 R366). -/
def State.reachable (s : State) (m : Nat) : Bool := m == Config.selfModule || s.links.reach.getLsbD (m % 64)
/-- The pool owes a completion for a write (17 R374). -/
def State.owePool (s : State) (w : OutWrite) : State :=
  { s with links := { s.links with poolOut := s.links.poolOut.put s.links.poolOut.next w } }
/-- A checkpoint in progress makes writes to tier 0 and to its region wait at their homes (18 R381). -/
def State.ckptHolds (s : State) (k : Nat) : Bool :=
  match s.plat.ckpt with
  | some (_, region) => keyMod k == Config.selfModule && (keyTier k == 0 || (keyTier k == 1 && keyPa k / 2 ^ 39 == region))
  | none => false
/-- The header of a live bundle's record that a write of n bytes touches: its key (11 R238). -/
def State.liveHeader (s : State) (k n : Nat) : Option Nat :=
  (s.bundles.find? fun e => (match e.2.st with
    | .opened | .doomed | .closing | .committed => true
    | _ => false) && decide (k < e.2.recKey + 64) && decide (e.2.recKey < k + n)).map (·.2.recKey)
/-- A record waits in a bin, or on its way to one. -/
def State.recordsWait (s : State) : Bool := !s.inflight.isEmpty || s.bins.any fun e => !e.2.recs.isEmpty
/-- A store of n bytes in tier 0 of this module is noted while records wait: it may reach a record pool (13 R277, R278). -/
def State.noteStore (s : State) (k n : Nat) : State :=
  if s.recordsWait && keyMod k == Config.selfModule && keyTier k == 0 then { s with storeOut := s.storeOut ++ [(k, n)] } else s
/-- What such a write leaves there: 512 bits that nothing fixes (11 R238). -/
def State.spoiltHeader (s : State) : List Byte := toBytes 64 (Config.free s.fresh 786600)
/-- The bytes of one line change at its home, with a stamp (04 R96, R103); no stamp governs tier 5 (17 R362), and a write to tier 6
    acts on the register there (15 R391). A write to an unreachable
    peer is held at this module (17 R366). The stamp returned is 0 for those. -/
def State.homeStore (s : State) (k : Nat) (bs : List Byte) (pts : Nat) (who : Nat × Nat) : State × Nat :=
  let line := lineOf k
  if !s.reachable (keyMod k) then
    ({ s with links := { s.links with out := s.links.out ++ [{ peer := keyMod k, key := k, bytes := bs, group := who.1, gio := who.2 }] } }, 0)
  else if keyTier k = 6 then ({ s with regOut := s.regOut ++ [(keyPa k, bs)] }, 0)
  else if uncached k then ((s.breakLinksOn line).setBytes k bs, 0)
  else if s.ckptHolds k then ({ s with plat := { s.plat with ckptHeld := s.plat.ckptHeld ++ [(k, bs)] } }, 0)
  else
    let (s, w) := (s.recallNow line).writeStamp line pts
    let s := if keyTier k = 2 ∧ keyMod k = Config.selfModule then
        s.owePool { peer := 0xFF, key := k, bytes := bs, group := who.1, gio := who.2 } else s
    (s.setBytes k bs, w)
/-- A program's, an engine's or a device agent's write at the home: a live record's header keeps no known value (11 R238), nor do the
    records of a pool that it touches (13 R278; `State.performStores`). -/
def State.homeWrite (s : State) (k : Nat) (bs : List Byte) (pts : Nat) (who : Nat × Nat) : State × Nat :=
  let r := (s.noteStore k bs.length).homeStore k bs pts who
  match s.liveHeader k bs.length with
  | some h => r.1.homeStore h s.spoiltHeader pts who
  | none => r
/-- Nobody's write: an engine's or the device's. -/
def noGroup : Nat × Nat := (2 ^ 20, 0)
/-- The logical time of an engine or a device agent: the latest of any core's, service core's or engine's (05 R118; log 28). -/
def State.devTime (s : State) : Nat := max s.devPts (max (maxOf (s.cores.map (·.2.pts))) (maxOf (s.harts.map (·.2.pts))))
/-- Bytes of any length, line by line in increasing order (17 R363). `fuel` bounds the number of lines. -/
def State.deviceWriteN : Nat → State → Nat → List Byte → State
  | 0, s, _, _ => s
  | fuel + 1, s, k, bs =>
    if bs = [] then s
    else
      let n := min bs.length (128 - k % 128)
      let r := s.homeWrite k (bs.take n) s.devTime noGroup
      State.deviceWriteN fuel { r.1 with devPts := max r.1.devPts r.2 } (k + n) (bs.drop n)
/-- A write by a device agent or an engine, at the homes. -/
def State.deviceWrite (s : State) (k : Nat) (bs : List Byte) : State := s.deviceWriteN (bs.length / 128 + 2) k bs

/-! ### Pending bundle versions (11 R240 to R247) -/

def Pending.names (p : Pending) (modu : Nat) (h : BitVec 16) : Bool := p.modu == modu && p.handle == h
/-- Pending lines of a slice (11 R241). -/
def State.pendingLines (s : State) (slice : Nat) : Nat :=
  ((s.homes.filter fun e => sliceOf e.1 == slice).map fun e => e.2.pend.length).sum
def putAt (k : Nat) (m : Tab Byte) : List (Nat × Byte) → Tab Byte
  | [] => m
  | (i, b) :: l => putAt k (m.putD freshByte (k + i) b) l
/-- Every byte of a sector lies in a pending version. -/
def Pending.covers (p : Pending) (sector : Nat) : Bool := (List.range 32).all fun i => (p.bytes.get? (32 * sector + i)).isSome
/-- Step 5 of 11 R243 at one line: the masked bytes become the committed version under a stamp of at least `t`, a sector that they cover whole
    loses its poison mark (16 R357), and a line of a companion range takes the reference of R245. -/
def State.installPending (s : State) (line : Nat) (p : Pending) (t : Nat) : State :=
  let (s, _) := (s.recallNow line).stamp line t
  let h := s.home line
  let s := s.setHomeRec line { h with
    pend := (h.pend.filter fun q => !q.names p.modu p.handle), cap := none, noCache := false,
    ref := if p.companion then some { modu := p.modu, handle := p.handle, scope := p.scope, t := t } else h.ref }
  { s.noteStore (line * 128) 128 with
           mem := putAt (line * 128) s.mem p.bytes,
           poison := s.poison.filter fun m => !(m.1 / 4 == line && p.covers (m.1 % 4)) }
/-- The retained-version fetch of 11 R247, for one horizon entry. -/
def State.retained (s : State) (line : Nat) (e : Horizon) : State :=
  match (s.home line).pend.find? fun p => p.names e.modu e.handle with
  | some p => s.installPending line p e.t
  | none => s
def State.retainedAll (s : State) (line : Nat) (hz : List Horizon) : State := hz.foldl (fun s e => s.retained line e) s
/-- Every pending version of a bundle at one home, or at every home (none), is dropped (11 R244). -/
def State.dropPending (s : State) (modu : Nat) (h : BitVec 16) (home : Option Nat) : State :=
  { s with homes := s.homes.map fun e => (e.1,
      if home.all (· == sliceOf e.1) && e.2.pend.any (·.names modu h) then
        { e.2 with pend := e.2.pend.filter (fun p => !p.names modu h), cap := none, noCache := false }
      else e.2) }

/-! ### Reads at the home -/

/-- The stamp that a read of a line at its home meets: the home's, and where a service core owns the line that core's time, which its own
    writes there have reached (04 R95, R103; 05 R117; log 69). -/
def State.lineStamp (s : State) (line : Nat) : Nat :=
  match (s.home line).dir.owner with
  | some o => max (s.home line).wts (s.hart o).pts
  | none => (s.home line).wts
/-- The committed bytes of a range as every agent's copies now stand. `fuel` bounds the number of lines. -/
def State.currentN : Nat → State → Nat → Nat → List Byte
  | 0, _, _, _ => []
  | fuel + 1, s, k, n =>
    if n = 0 then []
    else
      let m := min n (128 - k % 128)
      slice (s.current (lineOf k)) (k % 128) m ++ State.currentN fuel s (k + m) (n - m)
/-- A read by a device agent or an engine, at the homes. -/
def State.deviceRead (s : State) (k n : Nat) : List Byte := s.currentN (n / 128 + 2) k n
def State.deviceNum (s : State) (k n : Nat) : Nat := ofBytes (s.deviceRead k n)

end Sys2Proof.Machine
end

