-- ==== Sys2Proof/Machine/Ops.lean ====
section
/-! DEFINITION. The named operations that the meanings share: groups, splits and their registers, free values, events, the entry of a
trap and the return from one. -/

namespace Sys2Proof.Machine

/-- What a meaning answers. -/
abbrev Out := Host.Outcome State Fault Refusal

/-! ### Free values (log 3) -/

/-- The free value that this step draws under index `i`, below 2^w. -/
def State.free (s : State) (w i : Nat) : BitVec w := BitVec.ofNat w (Config.free s.fresh i)

/-! ### Groups and splits -/

def State.group? (s : State) (k : Nat) : Option Group := s.groups.get? k
def State.setGroup (s : State) (k : Nat) (g : Group) : State := { s with groups := s.groups.put k g }
def State.updGroup (s : State) (k : Nat) (f : Group → Group) : State := { s with groups := s.groups.upd k f }
def State.team? (s : State) (t : Nat) : Option Team := s.teams.get? t
def State.updTeam (s : State) (t : Nat) (f : Team → Team) : State := { s with teams := s.teams.upd t f }
def State.teamOf (s : State) (g : Group) : Option Team := s.team? g.team
def coreOf (k : Nat) : Nat := k / 64
def clusterOf (core : Nat) : Nat := core / 4
def dieOfCore (core : Nat) : Nat := core / 72
def dieOfCluster (c : Nat) : Nat := c / 18
/-- The context of a group (00 R4). -/
def State.asidOf (s : State) (g : Group) : BitVec 16 := ((s.teamOf g).map (·.asid)).getD 0
/-- A context that is resident, by its ASID. -/
def State.ctx (s : State) (asid : BitVec 16) : Option Ctx := s.ctxs.get? asid.toNat

/-- The split that holds a lane. -/
def Group.split? (g : Group) (lane : Nat) : Option Split := g.splits.find? fun x => x.mask.getLsbD lane
def Group.updSplit (g : Group) (lane : Nat) (f : Split → Split) : Group :=
  { g with splits := g.splits.map fun x => if x.mask.getLsbD lane then f x else x }
/-- The issuer of the instruction that `exec` performs: its group's key, the group, and the split. -/
def State.issuer? (s : State) : Option (Nat × Group × Split) :=
  match s.cur with
  | .grp k lane => (s.group? k).bind fun g => (g.split? lane).map fun x => (k, g, x)
  | _ => none
/-- A group instruction: what it does for its issuer. With no issuer it has no effect: no agent executes it. -/
def onIssuer (s : State) (f : Nat → Group → Split → State) : Out :=
  .next (match s.issuer? with
    | some (k, g, x) => f k g x
    | none => s)
/-- The word has not issued, or its clause is over: the step does not pass to the next word. -/
def State.halt (s : State) : State := { s with cur := .none }

/-! ### Registers (08 R172 to R175, 02 R38, R45, R52) -/

/-- An instruction in flight writes that vector register in that lane (02 R38). -/
def Group.vPending (g : Group) (n l : Nat) : Bool := g.ops.any fun o => o.vd.contains n && o.mask.getLsbD l
def Group.sPending (g : Group) (n : Nat) : Bool := g.ops.any fun o => o.sd.contains n
/-- The lanes of a predicate that instructions in flight write. -/
def Group.pPending (g : Group) (n : Nat) : LaneMask := ((g.ops.filter fun o => o.pd == some n).map (·.mask)).foldl (· ||| ·) 0

/-- V[n][l]: v255 reads zero; a register that an instruction in flight writes, or of a lane that has exited (log 21), reads as a free
    value; inside a pair word every read takes the value from before the word. -/
def State.readV (s : State) (g : Group) (n l : Nat) : LaneWord :=
  if n = 255 then 0
  else if g.vPending n l || !g.live.getLsbD l then s.free 32 (64 * n + l)
  else (s.pairV.getD g.v).getD (64 * n + l) 0
/-- V[n+1][l] : V[n][l]. -/
def State.readV64 (s : State) (g : Group) (n l : Nat) : BitVec 64 := s.readV g (n + 1) l ++ s.readV g n l
/-- S[n] (08 R174). -/
def State.readS (s : State) (g : Group) (n : Nat) : BitVec 64 :=
  if g.sPending n then s.free 64 (65536 + n) else g.s.getD n 0
/-- P[n] as a lane mask: p7 is always 1 (08 R175). -/
def State.readP (s : State) (g : Group) (n : Nat) : LaneMask :=
  if n = 7 then allLanes g.width
  else if g.pPending n = 0 then g.p.getD n 0
  else (g.p.getD n 0 &&& ~~~g.pPending n) ||| (s.free 64 (131072 + n) &&& g.pPending n)

/-- Registers that another instruction writes while one in flight does become unpredictable (02 R38), in the lanes that both write. -/
def Group.spoilV (g : Group) (n : Nat) (m : LaneMask) : Group :=
  { g with ops := g.ops.map fun o =>
      if o.vd.contains n then { o with spoiltV := ((lanesOf (m &&& o.mask)).map fun l => 64 * n + l) ++ o.spoiltV } else o }
def Group.spoilS (g : Group) (n : Nat) : Group :=
  { g with ops := g.ops.map fun o => if o.sd.contains n then { o with spoiltS := n :: o.spoiltS } else o }
def Group.spoilP (g : Group) (n : Nat) (m : LaneMask) : Group :=
  { g with ops := g.ops.map fun o =>
      if o.pd = some n then { o with spoiltP := ((lanesOf (m &&& o.mask)).map fun l => 64 * n + l) ++ o.spoiltP } else o }

/-- Vector registers with `f l` stored to vn in the lanes listed. -/
def putLanes (v : Tab LaneWord) (n : Nat) (f : Nat → LaneWord) : List Nat → Tab LaneWord
  | [] => v
  | l :: t => putLanes (v.putD 0 (64 * n + l) (f l)) n f t
/-- V[n][l] := f l for the lanes of a set; v255 discards it (02 R45). -/
def Group.writeV (g : Group) (n : Nat) (m : LaneMask) (f : Nat → LaneWord) : Group :=
  if n = 255 then g else { g.spoilV n m with v := putLanes g.v n f (lanesOf m) }
/-- A 64-bit value in a pair, the low word in vn (08 R172). -/
def Group.writeV64 (g : Group) (n : Nat) (m : LaneMask) (f : Nat → BitVec 64) : Group :=
  if n = 255 then g
  else (g.writeV n m fun l => (f l).setWidth 32).writeV (n + 1) m fun l => (f l).extractLsb' 32 32
/-- S[n] := x. -/
def Group.writeS (g : Group) (n : Nat) (x : BitVec 64) : Group := { g.spoilS n with s := g.s.putD 0 n x }
/-- P[n][l] := f l for the lanes of a set; p7 discards it (08 R175). -/
def Group.writeP (g : Group) (n : Nat) (m : LaneMask) (f : Nat → Bool) : Group :=
  if n = 7 then g
  else { g.spoilP n m with p := g.p.putD 0 n ((g.p.getD n 0 &&& ~~~m) ||| (maskWhere f &&& m)) }

/-- The lanes of the issuing split that pass the guard: Active(l) (00 R8, 02 R44). -/
def State.active (s : State) (g : Group) (x : Split) (gd : Guard) : LaneMask :=
  x.mask &&& (if gd.neg then ~~~(s.readP g gd.p.toNat) else s.readP g gd.p.toNat)

/-! ### Events (16 R338 to R341) -/

/-- An event's fields (16 R339). -/
structure Event where
  die : Nat
  kind : Nat
  source : Nat
  core : Nat := 0xFF
  gslot : Nat := 0
  cause : Nat := 0
  detail : Nat := 0
  tag : Nat := 0
  asid : BitVec 16 := 0
  lanes : LaneMask := 0
  done : BitVec 64 := 0
  pc : Addr := 0
  vaddr : Addr := 0
  arg0 : BitVec 64 := 0
  arg1 : BitVec 64 := 0
  deriving DecidableEq, Repr

/-- The 64 bytes of an event, under its source's sequence number (16 R339). -/
def Event.raw (e : Event) (seq : Nat) : BitVec 512 :=
  e.arg1 ++ e.arg0 ++ e.vaddr ++ e.pc ++ e.done ++ e.lanes ++ e.asid ++ BitVec.ofNat 16 e.tag ++ BitVec.ofNat 16 e.source
    ++ BitVec.ofNat 8 e.cause ++ BitVec.ofNat 8 e.detail ++ BitVec.ofNat 32 seq ++ BitVec.ofNat 8 e.core ++ BitVec.ofNat 6 e.gslot
    ++ BitVec.ofNat 14 0 ++ BitVec.ofNat 4 e.kind

def State.die (s : State) (d : Nat) : Die := s.dies.getD d {}
def State.updDie (s : State) (d : Nat) (f : Die → Die) : State := { s with dies := s.dies.put d (f (s.die d)) }
/-- The key of a physical address as EVQ_BASE lays it out (16 R338). -/
def ringKey (x : BitVec 64) : Nat := physKey Config.selfModule (fld x.toNat 61 3) (fld x.toNat 0 52)

/-- A waiter of the wait-and-wake table is answered with a status: an instruction that sleeps becomes performed, a service core gets its
    register and goes on (06 R145, R146, R152). -/
def State.answerWaiter (s : State) (w : WaitEntry) (status : Nat) : State :=
  match w.who with
  | .op k gio _ => s.updGroup k fun g => { g with ops := g.ops.map fun o =>
      if o.gio = gio then { o with performed := true, sOut := o.sd.map fun d => (d, BitVec.ofNat 64 status) } else o }
  | .hart h => s.updHart h fun x =>
      match x.wait with
      | .waitv rd => { x with wait := .no, x := if rd = 0 then x.x else x.x.putD 0 rd.toNat (BitVec.ofNat 64 status) }
      | _ => x
  | _ => s
/-- Entries that a test selects wake, oldest first, at most `limit` of them (0: all); the number woken (06 R146). -/
def State.wakeWhere (s : State) (p : WaitEntry → Bool) (limit : Nat) : State × Nat :=
  let sel := s.waits.filter p
  let sel := if limit = 0 then sel else sel.take limit
  let s := { s with waits := s.waits.filter fun w => !sel.any fun v => v.order == w.order && v.die == w.die }
  (sel.foldl (fun s w => s.answerWaiter w 0) s, sel.length)

/-- The oldest waiting event of a die goes to its ring, the tail is mirrored and its waiters wake (16 R339). -/
def State.writeEvent (s : State) (d : Nat) : State :=
  let x := s.die d
  let size := 2 ^ (fld x.evqCfg.toNat 0 4 + 6)
  match s.evWait.find? fun e => e.die == d with
  | none => s
  | some e =>
    if x.evqBase = 0 ∨ size ≤ (x.evqTail - x.evqHead).toNat then s
    else
      let s := { s with evWait := s.evWait.eraseP fun e => e.die == d }
      let s := s.deviceWrite (ringKey x.evqBase + 64 * (x.evqTail.toNat % size)) (toBytes 64 e.raw.toNat)
      let s := s.updDie d fun x => { x with evqTail := x.evqTail + 1 }
      if x.evqTailw = 0 then s
      else
        let k := ringKey x.evqTailw
        let s := s.deviceWrite k (toBytes 8 (x.evqTail + 1).toNat)
        (s.wakeWhere (fun w => w.die == homeDie k && w.key == k) 0).1
/-- Events go to a ring while it has room. `fuel` bounds their number. -/
def State.flushEvents (s : State) (d : Nat) : Nat → State
  | 0 => s
  | fuel + 1 => (s.writeEvent d).flushEvents d fuel
/-- A source posts an event: it is written, or waits at its source (16 R339, R341). -/
def State.post (s : State) (e : Event) : State :=
  let n := s.evSeq.getD e.source 0
  let s := { s with evSeq := s.evSeq.put e.source (n + 1), evWait := s.evWait ++ [Ev.mk e.die (e.raw n)] }
  s.flushEvents e.die s.evWait.length

/-! ### Trap entry and return for a group (16 R336, R337, R347) -/

/-- Causes of 16 R337. -/
inductive Cause where
  | illegalClause | illegalOp | regRange | pageFault | misaligned | unsupportedAccess | badFree | badKick | copyError | atabConflict
  | splitOverflow | callDepth | bundleNone | nodeTarget | nodeFanout | nodeDepth | sceneBad | mseqOperand | dataPoison | softTrap
  | breakpoint
  deriving DecidableEq, Repr
def Cause.code : Cause → BitVec 8
  | .illegalClause => 0x01 | .illegalOp => 0x02 | .regRange => 0x03 | .pageFault => 0x04 | .misaligned => 0x05
  | .unsupportedAccess => 0x06 | .badFree => 0x07 | .badKick => 0x08 | .copyError => 0x09 | .atabConflict => 0x0A
  | .splitOverflow => 0x0B | .callDepth => 0x0C | .bundleNone => 0x0D | .nodeTarget => 0x0E | .nodeFanout => 0x0F
  | .nodeDepth => 0x10 | .sceneBad => 0x11 | .mseqOperand => 0x12 | .dataPoison => 0x13 | .softTrap => 0x14 | .breakpoint => 0x15

/-- The DEPTH of the record of the lowest lane of a set; 0 where the lanes hold no record (16 R340). -/
def State.depthOf (s : State) (g : Group) (m : LaneMask) : Nat :=
  if m = 0 then 0 else (((s.teamOf g).bind fun t => t.recs.get? (64 * g.gidx + lowest m)).map (·.depth)).getD 0

/-- A split enters STOPPED; a clause it runs gives up the issue slot. -/
def Split.halted (x : Split) : Split := { x with st := .stopped, run := x.run.map fun r => { r with back := true } }
/-- A group stops: every split of its table enters STOPPED and the core posts a TRAP event (16 R336, R340). A further cause against a stopped
    group posts its event and leaves the resume point (log 33). -/
def State.stopGroup (s : State) (k : Nat) (st : Stop) : State :=
  match s.group? k with
  | none => s
  | some g =>
    let s := s.setGroup k { g with stop := some (g.stop.getD st), splits := g.splits.map Split.halted }
    s.post { die := dieOfCore (coreOf k), kind := 0, source := coreOf k, core := coreOf k, gslot := k % 64,
             cause := st.cause.toNat, detail := st.detail.toNat, asid := s.asidOf g, lanes := st.lanes, done := st.done, pc := st.pc,
             vaddr := st.vaddr, arg0 := BitVec.ofNat 64 (s.depthOf g st.lanes), arg1 := st.arg1 }

/-- The word index that a split has reached. -/
def Split.idx (x : Split) : Nat := (x.run.map (·.idx)).getD 0
/-- The clause header that a split's words come from: the clause it runs, or the next. -/
def Split.header (x : Split) : Addr := x.pc
/-- The lanes a trap reports: the active lanes, or the whole split where none is active (16 R340). -/
def trapLanes (x : Split) (act : LaneMask) : LaneMask := if act = 0 then x.mask else act

/-- The issuing word traps and its group stops at that word (16 R337). -/
def State.trapAt (s : State) (k : Nat) (x : Split) (c : Cause) (act : LaneMask) (vaddr : Addr := 0) (detail : Option Nat := none) :
    State :=
  (s.stopGroup k { cause := c.code, detail := BitVec.ofNat 8 (detail.getD x.idx), pc := x.header, idx := x.idx,
                   lanes := trapLanes x act, vaddr := vaddr }).halt
/-- The issuing word traps and its group stops at its clause header (16 R337). -/
def State.trapHeader (s : State) (k : Nat) (x : Split) (c : Cause) (act : LaneMask) (detail : Option Nat := none)
    (fall : Option Addr := none) (vaddr : Addr := 0) : State :=
  let s := s.updGroup k fun g => g.updSplit (lowest x.mask) fun y => { y with run := none }
  (s.stopGroup k { cause := c.code, detail := BitVec.ofNat 8 (detail.getD x.idx), pc := x.header, idx := 0,
                   lanes := trapLanes x act, fall := fall, vaddr := vaddr }).halt

/-- A stopped split goes on: where it waited it waits again, else it is READY (16 R347). -/
def resumeSplit (x : Split) : Split :=
  if x.st = .stopped then
    { x with st := match x.wait with
      | .nothing => .ready
      | .join _ => .joinw
      | _ => .sleep }
  else x
/-- RESUME of a group: its splits go on from the resume point as it now stands (16 R347). -/
def Group.resume (g : Group) (st : Stop) : Group :=
  { g with stop := none, declined := none, splits := g.splits.map fun x =>
      let x := resumeSplit x
      if x.mask &&& st.lanes = 0 ∨ st.gio.isSome then x
      else match st.fall with
        | some f => { x with pc := f, run := none, skip := 0 }
        | none =>
          match x.run with
          | some r => if x.pc = st.pc then { x with run := some { r with idx := st.idx } }
                      else { x with pc := st.pc, run := none, skip := st.idx }
          | none => { x with pc := st.pc, skip := st.idx } }

/-! ### The sequencer's stop (16 R336, R340) -/

def State.seq? (s : State) (q : Nat) : Option Seq := s.seqs.get? q
def State.updSeq (s : State) (q : Nat) (f : Seq → Seq) : State := { s with seqs := s.seqs.upd q f }
/-- A group of a team that still runs: its key; 0xFF and 0 stand for none (16 R390). -/
def State.someGroup (s : State) (t : Nat) : Nat × Nat :=
  match (s.team? t).bind fun tm => tm.groups.find? fun k => (s.group? k).isSome with
  | some k => (coreOf k, k % 64)
  | none => (0xFF, 0)
/-- A team sequencer stops on a cause, and its core posts a TEAM_TRAP event (16 R336); a fault carries its address (R339). -/
def State.stopSeq (s : State) (q : Nat) (c : Cause) (detail : Nat) (arg1 : BitVec 64 := 0) (vaddr : Addr := 0) : State :=
  match s.seq? q with
  | none => s
  | some x =>
    let s := s.updSeq q fun x => { x with stop := some { cause := c.code, detail := BitVec.ofNat 8 detail, pc := x.pc, idx := 0, lanes := 0 } }
    let gs := s.someGroup x.team
    s.post { die := dieOfCore (q / 4), kind := 6, source := q / 4, core := q / 4, gslot := gs.2, cause := c.code.toNat,
             detail := detail, asid := ((s.team? x.team).map (·.asid)).getD 0, pc := x.pc, arg0 := x.pc, arg1 := arg1, vaddr := vaddr }

end Sys2Proof.Machine
end

