-- ==== Sys2Proof/Machine/Operands.lean ====
section
/-! DEFINITION. Operand forms: sources and destinations of the group instructions (02 R45, R46; 08 R182; 02 R48, R49). -/

namespace Sys2Proof.Machine

/-- How a short immediate extends (02 R46): sign or zero for integers, the top half of an FP32 for floats. -/
inductive ImmKind where
  | sign | zero | float
  deriving DecidableEq, Repr
def immVal (k : ImmKind) (i : BitVec 16) : BitVec 64 :=
  match k with
  | .sign => i.signExtend 64
  | .zero => i.setWidth 64
  | .float => (i.setWidth 64) <<< 16

/-- A source of one lane, in a 64-bit container (02 R46, 08 R182): a register or a pair, a scalar's low 32 bits or all 64, or the
    immediate. -/
def State.src (s : State) (g : Group) (ik : ImmKind) (b64 : Bool) (l : Nat) : Src → BitVec 64
  | .v n => if b64 then s.readV64 g n.toNat l else (s.readV g n.toNat l).setWidth 64
  | .s n => if b64 then s.readS g n.toNat else ((s.readS g n.toNat).setWidth 32).setWidth 64
  | .imm i => immVal ik i
/-- A 32-bit source. -/
def State.src32 (s : State) (g : Group) (ik : ImmKind) (l : Nat) (x : Src) : LaneWord := (s.src g ik false l x).setWidth 32
/-- A source of a scalar form (08 R182). -/
def State.ssrc (s : State) (g : Group) (ik : ImmKind) (b64 : Bool) : SSrc → BitVec 64
  | .s n => if b64 then s.readS g n.toNat else ((s.readS g n.toNat).setWidth 32).setWidth 64
  | .imm i => immVal ik i
/-- A compact half as a guard and a full form's sources: GP 3 is p7, and C is D (02 R49, R50). -/
def compactGuard (gn : Bool) (gp : BitVec 2) : Guard := { neg := gn, p := if gp = 3 then 7 else gp.setWidth 3 }
def compactB : VOrS7 → Src
  | .v n => .v (n.setWidth 8)
  | .s n => .s n

/-- A vector destination of one or two registers. -/
def Group.writeD (g : Group) (b64 : Bool) (d : BitVec 8) (m : LaneMask) (f : Nat → BitVec 64) : Group :=
  if b64 then g.writeV64 d.toNat m f else g.writeV d.toNat m fun l => (f l).setWidth 32

/-- A form that computes a vector result lane by lane, in the active lanes (00 R8). -/
def vecForm (gd : Guard) (b64 : Bool) (d : BitVec 8) (s : State) (f : Group → Nat → BitVec 64) : Out :=
  onIssuer s fun k g x => s.setGroup k (g.writeD b64 d (s.active g x gd) (f g))
/-- A form that computes a predicate lane by lane. -/
def predForm (gd : Guard) (d : BitVec 3) (s : State) (f : Group → Nat → Bool) : Out :=
  onIssuer s fun k g x => s.setGroup k (g.writeP d.toNat (s.active g x gd) (f g))
/-- A scalar form: it runs once when a lane of the split is active (08 R181). `f` receives the active lanes. -/
def scalarForm (gd : Guard) (d : BitVec 6) (s : State) (f : Group → LaneMask → BitVec 64) : Out :=
  onIssuer s fun k g x =>
    let act := s.active g x gd
    if act = 0 then s else s.setGroup k (g.writeS d.toNat (f g act))

/-- A lane's address: S[A] + V[B] × scale + offset, modulo 2^64 (02 R48). -/
def State.effAddr (s : State) (g : Group) (base : Option (BitVec 6)) (idx : BitVec 8) (scale : BitVec 2) (off : BitVec 16) (l : Nat) :
    Addr :=
  (match base with
   | some a => s.readS g a.toNat
   | none => 0) + ((s.readV g idx.toNat l).setWidth 64 <<< scale.toNat) + off.signExtend 64

end Sys2Proof.Machine
end

