-- ==== Sys2Proof/Machine/Flags.lean ====
section
/-! DEFINITION. The group's flags: the sticky flags of 01 R30, the status, mode and partition registers, predicates combined by a
comparison. -/

namespace Sys2Proof.Machine

/-- The sticky flags that one operation raises (01 R30). -/
structure Flags where
  nv : Bool := false
  dz : Bool := false
  of : Bool := false
  uf : Bool := false
  nx : Bool := false
  deriving DecidableEq, Repr
def Flags.or (a b : Flags) : Flags :=
  { nv := a.nv || b.nv, dz := a.dz || b.dz, of := a.of || b.of, uf := a.uf || b.uf, nx := a.nx || b.nx }
/-- NX, UF, OF, DZ, NV in bits 4 to 0 of the group status (12 R258). -/
def Flags.bits (f : Flags) : BitVec 5 :=
  BitVec.ofNat 5 (b2n f.nv + 2 * b2n f.dz + 4 * b2n f.of + 8 * b2n f.uf + 16 * b2n f.nx)
/-- Flags are sticky (01 R30). -/
def Group.raise (g : Group) (f : Flags) : Group := { g with flags := g.flags ||| f.bits }
/-- The flags of every lane of a set together. -/
def flagsOver (m : LaneMask) (f : Nat → Flags) : Flags := (lanesOf m).foldl (fun a l => a.or (f l)) {}

/-- How a comparison combines with a predicate (08 R183, 09 R195). -/
def combine (b : Bop) (t q : Bool) : Bool :=
  match b with
  | .and => t && q
  | .or => t || q
  | .xor => t != q
/-- P[PC][l] XOR PCN (08 R187). -/
def State.predAt (s : State) (g : Group) (pc : BitVec 3) (pcn : Bool) (l : Nat) : Bool := ((s.readP g pc.toNat).getLsbD l) != pcn

/-- The group's width code: 0 is 16, 1 is 32, 2 is 64 (12 R258). -/
def gwCode (w : Nat) : Nat := if w = 16 then 0 else if w = 32 then 1 else 2
/-- The group status register (12 R258). -/
def Group.status (g : Group) : BitVec 64 :=
  BitVec.ofNat 64 (g.flags.toNat + 32 * b2n g.jrel + 64 * b2n g.ferr + 2 ^ 18 * gwCode g.width + 2 ^ 20 * (g.gidx % 32)
    + 2 ^ 25 * (g.role % 8) + 2 ^ 30 * (g.splits.length % 8) + 2 ^ 33 * ((lanesOf g.live).length % 128)
    + 2 ^ 40 * (g.spilled.length % 65536))
/-- The mode register (08 R174). -/
def Group.mode (g : Group) : BitVec 64 := BitVec.ofNat 64 (b2n g.ftz + 2 * b2n g.atb)
/-- The partition register (08 R175). -/
def Group.part64 (g : Group) : BitVec 64 := g.tw.setWidth 64

end Sys2Proof.Machine
end

