-- ==== Sys2Proof/Machine/Num.lean ====
section
/-! DEFINITION. Numbers: the formats of 01 R14 to R23 and the one rounding of 01 R25. -/

namespace Sys2Proof.Machine

/-- A binary floating-point format: exponent bits, mantissa bits, bias, the magnitude code of its largest finite value, whether it has
    infinities that rounding can reach, and its canonical NaN (01 R14). -/
structure Fmt where
  e : Nat
  m : Nat
  bias : Nat
  maxCode : Nat
  sat : Bool
  nan : Nat
  deriving DecidableEq, Repr
def fp32 : Fmt := { e := 8, m := 23, bias := 127, maxCode := 0x7F7FFFFF, sat := false, nan := 0x7FC00000 }
def fp16 : Fmt := { e := 5, m := 10, bias := 15, maxCode := 0x7BFF, sat := false, nan := 0x7E00 }
def bf16 : Fmt := { e := 8, m := 7, bias := 127, maxCode := 0x7F7F, sat := false, nan := 0x7FC0 }
def e4m3 : Fmt := { e := 4, m := 3, bias := 7, maxCode := 0x7E, sat := true, nan := 0x7F }
def e5m2 : Fmt := { e := 5, m := 2, bias := 15, maxCode := 0x7B, sat := true, nan := 0x7E }
def e2m1 : Fmt := { e := 2, m := 1, bias := 1, maxCode := 0x7, sat := true, nan := 0 }
/-- The sign bit's weight. -/
def Fmt.signBit (f : Fmt) : Nat := 2 ^ (f.e + f.m)
def Fmt.infCode (f : Fmt) : Nat := (2 ^ f.e - 1) * 2 ^ f.m

/-- An exact number (-1)^neg × m × 2^e. -/
structure Dyadic where
  neg : Bool
  m : Nat
  e : Int
  deriving DecidableEq, Repr
/-- The value of a code (01 R15). -/
inductive Num where
  | nan
  | inf (neg : Bool)
  | fin (d : Dyadic)
  deriving DecidableEq, Repr
def Num.isNan : Num → Bool
  | .nan => true
  | _ => false
def Num.isInf : Num → Bool
  | .inf _ => true
  | _ => false
def Num.isZero : Num → Bool
  | .fin d => d.m == 0
  | _ => false
def Num.isNeg : Num → Bool
  | .nan => false
  | .inf n => n
  | .fin d => d.neg

/-- `Decode` of 01 R15. -/
def Fmt.decode (f : Fmt) (w : Nat) : Num :=
  let s := w / f.signBit % 2 == 1
  let e := w / 2 ^ f.m % 2 ^ f.e
  let m := w % 2 ^ f.m
  if f = e4m3 ∧ e = 15 ∧ m = 7 then .nan
  else if f ≠ e4m3 ∧ f ≠ e2m1 ∧ e = 2 ^ f.e - 1 then (if m = 0 then .inf s else .nan)
  else if e = 0 then .fin { neg := s, m := m, e := 1 - (f.bias : Int) - f.m }
  else .fin { neg := s, m := 2 ^ f.m + m, e := (e : Int) - f.bias - f.m }

/-- An exact sum; the zero of a cancelled sum is positive here, and `sumSign` gives its sign. -/
def Dyadic.add (a b : Dyadic) : Dyadic :=
  let e := min a.e b.e
  let x : Int := (if a.neg then -1 else 1) * (a.m * 2 ^ (a.e - e).toNat) + (if b.neg then -1 else 1) * (b.m * 2 ^ (b.e - e).toNat)
  { neg := x < 0, m := x.natAbs, e := e }
def Dyadic.mul (a b : Dyadic) : Dyadic := { neg := a.neg != b.neg, m := a.m * b.m, e := a.e + b.e }
/-- x × 2^n. -/
def Dyadic.scale (a : Dyadic) (n : Int) : Dyadic := { a with e := a.e + n }
/-- a < b. -/
def Dyadic.lt (a b : Dyadic) : Bool := (a.add { b with neg := !b.neg }).neg
/-- Position of the leading bit of a non-zero magnitude. -/
def Dyadic.exp (a : Dyadic) : Int := (Nat.log2 a.m : Int) + a.e

/-- The five rounding modes (01 R24). -/
inductive Mode5 where
  | rne | rna | rz | rd | ru
  deriving DecidableEq, Repr
/-- A rounding code, with the form's default (01 R24, R26). -/
def modeOf (r : Rnd) (dflt : Mode5) : Mode5 :=
  match r with
  | .dflt => dflt
  | .rne => .rne
  | .rna => .rna
  | .rz => .rz
  | .rd => .rd
  | .ru => .ru

/-- Whether a magnitude between two neighbours goes to the upper one: `twice` compares twice the excess with the gap, `loEven` tells
    whether the lower neighbour is the even one. -/
def roundsUp (mode : Mode5) (neg : Bool) (twice : Ordering) (loEven : Bool) : Bool :=
  match mode with
  | .rz => false
  | .rd => neg
  | .ru => !neg
  | .rne => twice == .gt || (twice == .eq && !loEven)
  | .rna => twice != .lt
/-- A magnitude m × 2^e as a whole number of units 2^q, rounded; whether it was exact. -/
def roundUnits (mode : Mode5) (neg : Bool) (m : Nat) (e q : Int) : Nat × Bool :=
  if q ≤ e then (m * 2 ^ (e - q).toNat, true)
  else
    let d := 2 ^ (q - e).toNat
    let r := m % d
    (if r = 0 then m / d else m / d + b2n (roundsUp mode neg (compare (2 * r) d) (m / d % 2 == 0)), r == 0)

/-- `RoundTo` of 01 R25 for a floating-point format: the code and the flags. Codes of rising magnitude are consecutive, so a value's code
    is its count of units above the lowest binade's. -/
def Fmt.round (f : Fmt) (mode : Mode5) (x : Dyadic) : Nat × Flags :=
  let sg := if x.neg then f.signBit else 0
  if x.m = 0 then (sg, {})
  else
    let qmin : Int := 1 - (f.bias : Int) - f.m
    let q := max (x.exp - f.m) qmin
    let (n, exact) := roundUnits mode x.neg x.m x.e q
    let code := (q - qmin).toNat * 2 ^ f.m + n
    -- |x| > Max: its units, rounded toward zero, reach past the largest code, or are inexact there
    let floorCode := (q - qmin).toNat * 2 ^ f.m + (roundUnits .rz x.neg x.m x.e q).1
    let past := decide (floorCode > f.maxCode) || (floorCode == f.maxCode && !exact)
    if f.sat && past then (sg + f.maxCode, { of := true, nx := true })
    else if floorCode > f.maxCode then
      -- at least Max + ulp: the neighbours are Max and infinity
      let up := match mode with
        | .rz => false
        | .rd => x.neg
        | .ru => !x.neg
        | _ => true
      (sg + (if up then f.infCode else f.maxCode), { of := true, nx := true })
    else if exact then (sg + code, {})
    else (sg + code, { nx := true, of := decide (code > f.maxCode) || (past && code == f.maxCode),
                       uf := decide (code < 2 ^ f.m) })
/-- `RoundTo` for an integer format, between its bounds: NV alone marks saturation (01 R25). -/
def roundInt (lo hi : Int) (mode : Mode5) (x : Dyadic) : Int × Flags :=
  let (n, exact) := roundUnits mode x.neg x.m x.e 0
  let y : Int := if x.neg then -n else n
  if y < lo then (lo, { nv := true })
  else if y > hi then (hi, { nv := true })
  else if exact then (y, {})
  else (y, { nx := true, uf := y == 0 })

/-! ### DS8 (01 R21 to R23) -/

/-- A term of a DS8 code in units of 2^-7. -/
def ds8Term (code sh : Nat) : Int := if code = 7 then 0 else 2 ^ (7 - sh - code)
/-- `DecodeDS8`, in units of 2^-7 (01 R21). -/
def ds8Units (w : Nat) : Int :=
  (if bitOf w 7 then -1 else 1) * ds8Term (fld w 4 3) 0 + (if bitOf w 3 then -1 else 1) * ds8Term (fld w 0 3) 1
def ds8Decode (w : Nat) : Num :=
  let u := ds8Units w
  .fin { neg := u < 0, m := u.natAbs, e := -7 }
/-- Magnitudes that DS8 holds, in units of 2^-7: those of its 256 codes (01 R22). -/
def ds8Has (n : Nat) : Bool := (List.range 256).any fun w => ds8Units w == (n : Int)
/-- The canonical code of a value in units of 2^-7 (01 R23): equal signs with the smallest C1, else opposite signs. -/
def ds8Code (neg : Bool) (n : Nat) : Nat :=
  if n = 0 then 0x77
  else
    let s := b2n neg
    let pick := fun s2 => (List.range 64).find? fun c =>
      ds8Units (16 * (c / 8) + 8 * s2 + c % 8) == (n : Int)
    match pick 0 with
    | some c => 128 * s + 16 * (c / 8) + 8 * s + c % 8
    | none =>
      let c := (pick 1).getD 63
      128 * s + 16 * (c / 8) + 8 * (1 - s) + c % 8
/-- Trailing zero bits of a magnitude below 256; zero counts as having the most (01 R25). -/
def trailing (n : Nat) : Nat := if n = 0 then 99 else ((List.range 9).takeWhile fun i => !bitOf n i).length
/-- `RoundTo` for DS8 (01 R25). -/
def ds8Round (mode : Mode5) (x : Dyadic) : Nat × Flags :=
  let sh := (-(x.e + 7)).toNat
  let v := x.m * 2 ^ (x.e + 7).toNat
  let fl := v / 2 ^ sh
  if x.m = 0 then (0x77, {})
  else if 192 * 2 ^ sh < v then (ds8Code x.neg 192, { of := true, nx := true })
  else
    let lo := maxOf ((List.range (fl + 1)).filter ds8Has)
    if lo * 2 ^ sh = v then (ds8Code x.neg lo, {})
    else
      let hi := ((List.range 194).find? fun n => decide (lo < n) && ds8Has n).getD 192
      let up := roundsUp mode x.neg (compare (2 * v) ((lo + hi) * 2 ^ sh)) (decide (trailing lo > trailing hi))
      let y := if up then hi else lo
      (ds8Code x.neg y, { nx := true, uf := y == 0 })

/-! ### FTZ (01 R29) -/

/-- FtzIn on an FP32 code. -/
def ftzIn (ftz : Bool) (w : LaneWord) : LaneWord :=
  if ftz && w.extractLsb' 23 8 == 0 then w &&& 0x80000000 else w
/-- FtzOut on an FP32 result. -/
def ftzOut (ftz : Bool) (r : LaneWord × Flags) : LaneWord × Flags :=
  if ftz && r.1.extractLsb' 23 8 == 0 && r.1.extractLsb' 0 23 != 0 then
    (r.1 &&& 0x80000000, r.2.or { uf := true, nx := true })
  else r

/-! ### The arithmetic of 09 R193, in one format -/

/-- The sign of an exact sum that is zero (09 R193). -/
def sumSign (mode : Mode5) (a b : Dyadic) (x : Dyadic) : Dyadic :=
  if x.m ≠ 0 then x
  else if a.m = 0 ∧ b.m = 0 ∧ a.neg = b.neg then { x with neg := a.neg }
  else { x with neg := mode == .rd }
/-- a × b + c with one rounding; `hasC` tells FFMA from FMUL (09 R193). -/
def Fmt.fma (f : Fmt) (mode : Mode5) (hasC : Bool) (a b c : Num) : Nat × Flags :=
  let inf := fun (n : Bool) => (f.infCode + (if n then f.signBit else 0), ({} : Flags))
  if (a.isZero && b.isInf) || (a.isInf && b.isZero) then (f.nan, { nv := true })
  else if a.isNan || b.isNan then (f.nan, {})
  else if a.isInf || b.isInf then
    let n := a.isNeg != b.isNeg
    match hasC, c with
    | true, .nan => (f.nan, {})
    | true, .inf m => if m = n then inf n else (f.nan, { nv := true })
    | _, _ => inf n
  else
    match hasC, a, b, c with
    | true, _, _, .nan => (f.nan, {})
    | true, _, _, .inf m => inf m
    | true, .fin x, .fin y, .fin z => f.round mode (sumSign mode (x.mul y) z ((x.mul y).add z))
    | false, .fin x, .fin y, _ => f.round mode (x.mul y)
    | _, _, _, _ => (f.nan, {})
/-- a + b (09 R193). -/
def Fmt.sum (f : Fmt) (mode : Mode5) (a b : Num) : Nat × Flags :=
  match a, b with
  | .nan, _ => (f.nan, {})
  | _, .nan => (f.nan, {})
  | .inf m, .inf n => if m = n then (f.infCode + (if n then f.signBit else 0), {}) else (f.nan, { nv := true })
  | .inf n, _ => (f.infCode + (if n then f.signBit else 0), {})
  | _, .inf n => (f.infCode + (if n then f.signBit else 0), {})
  | .fin x, .fin y => f.round mode (sumSign mode x y (x.add y))

/-- a < b on numbers, infinities included; no NaN (09 R194, R195). Zeros are equal. -/
def Num.lt (a b : Num) : Bool :=
  match a, b with
  | .fin x, .fin y => x.lt y
  | .inf m, .inf n => m && !n
  | .inf m, .fin _ => m
  | .fin _, .inf n => !n
  | _, _ => false
/-- FMIN and FMAX on FP32 codes: -0 below +0, the other operand for one NaN (09 R194). -/
def fMinMax (isMax : Bool) (a b : LaneWord) : LaneWord :=
  let x := fp32.decode a.toNat
  let y := fp32.decode b.toNat
  if x.isNan && y.isNan then BitVec.ofNat 32 fp32.nan
  else if x.isNan then b
  else if y.isNan then a
  else
    let less := x.lt y || (!y.lt x && x.isNeg && !y.isNeg)
    if less != isMax then a else b

/-- FP32 addition with RNE, subnormals honoured: atomics, the matrix engine (06 R137, 01 R32). -/
def fp32Add (a b : LaneWord) : LaneWord :=
  BitVec.ofNat 32 (fp32.sum .rne (fp32.decode a.toNat) (fp32.decode b.toNat)).1

end Sys2Proof.Machine
end

