-- ==== Sys2Proof/Machine/Float.lean ====
section
/-! DEFINITION. Floating-point forms, packed forms, conversions (09 R192 to R196, R204 to R209). -/

namespace Sys2Proof.Machine

/-! ### FP32 (09 R193 to R195) -/

/-- A vector form that computes a 32-bit result and flags in each active lane. -/
def flagForm (gd : Guard) (d : BitVec 8) (s : State) (f : Group → Nat → LaneWord × Flags) : Out :=
  onIssuer s fun k g x =>
    let act := s.active g x gd
    s.setGroup k ((g.writeV d.toNat act fun l => (f g l).1).raise (flagsOver act fun l => (f g l).2))
/-- An FP32 source: FtzIn, then the sign flipped under its N bit (09 R192, R193). -/
def State.fsrc (s : State) (g : Group) (neg : Bool) (l : Nat) (x : Src) : LaneWord :=
  let w := ftzIn g.ftz (s.src32 g .float l x)
  if neg then w ^^^ 0x80000000 else w
def f32 (w : LaneWord) : Num := fp32.decode w.toNat
/-- An FP32 code and flags as a lane's result. -/
def f32Out (ftz : Bool) (r : Nat × Flags) : LaneWord × Flags := ftzOut ftz (BitVec.ofNat 32 r.1, r.2)

def faddForm (o : FBin) (s : State) : Out :=
  flagForm o.g o.d s fun g l =>
    f32Out g.ftz (fp32.sum (modeOf o.rnd .rne) (f32 (s.fsrc g o.na l o.a)) (f32 (s.fsrc g o.nb l o.b)))
def fmulForm (o : FBin) (s : State) : Out :=
  flagForm o.g o.d s fun g l =>
    f32Out g.ftz (fp32.fma (modeOf o.rnd .rne) false (f32 (s.fsrc g o.na l o.a)) (f32 (s.fsrc g o.nb l o.b)) .nan)
def ffmaForm (o : FTer) (s : State) : Out :=
  flagForm o.g o.d s fun g l =>
    f32Out g.ftz (fp32.fma (modeOf o.rnd .rne) true (f32 (s.fsrc g o.na l o.a)) (f32 (s.fsrc g o.nb l o.b)) (f32 (s.fsrc g o.nc l o.c)))
/-- FMIN and FMAX raise no flag (09 R194). -/
def fSelForm (isMax : Bool) (o : FSel) (s : State) : Out :=
  flagForm o.g o.d s fun g l => (fMinMax isMax (s.fsrc g false l o.a) (s.fsrc g false l o.b), {})
def execFadd (o : FBin) (s : State) : Out := faddForm o s
def execFmul (o : FBin) (s : State) : Out := fmulForm o s
def execFfma (o : FTer) (s : State) : Out := ffmaForm o s
def execFmin (o : FSel) (s : State) : Out := fSelForm false o s
def execFmax (o : FSel) (s : State) : Out := fSelForm true o s

/-- The comparisons of 09 R195. -/
def fCompare (c : FCmp) (a b : Num) : Bool :=
  let nan := a.isNan || b.isNan
  match c with
  | .eq => !nan && !a.lt b && !b.lt a
  | .ne => nan || a.lt b || b.lt a
  | .lt => !nan && a.lt b
  | .le => !nan && !b.lt a
  | .gt => !nan && b.lt a
  | .ge => !nan && !a.lt b
  | .num => !nan
  | .nan => nan
def execFsetp (o : FsetpOp) (s : State) : Out :=
  predForm o.g o.d s fun g l =>
    combine o.bop (fCompare o.cmp (f32 (s.fsrc g false l o.a)) (f32 (s.fsrc g false l o.b))) (s.predAt g o.pc o.pcn l)

/-! ### Packed pairs (09 R196) -/

def packFmt (bf : Bool) : Fmt := if bf then bf16 else fp16
/-- Element i of a packed source, its sign flipped under the N bit. -/
def packElem (bf neg : Bool) (w : LaneWord) (i : Nat) : Num :=
  (packFmt bf).decode (((w.extractLsb' (16 * i) 16) ^^^ (if neg then 0x8000 else 0)).toNat)
/-- Two 16-bit results in one lane word, their flags together. -/
def packPair (f : Nat → Nat × Flags) : LaneWord × Flags :=
  (BitVec.ofNat 16 (f 1).1 ++ BitVec.ofNat 16 (f 0).1, (f 0).2.or (f 1).2)
def hBinForm (isMul : Bool) (o : HBin) (s : State) : Out :=
  flagForm o.g o.d s fun g l => packPair fun i =>
    let a := packElem o.bf o.na (s.src32 g .float l o.a) i
    let b := packElem o.bf o.nb (s.src32 g .float l o.b) i
    if isMul then (packFmt o.bf).fma (modeOf o.rnd .rne) false a b .nan else (packFmt o.bf).sum (modeOf o.rnd .rne) a b
def hFmaForm (o : HTer) (s : State) : Out :=
  flagForm o.g o.d s fun g l => packPair fun i =>
    (packFmt o.bf).fma (modeOf o.rnd .rne) true (packElem o.bf o.na (s.src32 g .float l o.a) i)
      (packElem o.bf o.nb (s.src32 g .float l o.b) i) (packElem o.bf o.nc (s.src32 g .float l o.c) i)
def execHfma2 (o : HTer) (s : State) : Out := hFmaForm o s
def execHadd2 (o : HBin) (s : State) : Out := hBinForm false o s
def execHmul2 (o : HBin) (s : State) : Out := hBinForm true o s

/-! ### Compact float operations: the full form with its default rounding, C equal to D (02 R50) -/

def compactFBin (o : Compact) : FBin :=
  { g := compactGuard o.gn o.gp, rnd := .dflt, na := false, nb := false, d := o.d.setWidth 8, a := .v (o.a.setWidth 8), b := compactB o.b }
def compactFTer (o : Compact) : FTer :=
  { g := compactGuard o.gn o.gp, rnd := .dflt, na := false, nb := false, nc := false, d := o.d.setWidth 8, a := .v (o.a.setWidth 8),
    b := compactB o.b, c := .v (o.d.setWidth 8) }
def compactFSel (o : Compact) : FSel :=
  { g := compactGuard o.gn o.gp, d := o.d.setWidth 8, a := .v (o.a.setWidth 8), b := compactB o.b }
def compactHBin (bf : Bool) (o : Compact) : HBin :=
  { g := compactGuard o.gn o.gp, rnd := .dflt, bf := bf, na := false, nb := false, d := o.d.setWidth 8, a := .v (o.a.setWidth 8),
    b := compactB o.b }
def compactHTer (bf : Bool) (o : Compact) : HTer :=
  { g := compactGuard o.gn o.gp, rnd := .dflt, bf := bf, na := false, nb := false, nc := false, d := o.d.setWidth 8,
    a := .v (o.a.setWidth 8), b := compactB o.b, c := .v (o.d.setWidth 8) }
def execFaddCompact (o : Compact) (s : State) : Out := faddForm (compactFBin o) s
def execFmulCompact (o : Compact) (s : State) : Out := fmulForm (compactFBin o) s
def execFfmaCompact (o : Compact) (s : State) : Out := ffmaForm (compactFTer o) s
def execFminCompact (o : Compact) (s : State) : Out := fSelForm false (compactFSel o) s
def execFmaxCompact (o : Compact) (s : State) : Out := fSelForm true (compactFSel o) s
def execHadd2F16Compact (o : Compact) (s : State) : Out := hBinForm false (compactHBin false o) s
def execHmul2F16Compact (o : Compact) (s : State) : Out := hBinForm true (compactHBin false o) s
def execHfma2F16Compact (o : Compact) (s : State) : Out := hFmaForm (compactHTer false o) s
def execHadd2Bf16Compact (o : Compact) (s : State) : Out := hBinForm false (compactHBin true o) s
def execHmul2Bf16Compact (o : Compact) (s : State) : Out := hBinForm true (compactHBin true o) s
def execHfma2Bf16Compact (o : Compact) (s : State) : Out := hFmaForm (compactHTer true o) s

/-! ### Conversions (09 R204 to R208, 01 R27) -/

/-- A target of a conversion. -/
inductive Target where
  | flt (f : Fmt)
  | ds8
  | int (w : Nat) (signed : Bool)
  deriving DecidableEq, Repr
def Target.bits : Target → Nat
  | .flt f => f.e + f.m + 1
  | .ds8 => 8
  | .int w _ => w
def intLo (w : Nat) (signed : Bool) : Int := if signed then -(2 ^ (w - 1)) else 0
def intHi (w : Nat) (signed : Bool) : Int := if signed then 2 ^ (w - 1) - 1 else 2 ^ w - 1
/-- The default mode: RNA for targets narrower than 16 bits (01 R26). -/
def Target.dflt (t : Target) : Mode5 := if t.bits < 16 then .rna else .rne
/-- An integer as a w-bit code. -/
def intCode (w : Nat) (y : Int) : Nat := (BitVec.ofInt w y).toNat
/-- A conversion: special sources by 01 R27, the others rounded. -/
def Target.convert (t : Target) (mode : Mode5) (x : Num) : Nat × Flags :=
  match t, x with
  | .flt f, .nan => if f = e2m1 then (0, { nv := true }) else (f.nan, {})
  | .flt f, .inf n =>
    let sg := if n then f.signBit else 0
    if f = e4m3 ∨ f = e2m1 then (sg + f.maxCode, { of := true }) else (sg + f.infCode, {})
  | .flt f, .fin d => f.round mode d
  | .ds8, .nan => (0x77, { nv := true })
  | .ds8, .inf n => (ds8Code n 192, { of := true })
  | .ds8, .fin d => ds8Round mode d
  | .int _ _, .nan => (0, { nv := true })
  | .int w sg, .inf n => (intCode w (if n then intLo w sg else intHi w sg), { nv := true })
  | .int w sg, .fin d => let r := roundInt (intLo w sg) (intHi w sg) mode d; (intCode w r.1, r.2)

def cvtTarget (uns : Bool) : CvtTy → Target
  | .f32 => .flt fp32 | .f16 => .flt fp16 | .bf16 => .flt bf16
  | .s8 => .int 8 true | .z8 => .int 8 false | .s16 => .int 16 true | .z16 => .int 16 false
  | .b32 => .int 32 !uns | .b64 => .int 64 !uns
/-- A whole number as a value. -/
def ofIntVal (x : Int) : Num := .fin { neg := decide (x < 0), m := x.natAbs, e := 0 }
/-- A w-bit integer source. -/
def intSource (w : Nat) (signed : Bool) (a : BitVec 64) : Int := intVal (!signed) (a.setWidth w)
/-- CVT's source of one lane (09 R205). -/
def cvtSource (t : Target) (ftz : Bool) (a : BitVec 64) : Num :=
  match t with
  | .flt f => f.decode (if f = fp32 then (ftzIn ftz (a.setWidth 32)).toNat else a.toNat % 65536)
  | .ds8 => ds8Decode (a.toNat % 256)
  | .int w sg => ofIntVal (intSource w sg a)
/-- The result as a 64-bit container: integers narrower than 32 bits extended by their kind (09 R205). -/
def cvtResult (t : Target) (ftz : Bool) (r : Nat × Flags) : BitVec 64 × Flags :=
  match t with
  | .flt f => if f = fp32 then let y := f32Out ftz r; (y.1.setWidth 64, y.2) else (BitVec.ofNat 64 r.1, r.2)
  | .ds8 => (BitVec.ofNat 64 r.1, r.2)
  | .int w sg => ((if sg then (BitVec.ofNat w r.1).signExtend (if w < 32 then 32 else w) |>.setWidth 64 else BitVec.ofNat 64 r.1), r.2)
/-- One lane of CVT (09 R205). -/
def cvtLane (o : CvtOp) (ftz : Bool) (a : BitVec 64) : BitVec 64 × Flags :=
  let dt := cvtTarget o.uns o.dt
  let st := cvtTarget o.uns o.st
  match dt, st with
  | .int w sg, .int v sv =>
    let x := intSource v sv a
    cvtResult dt ftz (intCode w (if o.sat then max (intLo w sg) (min x (intHi w sg)) else x), {})
  | _, _ => cvtResult dt ftz (dt.convert (modeOf o.rnd dt.dflt) (cvtSource st ftz a))
def execCvt (o : CvtOp) (s : State) : Out :=
  onIssuer s fun k g x =>
    let act := s.active g x o.g
    let r := fun l => cvtLane o g.ftz (if o.st = .b64 then s.readV64 g o.a.toNat l else (s.readV g o.a.toNat l).setWidth 64)
    s.setGroup k ((g.writeD (o.dt = .b64) o.d act fun l => (r l).1).raise (flagsOver act fun l => (r l).2))
/-- CVTP2: two FP32 values become elements 0 and 1 (09 R206). -/
def execCvtp2 (o : Cvtp2Op) (s : State) : Out :=
  flagForm o.g o.d s fun g l => packPair fun i =>
    (Target.flt (packFmt o.bf)).convert (modeOf o.rnd .rne)
      (f32 (ftzIn g.ftz (s.readV g (if i = 0 then o.a else o.b).toNat l)))

def packTarget : PackTy → Target
  | .e4m3 => .flt e4m3 | .e5m2 => .flt e5m2 | .e2m1 => .flt e2m1 | .s8 => .int 8 true | .z8 => .int 8 false
/-- x × 2^n of a finite value. -/
def Num.scale (x : Num) (n : Int) : Num :=
  match x with
  | .fin d => .fin (d.scale n)
  | y => y
/-- Element i of a pack: FtzIn, then divided by the E8M0 scale exactly (09 R207). -/
def State.packSource (s : State) (g : Group) (a : BitVec 8) (scale : Option (BitVec 8)) (l i : Nat) : Num :=
  let x := f32 (ftzIn g.ftz (s.readV g (a.toNat + i) l))
  match scale with
  | none => x
  | some b =>
    let e := (s.readV g b.toNat l).toNat % 256
    if e = 255 then .nan else x.scale (127 - (e : Int))
/-- The elements of a pack, written together. -/
def packAll (t : Target) (mode : Mode5) (src : Nat → Num) (n : Nat) : LaneWord × Flags :=
  (List.range n).foldl (fun r i =>
    let c := t.convert mode (src i)
    (r.1 ||| BitVec.ofNat 32 (c.1 * 2 ^ (t.bits * i)), r.2.or c.2)) (0, {})
def execCvtp4 (o : Cvtp4Op) (s : State) : Out :=
  flagForm o.g o.d s fun g l => packAll (packTarget o.dt) (modeOf o.rnd .rna) (s.packSource g o.a o.scale l) o.dt.count
def execCvtds (o : CvtdsOp) (s : State) : Out :=
  flagForm o.g o.d s fun g l => packAll .ds8 (modeOf o.rnd .rna) (s.packSource g o.a o.scale l) 4

/-- Element i of a lane word, for UNPK (09 R208). -/
def unpkValue (t : UnpkTy) (w : LaneWord) (i : Nat) : Num :=
  match t with
  | .f16 => fp16.decode (fld w.toNat (16 * i) 16)
  | .bf16 => bf16.decode (fld w.toNat (16 * i) 16)
  | .e4m3 => e4m3.decode (fld w.toNat (8 * i) 8)
  | .e5m2 => e5m2.decode (fld w.toNat (8 * i) 8)
  | .e2m1 => e2m1.decode (fld w.toNat (4 * i) 4)
  | .ds8 => ds8Decode (fld w.toNat (8 * i) 8)
  | _ => .nan
def unpkLane (o : UnpkOp) (ftz : Bool) (w : LaneWord) (e : Nat) : LaneWord × Flags :=
  let i := o.i.toNat
  match o.st with
  | .s8 => ((w.extractLsb' (8 * i) 8).signExtend 32, {})
  | .z8 => ((w.extractLsb' (8 * i) 8).setWidth 32, {})
  | .s16 => ((w.extractLsb' (16 * i) 16).signExtend 32, {})
  | .z16 => ((w.extractLsb' (16 * i) 16).setWidth 32, {})
  | t =>
    let x := unpkValue t w i
    match o.scale with
    | none => f32Out ftz ((Target.flt fp32).convert .rne x)
    | some _ => if e = 255 then (BitVec.ofNat 32 fp32.nan, {}) else f32Out ftz ((Target.flt fp32).convert .rne (x.scale ((e : Int) - 127)))
def execUnpk (o : UnpkOp) (s : State) : Out :=
  flagForm o.g o.d s fun g l =>
    unpkLane o g.ftz (s.readV g o.a.toNat l) ((o.scale.map fun b => (s.readV g b.toNat l).toNat % 256).getD 127)

/-- SETMODE: a clear and a write of FTZ, once for the group (09 R209). Instructions act in program order here, so the clear removes what
    came before it (01 R31). -/
def execSetmode (o : SetmodeOp) (s : State) : Out :=
  onIssuer s fun k g _ =>
    s.setGroup k { g with flags := if o.clr then 0 else g.flags, ftz := o.ftz.getD g.ftz }

end Sys2Proof.Machine
end

