-- ==== Sys2Proof/Machine/Sfu.lean ====
section
/-! DEFINITION. The special functions (09 R198, R199). Reciprocal and square root are rounded from their exact values. The other forms answer
with the configuration's own value where it lies within the bound of the manual, and with the nearest code otherwise (log 10); the
bound is checked against an evaluation to more than 100 bits below the last place, which no code comes close enough to a bound to mistake. -/

namespace Sys2Proof.Machine

/-- Fixed-point numbers of this file have 256 fraction bits. -/
def fx : Nat := 256
def fxOne : Int := 2 ^ fx
def fxMul (a b : Int) : Int := a * b / fxOne
/-- π and ln 2. -/
def fxPi : Int := 363771576891766324280234942777729862653393377328392429958772151117938894466185
def fxLn2 : Int := 80260960185991308862233904206310070533990667611589946606122867505419956976171
/-- The sum of `fuel` terms of a power series: each term is the last times `t` over the product of the next `st` numbers after `k`. -/
def series (t : Int) (st : Nat) : Nat → Nat → Int → Int → Int
  | 0, _, _, acc => acc
  | fuel + 1, k, term, acc =>
    let d : Int := if st = 1 then (k + 1 : Nat) else ((k + 1) * (k + 2) : Nat)
    let term := fxMul term t / d
    series t st fuel (k + st) term (acc + term)
def fxExp (t : Int) : Int := series t 1 140 0 fxOne fxOne
def fxSin (t : Int) : Int := series (-(fxMul t t)) 2 60 1 t t
def fxCos (t : Int) : Int := series (-(fxMul t t)) 2 60 0 fxOne fxOne
/-- The whole square root, bit by bit from the top. -/
def isqrt (n : Nat) : Nat :=
  (List.range (Nat.log2 n / 2 + 1)).reverse.foldl (fun r i => if (r + 2 ^ i) * (r + 2 ^ i) ≤ n then r + 2 ^ i else r) 0
/-- A number in fixed point, exact down to 2^-256. -/
def Dyadic.fixed (d : Dyadic) : Int :=
  let a : Int := if 0 ≤ d.e + fx then d.m * 2 ^ (d.e + fx).toNat else d.m / 2 ^ (-(d.e + fx)).toNat
  if d.neg then -a else a
def ofFixed (x : Int) (e : Int) : Dyadic := { neg := decide (x < 0), m := x.natAbs, e := e }
/-- A quotient or root that is not exact carries a last bit below all of its own (a sticky bit). -/
def sticky (q : Nat) (exact : Bool) (e : Int) : Dyadic := { neg := false, m := 2 * q + b2n (!exact), e := e - 1 }
/-- A number just below `d` in magnitude, on the same side of every code: for results that differ from `d` by less than any code can show. -/
def Dyadic.below (d : Dyadic) : Dyadic := { d with m := d.m * 2 ^ 400 - 1, e := d.e - 400 }
/-- x is a whole number. -/
def Dyadic.whole (d : Dyadic) : Bool := 0 ≤ d.e || d.m % 2 ^ (-d.e).toNat == 0
def recip (d : Dyadic) : Dyadic := { sticky (2 ^ 64 / d.m) (2 ^ 64 % d.m == 0) (-d.e - 64) with neg := d.neg }
/-- The even-exponent form of a positive number. -/
def evenExp (d : Dyadic) : Nat × Int := if d.e % 2 = 0 then (d.m, d.e / 2) else (2 * d.m, (d.e - 1) / 2)
def sqrtOf (d : Dyadic) : Dyadic :=
  let (m, h) := evenExp d
  let r := isqrt (m * 2 ^ 128)
  sticky r (r * r == m * 2 ^ 128) (h - 64)
def rsqrtOf (d : Dyadic) : Dyadic :=
  let (m, h) := evenExp d
  let r := isqrt (2 ^ 240 / m)
  sticky r (r * r * m == 2 ^ 240) (-120 - h)
def exp2Of (d : Dyadic) : Dyadic :=
  if 8 ≤ d.exp then { neg := false, m := 1, e := if d.neg then -1000 else 1000 }
  else
    let x := d.fixed
    let n := x / fxOne
    if d.whole then { neg := false, m := 1, e := n }
    else ofFixed (fxExp (fxMul (x - n * fxOne) fxLn2)) (n - fx)
/-- The fraction bits of a binary logarithm, by squaring. -/
def logBits : Nat → Int → Int → Int
  | 0, _, acc => acc
  | fuel + 1, y, acc =>
    let y := fxMul y y
    if 2 * fxOne ≤ y then logBits fuel (y / 2) (2 * acc + 1) else logBits fuel y (2 * acc)
def log2Of (d : Dyadic) : Dyadic :=
  let y : Int := d.m * 2 ^ fx / 2 ^ Nat.log2 d.m
  ofFixed (d.exp * 2 ^ 120 + logBits 120 y 0) (-120)
/-- x modulo 2, in fixed point, times pi. -/
def halfTurns (d : Dyadic) : Int := fxMul (d.fixed % (2 * fxOne)) fxPi
def sinOf (d : Dyadic) : Dyadic :=
  if (d.scale 1).whole then { neg := decide (fxSin (halfTurns d) < 0), m := if d.whole then 0 else 1, e := 0 } else ofFixed (fxSin (halfTurns d)) (-fx)
def cosOf (d : Dyadic) : Dyadic :=
  if d.whole then { neg := decide (fxCos (halfTurns d) < 0), m := 1, e := 0 }
  else if d.exp < -64 then { neg := false, m := 1, e := 0 : Dyadic }.below
  else ofFixed (fxCos (halfTurns d)) (-fx)
def tanhOf (d : Dyadic) : Dyadic :=
  let x := { d with neg := false }.fixed
  if d.exp < -64 then d.below
  else if d.exp < -12 then
    let q := fxMul x x
    let f := fxOne - q / 3 + 2 * fxMul q q / 15 - 17 * fxMul q (fxMul q q) / 315
    { neg := d.neg, m := d.m * f.toNat, e := d.e - fx }
  else
    let e := fxExp (-(2 * x))
    { ofFixed ((fxOne - e) * fxOne / (fxOne + e)) (-fx) with neg := d.neg }

/-- The special functions. -/
inductive SfuFn where
  | rcp | rsq | sqrt | exp2 | log2 | sin | cos | tanh
  deriving DecidableEq, Repr
def SfuFn.number : SfuFn → Nat
  | .rcp => 0 | .rsq => 1 | .sqrt => 2 | .exp2 => 3 | .log2 => 4 | .sin => 5 | .cos => 6 | .tanh => 7
def sfuValue (f : SfuFn) (d : Dyadic) : Dyadic :=
  match f with
  | .rcp => recip d | .rsq => rsqrtOf d | .sqrt => sqrtOf d | .exp2 => exp2Of d | .log2 => log2Of d | .sin => sinOf d
  | .cos => cosOf d | .tanh => tanhOf d

/-- n units in the last place of an exact result in FP32. -/
def ulps (n : Nat) (y : Dyadic) : Dyadic := { neg := false, m := n, e := max y.exp (-126) - 23 }
/-- The absolute bound of 09 R199. -/
def twoToMinus22 : Dyadic := { neg := false, m := 1, e := -22 }
/-- The bounds of 09 R199. -/
def sfuBound (f : SfuFn) (x y : Dyadic) : Dyadic :=
  match f with
  | .rsq => ulps 1 y
  | .log2 => if x.exp = -1 ∨ x.exp = 0 ∨ (x.exp = 1 ∧ x.m = 2 ^ Nat.log2 x.m) then twoToMinus22 else ulps 2 y
  | .sin | .cos => twoToMinus22
  | _ => ulps 2 y
/-- The answer within the bound: the configuration's where it qualifies, else the nearest code. -/
def withinBound (f : SfuFn) (w : LaneWord) (x y : Dyadic) : LaneWord :=
  let c := Config.sfu f.number w
  match f32 c with
  | .fin d =>
    let diff := d.add { y with neg := !y.neg }
    if (sfuBound f x y).lt { diff with neg := false } then BitVec.ofNat 32 (fp32.round .rne y).1 else c
  | _ => BitVec.ofNat 32 (fp32.round .rne y).1

def nanLane : LaneWord := BitVec.ofNat 32 fp32.nan
def infLane (neg : Bool) : LaneWord := if neg then 0xFF800000 else 0x7F800000
def zeroLane (neg : Bool) : LaneWord := if neg then 0x80000000 else 0
/-- x is a power of two. -/
def Dyadic.pow2 (d : Dyadic) : Bool := d.m == 2 ^ Nat.log2 d.m
/-- |x| ≥ 10. -/
def Dyadic.atLeast10 (d : Dyadic) : Bool := !(({ d with neg := false }).lt { neg := false, m := 10, e := 0 })

/-- A finite non-zero source (09 R199). -/
def sfuFinite (f : SfuFn) (w : LaneWord) (d : Dyadic) : LaneWord × Flags :=
  let y := sfuValue f d
  let r := fp32.round .rne y
  let nearest : LaneWord := BitVec.ofNat 32 r.1
  match f with
  | .rcp => (nearest, r.2)
  | .sqrt => if d.neg then (nanLane, { nv := true }) else (nearest, r.2)
  | .rsq =>
    if d.neg then (nanLane, { nv := true })
    else if d.pow2 && d.exp % 2 == 0 then (nearest, {}) else (withinBound f w d y, {})
  | .exp2 =>
    let fl : Flags := { of := r.2.of, uf := r.2.uf }
    if r.2.of || (d.whole && !r.2.nx) then (nearest, fl) else (withinBound f w d y, fl)
  | .log2 => if d.neg then (nanLane, { nv := true }) else if d.pow2 then (nearest, {}) else (withinBound f w d y, {})
  | .sin => if d.whole then (zeroLane d.neg, {}) else (withinBound f w d y, {})
  | .cos => if !d.whole && (d.scale 1).whole then (0, {}) else (withinBound f w d y, {})
  | .tanh => if d.atLeast10 then (if d.neg then 0xBF800000 else 0x3F800000, {}) else (withinBound f w d y, {})
/-- The special sources of 09 R199. -/
def sfuLane (f : SfuFn) (w : LaneWord) : LaneWord × Flags :=
  match f32 w with
  | .nan => (nanLane, {})
  | .inf n =>
    match f with
    | .rcp => (zeroLane n, {})
    | .rsq => if n then (nanLane, { nv := true }) else (0, {})
    | .sqrt | .log2 => if n then (nanLane, { nv := true }) else (infLane false, {})
    | .exp2 => if n then (0, {}) else (infLane false, {})
    | .sin | .cos => (nanLane, { nv := true })
    | .tanh => (if n then 0xBF800000 else 0x3F800000, {})
  | .fin d =>
    if d.m = 0 then
      match f with
      | .rcp | .rsq => (infLane d.neg, { dz := true })
      | .sqrt | .sin | .tanh => (zeroLane d.neg, {})
      | .exp2 | .cos => (0x3F800000, {})
      | .log2 => (infLane true, { dz := true })
    else sfuFinite f w d
def sfuForm (f : SfuFn) (o : VUn) (s : State) : Out :=
  flagForm o.g o.d s fun g l => ftzOut g.ftz (sfuLane f (ftzIn g.ftz (s.readV g o.a.toNat l)))
def execFrcp (o : VUn) (s : State) : Out := sfuForm .rcp o s
def execFrsq (o : VUn) (s : State) : Out := sfuForm .rsq o s
def execFsqrt (o : VUn) (s : State) : Out := sfuForm .sqrt o s
def execFexp2 (o : VUn) (s : State) : Out := sfuForm .exp2 o s
def execFlog2 (o : VUn) (s : State) : Out := sfuForm .log2 o s
def execFsin (o : VUn) (s : State) : Out := sfuForm .sin o s
def execFcos (o : VUn) (s : State) : Out := sfuForm .cos o s
def execFtanh (o : VUn) (s : State) : Out := sfuForm .tanh o s

end Sys2Proof.Machine
end

