-- ==== Sys2Proof/Machine/Lane.lean ====
section
/-! DEFINITION. The activation table and the cross-lane forms (09 R200 to R203, R210 to R214). -/

namespace Sys2Proof.Machine

/-- A SIMT core; one not used yet has only counted its ticks (04 R95). -/
def State.core (s : State) (c : Nat) : Core := s.cores.getD c { pts := s.cycle / 16, ticks := s.cycle / 16 }
def State.updCore (s : State) (c : Nat) (f : Core → Core) : State := { s with cores := s.cores.put c (f (s.core c)) }

/-! ### The activation table -/

/-- The table belongs to one context; a free one is taken by its first user (09 R200). None: another context owns it. -/
def State.takeTable (s : State) (c : Nat) (asid : BitVec 16) : Option State :=
  match (s.core c).owner with
  | none => some (s.updCore c fun x => { x with owner := some asid })
  | some a => if a = asid then some s else none
/-- A form that uses the table: it acts when the split has an active lane, and traps where another context owns the table (09 R200). -/
def tableForm (gd : Guard) (s : State) (f : Nat → Group → LaneMask → State → State) : Out :=
  onIssuer s fun k g x =>
    let act := s.active g x gd
    if act = 0 then s
    else match s.takeTable (coreOf k) (s.asidOf g) with
      | none => s.trapAt k x .atabConflict act
      | some s => f k g act s
/-- The whole number at or below a non-negative number. -/
def Dyadic.floor (d : Dyadic) : Nat := if 0 ≤ d.e then d.m * 2 ^ d.e.toNat else d.m / 2 ^ (-d.e).toNat
/-- One lane of ATAB from a bank: entries and control word (09 R203). -/
def atabLane (entry : Nat → BitVec 64) (ctl : BitVec 64) (w : LaneWord) : Nat × Flags :=
  let y0 := fun i => f32 ((entry i).setWidth 32)
  let slope := fun i => f32 ((entry i).extractLsb' 32 32)
  let k := (ctl.extractLsb' 32 8).toInt
  match f32 w, f32 (ctl.setWidth 32) with
  | .nan, _ => (fp32.nan, {})
  | .inf n, .fin _ =>
    if n then (Target.flt fp32).convert .rne (y0 0)
    else fp32.fma .rne true (slope 255) (.fin { neg := false, m := 1, e := k }) (y0 255)
  | .fin x, .fin x0 =>
    let u := (x.add { x0 with neg := !x0.neg }).scale (-k)
    if u.neg then (Target.flt fp32).convert .rne (y0 0)
    else if 256 ≤ u.floor then fp32.fma .rne true (slope 255) (.fin { neg := false, m := 1, e := k }) (y0 255)
    else
      let i := u.floor
      let left := x0.add { neg := false, m := i, e := k }
      fp32.fma .rne true (slope i) (.fin (x.add { left with neg := !left.neg })) (y0 i)
  | _, _ => (fp32.nan, {})
def execAtab (o : VUn) (s : State) : Out :=
  tableForm o.g s fun k g act s =>
    let c := s.core (coreOf k)
    let b := b2n g.atb
    let r := fun l => f32Out g.ftz (atabLane (fun i => c.atab.getD (256 * b + i) 0) (c.atctl.getD b 0) (ftzIn g.ftz (s.readV g o.a.toNat l)))
    s.setGroup k ((g.writeV o.d.toNat act fun l => (r l).1).raise (flagsOver act fun l => (r l).2))
/-- ATLOAD joins the table's order with one write per active lane (09 R201, R202). -/
def execAtload (o : AtloadOp) (s : State) : Out :=
  tableForm o.g s fun k g act s =>
    let base := (s.readS g o.b.toNat).toNat
    let ops := ((lanesOf act).filter fun l => base + l ≤ 255).map fun l =>
      (k, AtOp.entry (g.born, g.gidx) (base + l) (s.readV64 g o.a.toNat l))
    s.updCore (coreOf k) fun c => { c with atops := c.atops ++ ops }
def execAtloadCtl (o : SAddr) (s : State) : Out :=
  tableForm o.g s fun k g _ s => s.updCore (coreOf k) fun c => { c with atops := c.atops ++ [(k, .ctl (s.readS g o.a.toNat))] }
def execAtswap (o : GuardOnly) (s : State) : Out :=
  tableForm o.g s fun k _ _ s => s.updCore (coreOf k) fun c => { c with atops := c.atops ++ [(k, .swap)] }
/-- A clause of a core that has not ended latched that bank, whether its split runs, sleeps or is spilled (09 R201). -/
def State.bankLatched (s : State) (c : Nat) (bank : Bool) : Bool :=
  s.groups.any fun e => coreOf e.1 == c && (e.2.splits ++ e.2.spilled).any fun x => (x.run.map (·.atb)) == some bank
/-- An entry that several groups have written since the last swap holds one of the values that they wrote, free (09 R202). -/
def Core.writeEntry (x : Core) (draw : Nat) (who : Nat × Nat) (i : Nat) (v : BitVec 64) : Core :=
  let ws := (x.atwritten.getD i []).filter (fun w => w.1 != who) ++ [(who, v)]
  { x with atwritten := x.atwritten.put i ws, atab := x.atab.putD 0 (256 * b2n (!x.act) + i) ((ws.getD (draw % ws.length) (who, v)).2) }
/-- ATLOAD_PERFORM (the core in hand): the oldest operation, when it is a load, writes the inactive bank once no running clause reads it
    (09 R201). -/
def execAtloadPerform (s : State) : Out :=
  let c := s.hand
  let x := s.core c
  .next (if s.bankLatched c (!x.act) then s
    else match x.atops with
      | (_, .entry who i v) :: t => s.updCore c fun x => { x.writeEntry (s.free 32 786500).toNat who i v with atops := t }
      | (_, .ctl v) :: t => s.updCore c fun x => { x with atops := t, atctl := x.atctl.putD 0 (b2n (!x.act)) v }
      | _ => s)
/-- ATSWAP_PERFORM (the core in hand): the oldest operation, when it is a swap, flips the active bank (09 R201). -/
def execAtswapPerform (s : State) : Out :=
  let c := s.hand
  .next (match (s.core c).atops with
    | (_, .swap) :: t => s.updCore c fun x => { x with atops := t, act := !x.act, atwritten := [] }
    | _ => s)

/-! ### Cross-lane forms -/

/-- Lanes of a tile (09 R210). -/
def Group.tileWidth (g : Group) : Nat :=
  let t := 2 ^ g.tw.toNat
  if 1 ≤ g.tw.toNat ∧ t < g.width then t else g.width
def tileBase (t l : Nat) : Nat := t * (l / t)
/-- The source lane of SHFL, where it is valid (09 R211). -/
def shflLane (m : ShflMode) (t l b : Nat) : Option Nat :=
  match m with
  | .idx => some (tileBase t l + b % t)
  | .up => if b ≤ l - tileBase t l then some (l - b) else none
  | .down => if l + b < tileBase t l + t then some (l + b) else none
  | .xor => some (Nat.xor l (b % t))
def execShfl (o : ShflOp) (s : State) : Out :=
  onIssuer s fun k g x =>
    let act := s.active g x o.g
    let src := fun l =>
      match shflLane o.mode g.tileWidth l (s.src32 g .zero l o.b).toNat with
      | some j => if act.getLsbD j then j else l
      | none => l
    s.setGroup k (g.writeD o.b64 o.d act fun l => s.src g .zero o.b64 (src l) (.v o.a))
/-- The positions of lane l's tile that pass a test, as a mask (09 R210). -/
def tileMask (t l : Nat) (f : Nat → Bool) : BitVec 64 := maskOf ((List.range t).filter fun i => f (tileBase t l + i))
def execVote (o : VoteOp) (s : State) : Out :=
  onIssuer s fun k g x =>
    let act := s.active g x o.g
    let t := g.tileWidth
    let q := fun l => s.predAt g o.pa o.pan l
    let ones := fun l => tileMask t l fun j => act.getLsbD j && q j
    let lanes := fun l => tileMask t l fun j => act.getLsbD j
    s.setGroup k (match o.dst with
      | .all d => g.writeP d.toNat act fun l => ones l == lanes l
      | .any d => g.writeP d.toNat act fun l => ones l != 0
      | .uni d => g.writeP d.toNat act fun l => ones l == 0 || ones l == lanes l
      | .ballot d => g.writeV64 d.toNat act ones)
def execMatchLanes (o : MatchOp) (s : State) : Out :=
  onIssuer s fun k g x =>
    let act := s.active g x o.g
    let v := fun l => s.src g .zero o.b64 l (.v o.a)
    s.setGroup k (g.writeV64 o.d.toNat act fun l => tileMask g.tileWidth l fun j => act.getLsbD j && v j == v l)

/-- One combination of REDUX and SCAN, with its flags (09 R213). -/
def redStep (op : RedOp) (a b : BitVec 64) : BitVec 64 × Flags :=
  let i2 := fun (f : (w : Nat) → BitVec w → BitVec w → BitVec w) b64 => (at2 f b64 a b, ({} : Flags))
  match op with
  | .add b64 => i2 (fun _ x y => x + y) b64
  | .min b64 uns => i2 (intMin uns) b64
  | .max b64 uns => i2 (intMax uns) b64
  | .and b64 => i2 (fun _ x y => x &&& y) b64
  | .or b64 => i2 (fun _ x y => x ||| y) b64
  | .xor b64 => i2 (fun _ x y => x ^^^ y) b64
  | .fadd => let r := fp32.sum .rne (f32 (a.setWidth 32)) (f32 (b.setWidth 32)); (BitVec.ofNat 64 r.1, r.2)
  | .fmin => ((fMinMax false (a.setWidth 32) (b.setWidth 32)).setWidth 64, {})
  | .fmax => ((fMinMax true (a.setWidth 32) (b.setWidth 32)).setWidth 64, {})
/-- The identity of each operation (09 R213). -/
def redIdentity : RedOp → BitVec 64
  | .add _ | .or _ | .xor _ => 0
  | .and _ => BitVec.allOnes 64
  | .min b64 uns => if uns then BitVec.allOnes 64 else if b64 then 0x7FFFFFFFFFFFFFFF else 0x7FFFFFFF
  | .max b64 uns => if uns then 0 else if b64 then 0x8000000000000000 else 0x80000000
  | .fadd => 0x80000000
  | .fmin => 0x7F800000
  | .fmax => 0xFF800000
def isFloatRed : RedOp → Bool
  | .fadd | .fmin | .fmax => true
  | _ => false
/-- The value of position i of lane l's tile: FtzIn of its source when active, else the identity. -/
def State.redSource (s : State) (g : Group) (op : RedOp) (b64 : Bool) (a : BitVec 8) (act : LaneMask) (base i : Nat) : BitVec 64 :=
  if !act.getLsbD (base + i) then redIdentity op
  else
    let x := s.src g .zero b64 (base + i) (.v a)
    if isFloatRed op then (ftzIn g.ftz (x.setWidth 32)).setWidth 64 else x
/-- Adjacent pairs combined, and their flags. -/
def redPairs (op : RedOp) : List (BitVec 64) → List (BitVec 64) × Flags
  | a :: b :: t =>
    let r := redStep op a b
    let q := redPairs op t
    (r.1 :: q.1, r.2.or q.2)
  | l => (l, {})
/-- The fixed tree of 09 R213: pairs, then pairs of those, up to one value. `fuel` bounds its height. -/
def redTree (op : RedOp) : Nat → List (BitVec 64) → BitVec 64 × Flags
  | 0, l => (l.headD 0, {})
  | fuel + 1, l =>
    match l with
    | [x] => (x, {})
    | _ => let p := redPairs op l
           let r := redTree op fuel p.1
           (r.1, p.2.or r.2)
/-- An FP32 result canonical and flushed; an integer unchanged. -/
def redOut (op : RedOp) (ftz : Bool) (x : BitVec 64) : BitVec 64 × Flags :=
  if isFloatRed op then
    let w : LaneWord := x.setWidth 32
    let r := ftzOut ftz (if (f32 w).isNan then nanLane else w, {})
    (r.1.setWidth 64, r.2)
  else (x, {})
def execRedux (o : ReduxOp) (s : State) : Out :=
  onIssuer s fun k g x =>
    let act := s.active g x o.g
    let t := g.tileWidth
    let tree := fun l => redTree o.op 7 ((List.range t).map (s.redSource g o.op o.op.b64 o.a act (tileBase t l)))
    let out := fun l => redOut o.op g.ftz (tree l).1
    s.setGroup k ((g.writeD o.op.b64 o.d act fun l => (out l).1).raise (flagsOver act fun l => (tree l).2.or (out l).2))
/-- Positions 0 to n - 1 scanned: the value before and after each, and the flags so far (09 R213). -/
def scanTo (op : RedOp) (src : Nat → BitVec 64) : Nat → (BitVec 64 × BitVec 64) × Flags
  | 0 => ((redIdentity op, redIdentity op), {})
  | n + 1 =>
    let p := scanTo op src n
    let r := redStep op p.1.2 (src n)
    ((p.1.2, r.1), p.2.or r.2)
def execScan (o : ScanOp) (s : State) : Out :=
  onIssuer s fun k g x =>
    let act := s.active g x o.g
    let t := g.tileWidth
    let pos := fun l => scanTo o.op (s.redSource g o.op o.op.b64 o.a act (tileBase t l)) (l - tileBase t l + 1)
    let out := fun l => redOut o.op g.ftz (if o.excl then (pos l).1.1 else (pos l).1.2)
    s.setGroup k ((g.writeD o.op.b64 o.d act fun l => (out l).1).raise (flagsOver act fun l => (pos l).2.or (out l).2))

end Sys2Proof.Machine
end

