-- ==== Sys2Proof/Machine/Split.lean ====
section
/-! DEFINITION. Splits, join records and control flow (12 R256 to R273), and the control forms of 08, 16 that touch no memory. -/

namespace Sys2Proof.Machine

/-! ### Where a clause goes on -/

/-- The next clause header after a header at `h` (02 R35). -/
def afterClause (h : Addr) (hdr : Word) : Addr := h + 8 * ((hdr.extractLsb' 56 4).setWidth 64 + 2)
/-- The fall-through of the clause a split runs (12 R267). -/
def Split.fall (x : Split) : Addr :=
  match x.run with
  | some r => afterClause x.pc r.hdr
  | none => x.pc
/-- A split's clause is over, and it stands at a header. -/
def Split.moveTo (x : Split) (pc : Addr) : Split := { x with pc := pc, run := none, skip := 0 }

/-- A split passes to the next word of its clause, or past its end. -/
def Split.moveNext (x : Split) : Split :=
  match x.run with
  | some r => if r.idx + 1 < r.words.length then { x with run := some { r with idx := r.idx + 1 } } else x.moveTo x.fall
  | none => x

/-! ### Join records (12 R260, R261) -/

/-- Every live split, in the table or spilled. -/
def Group.live1 (g : Group) : List Split := g.splits ++ g.spilled
/-- REF of a record: live splits with its JID, and records whose PARENT it is (12 R260). -/
def Group.refs (g : Group) (j : Nat) : Nat :=
  (g.live1.filter fun x => x.jid == j).length + (g.recs.filter fun r => r.1 != 0 && r.2.parent == j).length
/-- Records other than the root whose REF is 0 are freed; `fuel` bounds a chain of them (12 R260). -/
def Group.freeRecs : Nat → Group → Group
  | 0, g => g
  | fuel + 1, g => Group.freeRecs fuel { g with recs := g.recs.filter fun r => r.1 == 0 || g.refs r.1 != 0 }
/-- Records on chip, the root apart. -/
def Group.onChip (g : Group) : List (Nat × JoinRec) := g.recs.filter fun r => r.1 != 0 && r.2.chip
/-- A free on-chip place takes back the spilled record with the lowest JID (12 R261). -/
def Group.refillRecs : Nat → Group → Group
  | 0, g => g
  | fuel + 1, g =>
    if g.onChip.length < 4 then
      match g.recs.find? fun r => !r.2.chip with
      | some r => Group.refillRecs fuel { g with recs := g.recs.put r.1 { r.2 with chip := true } }
      | none => g
    else g
/-- The lowest FREE entry of the table (12 R259; which one is not stated, log 50). -/
def freePlace (l : List Split) : Nat := ((List.range 4).find? fun i => !l.any fun x => x.place == i).getD 0
/-- A split enters a place of the table. -/
def Group.seat (g : Group) (x : Split) (i : Nat) : Group :=
  { g with splits := g.splits ++ [{ x with place := i }], freeEntries := g.freeEntries.del i }
def Group.seatFree (g : Group) (x : Split) : Group := g.seat x (freePlace g.splits)
/-- A free table slot takes the longest-spilled split (12 R261). -/
def Group.refillSplits : Nat → Group → Group
  | 0, g => g
  | fuel + 1, g =>
    match g.spilled with
    | x :: t => if g.splits.length < 4 then Group.refillSplits fuel (({ g with spilled := t } : Group).seatFree x) else g
    | [] => g
/-- Free records go, and free places fill. -/
def Group.settle (g : Group) : Group := ((g.freeRecs 64).refillRecs 4).refillSplits 4

/-- U of 12 R261: bytes of the spill stack. -/
def Group.spillBytes (g : Group) : Nat := 32 * g.spilled.length + 16 * (g.recs.filter fun r => !r.2.chip).length
/-- The on-chip record that goes to the spill stack (12 R261). -/
def Group.recVictim (g : Group) : Option Nat :=
  let named := fun j => g.splits.any fun x => x.jid == j
  ((g.onChip.find? fun r => !named r.1).or g.onChip.head?).map (·.1)
/-- A new record takes the lowest free JID from 1 to 4,095 and an on-chip place (12 R260, R261). -/
def Group.newRec (g : Group) (m : LaneMask) (parent : Nat) : Option (Nat × Group) :=
  let j := g.recs.fresh 4096 1
  if 4095 < j then none
  else
    let g := if g.onChip.length < 4 then g
      else match g.recVictim with
        | some v => { g with recs := g.recs.upd v fun r => { r with chip := false } }
        | none => g
    some (j, { g with recs := g.recs.put j { jmask := m, parent := parent } })
/-- The table split with the smallest LAST. -/
def smallestLast : List Split → Option Split
  | [] => none
  | x :: t => match smallestLast t with
    | some y => if x.last ≤ y.last then some x else some y
    | none => some x
/-- A split joins the table; with four in use the one with the smallest LAST is spilled (12 R261), and PMC counter 5 counts it. -/
def Group.addSplit (g : Group) (x : Split) : Group :=
  if g.splits.length < 4 then g.seatFree x
  else match smallestLast g.splits with
    | some v => ({ g with splits := g.splits.filter fun y => y.mask != v.mask, spilled := g.spilled ++ [v],
                          pmc := g.pmc.put 5 (g.pmc.getD 5 0 + 1) } : Group).seat x v.place
    | none => g
/-- The spill stack lies within the private region (12 R261). -/
def State.spillFits (s : State) (g : Group) : Bool :=
  g.spillBytes ≤ g.width * ((s.teamOf g).map (·.kern.hdr.priv)).getD 0

/-- A split of the table and a spilled one change places. -/
def Group.swapSpilled (g : Group) (v x : Split) : Group :=
  ({ g with splits := g.splits.filter fun y => y.mask != v.mask, spilled := (g.spilled.filter fun y => y.mask != x.mask) ++ [v] } : Group).seat x v.place
/-- Hardware has rearranged a group's spill stack, which held `was` bytes: nothing fixes what those bytes of memory hold (12 R261). -/
def State.noteSpill (s : State) (k was : Nat) (g : Group) : State :=
  let n := max was g.spillBytes
  if n = 0 then s else { s with spillOut := s.spillOut ++ [(k, n)] }

/-! ### Division (12 R262) -/

/-- The lanes of a split in parts of one next PC and one depth, in the order of their lowest lanes. -/
def partsOf (next : Nat → Addr) (dep : Nat → Nat) : List Nat → List (Addr × Nat × LaneMask)
  | [] => []
  | l :: t =>
    let ps := partsOf next dep t
    let key := (next l, dep l)
    let same := ps.filter fun p => (p.1, p.2.1) == key
    let rest := ps.filter fun p => (p.1, p.2.1) != key
    (next l, dep l, maskOf [l] ||| (same.map (·.2.2)).foldl (· ||| ·) 0) :: rest
/-- A division of split x: a record, the part of its lowest lane in its place, the other parts as new splits. -/
def Group.divide (g : Group) (x : Split) (ps : List (Addr × Nat × LaneMask)) : Option Group :=
  (g.newRec x.mask x.jid).map fun (j, g) =>
    let mk := fun (p : Addr × Nat × LaneMask) =>
      { (x.moveTo p.1) with mask := p.2.2, depth := p.2.1, jid := j, st := .ready, last := g.clauses }
    match ps with
    | p :: t => t.foldl (fun g p => g.addSplit (mk p))
        { g with splits := g.splits.map fun y => if y.mask = x.mask then mk p else y }
    | [] => g
/-- `Transfer` of 12 R262. SPLIT_OVERFLOW stops the group at the clause header (12 R261). -/
def State.transfer (s : State) (k : Nat) (g : Group) (x : Split) (act : LaneMask) (next : Nat → Addr) (dep : Nat → Nat) : State :=
  let g1 := { g with gio := g.gio + 1 }
  match partsOf next dep (lanesOf x.mask) with
  | [p] => (s.setGroup k (g1.updSplit (lowest x.mask) fun y => { y.moveTo p.1 with depth := p.2.1 })).halt
  | ps =>
    match g1.divide x ps with
    | some g2 => if s.spillFits g2 then ((s.setGroup k g2).noteSpill k g.spillBytes g2).halt else s.trapHeader k x .splitOverflow act
    | none => s.trapHeader k x .splitOverflow act

/-! ### Joining (12 R263, R264) -/

/-- The splits of one release test: at a JOIN, with one JID, header and depth. -/
def atJoin (jid depth : Nat) (h : Addr) (x : Split) : Bool :=
  x.st == .joinw && x.jid == jid && x.pc == h && x.depth == depth
/-- The JMASK of a record; the root holds every lane. -/
def Group.jmaskOf (g : Group) (j : Nat) : LaneMask :=
  if j = 0 then allLanes g.width else ((g.recs.get? j).map (·.jmask)).getD 0
def Group.parentOf (g : Group) (j : Nat) : Nat := if j = 0 then 0 else ((g.recs.get? j).map (·.parent)).getD 0
/-- The release test of 12 R263 for the place where split x waits. -/
def Group.released (g : Group) (x : Split) : Bool :=
  let a := ((g.live1.filter (atJoin x.jid x.depth x.pc)).map (·.mask)).foldl (· ||| ·) 0
  let jm := g.jmaskOf x.jid
  jm &&& ~~~(a ||| (jm &&& ~~~g.live)) == 0
/-- Where a split that waits at a JOIN goes on. -/
def joinFall (x : Split) : Addr :=
  match x.wait with
  | .join f => f
  | _ => x.pc
/-- The splits that wait with x become one READY split of the parent record (12 R263). -/
def Group.release (g : Group) (x : Split) : Group :=
  let t := atJoin x.jid x.depth x.pc
  let a := ((g.live1.filter t).map (·.mask)).foldl (· ||| ·) 0
  let y := { x.moveTo (joinFall x) with mask := a, jid := g.parentOf x.jid, st := .ready, wait := .nothing }
  let inTable := g.splits.any t
  let at1 := ((g.splits.find? t).map (·.place)).getD (freePlace (g.splits.filter fun z => !t z))
  let y := { y with place := at1 }
  let g1 := { g with splits := g.splits.filter fun z => !t z, spilled := g.spilled.filter fun z => !t z,
                     recs := if x.jid = 0 then g.recs else g.recs.del x.jid }
  if inTable || g1.splits.length < 4 then { g1 with splits := y :: g1.splits } else { g1 with spilled := g1.spilled ++ [y] }
/-- Every release that a test admits; `fuel` bounds a chain of them. -/
def Group.releaseAll : Nat → Group → Group
  | 0, g => g
  | fuel + 1, g =>
    match g.live1.find? fun x => x.st == .joinw && g.released x with
    | some x => Group.releaseAll fuel (g.release x)
    | none => g
/-- A join cycle is released singly, and JREL set (12 R264). -/
def Group.breakCycle (g : Group) : Group :=
  if !g.live1.isEmpty && g.live1.all (fun x => x.st == .joinw) then
    let f := fun (x : Split) => { x.moveTo (joinFall x) with jid := g.parentOf x.jid, st := .ready, wait := .nothing }
    { g with splits := g.splits.map f, spilled := g.spilled.map f, jrel := true }
  else g
/-- The tests of 12 R263 and R264, then the places they free. -/
def Group.joins (g : Group) : Group := ((g.releaseAll 64).breakCycle).settle

/-! ### Lanes that exit (12 R265) -/

/-- Lanes leave their splits; an empty split is freed. -/
def Group.exitLanes (g : Group) (m : LaneMask) : Group :=
  let cut := fun (l : List Split) => (l.map fun x => { x with mask := x.mask &&& ~~~m }).filter fun x => x.mask != 0
  { g with live := g.live &&& ~~~m, splits := cut g.splits, spilled := cut g.spilled }

/-! ### The control transfers (12 R267 to R271) -/

/-- A target in a lane's register pair or a scalar (12 R269). -/
def State.target (s : State) (g : Group) (t : VOrS) (l : Nat) : Addr :=
  match t with
  | .v n => s.readV64 g n.toNat l
  | .s n => s.readS g n.toNat
def aligned8 (a : Addr) : Bool := a.extractLsb' 0 3 == 0

def execBra (o : BraOp) (s : State) : Out :=
  onIssuer s fun k g x =>
    let act := s.active g x o.g
    s.transfer k g x act (fun l => if act.getLsbD l then x.pc + o.off.signExtend 64 else x.fall) fun _ => x.depth
def execBrx (o : BrxOp) (s : State) : Out :=
  onIssuer s fun k g x =>
    let act := s.active g x o.g
    if (lanesOf act).all fun l => aligned8 (s.target g o.t l) then
      s.transfer k g x act (fun l => if act.getLsbD l then s.target g o.t l else x.fall) fun _ => x.depth
    else s.trapHeader k x .illegalClause act
def execCall (o : CallOp) (s : State) : Out :=
  onIssuer s fun k g x =>
    let act := s.active g x o.g
    if act ≠ 0 ∧ x.depth = 255 then s.trapHeader k x .splitOverflow act
    else
      let g1 := g.writeV64 o.d.toNat act fun _ => x.fall
      s.transfer k g1 x act (fun l => if act.getLsbD l then x.pc + o.off.signExtend 64 else x.fall)
        fun l => if act.getLsbD l then x.depth + 1 else x.depth
def execRet (o : BrxOp) (s : State) : Out :=
  onIssuer s fun k g x =>
    let act := s.active g x o.g
    if act ≠ 0 ∧ x.depth = 0 then s.trapHeader k x .callDepth act
    else if (lanesOf act).all fun l => aligned8 (s.target g o.t l) then
      s.transfer k g x act (fun l => if act.getLsbD l then s.target g o.t l else x.fall)
        fun l => if act.getLsbD l then x.depth - 1 else x.depth
    else s.trapHeader k x .illegalClause act
/-- JOIN: the split enters JOINW at its header, and the tests are made (12 R263). -/
def execJoin (s : State) : Out :=
  onIssuer s fun k g x =>
    let g1 := { g with gio := g.gio + 1 }
    let g2 := (g1.updSplit (lowest x.mask) fun y => { y.moveTo x.pc with st := .joinw, wait := .join x.fall }).joins
    ((s.setGroup k g2).noteSpill k g.spillBytes g2).halt
def execExit (o : GuardOnly) (s : State) : Out :=
  onIssuer s fun k g x =>
    let g1 := { g with gio := g.gio + 1 }
    let g2 := g1.updSplit (lowest x.mask) fun y => y.moveTo x.fall
    let g3 := (g2.exitLanes (s.active g x o.g)).joins
    ((s.setGroup k g3).noteSpill k g.spillBytes g3).halt
/-- Issue count of a core partition (15 R333). -/
def State.issueCount (s : State) (core part : Nat) : Nat := (s.core core).issued.getD part 0
def execYield (s : State) : Out :=
  onIssuer s fun k g x =>
    let n := s.issueCount (coreOf k) g.part
    let g1 := { g with gio := g.gio + 1 }
    (s.setGroup k (g1.updSplit (lowest x.mask) fun y => { y.moveTo x.fall with yielded := some (n, s.cycle) })).halt

/-! ### Partition, guard slots, traps (12 R272, R273; 16 R358) -/

def execPartset (tw : BitVec 3) (s : State) : Out := onIssuer s fun k g _ => s.setGroup k { g with tw := tw }
/-- The guard slot that a queued command names (07 R169). -/
def slotOf : Instr → Option (BitVec 4)
  | .kick o => o.slot
  | .trace o | .cont o | .contEnd o => o.slot
  | .mld o => o.slot
  | .mma o | .mmas o => o.slot
  | .mzero o => o.slot
  | .mst o => o.slot
  | _ => none
/-- A slot resolves: every command issued under it and not yet bound takes this value (07 R169). An operation in flight holds its binding in
    `aux`: 0 unresolved, 1 FALSE, 2 TRUE. -/
def State.resolveSlot (s : State) (team : Nat) (n : BitVec 4) (v : Bool) : State :=
  let bind := fun (sl : Option (BitVec 4)) (b : Option Bool) => if sl = some n ∧ b = none then some v else b
  let s := s.updTeam team fun t => { t with
    guards := t.guards.put n.toNat v,
    queue := t.queue.map fun (e : QueueEntry) => { e with bound := bind e.slot e.bound },
    rays := t.rays.map fun (e : RayCmd) => { e with bound := bind e.slot e.bound } }
  { s with
    groups := s.groups.map fun (e : Nat × Group) => (e.1, if e.2.team = team then { e.2 with ops := (e.2.ops.map fun (o : Op) =>
      if slotOf o.instr = some n ∧ o.aux = 0 ∧ !o.performed then { o with aux := if v then 2 else 1 } else o) } else e.2),
    seqs := s.seqs.map fun (e : Nat × Seq) => (e.1, if e.2.team = team then { e.2 with held := (e.2.held.map fun h =>
      (h.1, h.2.1, bind (some h.2.1) h.2.2)) } else e.2) }
/-- GSET resolves an unresolved slot, once per split with an active lane (12 R273). -/
def execGset (o : GsetOp) (s : State) : Out :=
  onIssuer s fun _ g x =>
    let act := s.active g x o.g
    let v := match o.val with
      | .imm v => v
      | .pred pa neg => s.predAt g pa neg (lowest act)
    if act = 0 then s
    else match s.teamOf g with
      | some t => if (t.guards.get? o.n.toNat).isSome then s else s.resolveSlot g.team o.n v
      | none => s
def execGclr (o : GclrOp) (s : State) : Out :=
  onIssuer s fun _ g x =>
    if s.active g x o.g = 0 then s else s.updTeam g.team fun t => { t with guards := t.guards.del o.n.toNat }
/-- User TRAP and BKPT: the group stops, to continue at the fall-through, when some lane passes the guard (16 R358). -/
def codeTrap (c : Cause) (o : CodeOp) (s : State) : Out :=
  onIssuer s fun k g x =>
    let act := s.active g x o.g
    let g1 := { g with gio := g.gio + 1 }
    if act = 0 then (s.setGroup k (g1.updSplit (lowest x.mask) fun y => y.moveTo x.fall)).halt
    else (s.setGroup k g1).trapHeader k x c act (some o.code.toNat) (some x.fall)
def execTrap (o : CodeOp) (s : State) : Out := codeTrap .softTrap o s
def execBkpt (o : CodeOp) (s : State) : Out := codeTrap .breakpoint o s

/-! ### Status reads (16 R359) -/

/-- The core whose PTS a core's L1 uses: the first of its cluster when the L1 is fused (04 R90, R95). -/
def State.ptsCore (s : State) (c : Nat) : Nat := if s.fused.getLsbD (clusterOf c) then 4 * clusterOf c else c
def State.pts (s : State) (c : Nat) : Nat := (s.core (s.ptsCore c)).pts
def execClock (o : SDst) (s : State) : Out := scalarForm o.g o.d s fun _ _ => BitVec.ofNat 64 s.cycle
def execClockPts (o : SDst) (s : State) : Out :=
  onIssuer s fun k g x =>
    if s.active g x o.g = 0 then s else s.setGroup k (g.writeS o.d.toNat (BitVec.ofNat 64 (s.pts (coreOf k))))
/-- The counters of 16 R359; those of busy and conflict cycles are timing, and free here (log 12). -/
def execPmc (o : PmcOp) (s : State) : Out :=
  scalarForm o.g o.d s fun g _ =>
    if o.n.toNat ≤ 5 then BitVec.ofNat 64 (if o.n = 0 then g.clauses else g.pmc.getD o.n.toNat 0) else s.free 64 (196608 + o.n.toNat)
/-- The forms that set or clear BCUR (11 R237). -/
def isBundleForm : Instr → Bool
  | .bopen _ | .bopenJoin _ | .bcommit _ | .babort _ => true
  | _ => false
/-- BCUR is read once the group's earlier BOPEN, BCOMMIT and BABORT have set it. -/
def execGstat (o : GstatOp) (s : State) : Out :=
  onIssuer s fun k g x =>
    if s.active g x o.g = 0 then s
    else if o.sel = 3 && g.ops.any (fun e => isBundleForm e.instr) then s.halt
    else s.setGroup k (g.writeS o.d.toNat
      (if o.sel = 0 then g.status else if o.sel = 1 then g.mode else if o.sel = 2 then g.part64 else g.bcur.setWidth 64))

/-! ### Register grants (08 R176 to R179) -/

/-- Granules of one block (08 R176). -/
def Group.blockGranules (g : Group) : Nat := g.width / 16
def State.groupsOn (s : State) (core : Nat) : List (Nat × Group) := s.groups.filter fun e => coreOf e.1 == core
/-- The fields of a partition's quota register: group slots, register granules, scratchpad frames, accumulator tiles, sequencers
    (15 R331). -/
def quotaGslot (q : BitVec 64) : Nat := fld q.toNat 0 7
def quotaVrg (q : BitVec 64) : Nat := fld q.toNat 10 11
def quotaScrf (q : BitVec 64) : Nat := fld q.toNat 21 10
def quotaAcc (q : BitVec 64) : Nat := fld q.toNat 31 6
def quotaSeq (q : BitVec 64) : Nat := fld q.toNat 37 3
/-- The reset value: 4 sequencers, 32 tiles, 512 frames, 1,024 granules, 64 slots (15 R331). -/
def quotaReset : BitVec 64 := BitVec.ofNat 64 (64 + 1024 * 2 ^ 10 + 512 * 2 ^ 21 + 32 * 2 ^ 31 + 4 * 2 ^ 37)
def State.quota (s : State) (p : Nat) : BitVec 64 := s.quotas.getD p quotaReset
/-- The tenant partition of a group (15 R331). -/
def State.partitionOf (s : State) (g : Group) : Nat := ((s.ctx (s.asidOf g)).map (·.part)).getD 0
def granulesOf (l : List (Nat × Group)) : Nat := (l.map fun e => e.2.blocks * e.2.blockGranules).sum
/-- `free` of 08 R179 for a partition on a core: the smaller of the unallocated granules and what its quota leaves it (15 R331). -/
def State.freeGranulesFor (s : State) (core part : Nat) : Nat :=
  let l := s.groupsOn core
  min (Config.granulesPerCore - granulesOf l) (quotaVrg (s.quota part) - granulesOf (l.filter fun e => s.partitionOf e.2 == part))
/-- need(h) in granules (08 R179). -/
def Group.need (g : Group) : Nat := (g.vmax - g.blocks) * g.blockGranules
/-- The age of a group: its first start, its team's start number, its index (08 R179). -/
def Group.age (g : Group) : Nat × Nat × Nat := (g.bornAt, g.born, g.gidx)
def olderThan (a b : Group) : Bool :=
  a.bornAt < b.bornAt || (a.bornAt == b.bornAt && (a.born < b.born || (a.born == b.born && a.gidx < b.gidx)))
/-- The first of a list in age order. -/
def oldest : List (Nat × Group) → Option (Nat × Group)
  | [] => none
  | e :: t => match oldest t with
    | some o => if olderThan o.2 e.2 then some o else some e
    | none => some e
/-- Blocks that a group's splits wait for. -/
def Group.wanted (g : Group) : Option Nat :=
  g.live1.findSome? fun x => match x.wait with
    | .grow n => if x.st = .sleep then some n else none
    | _ => none
/-- A group grows to n blocks, the new registers zero in every lane, and its splits that waited for them go on (08 R173, R178). -/
def Group.growTo (g : Group) (n : Nat) : Group :=
  let f := fun (x : Split) => match x.wait with
    | .grow m => if m ≤ n && x.st == .sleep then { x with st := .ready, wait := .nothing } else x
    | _ => x
  { g with blocks := max g.blocks n, v := g.v.filter fun e => e.1 < 64 * (8 * g.blocks), splits := g.splits.map f, spilled := g.spilled.map f }
/-- 08 R179's test for `k` of `free` granules to group `h`, which then lacks `after`, among the groups of its core. -/
def grantsAt (h k after free : Nat) (l : List (Nat × Group)) : Bool :=
  decide (k ≤ free) && ((oldest l).map (·.1) == some h
    || decide (maxOf (after :: ((l.filter fun e => e.1 != h).map fun e => e.2.need)) ≤ free - k))
/-- REGISTER_GRANT (the core in hand): the oldest waiting request is granted when 08 R179 admits it on the core and within the quota. -/
def execRegisterGrant (s : State) : Out :=
  .next (match oldest ((s.groupsOn s.hand).filter fun e => e.2.wanted.isSome) with
    | none => s
    | some (k, g) =>
      let n := g.wanted.getD 0
      if grantsAt k ((n - g.blocks) * g.blockGranules) ((g.vmax - n) * g.blockGranules) (s.freeGranulesFor s.hand (s.partitionOf g))
          (s.groupsOn s.hand) then
        s.setGroup k (g.growTo n)
      else s)
/-- REGGROW: REG_RANGE above VMAX; a larger allocation makes the split sleep until the grant (08 R178). -/
def execReggrow (n : BitVec 6) (s : State) : Out :=
  onIssuer s fun k g x =>
    if g.vmax < n.toNat then s.trapHeader k x .regRange x.mask
    else if n.toNat ≤ g.blocks then s
    else
      let g1 := { g with gio := g.gio + 1 }
      (s.setGroup k (g1.updSplit (lowest x.mask) fun y => { y.moveTo x.fall with st := .sleep, wait := .grow n.toNat })).halt
/-- REGSHRINK waits for the instructions that write the freed registers, and for the replay of the group's logged and held accesses; what
    the registers held is then lost (08 R178, 16 R344). -/
def execRegshrink (n : BitVec 6) (s : State) : Out :=
  onIssuer s fun k g _ =>
    if g.blocks ≤ n.toNat then s
    else if g.ops.any fun o => o.place != .free || o.vd.any fun r => decide (8 * n.toNat ≤ r) && r != 255 then s.halt
    else s.setGroup k { g with blocks := n.toNat, v := g.v.filter fun e => e.1 < 64 * (8 * n.toNat) }

end Sys2Proof.Machine
end

