-- ==== Sys2Proof/Machine/Xlat.lean ====
section
/-! DEFINITION. Translation: extents, translation caches, walks, and the invalidation command (03 R65 to R85). -/

namespace Sys2Proof.Machine

/-! ### Page-table entries (03 R69) -/

def pteTier (e : BitVec 64) : Nat := fld e.toNat 61 3
def ptePeer (e : BitVec 64) : Nat := fld e.toNat 55 6
def pteSpec (e : BitVec 64) : Bool := e.getLsbD 54
def pteMig (e : BitVec 64) : Bool := e.getLsbD 53
def pteAddr (e : BitVec 64) : Nat := fld e.toNat 12 40 * 4096
def pteD (e : BitVec 64) : Bool := e.getLsbD 8
def pteA (e : BitVec 64) : Bool := e.getLsbD 7
def pteG (e : BitVec 64) : Bool := e.getLsbD 6
def pteX (e : BitVec 64) : Bool := e.getLsbD 5
def pteW (e : BitVec 64) : Bool := e.getLsbD 4
def pteR (e : BitVec 64) : Bool := e.getLsbD 3
def ptePriv (e : BitVec 64) : Bool := e.getLsbD 2
def pteLeaf (e : BitVec 64) : Bool := e.getLsbD 1
def pteV (e : BitVec 64) : Bool := e.getLsbD 0
def pteAllows (e : BitVec 64) : AccKind → Bool
  | .read => pteR e
  | .write => pteW e
  | .rmw => pteW e && pteR e
  | .fetch => pteX e
def writes (k : AccKind) : Bool := k == .write || k == .rmw
/-- Kinds of 03 R72. -/
def fkNotPresent : Nat := 0
def fkRead : Nat := 1
def fkWrite : Nat := 2
def fkExec : Nat := 3
def fkPriv : Nat := 4
def fkMalformed : Nat := 5
def fkRange : Nat := 6
def fkMigrating : Nat := 7
def fkPeerAbsent : Nat := 8
/-- Not a kind of fault: no walker is free, or a module has not answered yet, and the access waits (03 R77; 17 R366). -/
def fkWait : Nat := 16

/-- A frame of tier 6 lies in a block of the aperture map (03 R394). -/
def mmioFrame (pa : Nat) : Bool :=
  let f := pa / 2 ^ 16
  f == 0 || f == 0x10 || f == 0x20 || f == 0x30 || (0x100 ≤ f && f < 0x100 + Config.clusters) || (0x100000 ≤ f && f < 0x100000 + 4096)
/-- A module is a member of the peer group; this one always is (17 R364). -/
def State.member (s : State) (m : Nat) : Bool := m == Config.selfModule || s.links.pgMap.getLsbD m
/-- The checks of a leaf at a level (03 R71). -/
def State.leafBad (s : State) (lvl : Nat) (e : BitVec 64) : Bool :=
  let size := 2 ^ (16 + 9 * lvl)
  lvl == 3 || !pteLeaf e || pteAddr e % size != 0 || pteTier e == 7 || decide (s.tierLimit (pteTier e) ≤ pteAddr e)
    || (pteW e && !pteR e) || (pteTier e == 6 && (lvl != 0 || pteSpec e || !mmioFrame (pteAddr e)))
    || (pteTier e != 3 && pteTier e != 4 && ptePeer e != 0)
/-- Bits 52 and 11:9 of an entry (03 R69). -/
def pteReserved (e : BitVec 64) : Bool := e.getLsbD 52 || e.extractLsb' 9 3 != 0

/-- What a walk finds for an access: a fault, or the leaf with its size, the level reached and the entry's own key; the non-leaf entries read,
    with their stamps; and the greatest stamp read. -/
structure WalkResult where
  fault : Option Nat := none
  pte : BitVec 64 := 0
  level : Nat := 0
  entryKey : Nat := 0
  inner : List (Nat × BitVec 64 × Nat) := []
  wts : Nat := 0
  deriving DecidableEq, Repr
/-- Whether the requester may reach a PRIV page: a service core in S or M mode, or device bookkeeping (03 R71, R72). -/
abbrev Privileged := Bool
/-- A leaf's checks against an access, in the order of 03 R71. -/
def State.leafResult (s : State) (kind : AccKind) (priv : Privileged) (r : WalkResult) : WalkResult :=
  let x := r.pte
  if r.fault.isSome then r
  else if s.leafBad r.level x then { fault := some fkMalformed }
  else if (pteTier x == 3 || pteTier x == 4) && !s.member (ptePeer x) then { fault := some fkPeerAbsent }
  else if ptePriv x && !priv then { fault := some fkPriv }
  else if kind = .fetch ∧ !pteX x then { fault := some fkExec }
  else if kind = .read ∧ !pteR x then { fault := some fkRead }
  else if writes kind ∧ !pteW x then { fault := some fkWrite }
  else if pteMig x then { fault := some fkMigrating }
  else r
/-- The descent of 03 R71 from an entry that names the table of a level, down to a leaf: what every access to the granule shares (R77). Each
    load is an acquire, and `wts` is the greatest stamp read so far. -/
def State.descend (s : State) (va : Nat) : Nat → BitVec 64 → Nat → List (Nat × BitVec 64 × Nat) → WalkResult
  | lvl, e, wts, inner =>
    if pteTier e ≠ 0 ∧ pteTier e ≠ 1 then { fault := some fkMalformed }
    else
      let key := physKey Config.selfModule (pteTier e) (pteAddr e + 8 * fld va (16 + 9 * lvl) 9)
      let x := BitVec.ofNat 64 (s.deviceNum key 8)
      let wts := max wts (s.lineStamp (lineOf key))
      if !pteV x then { fault := some fkNotPresent }
      else if pteReserved x then { fault := some fkMalformed }
      else match lvl with
        | lvl' + 1 =>
          if pteLeaf x then { pte := x, level := lvl' + 1, entryKey := key, inner := inner, wts := wts }
          else if fld x.toNat 53 8 ≠ 0 ∨ fld x.toNat 2 7 ≠ 0 then { fault := some fkMalformed }
          else s.descend va lvl' x wts ((lvl', x, wts) :: inner)
        | 0 => { pte := x, level := 0, entryKey := key, inner := inner, wts := wts }

/-! ### Translation caches (03 R76) -/

def TlbEntry.covers (t : TlbEntry) (asid : BitVec 16) (va : Nat) : Bool :=
  (t.asid == asid || pteG t.pte) && decide (t.vbase ≤ va) && decide (va < t.vbase + t.size)
/-- A cached leaf serves an access that its permissions and D bit admit (03 R76). -/
def TlbEntry.serves (t : TlbEntry) (asid : BitVec 16) (va : Nat) (kind : AccKind) (priv : Privileged) : Bool :=
  t.covers asid va && pteAllows t.pte kind && (!writes kind || pteD t.pte) && (priv || !ptePriv t.pte)
/-- The key that a leaf gives an address. -/
def leafKey (pte : BitVec 64) (vbase va : Nat) : Nat := tierKey (pteTier pte) (ptePeer pte) (pteAddr pte + (va - vbase))
/-- A translated access: its key, whether its leaf or extent allows unconfirmed reads (03 R85), and the stamp that its walk acquired. -/
structure Hit where
  key : Nat
  spec : Bool
  acq : Nat := 0
  deriving DecidableEq, Repr
def TlbEntry.hit (t : TlbEntry) (va : Nat) : Hit := { key := leafKey t.pte t.vbase va, spec := pteSpec t.pte, acq := t.wts }
def findTlb (l : List TlbEntry) (asid : BitVec 16) (va : Nat) (kind : AccKind) (priv : Privileged) : Option Hit :=
  (l.find? fun t => t.serves asid va kind priv).map fun t => t.hit va
/-- The lowest-index extent that covers an access and allows it (03 R75). -/
def extentHit (l : List Extent) (va n : Nat) (kind : AccKind) : Option Hit :=
  match l.find? fun e => decide (e.vbase.toNat ≤ va) && decide (va < e.vend) with
  | some e =>
    let ok : Bool := match kind with
      | .read => e.r
      | .write => e.w
      | .rmw => e.w && e.r
      | .fetch => e.x
    if decide (va + n ≤ e.vend) && ok then some { key := tierKey e.tier e.peer (e.paddr * 2 ^ 16 + (va - e.vbase.toNat)), spec := e.spec } else none
  | none => none
/-- An address of a group's access: out of range, found in an extent or a cache, or missing (03 R65, R75, R76). -/
inductive Found where
  | range
  | hit (h : Hit)
  | miss
  deriving DecidableEq, Repr
def State.lookup (s : State) (core : Nat) (ext : List Extent) (asid : BitVec 16) (va : Addr) (n : Nat) (kind : AccKind) : Found :=
  let a := va.toNat
  if 2 ^ 52 < a + n ∨ 2 ^ 52 ≤ a then .range
  else match extentHit ext a n kind with
    | some h => .hit h
    | none =>
      let t := s.tlbCore.getD core [] ++ s.tlbCluster.getD (clusterOf core) [] ++ s.tlbDie.getD (dieOfCore core) []
      match findTlb t asid a kind false with
      | some h => .hit h
      | none => .miss

/-! ### Walks (03 R71, R77, R78) -/

/-- The deepest cached entry from which a die's walk can go on, or the root (03 R76), with its stamp. -/
def State.walkStart (s : State) (die : Nat) (asid : BitVec 16) (root : BitVec 64) (va : Nat) : Nat × BitVec 64 × Nat :=
  let c := (s.walkDie.getD die []).filter fun w => w.asid == asid && decide (w.vbase ≤ va) && decide (va < w.vbase + w.size)
  match (c.find? fun w => w.level == 0).or ((c.find? fun w => w.level == 1).or (c.find? fun w => w.level == 2)) with
  | some w => (w.level, w.pte, w.wts)
  | none => (3, root, 0)
/-- What a walk of a die reads for a granule: the result that every attached access shares (03 R77). -/
def State.walkRead (s : State) (die : Nat) (asid : BitVec 16) (root : BitVec 64) (va : Nat) : WalkResult :=
  if 2 ^ 52 ≤ va then { fault := some fkRange }
  else let st := s.walkStart die asid root va; s.descend va st.1 st.2.1 st.2.2 []
/-- `Walk` of 03 R71 for one access. -/
def State.walk (s : State) (die : Nat) (asid : BitVec 16) (root : BitVec 64) (va : Nat) (kind : AccKind) (priv : Privileged) :
    WalkResult :=
  s.leafResult kind priv (s.walkRead die asid root va)
/-- A and D set by an atomic OR at the entry's home (03 R71). -/
def State.setAD (s : State) (r : WalkResult) (kind : AccKind) : State × BitVec 64 :=
  if pteA r.pte && (!writes kind || pteD r.pte) then (s, r.pte)
  else
    let x := r.pte ||| (if writes kind then 0x180 else 0x80)
    (s.deviceWrite r.entryKey (toBytes 8 (BitVec.ofNat 64 (s.deviceNum r.entryKey 8) ||| (if writes kind then 0x180 else 0x80)).toNat), x)
/-- The leaf of a walk as a cache holds it. -/
def WalkResult.entry (r : WalkResult) (asid : BitVec 16) (va : Nat) (pte : BitVec 64) : TlbEntry :=
  let size := 2 ^ (16 + 9 * r.level)
  { asid := asid, vbase := va / size * size, size := size, pte := pte, wts := r.wts }
/-- The leaf and the non-leaf entries of a walk enter a die's cache (03 R76). -/
def State.cacheWalk (s : State) (die : Nat) (asid : BitVec 16) (va : Nat) (r : WalkResult) (pte : BitVec 64) : State × TlbEntry :=
  let t := r.entry asid va pte
  let inner := r.inner.map fun p =>
    let sz := 2 ^ (25 + 9 * p.1)
    ({ asid := asid, level := p.1, vbase := va / sz * sz, size := sz, pte := p.2.1, wts := p.2.2 } : WalkEntry)
  ({ s with tlbDie := s.tlbDie.put die (t :: s.tlbDie.getD die []), walkDie := s.walkDie.put die (inner ++ s.walkDie.getD die []) }, t)

/-- A miss attaches to the pending walk of its context and granule, or starts one (03 R77). -/
def State.postWalk (s : State) (die : Nat) (asid : BitVec 16) (root : BitVec 64) (va : Addr) (who : WalkFor) (kind : AccKind) : State :=
  let gr := va.toNat / 65536
  match s.walks.find? fun e => e.2.die == die && e.2.asid == asid && e.2.granule == gr with
  | some (n, w) =>
    if w.waits.contains (who, kind, va) then s
    else { s with walks := s.walks.put n { w with waits := w.waits ++ [(who, kind, va)] } }
  | none =>
    let w : Walk := { die := die, asid := asid, root := root, granule := gr, inval := (s.die die).inval, waits := [(who, kind, va)] }
    { s with walks := s.walks.put s.walks.next w }
/-- A leaf enters the translation caches of the access that waited for it. -/
def State.cacheFor (s : State) (who : WalkFor) (t : TlbEntry) : State :=
  let core := fun c =>
    { s with tlbCore := s.tlbCore.put c (t :: s.tlbCore.getD c []),
             tlbCluster := s.tlbCluster.put (clusterOf c) (t :: s.tlbCluster.getD (clusterOf c) []) }
  match who with
  | .op k _ _ | .split k _ => core (coreOf k)
  | .hart h => s.updHart h fun x => { x with tlb := t :: x.tlb }
/-- A faulted walk answers one access: the access faults (03 R77). -/
def State.walkFault (s : State) (who : WalkFor) (kind : AccKind) (va : Addr) (f : Nat) : State :=
  match who with
  | .split k l => s.updGroup k fun g => g.updSplit l fun x => { x with xfaults := (va.toNat / 65536, kind, f) :: x.xfaults }
  | .op k gio l => s.updGroup k fun g => { g with ops := g.ops.map fun o =>
      if o.gio = gio then { o with accs := o.accs.map fun a => if a.lane = l then { a with phase := .faulted f } else a } else o }
  | .hart h => s.updHart h fun x => { x with xfault := some (f, va) }
/-- The mode that a service core's access is made in: with MPRV set a data access is made in the mode MPP names (log 7). -/
def Hart.accMode (x : Hart) (kind : AccKind) : Mode :=
  if kind != .fetch && x.mstatus.getLsbD 17 then
    (match fld x.mstatus.toNat 11 2 with
      | 0 => .u
      | 1 => .s
      | _ => .m)
  else x.mode
/-- Whether a waiter may reach PRIV pages: a service core in S or M mode (03 R72). -/
def State.walkPriv (s : State) (kind : AccKind) : WalkFor → Privileged
  | .hart h => (s.hart h).accMode kind != .u
  | _ => false
def walkers : Nat := 32
/-- A walk number in a die's order of arrival takes one of its 32 walkers (03 R77). -/
def State.hasWalker (s : State) (die n : Nat) : Bool := decide ((s.walks.filter fun e => e.1 < n && e.2.die == die).length < walkers)
/-- A walk ends: its one result answers every access attached to it, each by its own kind (03 R71, R77). -/
def State.endWalk (s : State) (n : Nat) (w : Walk) (r : WalkResult) : State :=
  w.waits.foldl (fun s (who, kind, va) =>
    let x := s.leafResult kind (s.walkPriv kind who) r
    match x.fault with
    | some f => s.walkFault who kind va f
    | none =>
      let (s, pte) := s.setAD x kind
      let (s, t) := s.cacheWalk w.die w.asid va.toNat x pte
      s.cacheFor who t) { s with walks := s.walks.del n }
/-- PAGE_WALK (the walk in hand): one of a die's 32 walkers walks for a pending miss and answers every access attached to it (03 R71, R77);
    after an invalidation it starts again (03 R78). -/
def execPageWalk (s : State) : Out :=
  .next (match s.walks.get? s.hand with
    | none => s
    | some w =>
      if !s.hasWalker w.die s.hand then s
      else if w.inval ≠ (s.die w.die).inval then { s with walks := s.walks.put s.hand { w with inval := (s.die w.die).inval } }
      else s.endWalk s.hand w (s.walkRead w.die w.asid w.root ((w.waits.head?.map (·.2.2.toNat)).getD 0)))

/-! ### Reads of another module (16 R340; 17 R366) -/

/-- A physical location packed as a leaf is (16 R340). -/
def packedLoc (key : Nat) : BitVec 64 :=
  let peer := keyMod key != Config.selfModule
  BitVec.ofNat 64 ((if peer then keyTier key + 3 else keyTier key) * 2 ^ 61 + (if peer then keyMod key else 0) * 2 ^ 55 + 2 ^ 54 + keyPa key)
/-- A fault as the model hands it on: its kind, and above that the place of a PEER_ABSENT whose place is known. -/
def absentAt (key : Nat) : Nat := fkPeerAbsent + 32 * (key + 1)
def faultKind (f : Nat) : Nat := f % 32
def faultLoc (f : Nat) : BitVec 64 := if f < 32 then 0 else packedLoc (f / 32 - 1)
/-- LINK_WAIT in cycles of 1.05 GHz (17 R360, R367). -/
def State.linkWait (s : State) : Nat := max 1 s.links.lnkWait.toNat * 1050
/-- A read at a home, by an agent: a module that is not reachable answers nothing, and after LINK_WAIT the read faults with PEER_ABSENT (17 R366;
    log 76). Until then it waits. -/
def State.peerRead (s : State) (who : Nat) (asid : BitVec 16) (va key : Nat) : State × Except Nat Nat :=
  if s.reachable (keyMod key) then (s, .ok key)
  else
    let mine := fun (e : PeerWait) => e.who == who && e.asid == asid && e.va == va
    match s.links.peerWaits.find? mine with
    | none =>
      let w : PeerWait := { who := who, asid := asid, va := va, peer := keyMod key, due := s.cycle + s.linkWait }
      ({ s with links := { s.links with peerWaits := s.links.peerWaits ++ [w] } }, .error fkWait)
    | some e =>
      if s.cycle < e.due then (s, .error fkWait)
      else ({ s with links := { s.links with peerWaits := s.links.peerWaits.filter fun e => !mine e } }, .error (absentAt key))

/-! ### Translation by the engines and the device agents (03 R72, R76, R77) -/

/-- A miss of an engine or a device agent walks within its step. It attaches to the pending walk of its context and granule, which then ends
    for all that wait on it, or takes a walker for its own; none: it waits for one (03 R77). -/
def State.engineWalk (s : State) (die : Nat) (asid : BitVec 16) (va : Nat) : Option (State × WalkResult) :=
  let root := ((s.ctx asid).map (·.root)).getD 0
  match s.walks.find? fun e => e.2.die == die && e.2.asid == asid && e.2.granule == va / 65536 with
  | some (n, w) =>
    if !s.hasWalker die n then none
    else
      let r := s.walkRead die asid w.root va
      some (s.endWalk n w r, r)
  | none => if s.hasWalker die s.walks.next then some (s, s.walkRead die asid root va) else none
/-- The team and cluster of an agent that looks further than its die's cache: its team's loaded extents, its cluster's TLB (03 R75, R76). -/
structure Near where
  cluster : Nat
  extents : List Extent
  deriving DecidableEq, Repr
def Near.hit (s : State) (nr : Option Near) (asid : BitVec 16) (a n : Nat) (kind : AccKind) (priv : Privileged) : Option Hit :=
  match nr with
  | some x => (extentHit x.extents a n kind).or (findTlb (s.tlbCluster.getD x.cluster []) asid a kind priv)
  | none => none
/-- A translation by an engine or a device agent, in its own step: the key, or the fault (03 R71, R72, R75, R76), for a read that its module does
    not answer too (17 R366). Its time passes the stamps that it acquires (log 28). -/
def State.engineXlate (s : State) (die : Nat) (asid : BitVec 16) (va : Addr) (n : Nat) (kind : AccKind) (priv : Privileged)
    (nr : Option Near := none) : State × Except Nat Nat :=
  let a := va.toNat
  let seen := fun (s : State) (h : Hit) =>
    let s : State := { s with devPts := max s.devPts h.acq }
    if kind == .write then (s, Except.ok (ε := Nat) h.key) else s.peerRead die asid a h.key
  if 2 ^ 52 ≤ a ∨ 2 ^ 52 < a + n then (s, .error fkRange)
  else match (Near.hit s nr asid a n kind priv).or (findTlb (s.tlbDie.getD die []) asid a kind priv) with
    | some h => seen s h
    | none =>
      match s.engineWalk die asid a with
      | none => (s, .error fkWait)
      | some (s, w) =>
        let r := s.leafResult kind priv w
        match r.fault with
        | some f => (s, .error f)
        | none =>
          let (s, pte) := s.setAD r kind
          let (s, t) := s.cacheWalk die asid a r pte
          let s := match nr with
            | some x => { s with tlbCluster := s.tlbCluster.put x.cluster (t :: s.tlbCluster.getD x.cluster []) }
            | none => s
          seen s (t.hit a)
/-- A range of bytes read or written by an engine, translated granule by granule; the keys and lengths of its parts. -/
def State.enginePieces : Nat → State → Nat → BitVec 16 → Addr → Nat → AccKind → Privileged → (nr : Option Near := none) →
    State × Except (Nat × Addr) (List (Nat × Nat))
  | 0, s, _, _, _, _, _, _, _ => (s, .ok [])
  | fuel + 1, s, die, asid, va, n, kind, priv, nr =>
    if n = 0 then (s, .ok [])
    else
      let m := min n (65536 - va.toNat % 65536)
      match s.engineXlate die asid va m kind priv nr with
      | (s, .error f) => (s, .error (f, va))
      | (s, .ok key) =>
        match State.enginePieces fuel s die asid (va + BitVec.ofNat 64 m) (n - m) kind priv nr with
        | (s, .error e) => (s, .error e)
        | (s, .ok l) => (s, .ok ((key, m) :: l))
/-- An engine's or the device agent's read of a range. -/
def State.engineRead (s : State) (die : Nat) (asid : BitVec 16) (va : Addr) (n : Nat) (kind : AccKind) (priv : Privileged)
    (nr : Option Near := none) : State × Except (Nat × Addr) (List Byte) :=
  match s.enginePieces (n / 65536 + 2) die asid va n kind priv nr with
  | (s, .error e) => (s, .error e)
  | (s, .ok l) => (s, .ok (l.foldl (fun acc p => acc ++ s.deviceRead p.1 p.2) []))
/-- An engine's or the device agent's write of a range; nothing is written when a part faults. -/
def State.engineWrite (s : State) (die : Nat) (asid : BitVec 16) (va : Addr) (bs : List Byte) (priv : Privileged)
    (nr : Option Near := none) : State × Except (Nat × Addr) Unit :=
  match s.enginePieces (bs.length / 65536 + 2) die asid va bs.length .write priv nr with
  | (s, .error e) => (s, .error e)
  | (s, .ok l) => ((l.foldl (fun (a : State × List Byte) p => (a.1.deviceWrite p.1 (a.2.take p.2), a.2.drop p.2)) (s, bs)).1, .ok ())
/-- A range of a context takes bytes that nothing fixes; where it does not translate it stays. -/
def State.freeArea (s : State) (die : Nat) (asid : BitVec 16) (va : Addr) (n seed : Nat) : State :=
  match s.engineWrite die asid va (toBytes n (Config.free s.fresh seed)) false with
  | (s, .ok _) => s
  | (_, .error _) => s
/-- Where an agent of a team looks first. -/
def Team.near (t : Team) : Option Near := some { cluster := t.cluster, extents := t.extents }
def State.nearOf (s : State) (team : Nat) : Option Near := (s.team? team).bind Team.near

/-! ### What a broken layout leaves (05 R129) -/

/-- Bytes that nothing fixes, stored at n places that nothing fixes, wherever a context may write. -/
def State.freeStores (s : State) (die : Nat) (asid : BitVec 16) (nr : Option Near) (n : Nat) : State :=
  (List.range n).foldl (fun s i =>
    match s.engineXlate die asid (s.free 64 (2 ^ 40 + 2 * i)) 1 .write false nr with
    | (s, .ok key) => s.deviceWrite key [s.free 8 (2 ^ 40 + 2 * i + 1)]
    | (_, .error _) => s) s
/-- A group becomes unpredictable within its registers, predicates, flags and the memory that its context may write (12 R261, 16 R346, 05
    R129). -/
def State.scramble (s : State) (k : Nat) : State :=
  match s.group? k with
  | none => s
  | some g =>
    let vs := ((List.range (8 * g.blocks)).map fun r => (List.range g.width).map fun l => 64 * r + l).flatten
    let g1 := { g with
      v := vs.foldl (fun t i => t.putD 0 i (s.free 32 (2 ^ 41 + i))) g.v,
      s := (List.range 64).foldl (fun t i => t.putD 0 i (s.free 64 (2 ^ 42 + i))) g.s,
      p := (List.range 7).foldl (fun t i => t.putD 0 i (s.free 64 (2 ^ 43 + i) &&& allLanes g.width)) g.p,
      cf := (List.range 12).foldl (fun t i => t.putD 0 i (Config.free s.fresh (2 ^ 60 + i) % 64)) g.cf,
      flags := s.free 5 (2 ^ 60 + 64) }
    (s.setGroup k g1).freeStores (dieOfCore (coreOf k)) (s.asidOf g) (s.nearOf g.team) (Config.free s.fresh (2 ^ 45))
/-- The group whose spill stack n bytes at an address of its context touch (12 R261, 15 R321). -/
def State.spillHolder (s : State) (asid : BitVec 16) (va : Addr) (n : Nat) : Option Nat :=
  (s.groups.find? fun e =>
    let top := e.2.priv.toNat + e.2.width * ((s.teamOf e.2).map (·.kern.hdr.priv)).getD 0
    e.2.spillBytes != 0 && s.asidOf e.2 == asid && decide (va.toNat < top) && decide (top < va.toNat + n + e.2.spillBytes)).map (·.1)
/-- A lane of a group has stored n bytes: into a spill stack, that stack's group is unpredictable (12 R261). -/
def State.laneStored (s : State) (k : Nat) (va : Addr) (n : Nat) : State :=
  match (s.group? k).bind fun g => s.spillHolder (s.asidOf g) va n with
  | some h => s.scramble h
  | none => s

/-! ### The invalidation command (03 R79 to R82) -/

/-- XLAT_INVC's fields. -/
def invCount (c : BitVec 64) : Nat := fld c.toNat 32 32
def invAsid (c : BitVec 64) : BitVec 16 := c.extractLsb' 16 16
def invAll (c : BitVec 64) : Bool := c.getLsbD 7
def invPeers (c : BitVec 64) : Bool := c.getLsbD 6
def invDrain (c : BitVec 64) : Bool := c.getLsbD 5
def invXt (c : BitVec 64) : Bool := c.getLsbD 4
/-- The stages of a command (03 R80). -/
def stDrop : Nat := 0
def stExtents : Nat := 1
def stDrain : Nat := 2
def stPeers : Nat := 3
def stDone : Nat := 4
/-- The virtual range of a command: none means every address. XLAT_INVA and XLAT_DRNP are read as they stand at each step, not sampled at the
    write of XLAT_INVC (DESIGN CHOICE, log 68). -/
def Xlat.range (x : Xlat) : Option (Nat × Nat) :=
  if invCount x.cmd = 0 then none else some (fld x.inva.toNat 16 36 * 65536, (fld x.inva.toNat 16 36 + invCount x.cmd) * 65536)
def overlaps (r : Option (Nat × Nat)) (lo hi : Nat) : Bool :=
  match r with
  | none => true
  | some (a, b) => decide (lo < b) && decide (a < hi)
/-- A cached translation that a command drops: of its context, or of every one under ALL, G entries then included (03 R79). Without ALL a G
    entry goes with the context that loaded it (DESIGN CHOICE, log 68). -/
def Xlat.drops (x : Xlat) (asid : BitVec 16) (lo hi : Nat) : Bool := (invAll x.cmd || asid == invAsid x.cmd) && overlaps x.range lo hi
/-- A write to XLAT_INVC (03 R79): dropped while a command runs, refused with BAD_CMD, or accepted. A refused command's SEQ is echoed too
    (DESIGN CHOICE, log 68). -/
def State.writeInvc (s : State) (v : BitVec 64) : State :=
  let x := s.xlat
  if x.status = 1 then { s with xlat := { x with lost := true } }
  else
    let sq := v.extractLsb' 8 8
    let bad := fld v.toNat 0 4 ≠ 0 ∨ fld x.inva.toNat 52 12 ≠ 0 ∨ fld x.inva.toNat 0 16 ≠ 0
      ∨ (invDrain v ∧ (invCount v = 0 ∨ 6 ≤ pteTier x.drnp ∨ fld x.drnp.toNat 52 3 ≠ 0 ∨ fld x.drnp.toNat 0 16 ≠ 0))
    if bad then { s with xlat := { x with seq := sq, status := 4 } }
    else { s with xlat := { x with seq := sq, status := 1, cmd := v, stage := stDrop } }
/-- Step 1 of 03 R80: matching entries of both dies and of the service cores go, and walks in progress start again (R78). -/
def State.dropEntries (s : State) : State :=
  let x := s.xlat
  let keep := fun (t : TlbEntry) => !x.drops t.asid t.vbase (t.vbase + t.size)
  let keepW := fun (w : WalkEntry) => !x.drops w.asid w.vbase (w.vbase + w.size)
  { s with
    tlbCore := s.tlbCore.map fun e => (e.1, e.2.filter keep)
    tlbCluster := s.tlbCluster.map fun e => (e.1, e.2.filter keep)
    tlbDie := s.tlbDie.map fun e => (e.1, e.2.filter keep)
    walkDie := s.walkDie.map fun e => (e.1, e.2.filter keepW)
    harts := s.harts.map fun e => (e.1, { e.2 with tlb := e.2.tlb.filter keep })
    dies := [0, 1].foldl (fun d i => d.put i { s.die i with inval := (s.die i).inval + 1 }) s.dies
    xlat := { x with stage := if invXt x.cmd then stExtents else stDrain } }
/-- XLAT_INVALIDATE: a command with a range drops its entries (03 R80). -/
def execXlatInvalidate (s : State) : Out :=
  .next (if s.xlat.status = 1 ∧ s.xlat.stage = stDrop ∧ invCount s.xlat.cmd ≠ 0 then s.dropEntries else s)
/-- XLAT_INVALIDATE_ALL: a command with COUNT 0 drops every entry of its context (03 R79). -/
def execXlatInvalidateAll (s : State) : Out :=
  .next (if s.xlat.status = 1 ∧ s.xlat.stage = stDrop ∧ invCount s.xlat.cmd = 0 then s.dropEntries else s)
/-- XLAT_EXTENT_DROP: loaded extents that overlap the range go, and those held for later teams of a task and for teams switched out, with them
    (03 R79, R80). -/
def execXlatExtentDrop (s : State) : Out :=
  let x := s.xlat
  let keep := fun asid (l : List Extent) => l.filter fun t => !x.drops asid t.vbase.toNat t.vend
  .next (if x.status = 1 ∧ x.stage = stExtents then
    { s with teams := s.teams.map fun e => (e.1, { e.2 with extents := keep e.2.asid e.2.extents }),
             outTeams := s.outTeams.map fun e => { e with team := { e.team with extents := keep e.team.asid e.team.extents } },
             cmds := s.cmds.map fun e => (e.1, { e.2 with extents := keep e.2.asid e.2.extents }),
             xlat := { x with stage := stDrain } }
  else s)
/-- A request that may have used a dropped entry is on its way to its home and is not performed (step 2 of 03 R80): a group's by its lanes'
    addresses, a service core's in any case. An access that waits in the core translates afresh when it goes, one that waits behind another
    bundle is held (16 R343), and a prefetch is no access (06 R136). -/
def State.usesDropped (s : State) (n : Nat) (r : HomeReq) : Bool := !r.behind.isSome && match r.who with
  | .op k gio _ => (s.group? k).any fun g => g.ops.any fun o => o.gio == gio && o.accs.any fun a =>
      a.phase == .atHome n && s.xlat.drops (s.asidOf g) a.ea.toNat (a.ea.toNat + 16)
  | .hart _ => true
  | _ => false
def State.accessesPending (s : State) : Bool := s.reqs.any fun e => s.usesDropped e.1 e.2
/-- The physical range of a drain: keys. -/
def Xlat.drainRange (x : Xlat) : Nat × Nat :=
  let k := tierKey (pteTier x.drnp) (ptePeer x.drnp) (fld x.drnp.toNat 16 36 * 65536)
  (k, k + invCount x.cmd * 65536)
def inRange (r : Nat × Nat) (line : Nat) : Bool := decide (r.1 < line * 128 + 128) && decide (line * 128 < r.2)
/-- A line of a range has its home in that slice. Slices repeat every 32 MB of an address (04 R87). -/
def rangeMeets (r : Nat × Nat) (slice : Nat) : Bool :=
  (List.range (min ((r.2 - r.1 + 4095) / 4096) 8192)).any fun i => sliceOf (lineOf (r.1 + 4096 * i)) == slice

end Sys2Proof.Machine
end

