-- ==== Sys2Proof/Machine/Cache.lean ====
section
/-! DEFINITION. The SIMT L1s: words, leases, logical time, write-back and rebase (04 R90 to R98), and the references that reads take
(11 R245, R246). -/

namespace Sys2Proof.Machine

/-! ### Which L1 holds a line -/

/-- In a fused cluster the line lies in the L1 of the core with index PA[8:7] (04 R90). -/
def State.l1Core (s : State) (core line : Nat) : Nat :=
  if s.fused.getLsbD (clusterOf core) then 4 * clusterOf core + line % 4 else core
/-- The cores whose L1s act as one (04 R90). -/
def State.l1Group (s : State) (core : Nat) : List Nat :=
  if s.fused.getLsbD (clusterOf core) then (List.range 4).map (4 * clusterOf core + ·) else [core]
def State.l1Line? (s : State) (core line : Nat) : Option L1Line := (s.core (s.l1Core core line)).l1.get? line
def State.setL1 (s : State) (core line : Nat) (x : L1Line) : State :=
  s.updCore (s.l1Core core line) fun c => { c with l1 := c.l1.put line x }
/-- Scope within the reach of the L1 (04 R91): a private L1 reaches a team wholly on its core, a fused one its cluster. -/
def State.withinReach (s : State) (core : Nat) (pair : Bool) : Scope → Bool
  | .team => s.fused.getLsbD (clusterOf core) || !pair
  | .clu => s.fused.getLsbD (clusterOf core)
  | _ => false

/-! ### Logical time and write-back (04 R94, R95, R98) -/

/-- PTS rises to a stamp, before any rebase. -/
def State.liftPts (s : State) (core w : Nat) : State := s.updCore (s.ptsCore core) fun c => { c with pts := max c.pts w }
/-- The words of a set, in maximal runs: first word and length (04 R93). -/
def runsOf : List Nat → List (Nat × Nat)
  | [] => []
  | w :: t => match runsOf t with
    | (f, n) :: r => if f = w + 1 then (w, n + 1) :: r else (w, 1) :: (f, n) :: r
    | [] => [(w, 1)]
def wordsOf (m : BitVec 32) : List Nat := (List.range 32).filter fun i => m.getLsbD i
def wordBytes (d : Tab LaneWord) (fw n : Nat) : List Byte :=
  ((List.range n).map fun i => toBytes 4 (d.getD (fw + i) 0).toNat).flatten
/-- A request leaves for its home. -/
def State.postReq (s : State) (r : HomeReq) : State × Nat :=
  ({ s with reqs := s.reqs.put s.reqs.next { r with due := s.cycle + s.linkWait } }, s.reqs.next)
/-- A write-back waits on its way: its module does not answer, a checkpoint holds its home, or service-core copies are to be recalled first
    (04 R103; 17 R366; 18 R381). -/
def State.spanWaits (s : State) (line : Nat) : Bool :=
  !s.reachable (keyMod (line * 128)) || s.ckptHolds (line * 128) || (s.home line).dir.st != .i
/-- One dirty span: it is written at its home, its stamp raising PTS, or leaves as a request (04 R93, R95). -/
def State.sendSpan (s : State) (core line : Nat) (x : L1Line) (who : Nat × Nat) (r : Nat × Nat) : State :=
  let bs := wordBytes x.data r.1 r.2
  if s.spanWaits line then
    (s.postReq { core := core, line := line, kind := .write (4 * r.1) bs, pts := s.pts core, who := .span who.1 who.2 }).1
  else
    let (s, w) := s.homeWrite (line * 128 + 4 * r.1) bs (s.pts core) who
    s.liftPts core w
/-- The dirty spans of a line go to its home, one write per run (04 R93), before any rebase. -/
def State.writeOut (s : State) (core line : Nat) (who : Nat × Nat := noGroup) : State :=
  match s.l1Line? core line with
  | none => s
  | some x =>
    if x.dirty = 0 then s
    else ((runsOf (wordsOf x.dirty)).foldl (fun s r => s.sendSpan core line x who r) s).setL1 core line { x with dirty := 0 }
/-- Every dirty span of an L1 (04 R94), before any rebase. -/
def State.writeOutAll (s : State) (core : Nat) (who : Nat × Nat := noGroup) : State :=
  (s.l1Group core).foldl (fun s c => ((s.core c).l1.map (·.1)).foldl (fun s line => s.writeOut c line who) s) s
/-- Write back, invalidate every line, BASE := PTS (04 R98). -/
def State.rebase (s : State) (core : Nat) : State :=
  let s := s.writeOutAll core
  let s := (s.l1Group core).foldl (fun s c => s.updCore c fun x => { x with l1 := [] }) s
  s.updCore (s.ptsCore core) fun c => { c with base := c.pts }
/-- A stamp needs an offset above 65,535 (04 R98). -/
def State.tooFar (s : State) (core t : Nat) : Bool := decide (65535 < t - (s.core (s.ptsCore core)).base)
/-- The rebase that PTS may need (04 R98). -/
def State.rebaseIf (s : State) (core : Nat) : State := if s.tooFar core (s.pts core) then s.rebase core else s
/-- PTS rises to a stamp (04 R95), with the rebase that it may need (R98). -/
def State.raisePts (s : State) (core w : Nat) : State := (s.liftPts core w).rebaseIf core
/-- The dirty spans of a line go to its home, and their stamps raise PTS (04 R93, R95). -/
def State.writeBack (s : State) (core line : Nat) (who : Nat × Nat := noGroup) : State := (s.writeOut core line who).rebaseIf core
/-- Every dirty span of an L1 (04 R94). -/
def State.writeBackAll (s : State) (core : Nat) (who : Nat × Nat := noGroup) : State := (s.writeOutAll core who).rebaseIf core
def HomeReq.isSpan (r : HomeReq) : Bool := match r.who with
  | .span _ _ => true
  | _ => false
/-- A span that an L1 wrote back from the line waits on its way; the accesses of that L1 to the line wait for it (04 R94). -/
def State.spanOut (s : State) (core line : Nat) : Bool :=
  s.reqs.any fun e => e.2.isSpan && e.2.line == line && s.l1Core e.2.core e.2.line == s.l1Core core line
/-- Some span of the L1 waits on its way: a release or fence of wider scope waits for it (04 R94). -/
def State.spansOut (s : State) (core : Nat) : Bool :=
  s.reqs.any fun e => e.2.isSpan && (s.l1Group core).contains (s.l1Core e.2.core e.2.line)

/-! ### Loads and stores at the L1 (04 R92, R93, R97) -/

/-- The words that bytes off to off + n - 1 of a line touch. -/
def spanWords (off n : Nat) : List Nat := (List.range ((off + n + 3) / 4 - off / 4)).map (off / 4 + ·)
/-- The smallest span that covers words: first word and count (04 R92). -/
def spanOf (ws : List Nat) : Nat × Nat :=
  let lo := ws.foldl min 31
  (lo, maxOf ws - lo + 1)
/-- The L1 serves a load of these words (04 R97). -/
def State.l1Serves (s : State) (core line : Nat) (ws : List Nat) : Bool :=
  match s.l1Line? core line with
  | none => false
  | some x => ws.all (fun w => x.dirty.getLsbD w)
    || (ws.all (fun w => x.valid.getLsbD w || x.dirty.getLsbD w) && decide (s.pts core < x.rts))
/-- What an L1 asks the home for when it cannot serve: a renewal, or a fill (04 R97). -/
def State.l1Asks (s : State) (core line : Nat) (ws : List Nat) : ReqKind :=
  let sp := spanOf ws
  match s.l1Line? core line with
  | some x => if !x.clamp && ws.all (fun w => x.valid.getLsbD w) then .renew x.wts sp.1 sp.2 else .fill sp.1 sp.2
  | none => .fill sp.1 sp.2
/-- The value of n bytes at an offset of a line whose word w is `f w`. -/
def spanNum (f : Nat → LaneWord) (off n : Nat) : Nat :=
  ofBytes (slice (((spanWords off n).map fun w => toBytes 4 (f w).toNat).flatten) (off % 4) n)
/-- A word of a copy; 0 where no copy is held. -/
def State.l1Word (s : State) (core line w : Nat) : LaneWord := ((s.l1Line? core line).map fun x => x.data.getD w 0).getD 0
/-- Lines of a 256 KB L1 (04 R90). -/
def l1Lines : Nat := 2048
/-- Room for a line: with every place in use one line leaves, its dirty spans written back (04 R94; which one is not stated, log 25). -/
def State.l1Room (s : State) (core line : Nat) : State :=
  let c := s.l1Core core line
  if (s.l1Line? core line).isSome || decide ((s.core c).l1.length < l1Lines) then s
  else match (s.core c).l1 with
    | (v, _) :: _ => (s.writeBack c v).updCore c fun x => { x with l1 := x.l1.del v }
    | [] => s
/-- Words with bytes laid over them from an offset. -/
def layBytes (d : Tab LaneWord) (off : Nat) (bs : List Byte) : Tab LaneWord :=
  (spanWords off bs.length).foldl (fun t w =>
    let word := toBytes 4 (d.getD w 0).toNat
    let b := (List.range 4).map fun i =>
      let a := 4 * w + i
      if off ≤ a then (bs[a - off]?).getD ((word[i]?).getD 0) else (word[i]?).getD 0
    t.putD 0 w (BitVec.ofNat 32 (ofBytes b))) d
def wordMask (ws : List Nat) : BitVec 32 := ws.foldl (fun m w => m ||| BitVec.ofNat 32 (2 ^ w)) 0
/-- The words of a live record's header in an L1, after a store to it (11 R238). -/
def State.spoilL1 (s : State) (core line off n : Nat) : State :=
  match s.liveHeader (line * 128 + off) n, s.l1Line? core line with
  | some h, some x => s.setL1 core line { x with data := layBytes x.data (h % 128) s.spoiltHeader }
  | _, _ => s
/-- A whole-word store at the L1: its words become valid and dirty (04 R93). -/
def State.l1Store (s : State) (core line off : Nat) (bs : List Byte) : State :=
  let s := s.l1Room core line
  let x := (s.l1Line? core line).getD { wts := 0, rts := 0, clamp := true }
  let m := wordMask (spanWords off bs.length)
  (s.setL1 core line { x with data := layBytes x.data off bs, valid := x.valid ||| m, dirty := x.dirty ||| m }).spoilL1 core line off bs.length
/-- A write performed at the home updates the issuing L1's copy in each word that is valid (04 R93). -/
def State.l1Update (s : State) (core line off : Nat) (bs : List Byte) : State :=
  match s.l1Line? core line with
  | some x =>
    let new := layBytes x.data off bs
    (s.setL1 core line { x with data := (spanWords off bs.length).foldl (fun d w => if x.valid.getLsbD w then d.putD 0 w (new.getD w 0) else d) x.data }
      ).spoilL1 core line off bs.length
  | none => s
/-- An atomic that writes invalidates the words it writes (04 R93). -/
def State.l1Drop (s : State) (core line off n : Nat) : State :=
  match s.l1Line? core line with
  | some x => s.setL1 core line { x with valid := x.valid &&& ~~~(wordMask (spanWords off n)) }
  | none => s
/-- A fill reaches the L1 (04 R97): clean words of another version go, dirty words stay; PTS rises, and a rebase may come first. -/
def State.l1Fill (s : State) (core line : Nat) (ws : List (Nat × LaneWord)) (wts grant : Nat) (ref : Option Horizon) : State :=
  let s := s.liftPts core wts
  let s := if s.tooFar core grant || s.tooFar core (s.pts core) then s.rebase core else s
  let s := s.l1Room core line
  let base := (s.core (s.ptsCore core)).base
  let x := (s.l1Line? core line).getD { wts := wts, rts := grant }
  let kept := if x.wts = wts ∧ !x.clamp then x.valid else x.valid &&& x.dirty
  let fresh := ws.filter fun e => !x.dirty.getLsbD e.1
  s.setL1 core line { x with wts := wts, rts := grant, clamp := decide (wts < base),
                             valid := kept ||| wordMask (ws.map (·.1)),
                             data := fresh.foldl (fun d e => d.putD 0 e.1 e.2) x.data, ref := ref }
/-- A renewal reaches the L1: the copy's expiry moves, when the copy of that stamp is still there (04 R97). -/
def State.l1Renew (s : State) (core line wts grant : Nat) (ref : Option Horizon) : State :=
  let s := s.liftPts core wts
  let s := if s.tooFar core grant || s.tooFar core (s.pts core) then s.rebase core else s
  match s.l1Line? core line with
  | some x => if x.wts = wts ∧ !x.clamp then s.setL1 core line { x with rts := grant, ref := ref } else s
  | none => s
/-- Every L1 of the device writes back its dirty spans of lines in a range (03 R80). -/
def State.writeBackRange (s : State) (r : Nat × Nat) : State :=
  (s.cores.map (·.1)).foldl (fun s c =>
    (((s.core c).l1.map (·.1)).filter (inRange r)).foldl (fun s line => s.writeBack c line) s) s
/-- Ticks not yet counted are: PTS rises by one for each (04 R95). -/
def State.countTicks (s : State) (c n : Nat) : State :=
  (s.updCore c fun x => { x with ticks := x.ticks + n }).raisePts c ((s.core c).pts + n)
/-- PTS_TICK (the core in hand): one tick for every 16 cycles not yet counted (04 R95). -/
def execPtsTick (s : State) : Out :=
  let c := s.ptsCore s.hand
  .next (if (s.core c).ticks < s.cycle / 16 then s.countTicks c 1 else s)
/-- Cycles pass, and each core and service core counts its ticks: PTS keeps the bound of 04 R97. -/
def State.tickAll (s : State) (n : Nat) : State :=
  let t := (s.cycle + n) / 16
  let s : State := { s with cycle := s.cycle + n, harts := s.harts.map fun e => (e.1, { e.2 with pts := e.2.pts + (t - e.2.ticks), ticks := max e.2.ticks t }) }
  (s.cores.map (·.1)).foldl (fun s c => if s.ptsCore c = c ∧ (s.core c).ticks < t then s.countTicks c (t - (s.core c).ticks) else s) s

/-! ### References and horizons (11 R245, R246) -/

/-- The bundle that a handle names while its slot has the handle's generation. -/
def handleSlot (h : BitVec 16) : Nat := fld h.toNat 0 12
def State.bundleOf (s : State) (h : BitVec 16) : Option Bundle :=
  match s.bundles.get? (handleSlot h) with
  | some b => if h ≠ 0 ∧ b.gen = h.extractLsb' 12 4 then some b else none
  | none => none
/-- A reference for a bundle that is already DONE has no further effect (11 R245). -/
def State.refLive (s : State) (r : Horizon) : Bool := ((s.bundleOf r.handle).map fun b => b.st == .committed).getD false
/-- The dies that a bundle's completion notice goes to (11 R243): those of the scope instance of its opener. -/
def Bundle.noticeDies (b : Bundle) : List Nat :=
  match b.scope with
  | .team | .clu | .die => [b.die]
  | _ => [0, 1]
/-- A read takes the requirement of a reference; none: the horizon is full and the read waits (11 R246). A die that gets no notice of the
    bundle asks its coordinator. -/
def takeInto (h : List Horizon) (r : Horizon) : Option (List Horizon) :=
  if h.any fun e => e.modu == r.modu && e.handle == r.handle then some h
  else if h.length < 4 then some (h ++ [r]) else none
def State.askCoordinator (s : State) (die : Nat) (r : Horizon) : State :=
  match s.bundleOf r.handle with
  | some b =>
    if b.noticeDies.contains die || (s.queries ++ s.answers).any (fun q => q.2 == (die, r.modu, r.handle)) then s
    else { s with queries := s.queries.put s.queries.next (die, r.modu, r.handle) }
  | none => s
def State.takeRef (s : State) (team die : Nat) : Option Horizon → Option State
  | none => some s
  | some r =>
    if !s.refLive r then some s
    else match s.team? team with
      | none => some s
      | some t => (takeInto t.horizon r).map fun h => (s.updTeam team fun t => { t with horizon := h }).askCoordinator die r
def State.takeRefHart (s : State) (h : Nat) : Option Horizon → Option State
  | none => some s
  | some r =>
    if !s.refLive r then some s
    else (takeInto (s.hart h).horizon r).map fun hz => (s.updHart h fun x => { x with horizon := hz }).askCoordinator (h / 12) r
/-- The lines that a range touches. -/
def linesOf (k n : Nat) : List Nat := (List.range ((k + n + 127) / 128 - k / 128)).map (k / 128 + ·)
/-- A read at the homes by an engine of a team: it carries the team's horizon and takes the references it meets; none: it waits for room
    (11 R246, R247). -/
def State.teamRead (s : State) (team die k n : Nat) : Option (State × List Byte) :=
  let hz := ((s.team? team).map (·.horizon)).getD []
  let s := (linesOf k n).foldl (fun s line => s.retainedAll line hz) s
  ((linesOf k n).foldl (fun (o : Option State) line => o.bind fun s => s.takeRef team die (s.home line).ref) (some s)).map fun s =>
    (s, s.deviceRead k n)

end Sys2Proof.Machine
end

