-- ==== Sys2Proof/Machine/Logs.lean ====
section
/-! DEFINITION. Instructions in flight: what orders them, the operand log and the hold entries, late stops (02 R38, 05 R115, 06 R132 to
R135, 16 R343 to R345). -/

namespace Sys2Proof.Machine

/-! ### Orders and scopes of the instructions in flight -/

/-- The order and the scope that an instruction carries (02 R47); .rlx at .team for one that carries none. -/
def ordOf : Instr → Ord × Scope
  | .ld o | .st o => (o.ord, o.scope)
  | .ldnt o => (.rlx, o.scope)
  | .atomAdd o | .atomAnd o | .atomOr o | .atomXor o | .atomExch o | .atomInc o | .atomDec o | .atomCas o => (o.ord, o.scope)
  | .atomMin o | .atomMax o => (o.ord, o.scope)
  | .atomFadd o | .atomFmin o | .atomFmax o => (o.ord, o.scope)
  | .fence o => (o.ord, o.scope)
  | .waitv o => (if o.acq then .acq else .rlx, o.scope)
  | .wake o | .linkq o | .condq o => (o.ord, o.scope)
  | .alloc _ => (.acq, .dev)
  | .free _ | .spawn _ | .trace _ | .cont _ | .contEnd _ => (.rel, .dev)
  | .kick o => (if o.rel then .rel else .rlx, o.scope)
  | .bcommit _ => (.rel, .dev)
  | _ => (.rlx, .team)
def acquires : Ord → Bool
  | .acq | .ar | .sc => true
  | _ => false
def releases : Ord → Bool
  | .rel | .ar | .sc => true
  | _ => false
/-- Instructions that wait for every earlier access of their group: those that carry a release, the fences, and the forms that other rules
    make wait (06 R141, R146; 07 R162, R168; 10 R232; 11 R243, R250, R253). -/
def waitsForAll : Instr → Bool
  | .fence o => o.ord != .acq
  | .fenceEng _ | .bcommit _ | .babort _ | .bopen _ | .free _ | .spawn _ | .trace _ | .cont _ | .contEnd _ => true
  | .bobjInit _ | .bobjExpect _ | .bobjArrive _ => true
  | i => releases (ordOf i).1
/-- Instructions that hold back the later accesses of their group until they are performed (06 R135, R137, R139; 11 R251). -/
def holdsBack : Instr → Bool
  | .bcommit _ | .bobjWait _ => true
  | .fence o => o.ord != .rel
  | .st _ => false
  | i => acquires (ordOf i).1
/-- Instructions that 16 R344 names, or that carry an acquire or a release: none is performed while an earlier access is logged or held. -/
def ordersGroup (i : Instr) : Bool :=
  waitsForAll i || holdsBack i || match i with
    | .wake _ | .alloc _ | .fence _ | .kick _ => true
    | _ => false
/-- What the request engine performs for a group in gio order (07 R157), and the FENCE.ENG that holds it back (06 R141). -/
def engineOrder : Instr → Bool
  | .kick _ | .tdset _ | .tdinv _ | .fenceEng _ => true
  | _ => false
/-- Instructions that access memory or synchronise; the others of the classes MEM and ASYNC hand work to an engine or read a register of
    one (05 R112). -/
def isAccess : Instr → Bool
  | .kick _ | .tdset _ | .tdinv _ | .trace _ | .cont _ | .contEnd _ | .accld _ | .recld _ | .qstat _ | .geostat _ | .rayld _ | .bstat _
  | .bopenJoin _ => false
  | _ => true
/-- A store or an atomic: what FENCE.rel holds back (06 R139). -/
def isWriteInstr : Instr → Bool
  | .st _ | .stBnd _ | .atomAdd _ | .atomMin _ | .atomMax _ | .atomAnd _ | .atomOr _ | .atomXor _ | .atomExch _ | .atomInc _ | .atomDec _
  | .atomFadd _ | .atomFmin _ | .atomFmax _ | .atomCas _ | .linkq _ | .condq _ | .free _ | .kick _ | .spawn _ | .bobjInit _ | .bobjExpect _
  | .bobjArrive _ | .wake _ | .trace _ | .cont _ | .contEnd _ | .bcommit _ | .tdset _ => true
  | _ => false
def isRead : Instr → Bool
  | .st _ | .stBnd _ | .fence _ | .fenceEng _ | .wake _ => false
  | _ => true

/-! ### Operations in flight -/

def Group.op? (g : Group) (gio : Nat) : Option Op := g.ops.find? fun o => o.gio == gio
def Group.updOp (g : Group) (gio : Nat) (f : Op → Op) : Group := { g with ops := g.ops.map fun o => if o.gio = gio then f o else o }
def State.updOp (s : State) (k gio : Nat) (f : Op → Op) : State := s.updGroup k fun g => g.updOp gio f
def LanePhase.isDone : LanePhase → Bool
  | .done _ => true
  | _ => false
def LanePhase.isFault : LanePhase → Bool
  | .faulted _ => true
  | _ => false
/-- The faulted lanes of an operation. -/
def Op.faultLanes (o : Op) : LaneMask := maskOf ((o.accs.filter fun a => a.phase.isFault).map (·.lane))
def Op.isPlaced (o : Op) : Bool := o.place != .free
/-- A WAITV that sleeps: its read is performed, and holds no other access back (06 R145). -/
def Op.asleep (o : Op) : Bool := match o.instr with
  | .waitv _ => o.aux == 1
  | _ => false
/-- It may be performed now as far as the order of its group goes: no earlier operation holds it back, and it waits for no earlier one
    (06 R135, R139, 16 R344). -/
def Group.mayPerform (g : Group) (o : Op) : Bool :=
  let early := g.ops.filter fun e => decide (e.gio < o.gio) && !e.performed
  !((isAccess o.instr || waitsForAll o.instr) && early.any fun e => holdsBack e.instr) &&
  !(early.any (fun e => match e.instr with
      | .fence f => f.ord == .rel
      | _ => false) && isWriteInstr o.instr) &&
  !(waitsForAll o.instr && early.any fun e => isAccess e.instr) &&
  !(ordersGroup o.instr && early.any (·.isPlaced))
/-- An earlier access of the group to the same line is not performed (16 R344; 06 R134; 04 R93; log 16). -/
def Group.lineBusy (g : Group) (gio : Nat) (ea : Addr) : Bool :=
  g.ops.any fun e => decide (e.gio < gio) && !e.performed && !e.asleep && e.accs.any fun a => !a.phase.isDone && a.ea.toNat / 128 == ea.toNat / 128
/-- LINKQ and CONDQ: which lines they access is known only from their descriptor. -/
def isQuad : Instr → Bool
  | .linkq _ | .condq _ => true
  | _ => false
/-- Forms that write memory where a lane's access stands. -/
def writesMemory : Instr → Bool
  | .wake _ | .kick _ | .spawn _ | .trace _ | .cont _ | .contEnd _ | .bcommit _ | .tdset _ | .free _ => false
  | i => isWriteInstr i
/-- An access of a lane that its later access must follow: a write follows the lane's earlier reads (05 R120), every access its LINKQ and CONDQ.
    A read that is logged or held holds back its own line alone (16 R344; log 72). -/
def Group.laneBusy (g : Group) (o : Op) (lane : Nat) : Bool :=
  g.ops.any fun e => decide (e.gio < o.gio) && !e.performed && !e.asleep
    && (isQuad e.instr || writesMemory o.instr && isRead e.instr && isAccess e.instr && !e.isPlaced)
    && e.accs.any fun a => a.lane == lane && !a.phase.isDone

/-! ### What the sequencer has done, as a group knows it (05 R117, R125) -/

/-- The place of a scratchpad byte beside those of memory. -/
def scrPlace (off : Nat) : Nat := 2 ^ 62 + off
/-- A group's write to n bytes: a release, or a strong write after a release fence, heads what a later acquire of them takes; a read-modify-write
    goes on from the head before it; any other write ends it (05 R117). -/
def State.noteWrite (s : State) (k : Nat) (od : Ord × Scope) (isRmw : Bool) (p n : Nat) : State :=
  match s.group? k with
  | none => s
  | some g => s.updTeam g.team fun t =>
    let v := if releases od.1 then g.seqSeen else if isRmw || od != (.rlx, .team) then g.seqHead else 0
    if v = 0 ∧ t.relSeen = [] then t
    else { t with relSeen := (List.range n).foldl (fun m i => m.putD 0 (p + i) (if isRmw then max v (m.getD (p + i) 0) else v)) t.relSeen }
/-- A group's read of n bytes: an acquire takes what heads them, a strong read leaves it to an acquire fence. -/
def State.noteRead (s : State) (k : Nat) (od : Ord × Scope) (isRmw : Bool) (p n : Nat) : State :=
  match (s.group? k).bind fun g => s.team? g.team with
  | none => s
  | some t =>
    let v := maxOf ((List.range n).map fun i => t.relSeen.getD (p + i) 0)
    if v = 0 then s
    else s.updGroup k fun g =>
      if acquires od.1 then { g with seqSeen := max g.seqSeen v }
      else if isRmw || od != (.rlx, .team) then { g with seqRead := max g.seqRead v } else g
/-- A fence of a group: an acquire takes what its strong reads met, a release heads its later writes. -/
def Group.fenceSeen (g : Group) (o : Ord) : Group :=
  let g := if acquires o then { g with seqSeen := max g.seqSeen g.seqRead } else g
  if releases o then { g with seqHead := g.seqSeen } else g

/-! ### Log and hold entries (16 R343) -/

/-- A free entry of a core's log of 128. -/
def State.freeEntry (s : State) (core : Nat) : Option Nat := (List.range 128).find? fun i => ((s.core core).log.get? i).isNone
def Group.loggedOps (g : Group) : List Op := g.ops.filter fun o => match o.place with
  | .logged _ => true
  | _ => false
def Group.heldOps (g : Group) : List Op := g.ops.filter fun o => o.place == .held
/-- The fault of an operation's first faulted lane. -/
def Op.fault (o : Op) : Nat :=
  match o.accs.find? fun a => a.phase.isFault with
  | some a => (match a.phase with
    | .faulted f => f
    | _ => 0)
  | none => 0
/-- The address of that lane. -/
def Op.faultVa (o : Op) : Addr := ((o.accs.find? fun a => a.phase.isFault).map (·.ea)).getD 0
/-- The FAULT event of an entry (16 R340, R343). -/
def State.faultEvent (s : State) (k : Nat) (o : Op) (entry : Nat) : State :=
  match s.group? k with
  | none => s
  | some g =>
    (s.updOp k o.gio fun o => { o with told := o.faultLanes }).post {
      die := dieOfCore (coreOf k), kind := 1, source := coreOf k, core := coreOf k, gslot := k % 64, cause := 4, detail := faultKind o.fault,
      tag := entry, asid := s.asidOf g, lanes := o.faultLanes, pc := o.pc, vaddr := o.faultVa, arg0 := faultLoc o.fault }
/-- An operation with faulted lanes takes a log entry, with its event, or else a hold entry; it stays free when neither is left. One that is logged
    keeps its entry, with a new event (16 R345). -/
def State.logOp (s : State) (k gio : Nat) : State :=
  match s.group? k with
  | none => s
  | some g =>
    match g.op? gio with
    | none => s
    | some o =>
      match o.place with
      | .logged e => s.faultEvent k o e
      | _ =>
        match s.freeEntry (coreOf k) with
        | some e =>
          if g.loggedOps.length < 8 then
            let s := s.setGroup k { g.updOp gio fun o => { o with place := .logged e } with pmc := g.pmc.put 3 (g.pmc.getD 3 0 + 1) }
            let s := s.updCore (coreOf k) fun c => { c with log := c.log.put e k }
            s.faultEvent k o e
          else if g.heldOps.length < 8 then s.updOp k gio fun o => { o with place := .held } else s
        | none => if g.heldOps.length < 8 then s.updOp k gio fun o => { o with place := .held } else s
/-- An instruction that must wait takes a hold entry; the answer says whether one was free (16 R343). -/
def Group.canHold (g : Group) : Bool := decide (g.heldOps.length < 8)
/-- A group can log or hold one more instruction. -/
def State.canPlace (s : State) (k : Nat) (g : Group) : Bool :=
  g.canHold || (decide (g.loggedOps.length < 8) && (s.freeEntry (coreOf k)).isSome)
/-- Faulted lanes will translate again. -/
def Op.retry (o : Op) : Op := { o with told := 0, accs := o.accs.map fun a => if a.phase.isFault then { a with phase := .todo } else a }
/-- A log entry of a core has freed: the accesses held for want of one translate again (16 R343). Those of a stopped group stay. -/
def State.retryHeld (s : State) (core : Nat) : State :=
  { s with groups := s.groups.map fun (e : Nat × Group) =>
    if coreOf e.1 = core ∧ e.2.stop.isNone then (e.1, { e.2 with ops := e.2.ops.map fun o => if o.place = .held then o.retry else o }) else e }
/-- Its entry is freed. -/
def State.freeOp (s : State) (k gio : Nat) : State :=
  match (s.group? k).bind fun g => g.op? gio with
  | some o =>
    let s := s.updOp k gio fun o => { o with place := .free }
    match o.place with
    | .logged e => (s.updCore (coreOf k) fun c => { c with log := c.log.del e }).retryHeld (coreOf k)
    | _ => s
  | none => s

/-- A group stops on an instruction in flight, at its word; the instruction stays, to be performed on RESUME or dropped on SKIP
    (16 R336, R345, R347). The event's DETAIL holds the kind of a page fault, else the word index (R339). -/
def State.stopAtOp (s : State) (k gio : Nat) (c : Cause) (detail : Nat) (lanes : LaneMask) (vaddr : Addr) (arg1 : BitVec 64 := 0) : State :=
  match (s.group? k).bind fun g => g.op? gio with
  | some o =>
    s.stopGroup k { cause := c.code, detail := BitVec.ofNat 8 (if c = .pageFault then detail else o.idx), pc := o.pc, idx := o.idx,
                    lanes := if lanes ≠ 0 then lanes else if o.mask ≠ 0 then o.mask else o.whole, vaddr := vaddr, gio := some gio, arg1 := arg1 }
  | none => s
/-- A lane's access is performed, with the value it read. -/
def Op.setLane (o : Op) (lane : Nat) (p : LanePhase) : Op :=
  { o with accs := o.accs.map fun a => if a.lane = lane then { a with phase := p } else a }
/-- The operation is performed when each of its accesses is. -/
def Op.settle (o : Op) : Op := { o with performed := o.performed || o.accs.all fun a => a.phase.isDone }
def State.doneLane (s : State) (k gio lane x : Nat) : State := s.updOp k gio fun o => (o.setLane lane (.done x)).settle
/-- A consumer in flight has read a poisoned byte (16 R357): the group stops, and the access waits for RESUME or SKIP. -/
def State.poisonStop (s : State) (k gio lane : Nat) (ea : Addr) : State :=
  let s := s.updOp k gio fun o => o.setLane lane .todo
  s.stopAtOp k gio .dataPoison 0 (maskOf [lane]) ea

/-! ### Fault records (16 R390) -/

/-- MB_CMD's CORE codes of the engines (16 R342). -/
def codeRequest (c : Nat) : Nat := 0x90 + c
def codeGeode (c : Nat) : Nat := 0xC0 + c
def codeDevice : Nat := 0xF0
/-- The event source of a record's agent (16 R341, R390); ring reads report from the queue block. -/
def recSource (die code : Nat) (w : FaultWork) : Nat :=
  match w with
  | .ring _ => 1024
  | _ => if code < 144 then code else if code < 0xC0 then 256 + (code - 0x90) else if code < 0xF0 then 512 + (code - 0xC0) else 768 + die
def State.recOf (s : State) (w : FaultWork) : Option FaultRec := s.frecs.find? fun r => r.work == w
def State.dropRec (s : State) (w : FaultWork) : State := { s with frecs := s.frecs.filter fun r => r.work != w }
/-- The tag of a new record: one for a sequencer, else the first of 32 that is free. -/
def State.freeTag (s : State) (die code : Nat) (w : FaultWork) : Option Nat :=
  match w with
  | .seqFetch q => some (0x8000 + q % 4)
  | _ => (List.range 32).find? fun t => !s.frecs.any fun r => r.die == die && r.code == code && r.tag == t
/-- A fault of an engine is held in a record, the same one on a retry, and reported. None: every record is in use, or the access
    itself waits, and with it the work. -/
def State.raiseRec (s : State) (die code : Nat) (w : FaultWork) (f : Nat × Addr) (asid : BitVec 16) (who : Nat × Nat) : Option State :=
  let go := fun (s : State) (tag : Nat) => s.post { die := die, kind := 1, source := recSource die code w, core := who.1, gslot := who.2,
                                                    cause := 4, detail := faultKind f.1, tag := tag, asid := asid, vaddr := f.2,
                                                    arg0 := faultLoc f.1 }
  if f.1 = fkWait then none
  else match s.recOf w with
  | some r => some (go s r.tag)
  | none => (s.freeTag die code w).map fun t => go { s with frecs := s.frecs ++ [FaultRec.mk die code t w] } t
/-- The core and slot that a report names for a group of a team: none when it has retired, whoever holds its slot now (16 R390). -/
def State.reportGroup (s : State) (team k : Nat) : Nat × Nat := if (s.group? k).map (·.team) = some team then (coreOf k, k % 64) else (0xFF, 0)

end Sys2Proof.Machine
end

