-- ==== Sys2Proof/Machine/Home.lean ====
section
/-! DEFINITION. Requests at the homes: leases, loads, writes and atomics served there, their answers, the timeouts of 17, the drain of 03
R80 to R82 and the logical-time advance (04 R87 to R97, R100, R103, R104; 06 R133, R137, R138). -/

namespace Sys2Proof.Machine

/-! ### Requests and messages -/

def State.dropReq (s : State) (n : Nat) : State := { s with reqs := s.reqs.del n }
def State.updReq (s : State) (n : Nat) (f : HomeReq → HomeReq) : State := { s with reqs := s.reqs.upd n f }
/-- The stream of a service core's x.strm write, in place of a core: no L1 stands between it and the homes. -/
def strmCore (h stream : Nat) : Nat := Config.cores + 128 * h + stream
/-- An earlier x.strm of the same service core and stream is not performed (06 R152). -/
def State.behindStrm (s : State) (n : Nat) (r : HomeReq) : Bool :=
  decide (Config.cores ≤ r.core) && s.reqs.any fun e => decide (e.1 < n) && e.2.core == r.core
def isWriteReq : ReqKind → Bool
  | .write _ _ | .rmw => true
  | _ => false
/-- An earlier write of the same L1 to the line is not performed: later accesses to the line wait for it (04 R93); a dirty span that the L1
    wrote back is before every other access (R94). -/
def State.behindWrite (s : State) (n : Nat) (core line : Nat) : Bool :=
  let span := ((s.reqs.get? n).map (·.isSpan)).getD false
  s.reqs.any fun e => s.l1Core e.2.core e.2.line == s.l1Core core line && e.2.line == line && isWriteReq e.2.kind
    && (if span then e.2.isSpan && decide (e.1 < n) else e.2.isSpan || decide (e.1 < n))
def State.setDir (s : State) (line : Nat) (d : Dir) : State := s.setHome line { s.home line with dir := d }
/-- A SIMT read of an owned line: FwdGetS to the owner with the home as requester (04 R103), for a request. -/
def State.startForward (s : State) (line : Nat) (n : Option Nat) : State :=
  let d := (s.home line).dir
  match d.owner with
  | some o => (s.sendMsg { kind := .fwdgets, core := o, line := line }).setDir line { d with st := .fwdWait, winner := none, fwdOut := true, held := n }
  | none => s
/-- A back-invalidation of a pool line begins: links on it break, no lease is granted, its copies are recalled (04 R104; 06 R148). -/
def State.startBackInvalidate (s : State) (line : Nat) : State :=
  if (s.links.bisnp.get? line).isSome then s
  else
    let s := ({ s with links := { s.links with bisnp := s.links.bisnp.put line s.cycle } }).breakLinksOn line
    if (s.home line).dir.stable && (s.home line).dir.st != .i then s.startRecall line else s
/-- A pool line enters the snoop filter before its first copy (04 R104): whether it stands there. A full filter begins to back-invalidate its
    oldest line, as for a BISnp, and the access waits. -/
def State.poolEnter (s : State) (line : Nat) : State × Bool :=
  if !isPool line || s.links.filter.contains line then (s, true)
  else if s.links.filter.length < filterEntries then (s.filterAdd line, true)
  else match s.links.filter with
    | v :: _ =>
      let s := s.startBackInvalidate v
      ({ s with links := { s.links with evicting := if s.links.evicting.contains v then s.links.evicting else s.links.evicting ++ [v] } }, false)
    | [] => (s, false)

/-! ### What the waiting instructions ask -/

/-- Instruction and lane of an operation. -/
def State.opOf (s : State) (k gio : Nat) : Option Op := (s.group? k).bind fun g => g.op? gio
def State.horizonOf (s : State) (k : Nat) : List Horizon :=
  (((s.group? k).bind fun g => s.teamOf g).map (·.horizon)).getD []
/-- Where a waiter's data goes: its lane's bytes of a line. -/
def accOffset (a : LaneAcc) : Nat := a.ea.toNat % 128
/-- Bytes of the access of an instruction in flight (02 R48, 06 R131). -/
def tyBytes : MemTy → Nat
  | .b32 => 4
  | .b64 => 8
  | .b128 => 16
  | .s8 | .z8 => 1
  | .s16 | .z16 => 2
def accBytes : Instr → Nat
  | .ld o | .st o => tyBytes o.ty
  | .ldnt o => tyBytes o.ty
  | .stBnd o => tyBytes o.ty
  | .atomAdd o | .atomAnd o | .atomOr o | .atomXor o | .atomExch o | .atomInc o | .atomDec o | .atomCas o => if o.b64 then 8 else 4
  | .atomMin o | .atomMax o => if o.b64 then 8 else 4
  | .waitv o => if o.b64 then 8 else 4
  | .bobjInit _ | .bobjExpect _ | .bobjArrive _ | .bobjWait _ => 8
  | _ => 4
/-- The value that a read-modify-write leaves, if it writes (06 R137, R138). `x` holds the data, or the compare value with the new value
    above it. -/
def rmwNew (i : Instr) (old x : Nat) : Option Nat :=
  let at2 := fun (b64 : Bool) (f : (w : Nat) → BitVec w → BitVec w → BitVec w) =>
    some (if b64 then (f 64 (BitVec.ofNat 64 old) (BitVec.ofNat 64 x)).toNat else (f 32 (BitVec.ofNat 32 old) (BitVec.ofNat 32 x)).toNat)
  let fp := fun (f : LaneWord → LaneWord → LaneWord) => some (f (BitVec.ofNat 32 old) (BitVec.ofNat 32 x)).toNat
  match i with
  | .atomAdd o => at2 o.b64 fun _ a b => a + b
  | .atomMin o => at2 o.b64 (intMin o.uns)
  | .atomMax o => at2 o.b64 (intMax o.uns)
  | .atomAnd o => at2 o.b64 fun _ a b => a &&& b
  | .atomOr o => at2 o.b64 fun _ a b => a ||| b
  | .atomXor o => at2 o.b64 fun _ a b => a ^^^ b
  | .atomExch o => at2 o.b64 fun _ _ b => b
  | .atomInc o => at2 o.b64 fun _ a b => if b ≤ a then 0 else a + 1
  | .atomDec o => at2 o.b64 fun _ a b => if a = 0 ∨ b < a then b else a - 1
  | .atomFadd _ => fp fun a b => (fp32.sum .rne (f32 a) (f32 b)).1 |> BitVec.ofNat 32
  | .atomFmin _ => fp (fMinMax false)
  | .atomFmax _ => fp (fMinMax true)
  | .atomCas o => if o.b64 then (if old = x % 2 ^ 64 then some (x / 2 ^ 64) else none)
                  else if old = x % 2 ^ 32 then some (x / 2 ^ 32) else none
  | _ => none

/-! ### Reads at the home -/

/-- The proxy of a peer line serves a read of that time: its lease has not run out (04 R100). A read that carries a horizon is served at the
    peer's home. -/
def State.proxyServes (s : State) (r : HomeReq) : Option Proxy :=
  (s.proxies.get? r.line).filter fun p => decide (r.pts < p.rts) && r.horizon.isEmpty
/-- A read that waits at its home may be taken up: its module answers or the proxy serves it, no back-invalidation is in progress, no earlier
    write of its L1 is on its way (04 R93, R100, R104; 17 R366). -/
def State.mayRead (s : State) (n : Nat) (r : HomeReq) : Bool :=
  (s.reachable (keyMod (r.line * 128)) || (s.proxyServes r).isSome) && (s.links.bisnp.get? r.line).isNone && !s.behindWrite n r.core r.line
/-- A read at a home returns a stamp, and PTS rises to it (04 R95; 05 R117, R120: of a relaxed read too, log 65). -/
def State.readStamp (s : State) (k : Nat) (w : Nat) : State := s.raisePts (coreOf k) w
/-- The lane that an answered load writes, with the requirement that it takes; the request stays when the horizon has no room. -/
def State.serveLoad (s : State) (n : Nat) (r : HomeReq) (k gio lane off bytes : Nat) : State :=
  let s := (s.writeBack r.core r.line (k, gio)).retainedAll r.line r.horizon
  match s.opOf k gio with
  | none => s.dropReq n
  | some o =>
    if s.spanOut r.core r.line then s else
    let ea := ((o.accs.find? fun a => a.lane == lane).map (·.ea)).getD 0
    if s.poisoned (r.line * 128 + off) bytes then (s.dropReq n).poisonStop k gio lane ea
    else
      let team := ((s.group? k).map (·.team)).getD 0
      match s.takeRef team (dieOfCore r.core) (s.home r.line).ref with
      | none => s
      | some s =>
        let s := if uncached (r.line * 128) then s else s.setHome r.line (match o.instr with
          | .ldnt _ => { s.home r.line with nt := true }
          | _ => s.home r.line)
        let x := ofBytes (slice (s.current r.line) off bytes)
        let s := (s.readStamp k (s.home r.line).wts).noteRead k (ordOf o.instr) false (r.line * 128 + off) bytes
        (s.dropReq n).doneLane k gio lane x
/-- `ReadLease` for a peer line (04 R100): the proxy grants under its own lease, and takes one from the peer's home first where that has run
    out; the stamp, the expiry, whether it is a renewal, the data, the reference. -/
def State.proxyLease (s : State) (r : HomeReq) (renewal : Option Nat) : State × Nat × Option Nat × Bool × List Byte × Option Horizon :=
  let grant := fun (s : State) (p : Proxy) =>
    let same := renewal = some p.wts
    let lease := if same then min (2 * p.lease) 4096 else p.lease
    ({ s with proxies := s.proxies.put r.line { p with lease := lease } }, p.wts, some (min p.rts (max p.wts r.pts + lease)), decide same, p.data, p.ref)
  match s.proxyServes r with
  | some p => grant s p
  | none =>
    let (s, wts, g, _) := s.readLease r.line r.pts ((s.proxies.get? r.line).map (·.wts))
    let ref := (s.home r.line).ref
    match g with
    | none => (s, wts, none, false, s.current r.line, ref)
    | some rts => grant (if (s.proxies.get? r.line).isSome then s else s.makeRoom (proxySlice r.line))
        { wts := wts, rts := rts, data := s.current r.line, ref := ref,
          lease := (((s.proxies.get? r.line).filter fun p => p.wts == wts).map (·.lease)).getD 16 }
/-- A lease on a line, from its home or from the proxy of a peer line (04 R96, R100). -/
def State.leaseFor (s : State) (r : HomeReq) (renewal : Option Nat) : State × Nat × Option Nat × Bool × List Byte × Option Horizon :=
  if keyMod (r.line * 128) = Config.selfModule then
    let (s, wts, grant, same) := s.readLease r.line r.pts renewal
    (s, wts, grant, same, s.current r.line, (s.home r.line).ref)
  else s.proxyLease r renewal
/-- A fill or renewal is granted its lease (04 R96); the data and the reference go back with it. -/
def State.grantLease (s : State) (n : Nat) (r : HomeReq) (renewal : Option Nat) (fw cnt : Nat) : State :=
  let s := s.retainedAll r.line r.horizon
  let (s, wts, grant, same, data, ref) := s.leaseFor r renewal
  let s := match r.who with
    | .op k gio _ => (match (s.opOf k gio).map (fun (o : Op) => o.instr) with
      | some (.ldnt _) => s.setHome r.line { s.home r.line with nt := true }
      | _ => s)
    | _ => s
  let words := (List.range cnt).filterMap fun i =>
    if s.poisoned (r.line * 128 + 4 * (fw + i)) 4 then none
    else some (fw + i, BitVec.ofNat 32 (ofBytes (slice data (4 * (fw + i)) 4)))
  s.updReq n fun r => { r with answer := some (if same then [] else words, wts, grant.getD 0, same),
                               poisoned := decide (words.length < cnt), ref := ref }
/-- A read that may be served is, once its line stands in the pool's filter. -/
def State.serveRead (s : State) (n : Nat) (r : HomeReq) : State :=
  match s.poolEnter r.line with
  | (s, false) => s
  | (s, true) =>
    match r.kind, r.who with
    | .fill fw cnt, _ => s.grantLease n r none fw cnt
    | .renew wts fw cnt, _ => s.grantLease n r (some wts) fw cnt
    | .load off m, .op k gio lane => s.serveLoad n r k gio lane off m
    | _, _ => s

/-- A word that an answer gives its loads: the L1's own dirty word first, then the answer's, and with a renewal a word of the copy that it
    renews while the L1 holds it valid; none: it is asked for again (04 R92, R97). -/
def State.answerWord (s : State) (core line : Nat) (ws : List (Nat × LaneWord)) (renewed : Option Nat) (w : Nat) : Option LaneWord :=
  let held := fun (p : L1Line → Bool) => (s.l1Line? core line).bind fun x => if p x then some (x.data.getD w 0) else none
  ((held fun x => x.dirty.getLsbD w).or ((ws.find? fun e => e.1 == w).map (·.2))).or
    (held fun x => renewed == some x.wts && !x.clamp && x.valid.getLsbD w)
/-- The lanes that wait for a request. -/
def Op.lanesAt (o : Op) (n : Nat) : List LaneAcc := o.accs.filter fun a => a.phase == .atHome n
/-- A response gives each lane that waits its value, from the words `f`; a lane whose bytes were poisoned stops its group (16 R357), and one
    of whose words there is none asks again. -/
def State.fillLanes (s : State) (r : HomeReq) (f : Nat → Option LaneWord) (k gio : Nat) (bytes : Nat) (l : List LaneAcc) : State :=
  l.foldl (fun s a =>
    if r.poisoned && s.poisoned (r.line * 128 + accOffset a) bytes then s.poisonStop k gio a.lane a.ea
    else if (spanWords (accOffset a) bytes).all fun w => (f w).isSome then
      (s.noteRead k (((s.opOf k gio).map fun (o : Op) => ordOf o.instr).getD (.rlx, .team)) false (r.line * 128 + accOffset a) bytes).doneLane k gio a.lane
        (spanNum (fun w => (f w).getD 0) (accOffset a) bytes)
    else s.updOp k gio fun o => o.setLane a.lane .todo) s
/-- What an answer leaves in the L1: a renewed copy, or a fill unless it is not to be kept (04 R97; 06 R135: LDNT fills no line). -/
def State.l1Answer (s : State) (r : HomeReq) (ws : List (Nat × LaneWord)) (wts grant : Nat) (same keep : Bool) : State :=
  if same then s.l1Renew r.core r.line wts grant r.ref
  else if keep && grant != 0 then s.l1Fill r.core r.line ws wts grant r.ref else s.raisePts r.core wts
/-- L1_FILL_RETURN (the request in hand): the answer reaches the L1 and the loads that wait for it (04 R97; 11 R243, R245, R246). What a load
    gets is settled before the L1 changes: a rebase changes no value (04 R98). -/
def execL1FillReturn (s : State) : Out :=
  let n := s.hand
  .next (match s.reqs.get? n with
    | none => s
    | some r =>
      match r.answer with
      | none => s
      | some (ws, wts, grant, same) =>
        match r.who with
        | .op k gio _ =>
          match s.group? k, s.opOf k gio with
          | some g, some o =>
            match s.takeRef g.team (dieOfCore r.core) r.ref with
            | none => s
            | some s =>
              let keep := match o.instr with
                | .ldnt _ => false
                | _ => true
              let f := s.answerWord r.core r.line ws (if same then some wts else none)
              ((s.dropReq n).l1Answer r ws wts grant same keep).fillLanes r f k gio (accBytes o.instr) (o.lanesAt n)
          | _, _ => s.dropReq n
        | _ => (s.dropReq n).l1Answer r ws wts grant same true)

/-! ### Writes at the home -/

/-- One lane's read-modify-write at its home: the old value, and the new one under its stamp (06 R134, R137; 04 R93, R103). -/
def State.serveRmw (s : State) (n : Nat) (r : HomeReq) (k gio lane : Nat) : State :=
  match s.opOf k gio with
  | none => s.dropReq n
  | some o =>
    match o.accs.find? fun a => a.lane == lane with
    | none => s.dropReq n
    | some a =>
      let key := r.line * 128 + accOffset a
      let m := accBytes o.instr
      let s := (s.writeBack r.core r.line (k, gio)).retainedAll r.line r.horizon
      if s.spanOut r.core r.line then s
      else if s.poisoned key m then (s.dropReq n).poisonStop k gio lane a.ea
      else
        match s.takeRef (((s.group? k).map (·.team)).getD 0) (dieOfCore r.core) (s.home r.line).ref with
        | none => s
        | some s =>
          let old := s.num key m
          let s := s.noteRead k (ordOf o.instr) true key m
          let s := match rmwNew o.instr old a.data with
            | some x =>
              let (s, w) := s.homeWrite key (toBytes m x) (s.pts r.core) (k, gio)
              ((s.l1Drop r.core r.line (accOffset a) m).raisePts r.core w).noteWrite k (ordOf o.instr) true key m
            | none => s.raisePts r.core (s.home r.line).wts
          (s.dropReq n).doneLane k gio lane old
/-- One lane's store at its home (04 R93). -/
def State.serveWrite (s : State) (n : Nat) (r : HomeReq) (k gio lane off : Nat) (bs : List Byte) : State :=
  let s := s.writeBack r.core r.line (k, gio)
  if s.spanOut r.core r.line then s else
  let (s, w) := s.homeWrite (r.line * 128 + off) bs (s.pts r.core) (k, gio)
  let s := (s.l1Update r.core r.line off bs).raisePts r.core w
  let s := s.noteWrite k (((s.opOf k gio).map fun (o : Op) => ordOf o.instr).getD (.rlx, .team)) false (r.line * 128 + off) bs.length
  (s.dropReq n).doneLane k gio lane 0
/-- A write may be performed: it waits for earlier writes of its L1 to the line and of its stream, for a checkpoint, for a route. -/
def State.mayWrite (s : State) (n : Nat) (r : HomeReq) : Bool :=
  isWriteReq r.kind && s.reachable (keyMod (r.line * 128)) && !s.behindWrite n r.core r.line && !s.behindStrm n r && !s.ckptHolds (r.line * 128)
/-- A write or an atomic of a line that no service core holds is performed; its stamp raises the time of its L1, or of the service core whose
    stream it stands in (04 R93, R95; 05 R118). -/
def State.performWrite (s : State) (n : Nat) (r : HomeReq) : State :=
  match r.kind, r.who with
  | .rmw, .op k gio lane => s.serveRmw n r k gio lane
  | .write off bs, .op k gio lane => s.serveWrite n r k gio lane off bs
  | .write off bs, .span k gio =>
    let (s, w) := s.homeWrite (r.line * 128 + off) bs (s.pts r.core) (k, gio)
    (s.dropReq n).raisePts r.core w
  | .write off bs, .hart h =>
    let (s, w) := s.homeWrite (r.line * 128 + off) bs (max r.pts (s.hart h).pts) noGroup
    (s.dropReq n).updHart h fun x => { x with pts := max x.pts w }
  | .write off bs, _ => ((s.homeWrite (r.line * 128 + off) bs r.pts noGroup).1).dropReq n
  | _, _ => s.dropReq n

/-! ### A line's requests in their order (04 R101) -/

/-- A request that may be served at a quiet line: a read of an owned line first fetches the owner's data, a write first recalls the copies
    (04 R103). -/
def State.takeReq (s : State) (n : Nat) (r : HomeReq) : State :=
  let d := (s.home r.line).dir
  if isWriteReq r.kind then (if d.st == .i then s.performWrite n r else s.startRecall r.line (some n))
  else if d.owner.isSome then s.startForward r.line (some n)
  else s.serveRead n r
/-- A request arrives at its home: a line in a transient state lets it queue. -/
def State.reqArrives (s : State) (n : Nat) (r : HomeReq) : State :=
  let d := (s.home r.line).dir
  if d.stable && d.queue.isEmpty then s.takeReq n r
  else if d.queue.contains (.req n) || d.held == some n then s
  else s.setDir r.line { d with queue := d.queue ++ [.req n] }
/-- HOME_READ_LEASE (the request in hand): a read reaches its home and is served, or its line is first fetched from its owner or let into
    the pool's filter (04 R96, R100, R101, R103, R104; 11 R247). -/
def execHomeReadLease (s : State) : Out :=
  let n := s.hand
  .next (match s.reqs.get? n with
    | none => s
    | some r => if r.answer.isSome || isWriteReq r.kind || !s.mayRead n r then s else s.reqArrives n r)
/-- HOME_WRITE (the request in hand): a write or an atomic is performed at its home, once earlier writes of its L1 to the line are and every
    service-core copy is recalled (04 R93, R96, R100, R103). While its module has no route it is held (17 R366). -/
def execHomeWrite (s : State) : Out :=
  let n := s.hand
  .next (match s.reqs.get? n with
    | none => s
    | some r => if !s.mayWrite n r then s else if uncached (r.line * 128) then s.performWrite n r else s.reqArrives n r)
/-- The request whose recall or forward is over is served before the requests that queued meanwhile (04 R101, R103). -/
def State.serveHeld (s : State) (line : Nat) : State :=
  let d := (s.home line).dir
  let s1 := s.setDir line { d with held := none }
  match d.held.bind fun n => (s.reqs.get? n).map fun r => (n, r) with
  | some (n, r) =>
    if isWriteReq r.kind then (if s1.mayWrite n r && d.st == .i then s1.performWrite n r else s1)
    else if r.answer.isNone && s1.mayRead n r then s1.serveRead n r else s1
  | none => s1

/-! ### Timeouts of 17 -/

/-- The lanes that wait for a request take poisoned data. -/
def State.timeoutPoison (s : State) (n : Nat) (tier : Nat) : State :=
  match s.reqs.get? n with
  | some r =>
    if r.answer.isNone && !isWriteReq r.kind && keyTier (r.line * 128) == tier && decide (r.due ≤ s.cycle) then
      match r.who with
      | .op k gio _ =>
        (((s.opOf k gio).map fun o => o.lanesAt n).getD []).foldl (fun s a => s.poisonStop k gio a.lane a.ea) (s.dropReq n)
      | _ => s.dropReq n
    else s
  | none => s
/-- TIER5_READ_TIMEOUT (the request in hand): a read of host memory with no completion within LINK_WAIT returns poisoned data (17 R362). -/
def execTier5ReadTimeout (s : State) : Out := .next (s.timeoutPoison s.hand 5)
/-- POOL_READ_TIMEOUT (the request in hand), likewise for the pool (17 R374). -/
def execPoolReadTimeout (s : State) : Out := .next (s.timeoutPoison s.hand 2)
/-- PEER_READ_TIMEOUT (the request in hand): a read or atomic at an unreachable peer's home, unanswered within LINK_WAIT, is logged as a
    PAGE_FAULT of kind PEER_ABSENT (17 R366). -/
def execPeerReadTimeout (s : State) : Out :=
  let n := s.hand
  .next (match s.reqs.get? n with
    | some r =>
      let write := match r.kind with
        | .write _ _ | .bundled _ _ _ _ => true
        | _ => false
      if r.answer.isNone && !write && !s.reachable (keyMod (r.line * 128)) && decide (r.due ≤ s.cycle) then
        match r.who with
        | .op k gio _ =>
          let s := (s.dropReq n).updOp k gio fun o => { o with accs := o.accs.map fun a =>
            if a.phase == (.atHome n) then { a with phase := .faulted (absentAt (r.line * 128)) } else a }
          s.logOp k gio
        | _ => s.dropReq n
      else s
    | none => s)
/-- POOL_WRITE_COMPLETION (the write in hand): the pool completes it (17 R374). -/
def execPoolWriteCompletion (s : State) : Out :=
  .next { s with links := { s.links with poolOut := s.links.poolOut.del s.hand } }

/-! ### The drain and the time advance (03 R80 to R82) -/

/-- Every core's logical time passes T, the service cores' too (04 R95). Cores never used keep PTS 0 in no table entry, so all are named. -/
def State.timeAdvance (s : State) (t : Nat) : State :=
  (List.range Config.harts).foldl (fun s h => s.updHart h fun x => { x with pts := max x.pts (t + 1) })
    ((List.range Config.cores).foldl (fun s c => s.raisePts (s.ptsCore c) (t + 1)) s)
/-- The largest lease expiry that the homes of a range hold, MEMTS of their slices included (04 R88; 03 R82). -/
def State.largestLease (s : State) (r : Nat × Nat) : Nat :=
  max (maxOf ((s.homes.filter fun e => inRange r e.1).map fun e => e.2.rts)) (maxOf ((s.memts.filter fun e => rangeMeets r e.1).map (·.2)))
/-- A pool line leaves the snoop filter, its links broken (04 R104; 06 R148). -/
def State.backInvalidate (s : State) (line : Nat) : State :=
  let s := s.breakLinksOn line
  { s with links := { s.links with filter := s.links.filter.erase line, poolLease := s.links.poolLease.del line } }
/-- Service-core copies of a range are recalled within one step, and pool lines back-invalidated: a checkpoint's restart (18 R382). -/
def State.recallRange (s : State) (r : Nat × Nat) : State :=
  let lines := ((s.homes.map (·.1)) ++ s.links.filter).dedup.filter (inRange r)
  lines.foldl (fun s line =>
    let s := s.recallNow line
    if isPool line then s.backInvalidate line else s) s
/-- The recalls of a drain, and the back-invalidations of its pool lines, begin where they have not (03 R80; 04 R102, R104). -/
def State.recallBegin (s : State) (r : Nat × Nat) : State :=
  let s := ((s.homes.filter fun e => inRange r e.1 && e.2.dir.stable && e.2.dir.st != .i).map (·.1)).foldl (fun s line => s.startRecall line) s
  (s.links.filter.filter (inRange r)).foldl (fun s line => s.startBackInvalidate line) s
/-- Every line of a range is recalled, written back and out of the pool's filter. -/
def State.recalled (s : State) (r : Nat × Nat) : Bool :=
  !s.homes.any (fun e => inRange r e.1 && e.2.dir.st != .i) && !s.links.filter.any (inRange r)
    && !s.links.out.any (fun w => inRange r (lineOf w.key)) && !s.reqs.any fun e => e.2.isSpan && inRange r e.2.line
/-- XLAT_DRAIN: steps 2 to 4 of 03 R80 on this module; DRAIN_BUSY when a pending bundle version lies in the range. It goes on once the dirty
    spans are home and the copies recalled. -/
def execXlatDrain (s : State) : Out :=
  let x := s.xlat
  .next (if x.status ≠ 1 ∨ x.stage ≠ stDrain ∨ s.accessesPending then s
    else if !invDrain x.cmd then
      { s with xlat := { x with stage := if invPeers x.cmd then stPeers else stDone, since := s.cycle + s.linkWait } }
    else
      let r := x.drainRange
      if s.homes.any fun e => inRange r e.1 && !e.2.pend.isEmpty then { s with xlat := { x with status := 2 } }
      else
        let s := (s.writeBackRange r).recallBegin r
        if !s.recalled r then s
        else
          let s := s.timeAdvance (s.largestLease r)
          { s with xlat := { x with stage := if invPeers x.cmd then stPeers else stDone, since := s.cycle + s.linkWait } })
/-- Every member of the peer group but this module has a route in state UP (17 R366). -/
def State.allPeersUp (s : State) : Bool := (List.range 64).all fun m => m == Config.selfModule || !s.member m || s.reachable m
/-- XLAT_PEER_ADVANCE: every member has made the advance and acknowledged it (03 R82). -/
def execXlatPeerAdvance (s : State) : Out :=
  .next (if s.xlat.status = 1 ∧ s.xlat.stage = stPeers ∧ s.allPeersUp then { s with xlat := { s.xlat with stage := stDone } } else s)
/-- XLAT_PEER_TIMEOUT: a member did not acknowledge within LINK_WAIT (03 R82). -/
def execXlatPeerTimeout (s : State) : Out :=
  .next (if s.xlat.status = 1 ∧ s.xlat.stage = stPeers ∧ !s.allPeersUp ∧ s.xlat.since ≤ s.cycle then
    { s with xlat := { s.xlat with status := 3 } } else s)
/-- XLAT_COMMAND_DONE: STATUS becomes DONE (03 R80, R81). -/
def execXlatCommandDone (s : State) : Out :=
  .next (if s.xlat.status = 1 ∧ s.xlat.stage = stDone then { s with xlat := { s.xlat with status := 0 } } else s)
/-- PEER_TIME_ADVANCE: another module's advance to T reaches this one, with the range that its drain names, whose dirty spans go home
    first (03 R80, R82). -/
def execPeerTimeAdvance (t : Nat) (drain : Option (Nat × Nat)) (s : State) : Out :=
  .next ((match drain with
    | some r => s.writeBackRange r
    | none => s).timeAdvance t)

end Sys2Proof.Machine
end

