-- ==== Sys2Proof/Machine/Moesi.lean ====
section
/-! DEFINITION. The service cores' caches and the directory at the homes: the messages of 04 R99, each by its arrival, with the races of R102
and the stamps of R103; back-invalidation by the pool (R104). -/

namespace Sys2Proof.Machine

/-! ### Order of arrival -/

def MsgKind.toHome : MsgKind → Bool
  | .gets | .getm | .upgrade | .puts | .pute | .putm | .puto | .invack | .fwdack => true
  | _ => false
/-- Messages between one core and one home arrive in the order sent, in each direction; those of other pairs in any order (04 R99). A forward
    waits at a core that has the grant and not yet the data of its line. -/
def State.arrives (s : State) (n : Nat) (m : Msg) : Bool :=
  m.src.isSome
    || !(s.msgs.any fun e => decide (e.1 < n) && e.2.src.isNone && e.2.core == m.core && sliceOf e.2.line == sliceOf m.line
          && e.2.kind.toHome == m.kind.toHome)
      && !((m.kind == .fwdgets || m.kind == .fwdgetm) && ((s.hart m.core).granted.map (·.1)) == some m.line)
/-- The message in hand, of a kind, taken up by `f`. -/
def onMsg (kind : MsgKind) (s : State) (f : Msg → State → State) : Out :=
  .next (match s.msgs.get? s.hand with
    | some m => if m.kind == kind && s.arrives s.hand m && s.reachable (keyMod (m.line * 128)) then
        f m { s with msgs := s.msgs.del s.hand } else s
    | none => s)

/-! ### The home -/

def coreBit (c : Nat) : BitVec 24 := BitVec.ofNat 24 (2 ^ c)
/-- The line's bytes as a message carries them. -/
def State.lineData (s : State) (line : Nat) : List Byte := s.bytes (line * 128) 128
/-- The state that the copies of record make. -/
def Dir.settled (d : Dir) : Dir :=
  { d with st := match d.owner with
      | some _ => if d.st = .em then .em else .o
      | none => if d.sharers = 0 then .i else .s, winner := none, given := false, fwdOut := false }
/-- A grant of E or M: a Write of R96 with the requester's PTS (04 R103). Where the owner has supplied the data, it carries the stamp alone
    (R99). A peer line's proxy gives up its own copy (R100). -/
def State.grantOwner (s : State) (line : Nat) (kind : MsgKind) (core pts : Nat) : State :=
  let (s, w) := s.stamp line pts
  let d := (s.home line).dir
  let s := { s.setDir line { d with st := .em, owner := some core, sharers := 0, acks := 0, winner := none, given := false, fwdOut := false }
             with proxies := s.proxies.del line }
  s.sendMsg { kind := kind, core := core, line := line, stamp := w,
              data := if kind == .upgack || d.given then none else some (s.lineData line) }
/-- The permission a winner gets: UpgAck while its copy is of record, else DataM (04 R102). -/
def State.grantWinner (s : State) (line : Nat) (kind : MsgKind) (core pts : Nat) : State :=
  let d := (s.home line).dir
  s.grantOwner line (if kind == .upgrade && (d.sharers.getLsbD core || d.owner == some core) then .upgack else .datam) core pts
/-- Shared data for a reader; while a bundle prepares on the line it is not to be kept (11 R243). -/
def State.sendShared (s : State) (line core : Nat) : State :=
  let h := s.home line
  let s := if h.noCache then s else s.setDir line ({ h.dir with sharers := h.dir.sharers ||| coreBit core }.settled)
  s.sendMsg { kind := .datas, core := core, line := line, data := some (s.lineData line), stamp := h.wts, own := h.noCache }
/-- A forward to the owner, which names the requester; DataS that a preparing bundle forbids to keep says so (04 R99; 11 R243). -/
def State.forward (s : State) (line owner : Nat) (kind : MsgKind) (req : Option Nat) : State :=
  s.sendMsg { kind := kind, core := owner, line := line, req := req, own := (s.home line).noCache }
/-- A read request at a quiet line (04 R101; log 27: a line that no core holds is granted in E). -/
def State.serveGets (s : State) (m : Msg) : State :=
  let d := (s.home m.line).dir
  match d.owner with
  | some o => (s.forward m.line o .fwdgets (some m.core)).setDir m.line
      { d with st := .fwdWait, winner := some (.gets, m.core, m.pts), fwdOut := true }
  | none =>
    if d.st = .i && !(s.home m.line).noCache && !s.ckptHolds (m.line * 128) then s.grantOwner m.line .datae m.core m.pts
    else s.sendShared m.line m.core
/-- A request for write permission at a quiet line: the other copies are invalidated and the owner's data fetched, for the requester or, where
    it holds a copy, for the home; then the grant (04 R101, R102). -/
def State.serveGetm (s : State) (m : Msg) : State :=
  let d := (s.home m.line).dir
  let others := d.sharers &&& ~~~coreBit m.core
  let s := (coresOf others).foldl (fun s c => s.sendMsg { kind := .inv, core := c, line := m.line }) s
  let d1 := { d with acks := others, winner := some (m.kind, m.core, m.pts) }
  match d.owner.filter (· != m.core) with
  | some o =>
    (s.forward m.line o .fwdgetm (if m.kind == .upgrade then none else some m.core)).setDir m.line { d1 with st := .fwdWait, fwdOut := true }
  | none => if others = 0 then s.grantWinner m.line m.kind m.core m.pts else s.setDir m.line { d1 with st := .sInv }
/-- A request at a quiet line. While a back-invalidation is in progress, a checkpoint holds writes, or the pool's filter has no place, it stands
    before the home again (04 R104; 18 R381). -/
def State.serveRequest (s : State) (m : Msg) : State :=
  if (m.kind != .gets && s.ckptHolds (m.line * 128)) || (s.links.bisnp.get? m.line).isSome then s.sendMsg m
  else match s.poolEnter m.line with
    | (s, false) => s.sendMsg m
    | (s, true) => if m.kind == .gets then s.serveGets m else s.serveGetm m
/-- What queued at a line is taken in the order it arrived while the line is quiet (04 R101); a SIMT request that may not be served now asks
    again. `fuel` bounds the number. -/
def State.serveQueue : Nat → State → Nat → State
  | 0, s, _ => s
  | fuel + 1, s, line =>
    let d := (s.home line).dir
    match d.queue with
    | q :: t =>
      if !d.stable then s
      else
        let s := s.setDir line { d with queue := t }
        State.serveQueue fuel (match q with
          | .msg m => s.serveRequest m
          | .req n => match s.reqs.get? n with
            | some r => if (if isWriteReq r.kind then s.mayWrite n r else r.answer.isNone && s.mayRead n r) then s.takeReq n r else s
            | none => s) line
    | [] => s
/-- A line whose transaction is over: a back-invalidation that waited for it begins its recall (04 R104), else what queued is served. -/
def State.quiet (s : State) (line : Nat) : State :=
  if (s.links.bisnp.get? line).isSome && (s.home line).dir.stable && (s.home line).dir.st != .i then s.startRecall line
  else s.serveQueue (((s.home line).dir.queue).length) line
/-- A request at its home: it queues behind a transaction, and an Upgrade whose copy is not of record is a GetM (04 R101, R102). -/
def State.request (s : State) (m : Msg) : State :=
  let d := (s.home m.line).dir
  let named := d.acks.getLsbD m.core
  let m := if m.kind == .upgrade && (named || !(d.sharers.getLsbD m.core || d.owner == some m.core)) then { m with kind := .getm } else m
  if d.stable && d.queue.isEmpty then s.serveRequest m else s.setDir m.line { d with queue := d.queue ++ [.msg m] }
def requestArrives (kind : MsgKind) (s : State) : Out := onMsg kind s fun m s => s.request m
/-- GETS (the message in hand): a read request reaches its home. -/
def execGets (s : State) : Out := requestArrives .gets s
/-- GETM (the message in hand): a read-exclusive request reaches its home. -/
def execGetm (s : State) : Out := requestArrives .getm s
/-- UPGRADE (the message in hand): a request for write permission on a held copy reaches its home. -/
def execUpgrade (s : State) : Out := requestArrives .upgrade s

/-- A copy is given up at a core's time: a later write of the line stands after every read that the core made of it (05 R121; log 69). -/
def State.takeTime (s : State) (line t : Nat) : State :=
  let h := s.home line
  if t ≤ h.rts then s else s.setHome line { h with rts := t }
/-- The owner's data stands at the home, under a stamp not below the owner's time, which its own writes there have reached (04 R95, R103; log
    69). -/
def State.takeData (s : State) (line : Nat) (data : Option (List Byte)) (t : Nat) : State :=
  match data with
  | some b =>
    let h := s.home line
    { s.setHome line { h with wts := max h.wts t, rts := max h.rts t } with mem := putBytes s.mem (line * 128) b }
  | none => s
/-- An eviction reaches the home (04 R102): dirty data is taken from the owner of record, even while a forward is outstanding; a stale one is
    discarded; PutAck in each case. -/
def putArrives (kind : MsgKind) (s : State) : Out :=
  onMsg kind s fun m s =>
    let d := (s.home m.line).dir
    let owner := d.owner == some m.core
    let s := match m.data with
      | some b => if owner then s.takeData m.line (some b) m.stamp else s
      | none => s
    let s := s.takeTime m.line m.stamp
    let d1 := if owner then { d with owner := none }
              else { d with sharers := d.sharers &&& ~~~coreBit m.core }
    (s.setDir m.line (if d.stable then d1.settled else d1)).sendMsg { kind := .putack, core := m.core, line := m.line }
/-- PUTS, PUTE, PUTM, PUTO (the message in hand): the evictions of the four kinds of copy. -/
def execPuts (s : State) : Out := putArrives .puts s
def execPute (s : State) : Out := putArrives .pute s
def execPutm (s : State) : Out := putArrives .putm s
def execPuto (s : State) : Out := putArrives .puto s

/-- A transaction whose invalidations and forward are both over: the winner's grant, or a line recalled (04 R101). -/
def State.finish (s : State) (line : Nat) : State :=
  let d := (s.home line).dir
  if d.acks ≠ 0 || d.fwdOut then s
  else match d.st, d.winner with
    | .sInv, some (k, c, p) => (s.grantWinner line k c p).quiet line
    | .recall, _ =>
      ((s.setDir line { d with st := .i, sharers := 0, owner := none, winner := none }).serveHeld line).quiet line
    | _, _ => s
/-- INVACK (the message in hand): a sharer has dropped its copy. -/
def execInvack (s : State) : Out :=
  onMsg .invack s fun m s =>
    let s := s.takeTime m.line m.stamp
    let d := (s.home m.line).dir
    (s.setDir m.line { d with acks := d.acks &&& ~~~coreBit m.core, sharers := d.sharers &&& ~~~coreBit m.core }).finish m.line
/-- The directory once an owner has answered a read's forward: an owner from M stays, in O; one from E is a sharer (04 R103), as is a core that
    it supplied. -/
def Dir.afterRead (d : Dir) (core : Nat) (stays : Bool) (reader : BitVec 24) : Dir :=
  let d1 : Dir := if d.owner == some core && !stays then { d with owner := none, sharers := d.sharers ||| coreBit core } else d
  Dir.settled { d1 with st := .o, sharers := d1.sharers ||| reader }
/-- FWDACK (the message in hand): the owner has answered a forward; its data stands at the home (04 R102, R103). -/
def execFwdack (s : State) : Out :=
  onMsg .fwdack s fun m s =>
    let s := (s.takeData m.line m.data m.stamp).takeTime m.line m.stamp
    let d := { (s.home m.line).dir with fwdOut := false }
    match d.st, d.winner with
    | .fwdWait, some (.gets, c, _) =>
      if m.data.isSome then
        (s.setDir m.line (d.afterRead m.core m.own (coreBit c))).quiet m.line
      else ((s.setDir m.line (d.afterRead m.core m.own 0)).sendShared m.line c).quiet m.line
    | .fwdWait, some w =>
      (s.setDir m.line { d with owner := none, st := .sInv, winner := some w, given := w.1 != .upgrade && m.data.isSome }).finish m.line
    | .fwdWait, none => ((s.setDir m.line (d.afterRead m.core m.own 0)).serveHeld m.line).quiet m.line
    | .recall, _ => (s.setDir m.line { d with owner := none }).finish m.line
    | _, _ => s

/-! ### The service core -/

/-- A copy leaves for its home: the line waits in the write-back buffer until PutAck (04 R102). -/
def State.evictCopy (s : State) (h line : Nat) : State :=
  let x := s.hart h
  match x.cache.get? line with
  | none => s
  | some c =>
    let kind : MsgKind := match c.st with
      | .m => .putm
      | .o => .puto
      | .e => .pute
      | .s => .puts
    let data := if c.st = .m ∨ c.st = .o then some c.data else none
    let s := s.setHart h { dropCopy line x with wb := x.wb.put line (c.st, c.data) }
    s.sendMsg { kind := kind, core := h, line := line, data := data, stamp := x.pts }
/-- A copy arrives at a core, which makes room for it first; its request is over (04 R103). -/
def State.installCopy (s : State) (h line : Nat) (st : CopyState) (data : List Byte) (stamp : Nat) : State :=
  let s := if (s.hart h).cache.length < Config.hartLines then s
    else match (s.hart h).cache with
      | (v, _) :: _ => s.evictCopy h v
      | [] => s
  s.updHart h fun x => { x with cache := x.cache.put line { st := st, data := data }, want := none, part := none, granted := none,
                                stale := false, pts := max x.pts stamp }
/-- DATAS (the message in hand): shared data; data not to be kept answers one access (11 R243), and so does an owner's data that an Inv has
    overtaken. -/
def execDatas (s : State) : Out :=
  onMsg .datas s fun m s =>
    let d := m.data.getD []
    if m.own || (m.src.isSome && (s.hart m.core).stale) then
      s.updHart m.core fun x => { x with want := none, stale := false, pts := max x.pts m.stamp, answer := some (m.line, d) }
    else s.installCopy m.core m.line .s d m.stamp
/-- DATAE (the message in hand): data with permission, and its stamp. -/
def execDatae (s : State) : Out := onMsg .datae s fun m s => s.installCopy m.core m.line .e (m.data.getD []) m.stamp
/-- DATAM (the message in hand): data with permission and its stamp, or the two apart, from the owner and from the home: the copy stands once both
    are there (04 R99, R102). -/
def execDatam (s : State) : Out :=
  onMsg .datam s fun m s =>
    let x := s.hart m.core
    match m.src, m.data with
    | some _, d => match (x.granted.filter fun e => e.1 == m.line).map (·.2) with
      | some w => s.installCopy m.core m.line .m (d.getD []) w
      | none => s.updHart m.core fun x => { x with part := some (m.line, d.getD []) }
    | none, some d => s.installCopy m.core m.line .m d m.stamp
    | none, none => match (x.part.filter fun e => e.1 == m.line).map (·.2) with
      | some d => s.installCopy m.core m.line .m d m.stamp
      | none => s.updHart m.core fun x => { x with granted := some (m.line, m.stamp) }
/-- UPGACK (the message in hand): permission for the copy held. -/
def execUpgack (s : State) : Out :=
  onMsg .upgack s fun m s => s.updHart m.core fun x =>
    { x with cache := x.cache.upd m.line (fun c => { c with st := .m }), want := none, pts := max x.pts m.stamp }
/-- PUTACK (the message in hand): the write-back buffer's line is freed. -/
def execPutack (s : State) : Out := onMsg .putack s fun m s => s.updHart m.core fun x => { x with wb := x.wb.del m.line }
/-- INV (the message in hand): the copy is dropped, and a request of this core goes on waiting (04 R102). -/
def execInv (s : State) : Out :=
  onMsg .inv s fun m s =>
    (s.updHart m.core fun x => { dropCopy m.line x with stale := x.stale || x.want == some (m.line, .gets) }).sendMsg
      { kind := .invack, core := m.core, line := m.line, stamp := (s.hart m.core).pts }
/-- What a forward's owner holds: its copy, or the line in its write-back buffer (04 R102). -/
def Hart.supplies (x : Hart) (line : Nat) : Option (List Byte) := ((x.cache.get? line).map (·.data)).or ((x.wb.get? line).map (·.2))
/-- The owner sends the line to the requester that the forward names, and its answer with the line to the home (04 R99). -/
def State.supply (s : State) (m : Msg) (kind : MsgKind) (stays : Bool) : State :=
  let x := s.hart m.core
  let data := x.supplies m.line
  let s := match m.req with
    | some r => if data.isSome then s.sendMsg { kind := kind, core := r, line := m.line, data := data, stamp := x.pts, own := m.own, src := some m.core } else s
    | none => s
  s.sendMsg { kind := .fwdack, core := m.core, line := m.line, data := data, stamp := x.pts, own := stays }
/-- FWDGETS (the message in hand): the owner supplies the line, from its cache or its write-back buffer, and keeps it in O or S
    (04 R102, R103). -/
def execFwdgets (s : State) : Out :=
  onMsg .fwdgets s fun m s =>
    match (s.hart m.core).cache.get? m.line with
    | some c =>
      let st : CopyState := if c.st = .e ∨ c.st = .s then .s else .o
      (s.supply m .datas (st == .o)).updHart m.core fun x => { x with cache := x.cache.put m.line { c with st := st } }
    | none => s.supply m .datas false
/-- FWDGETM (the message in hand): the owner gives the line up (04 R102). -/
def execFwdgetm (s : State) : Out :=
  onMsg .fwdgetm s fun m s => (s.supply m .datam false).updHart m.core (dropCopy m.line)

/-! ### Back-invalidation by the pool (04 R104, 17 R373) -/

/-- BISNP (the line in hand): a snoop from the pool arrives; the home stops granting leases on the line and recalls its copies, at once or when
    the transaction in progress is over. -/
def execBisnp (s : State) : Out := .next (if isPool s.hand then s.startBackInvalidate s.hand else s)
/-- BISNP_ANSWER (the line in hand): once the copies are recalled, dirty data is back, and 256 cycles have passed since the last lease; a line
    that leaves to make room in the filter has no snoop to answer. -/
def execBisnpAnswer (s : State) : Out :=
  let line := s.hand
  let l := s.links
  .next (if (l.bisnp.get? line).isNone || (s.home line).dir.st != .i || decide (s.cycle < l.poolLease.getD line 0 + 256) then s
    else
      let own := l.evicting.contains line
      ({ s with links := { l with bisnp := l.bisnp.del line, filter := l.filter.erase line, poolLease := l.poolLease.del line,
                                  evicting := l.evicting.erase line,
                                  answered := if own then l.answered else l.answered ++ [line] } }).quiet line)

end Sys2Proof.Machine
end

