-- ==== Sys2Proof/Machine/Issue.lean ====
section
/-! DEFINITION. Issuing a long-latency instruction: its flag, its addresses and their checks in the order of 06 R132, the scratch window
(04 R105 to R107), and the operation that it leaves in flight (02 R38). -/

namespace Sys2Proof.Machine

/-! ### Flags (02 R38) -/

def hdrClass (h : Word) : Nat := fld h.toNat 60 4
def hdrCount (h : Word) : Nat := fld h.toNat 56 4
def hdrWait (h : Word) (n : Nat) : Bool := h.getLsbD (44 + n)
def hdrSetaV (h : Word) : Bool := h.getLsbD 43
def hdrSeta (h : Word) : Nat := fld h.toNat 39 4
def hdrSetbV (h : Word) : Bool := h.getLsbD 38
def hdrSetb (h : Word) : Nat := fld h.toNat 34 4
def hdrSafe (h : Word) : Bool := h.getLsbD 31
def hdrSpid (h : Word) : Nat := fld h.toNat 20 11
/-- MEM and ASYNC instructions are long-latency, except PREF (02 R38). -/
def isLong : Instr → Bool
  | .ld _ | .st _ | .stBnd _ | .ldnt _ | .atomAdd _ | .atomMin _ | .atomMax _ | .atomAnd _ | .atomOr _ | .atomXor _ | .atomExch _
  | .atomInc _ | .atomDec _ | .atomFadd _ | .atomFmin _ | .atomFmax _ | .atomCas _ | .fence _ | .fenceEng _ | .waitv _ | .wake _
  | .linkq _ | .condq _ | .alloc _ | .free _ | .accld _ | .kick _ | .bobjInit _ | .bobjExpect _ | .bobjArrive _ | .bobjWait _ | .tdset _
  | .tdinv _ | .bopen _ | .bopenJoin _ | .bcommit _ | .babort _ | .bstat _ | .spawn _ | .recld _ | .qstat _ | .trace _ | .cont _
  | .contEnd _ | .rayld _ | .geostat _ => true
  | _ => false
/-- Its form has a destination field that names a register (02 R38). -/
def writesRegister : Instr → Bool
  | .st _ | .stBnd _ | .fenceEng _ | .free _ | .kick _ | .bobjInit _ | .bobjExpect _ | .bobjArrive _ | .tdinv _ | .spawn _ => false
  | .fence o => o.pd.isSome
  | i => isLong i
/-- The flag an instruction attaches to under a header (02 R38). -/
def attachTo (hdr : Word) (i : Instr) : Option Nat :=
  if writesRegister i then some (hdrSeta hdr)
  else if hdrSetbV hdr then some (hdrSetb hdr)
  else if hdrSetaV hdr then some (hdrSeta hdr) else none

/-! ### Where an address lies -/

/-- The scratch window of a context (04 R105). -/
def scratchBase : Nat := 0x000FFFFFFFE00000
def inWindow (va : Addr) (n : Nat) : Bool := decide (scratchBase < va.toNat + n) && decide (va.toNat < 2 ^ 52)
/-- A group's access: out of the 52-bit range, outside the team's scratchpad, in the scratchpad, translated, or missing. -/
inductive Place where
  | range
  | outside
  | scratch (off : Nat)
  | at (h : Hit)
  | fault (kind : Nat)
  | miss
  deriving DecidableEq, Repr
def State.locate (s : State) (k : Nat) (g : Group) (xf : List (Nat × AccKind × Nat)) (va : Addr) (n : Nat) (kind : AccKind) : Place :=
  if inWindow va n then
    let off := va.toNat - scratchBase
    if off + n ≤ ((s.teamOf g).map (·.kern.hdr.scratch)).getD 0 ∧ scratchBase ≤ va.toNat then .scratch off else .outside
  else match s.lookup (coreOf k) (((s.teamOf g).map (·.extents)).getD []) (s.asidOf g) va n kind with
    | .range => .range
    | .hit h => .at h
    | .miss =>
      match xf.find? fun e => e.1 == va.toNat / 65536 && e.2.1 == kind with
      | some e => .fault e.2.2
      | none => .miss

/-! ### The scratchpad (04 R106, R107) -/

def State.scrByte (s : State) (t off : Nat) : Byte := ((s.team? t).map fun x => x.scr.getD off 0).getD 0
def State.scrBytes (s : State) (t off n : Nat) : List Byte := (List.range n).map fun i => s.scrByte t (off + i)
/-- Bytes stored to a pinned page, without any stamp. -/
def putScr (m : Tab Byte) : Nat → List Byte → Tab Byte
  | _, [] => m
  | k, b :: l => putScr (m.putD 0 k b) (k + 1) l
def State.setScr (s : State) (t off : Nat) (bs : List Byte) : State :=
  s.updTeam t fun x => { x with scr := putScr x.scr off bs, scrPoison := clearMarks x.scrPoison off bs.length }
/-- A byte of a range lies in a poisoned sector of the scratchpad (16 R357). -/
def State.scrPoisoned (s : State) (t off n : Nat) : Bool :=
  (((s.team? t).map (·.scrPoison)).getD []).any fun m => m.1 * 32 < off + n && off < m.1 * 32 + 32
/-- Every sector of a range is marked. -/
def State.markScr (s : State) (t off n : Nat) : State :=
  s.updTeam t fun x => { x with
    scrPoison := (List.range ((off + n + 31) / 32 - off / 32)).foldl (fun p i => p.put (off / 32 + i) ()) x.scrPoison }
/-- Every page of a range is pinned; another waits for its refill (04 R106). -/
def State.scrPinned (s : State) (t off n : Nat) : Bool :=
  let u := ((s.team? t).map (·.unpinned)).getD []
  !u.any fun p => decide (p * 4096 < off + n) && decide (off < p * 4096 + 4096)
/-- An access asks for its pages: the first one to a page makes it be refilled (04 R106). -/
def State.askPage (s : State) (t off n : Nat) : State :=
  s.updTeam t fun x =>
    let l := x.unpinned.filter fun p => !x.asked.contains p && decide (p * 4096 < off + n) && decide (off < p * 4096 + 4096)
    { x with asked := x.asked ++ l }
/-- The backing page of a team's scratchpad page (15 R321). -/
def State.backingVa (s : State) (t : Team) (p : Nat) : Addr :=
  ((s.ctx t.asid).map (·.scrb)).getD 0 + BitVec.ofNat 64 (2 * 2 ^ 20 * (256 * t.cluster + t.slot) + 4096 * p)
/-- The 32 bytes at a virtual address are poisoned. -/
def State.xlatPoison (s : State) (c : Nat) (asid : BitVec 16) (va : Addr) : Bool :=
  match s.engineXlate (dieOfCluster c) asid va 32 .read false with
  | (s, .ok k) => s.poisoned k 32
  | _ => false
/-- A fault on a page's backing page is taken against the context: the device agent holds it, and the page waits (03 R72; 15 R321; log 75). -/
def State.holdPage (s : State) (team page : Nat) (t : Team) (f : Nat) : State :=
  match s.raiseRec (dieOfCluster t.cluster) codeDevice (.page team page) (f, s.backingVa t page) t.asid (0xFF, 0) with
  | some s => s.updTeam team fun t => { t with pageWait := t.pageWait ++ [page] }
  | none => s
/-- SCRATCH_REFILL: a page of a restored team that an access has asked for is filled from its backing page (04 R106). -/
def execScratchRefill (team page : Nat) (s : State) : Out :=
  .next (match s.team? team with
    | none => s
    | some t =>
      if !t.unpinned.contains page || !t.asked.contains page || t.pageWait.contains page then s
      else match s.engineRead (dieOfCluster t.cluster) t.asid (s.backingVa t page) 4096 .read false with
        | (s, .ok bs) =>
          let s1 := (s.updTeam team fun t => { t with scr := putScr t.scr (4096 * page) bs, unpinned := t.unpinned.erase page,
                                                      asked := t.asked.erase page }).dropRec (.page team page)
          (List.range 128).foldl (fun s1 i => if s.xlatPoison t.cluster t.asid (s.backingVa t page + BitVec.ofNat 64 (32 * i)) then
            s1.markScr team (4096 * page + 32 * i) 32 else s1) s1
        | (s, .error f) => s.holdPage team page t f.1)

/-! ### Issuing (06 R132) -/

/-- What an instruction asks of memory: its lanes with their addresses and data, the access, and which targets it may not name. -/
structure MemForm where
  instr : Instr
  lanes : LaneMask
  /-- the active lanes of a form that accesses once, in its lowest lane: a trap names them (16 R340) -/
  act : LaneMask := 0
  ea : Nat → Addr
  data : Nat → Nat := fun _ => 0
  bytes : Nat
  kind : AccKind
  /-- forbidden in the scratch window (step 3) -/
  noWindow : Bool := false
  /-- performs no lane until every lane has translated (step 5) -/
  together : Bool := false
  /-- forbidden at a translated target (step 5; 15 R391) -/
  bad : Hit → Bool := fun _ => false
  args : List Nat := []
  vd : List Nat := []
  sd : List Nat := []
  pd : Option Nat := none

/-- An operation enters the group's flight under the group's next gio, attached to its flag (02 R38). -/
def Group.launch (g : Group) (x : Split) (i : Instr) (mask : LaneMask) (accs : List LaneAcc) (args vd sd : List Nat) (pd : Option Nat) :
    Group :=
  let r := x.run.getD { hdr := 0, words := [], idx := 0, clause := 0 }
  let o : Op := { gio := g.gio, instr := i, word := (r.words[r.idx]?).getD 0, pc := x.pc, idx := r.idx, clause := r.clause,
                  flag := attachTo r.hdr i, mask := mask, split := lowest x.mask, whole := x.mask, accs := accs, args := args, vd := vd, sd := sd, pd := pd }
  { g with ops := g.ops ++ [o] }
/-- A miss posts its walk, and the word waits for the answer. -/
def State.postMisses (s : State) (k : Nat) (g : Group) (x : Split) (l : List (Nat × Addr)) (kind : AccKind) : State :=
  let root := ((s.ctx (s.asidOf g)).map (·.root)).getD 0
  l.foldl (fun s e => s.postWalk (dieOfCore (coreOf k)) (s.asidOf g) root e.2 (.split k (lowest x.mask)) kind) s
/-- An earlier access to the line is logged or held: a later one waits behind it, and its fault is taken when its turn comes (16 R344). -/
def Group.behindPlaced (g : Group) (ea : Addr) : Bool :=
  g.ops.any fun e => e.isPlaced && !e.performed && e.accs.any fun a => !a.phase.isDone && a.ea.toNat / 128 == ea.toNat / 128
/-- The operation enters flight with its faulted lanes logged; with no entry left for them the word waits (16 R343). -/
def State.issueLog (s : State) (k : Nat) (g : Group) (x : Split) (f : MemForm) (pl : List (Nat × Place)) (go : Nat → State → State) : State :=
  let accs := pl.map fun e =>
    let p : LanePhase := match e.2 with
      | .fault n => if g.behindPlaced (f.ea e.1) then .todo else .faulted n
      | _ => .todo
    LaneAcc.mk e.1 (f.ea e.1) (f.data e.1) p
  let faults := accs.any fun a => a.phase.isFault
  if faults && !s.canPlace k g then s.halt
  else
    let g1 := (g.launch x f.instr (f.lanes ||| f.act) accs f.args f.vd f.sd f.pd).updSplit (lowest x.mask) fun y => { y with xfaults := [] }
    let s := s.setGroup k g1
    let s := if faults then s.logOp k g.gio else s
    go g.gio s
/-- The checks of 06 R132 in their order, then the operation in flight, its faulted lanes logged (16 R343), and `go`, which performs what
    may be performed at once. A word that cannot go on yet waits at issue. -/
def State.issueMem (s : State) (k : Nat) (g : Group) (x : Split) (f : MemForm) (go : Nat → State → State) : State :=
  let ls := lanesOf f.lanes
  let pl := ls.map fun l => (l, s.locate k g x.xfaults (f.ea l) f.bytes f.kind)
  let has := fun (p : Place → Bool) => pl.find? fun e => p e.2
  let bad := ls.filter fun l => (f.ea l).toNat % f.bytes != 0
  if bad ≠ [] then s.trapAt k x .misaligned (f.lanes ||| f.act) (f.ea (bad.headD 0))
  else match has (· == .range) with
  | some e => s.trapAt k x .pageFault (maskOf ((pl.filter fun e => e.2 == .range).map (·.1))) (f.ea e.1) (some fkRange)
  | none =>
  match has fun p => p == .outside with
  | some e =>
    if f.noWindow then s.trapAt k x .unsupportedAccess (f.lanes ||| f.act) (f.ea e.1)
    else s.trapAt k x .pageFault (maskOf ((pl.filter fun e => e.2 == .outside).map (·.1))) (f.ea e.1) (some fkNotPresent)
  | none =>
  match has fun p => match p with
    | .scratch _ => f.noWindow
    | _ => false with
  | some e => s.trapAt k x .unsupportedAccess (f.lanes ||| f.act) (f.ea e.1)
  | none =>
  if (has (· == .miss)).isSome then
    (s.postMisses k g x ((pl.filter fun e => e.2 == .miss).map fun e => (e.1, f.ea e.1)) f.kind).halt
  else
    let faults := pl.any fun e => match e.2 with
      | .fault _ => true
      | _ => false
    match has fun p => match p with
      | .at h => f.bad h
      | _ => false with
    | some e =>
      if f.together && faults then s.issueLog k g x f pl go
      else s.trapAt k x .unsupportedAccess (f.lanes ||| f.act) (f.ea e.1)
    | none => s.issueLog k g x f pl go
/-- An instruction without addresses of its own enters flight. -/
def State.issueOp (s : State) (k : Nat) (g : Group) (x : Split) (i : Instr) (mask : LaneMask) (args vd sd : List Nat) (pd : Option Nat)
    (go : Nat → State → State) : State :=
  go g.gio (s.setGroup k (g.launch x i mask [] args vd sd pd))

/-! ### Performing lane by lane -/

/-- A release of wider scope than the reach first writes the L1 back, and waits for what it wrote (04 R94), and while a write of the group is
    held for want of a route (17 R366). -/
def State.unsent (s : State) (k : Nat) : Bool :=
  s.links.out.any (fun w => w.group == k) || s.spansOut (coreOf k) || s.reqs.any fun e => match e.2.kind, e.2.who with
    | .write _ _, .op j _ _ => j == k && !s.reachable (keyMod (e.2.line * 128))
    | _, _ => false
/-- The team of a group spans a core pair. -/
def State.pairOf (s : State) (k : Nat) : Bool := ((((s.group? k).bind fun g => s.teamOf g)).map (·.pair)).getD false
def State.reaches (s : State) (k : Nat) (sc : Scope) : Bool := s.withinReach (coreOf k) (s.pairOf k) sc
/-- The lanes of an operation that may be performed now: it is its turn in the group, and no earlier access to the line is outstanding. -/
def Group.readyLanes (g : Group) (o : Op) : List LaneAcc :=
  if g.mayPerform o then o.accs.filter fun a => a.phase == .todo && !g.lineBusy o.gio a.ea && !g.laneBusy o a.lane else []
/-- Loads, stores and atomics, which act lane by lane: with no active lane they are performed at their turn, as a fence (05 R112). -/
def isLaneForm : Instr → Bool
  | .ld _ | .st _ | .stBnd _ | .ldnt _ | .atomAdd _ | .atomMin _ | .atomMax _ | .atomAnd _ | .atomOr _ | .atomXor _ | .atomExch _
  | .atomInc _ | .atomDec _ | .atomFadd _ | .atomFmin _ | .atomFmax _ | .atomCas _ => true
  | _ => false
/-- Forms that run once for a split: with no active lane they have no effect but the fence event of their order (05 R112). -/
def isOnceForm : Instr → Bool
  | .waitv _ | .wake _ | .linkq _ | .condq _ => true
  | _ => false
/-- The operation is a fence that is performed: FENCE, WAKE, or a form with no active lane (05 R112, R114). -/
def Op.fenced (o : Op) : Bool :=
  o.performed && match o.instr with
    | .fence _ | .wake _ => true
    | _ => o.mask == 0
/-- An operation's turn: `f` performs it over its ready lanes. Before a release the L1 is written back. -/
def State.performOp (s : State) (k gio : Nat) (f : Group → Op → List LaneAcc → State → State) : State :=
  match s.group? k, s.opOf k gio with
  | some g, some o =>
    if o.performed || !g.mayPerform o then s
    else
      let od := ordOf o.instr
      let s := if waitsForAll o.instr && !s.reaches k od.2 then s.writeBackAll (coreOf k) (k, gio) else s
      if waitsForAll o.instr && s.unsent k then s
      else
        let s := (if o.mask == 0 && isOnceForm o.instr then s else f g o (g.readyLanes o) s).updOp k gio fun o =>
          if o.accs.isEmpty && !isLaneForm o.instr && !(o.mask == 0 && isOnceForm o.instr) then o else o.settle
        if ((s.opOf k gio).map Op.fenced).getD false then s.updGroup k (·.fenceSeen od.1) else s
  | _, _ => s
/-- A lane's target as it now translates. A miss posts its walk; an answer of fault is logged. -/
def State.target1 (s : State) (k gio : Nat) (g : Group) (a : LaneAcc) (bytes : Nat) (kind : AccKind) : State × Option Place :=
  match s.locate k g [] a.ea bytes kind with
  | .miss =>
    let root := ((s.ctx (s.asidOf g)).map (·.root)).getD 0
    (s.postWalk (dieOfCore (coreOf k)) (s.asidOf g) root a.ea (.op k gio a.lane) kind, none)
  | .at h => (s.raisePts (coreOf k) h.acq, some (.at h))
  | p => (s, some p)
/-- Faulted lanes of an operation that no event has reported are logged, or logged anew (16 R343, R345). -/
def State.logFaults (s : State) (k gio : Nat) : State :=
  match s.opOf k gio with
  | some o => if o.faultLanes &&& ~~~o.told ≠ 0 then s.logOp k gio else s
  | none => s
/-- A group's read at a place: where its module does not answer, it waits (none), and faults after LINK_WAIT (17 R366). -/
def State.answered (s : State) (k : Nat) (asid : BitVec 16) (va : Addr) (p : Place) : State × Option Place :=
  match p with
  | .at h => (match s.peerRead (2 + coreOf k) asid va.toNat h.key with
    | (s, .ok _) => (s.raisePts (coreOf k) h.acq, some p)
    | (s, .error f) => (s, if f = fkWait then none else some (.fault f)))
  | p => (s, some p)
/-- The target of a lane whose block is read at once at its homes. -/
def State.targetRead (s : State) (k gio : Nat) (g : Group) (a : LaneAcc) (bytes : Nat) (kind : AccKind) : State × Option Place :=
  match s.target1 k gio g a bytes kind with
  | (s, some p) => s.answered k (s.asidOf g) a.ea p
  | r => r
/-- The lanes of an operation that translate now; none while it must have every lane and some lane has no translation (06 R132 step 5). A
    forbidden target then stops the group, in no lane. -/
def State.gather (s : State) (k gio : Nat) (g : Group) (o : Op) (ready : List LaneAcc) (bytes : Nat) (kind : AccKind) (together : Bool)
    (bad : Hit → Bool) : State × List (LaneAcc × Place) :=
  let r := ready.foldl (fun (p : State × List (LaneAcc × Place)) a =>
    match p.1.target1 k gio g a bytes kind with
    | (s, some w) => (s, p.2 ++ [(a, w)])
    | (s, none) => (s, p.2)) (s.logFaults k gio, [])
  if !together then r
  else if o.accs.any (fun a => a.phase != .todo && !a.phase.isDone) || decide (r.2.length < (o.accs.filter fun a => a.phase == .todo).length) then
    (r.1, if o.accs.any (fun a => a.phase.isDone || match a.phase with
      | .atHome _ => true
      | _ => false) then r.2 else [])
  else if r.2.any fun e => match e.2 with
      | .at h => bad h
      | _ => false then
    (r.1.stopAtOp k gio .unsupportedAccess 0 o.mask ((o.accs.head?.map (·.ea)).getD 0), [])
  else r

end Sys2Proof.Machine
end

