-- ==== Sys2Proof/Machine/Record.lean ====
section
/-! DEFINITION. Kernel headers, fault records of the engines, records on their way to bins, and the node instructions (02 R59, R60; 13 R274
to R291; 16 R390). -/

namespace Sys2Proof.Machine

/-! ### Kernel and node headers (02 R59, R60) -/

def parseHeader (x : Nat) : Header :=
  { sptab := BitVec.ofNat 64 (fld x 448 64), roletab := BitVec.ofNat 64 (fld x 384 64), mstream := BitVec.ofNat 64 (fld x 320 64),
    entry := BitVec.ofNat 64 (fld x 256 64), nsp := fld x 234 12, maxdepth := fld x 228 6, fanout := fld x 220 8, recsz := fld x 208 5,
    timer := fld x 192 16, priv := fld x 160 32, scratch := fld x 128 32, acct := fld x 106 6, seq := fld x 104 1 == 1,
    vmax := fld x 96 8, vinit := fld x 88 8, roles := fld x 80 8, groups := fld x 72 8, gw := fld x 64 2, tpair := fld x 27 1 == 1,
    fuse := fld x 26 1 == 1, kind := fld x 24 2 }
/-- Lanes of a group of this header. -/
def Header.width (h : Header) : Nat := 16 * 2 ^ h.gw
/-- The bounds of 02 R59 and R60 but for those of the roles. -/
def headerOk (x : Nat) : Bool :=
  let h := parseHeader x
  let gang := h.kind == 2
  let node := h.kind == 1
  fld x 0 16 == 0x5A4B && fld x 16 8 == 1 && decide (h.kind ≤ 2) && fld x 28 36 == 0 && decide (h.gw ≤ 2) && fld x 66 6 == 0
    && decide (1 ≤ h.groups) && decide (h.groups ≤ 32) && (if gang then decide (1 ≤ h.roles) && decide (h.roles ≤ 8) else h.roles == 0)
    && (gang || (decide (1 ≤ h.vmax) && decide (h.vmax ≤ 32) && decide (1 ≤ h.vinit) && decide (h.vinit ≤ h.vmax)))
    && fld x 105 1 == 0 && decide (h.acct ≤ 32) && fld x 112 16 == 0 && h.scratch % 4096 == 0 && decide (h.scratch ≤ 2 * 2 ^ 20)
    && h.priv % 16 == 0 && (node || (h.timer == 0 && h.recsz == 0 && h.maxdepth == 0))
    && (!node || (decide (1 ≤ h.recsz) && decide (h.recsz ≤ 16))) && fld x 213 7 == 0 && decide (h.nsp ≤ 2048) && fld x 246 10 == 0
    && (gang || h.entry.toNat % 8 == 0) && h.mstream.toNat % 8 == 0 && (h.seq || h.mstream == 0)
    && h.roletab.toNat % 16 == 0 && (gang || h.roletab == 0) && h.sptab.toNat % 16 == 0 && (h.nsp != 0 || h.sptab == 0)
    && decide (h.groups * h.width ≤ 2048)
/-- The 64 bytes of a KIND 1 header. -/
def nodeHeaderOk (x : Nat) : Bool := headerOk x && (parseHeader x).kind == 1

/-! ### Contexts and pools (13 R277, R282; 15 R320) -/

def State.updCtx (s : State) (asid : BitVec 16) (f : Ctx → Ctx) : State := { s with ctxs := s.ctxs.upd asid.toNat f }
/-- Granules of a context's pool: 256 for each 4 KB block (15 R320). -/
def Ctx.granules (c : Ctx) : Nat := 256 * c.poolsz
def Ctx.freeGranules (c : Ctx) : Nat := c.granules - c.used
/-- Granules taken from a pool, when it has them. -/
def State.takeGranules (s : State) (asid : BitVec 16) (n : Nat) : Option State :=
  match s.ctx asid with
  | some c => if n ≤ c.freeGranules then some (s.updCtx asid fun c => { c with used := c.used + n }) else none
  | none => none
def State.giveGranules (s : State) (asid : BitVec 16) (n : Nat) : State := s.updCtx asid fun c => { c with used := c.used - n }
/-- A record leaves for its bin (13 R276). -/
def State.push (s : State) (m : RecMsg) : State := { s with inflight := s.inflight.put s.inflight.next m }

/-! ### Bins (13 R278 to R280) -/

def Bin.is (b : Bin) (die : Nat) (asid : BitVec 16) (node : Addr) : Bool := b.die == die && b.asid == asid && b.node == node
def State.bin? (s : State) (die : Nat) (asid : BitVec 16) (node : Addr) : Option (Nat × Bin) := s.bins.find? fun e => e.2.is die asid node
/-- Bytes of launcher SRAM in use on a die (13 R277). -/
def State.sramUsed (s : State) (die : Nat) : Nat :=
  ((s.bins.filter fun e => e.2.die == die).map fun e => 16 * e.2.kern.hdr.recsz * e.2.sram).sum
def sramBytes : Nat := 512 * 1024
/-- A context is switched out of a cluster, or out of every cluster of a die (16 R352, 13 R287). -/
def State.switchedOut (s : State) (asid : BitVec 16) (c : Nat) : Bool := (s.outOf.getD asid.toNat 0).getLsbD c
def State.awayFrom (s : State) (asid : BitVec 16) (die : Nat) : Bool := (List.range 18).all fun c => s.switchedOut asid (18 * die + c)
/-- A further record of a bin's head fits in SRAM, the bin is among the 1,024 with a head there, and its context is on the die (13 R278,
    R287). -/
def State.sramRoom (s : State) (b : Bin) : Bool :=
  !s.awayFrom b.asid b.die && decide (s.sramUsed b.die + 16 * b.kern.hdr.recsz ≤ sramBytes) &&
    (b.sram != 0 || decide ((s.bins.filter fun e => e.2.die == b.die && e.2.sram != 0).length < 1024))
/-- Records move from the ring head into SRAM while there is room (13 R278). `fuel` bounds their number. -/
def State.refillSram : Nat → State → Nat → State
  | 0, s, _ => s
  | fuel + 1, s, n =>
    match s.bins.get? n with
    | some b => if b.sram < b.recs.length ∧ s.sramRoom b then
        State.refillSram fuel { s with bins := s.bins.put n { b with sram := b.sram + 1 } } n else s
    | none => s
/-- Room in a die's SRAM is given to the ring heads of its bins. -/
def State.refillDie (s : State) (die : Nat) : State :=
  ((s.bins.filter fun e => e.2.die == die).map fun e => (e.1, e.2.recs.length)).foldl (fun (s : State) e => s.refillSram e.2 e.1) s
/-- Teams of a node on a die (13 R279, R291). -/
def State.nodeTeams (s : State) (die : Nat) (asid : BitVec 16) (node : Addr) : List (Nat × Team) :=
  s.teams.filter fun e => dieOfCluster e.2.cluster == die && e.2.asid == asid && e.2.hdrVa == node && e.2.cmd.isNone
/-- A node's bin that is empty and has no team left gives up the launcher's copy (13 R279). -/
def State.releaseBin (s : State) (die : Nat) (asid : BitVec 16) (node : Addr) : State :=
  if (s.nodeTeams die asid node).isEmpty then
    { s with bins := s.bins.filter fun e => !(e.2.is die asid node && e.2.recs.isEmpty) } else s
/-- The timer of a node in cycles (13 R274). -/
def Header.timerCycles (h : Header) : Nat := if h.timer = 0 then 4096 else 64 * h.timer
/-- Team capacity C (13 R274). -/
def Header.capacity (h : Header) : Nat := h.groups * h.width
/-- A record that fails the check of 13 R279 is dropped: its granules return and an event names the node, the source and the depth. -/
def State.dropRecord (s : State) (m : RecMsg) : State :=
  let s := s.giveGranules m.asid m.gran
  s.post { die := m.die, kind := 10, source := 768 + m.die, asid := m.asid, arg0 := m.node,
           arg1 := BitVec.ofNat 64 (m.src * 256 + m.depth) }
/-- A RECORD command's record is in its bin (`how` 1), or was dropped there (2) (15 R324). -/
def State.recordDone (s : State) (m : RecMsg) (how : Nat) : State :=
  match m.cmd with
  | some c => { s with cmds := s.cmds.upd c fun x => { x with retired := how } }
  | none => s
/-- The checks of 13 R279 against the launcher's copy of the header. -/
def recordFits (h : Header) (m : RecMsg) : Bool := decide (16 * h.recsz = m.data.length) && decide (m.depth ≤ h.maxdepth)
/-- A table of n entries of 16 bytes as its two 64-bit halves. -/
def pairs16 : Nat → List Byte → List (Nat × Nat)
  | 0, _ => []
  | n + 1, bs => (ofBytes (bs.take 8), ofBytes (slice bs 8 8)) :: pairs16 n (bs.drop 16)
/-- A safe-point table (02 R61): save and restore addresses. -/
def State.readSafe (s : State) (die : Nat) (asid : BitVec 16) (h : Header) : State × Except (Nat × Addr) (List (Addr × Addr)) :=
  match s.engineRead die asid h.sptab (16 * h.nsp) .read false with
  | (s, .ok bs) => (s, .ok ((pairs16 h.nsp bs).map fun (e : Nat × Nat) => (BitVec.ofNat 64 e.1, BitVec.ofNat 64 e.2)))
  | (s, .error f) => (s, .error f)
/-- The launcher's copy of a node: its header and its safe-point table (02 R60, 13 R279). -/
def State.readNode (s : State) (die : Nat) (asid : BitVec 16) (node : Addr) : State × Except (Nat × Addr) (Nat × List (Addr × Addr)) :=
  match s.engineRead die asid node 64 .read false with
  | (s, .error f) => (s, .error f)
  | (s, .ok raw) =>
    let x := ofBytes raw
    if !nodeHeaderOk x then (s, .ok (x, []))
    else match s.readSafe die asid (parseHeader x) with
      | (s, .ok safe) => (s, .ok (x, safe))
      | (s, .error f) => (s, .error f)
/-- A record as it stands in its bin. -/
def RecMsg.stamped (m : RecMsg) (t : Nat) : RecMsg := { m with arrived := t }
/-- RECORD_ARRIVE (the record in hand): it reaches its bin in the order of its pushes, and is placed or dropped; the header is read at the
    node's first record, and a fault on that read is held (13 R279, R284; 15 R396). -/
def execRecordArrive (s : State) : Out :=
  let n := s.hand
  .next (match s.inflight.get? n with
    | none => s
    | some m =>
      if m.waiting || s.inflight.any (fun e => decide (e.1 < n) && e.2.die == m.die && e.2.asid == m.asid && e.2.node == m.node) then s
      else
        let gone := { s with inflight := s.inflight.del n }
        match s.bin? m.die m.asid m.node with
        | some (i, b) =>
          if recordFits b.kern.hdr m then
            let room := b.sram == b.recs.length && s.sramRoom b
            let b1 : Bin := { b with recs := b.recs ++ [m.stamped s.cycle], sram := if room then b.sram + 1 else b.sram }
            ({ gone with bins := s.bins.put i b1 } : State).recordDone m 1
          else (gone.dropRecord m).recordDone m 2
        | none =>
          let hold := fun (s : State) f =>
            match s.raiseRec m.die codeDevice (.node n) f m.asid (0xFF, 0) with
            | some s => { s with inflight := s.inflight.put n { m with waiting := true } }
            | none => s
          match s.readNode m.die m.asid m.node with
          | (s, .error f) => hold s f
          | (s, .ok (x, safe)) =>
            let h := parseHeader x
            let gone := ({ s with inflight := s.inflight.del n }).dropRec (.node n)
            if nodeHeaderOk x && recordFits h m then
              let b : Bin := { die := m.die, asid := m.asid, node := m.node, kern := { hdr := h, roles := [], safe := safe }, recs := [] }
              let b1 : Bin := { b with recs := [m.stamped s.cycle], sram := if gone.sramRoom b then 1 else 0 }
              ({ gone with bins := gone.bins.put gone.bins.next b1 } : State).recordDone m 1
            else (gone.dropRecord m).recordDone m 2)
/-- The oldest record of a bin has waited its timer (13 R280). -/
def State.timerDue (s : State) (b : Bin) : Bool :=
  match b.recs with
  | m :: _ => decide (m.arrived + b.kern.hdr.timerCycles ≤ s.cycle)
  | [] => false
/-- BIN_TIMER (the bin in hand): it becomes ready for a timed launch. -/
def execBinTimer (s : State) : Out :=
  .next { s with bins := s.bins.upd s.hand fun b => { b with timed := b.timed || s.timerDue b } }

/-! ### The node instructions (13 R288 to R291) -/

/-- The depth and the record of a lane (13 R275, R276). -/
def State.laneRec (s : State) (g : Group) (l : Nat) : Option LaneRec := (s.teamOf g).bind fun t => t.recs.get? (64 * g.gidx + l)
def State.laneDepth (s : State) (g : Group) (l : Nat) : Nat := ((s.laneRec g l).map (·.depth)).getD 0
/-- The team depth of 13 R276: the record's on a node, 0 on an index-space team. -/
def State.laneField (s : State) (g : Group) (f : NodeField) (l : Nat) : Nat :=
  match f with
  | .depth => s.laneDepth g l
  | .src => ((s.laneRec g l).map (·.src)).getD 0
  | .slot => g.gidx * g.width + l
  | .count => ((s.teamOf g).map (·.count)).getD 0
def execNodeid (o : NodeidOp) (s : State) : Out :=
  onIssuer s fun k g x =>
    s.setGroup k (g.writeV o.d.toNat (s.active g x o.g) fun l => BitVec.ofNat 32 (s.laneField g o.field l))

/-- The words that a load of a type writes (06 R135). -/
def tyWords (ty : MemTy) (x : Nat) : List LaneWord :=
  let w := fun i => BitVec.ofNat 32 (x / 2 ^ (32 * i))
  match ty with
  | .b32 => [w 0]
  | .b64 => [w 0, w 1]
  | .b128 => [w 0, w 1, w 2, w 3]
  | .s8 => [(BitVec.ofNat 8 x).signExtend 32]
  | .z8 => [(BitVec.ofNat 8 x).setWidth 32]
  | .s16 => [(BitVec.ofNat 16 x).signExtend 32]
  | .z16 => [(BitVec.ofNat 16 x).setWidth 32]
def tyRegs (ty : MemTy) : Nat := (tyWords ty 0).length
/-- Registers d to d + n - 1, and none for v255. -/
def vRange (d n : Nat) : List Nat := if d = 255 then [] else (List.range n).map (d + ·)
/-- Words of a lane to be written to d and the registers after it. -/
def laneOut (d l : Nat) (ws : List LaneWord) : List (Nat × LaneWord) :=
  if d = 255 then [] else (enum 0 ws).map fun e => (64 * (d + e.1) + l, e.2)
/-- RECLD reads the lane's own record, which no store reaches; bytes past its end read 0. -/
def execRecld (o : RecldOp) (s : State) : Out :=
  onIssuer s fun k g x =>
    let act := s.active g x o.g
    let off := fun l => ((s.readV g o.b.toNat l).toNat + o.off.toNat) % 2 ^ 32
    let n := tyBytes o.ty
    if (lanesOf act).any fun l => off l % n != 0 then s.trapAt k x .misaligned act
    else
      let out := ((lanesOf act).map fun l =>
        let d := ((s.laneRec g l).map (·.data)).getD []
        laneOut o.d.toNat l (tyWords o.ty (ofBytes ((List.range n).map fun i => (d[off l + i]?).getD 0)))).flatten
      s.issueOp k g x (.recld o) act [] (vRange o.d.toNat (tyRegs o.ty)) [] none fun gio s =>
        s.updOp k gio fun p => { p with performed := true, vOut := out }

/-- What a group's read of a block meets: a poisoned byte stops the group (16 R357). -/
inductive BlockRead where
  | ok (x : Nat)
  | wait
  | poison
  deriving DecidableEq, Repr
/-- A group's read of a block at the homes, or on the scratchpad (04 R94, R95). -/
def State.groupRead (s : State) (k : Nat) (g : Group) (n : Nat) (p : Place) : State × BlockRead :=
  match p with
  | .scratch off =>
    if !s.scrPinned g.team off n then (s.askPage g.team off n, .wait)
    else (s, if s.scrPoisoned g.team off n then .poison else .ok (ofBytes (s.scrBytes g.team off n)))
  | .at h =>
    let ls := linesOf h.key n
    let s := ls.foldl (fun s line => s.writeBack (coreOf k) line) s
    if ls.any fun line => s.behindWrite s.reqs.next (coreOf k) line then (s, .wait)
    else if s.poisoned h.key n then (s, .poison)
    else match s.teamRead g.team (dieOfCore (coreOf k)) h.key n with
      | some (s, bs) => (s.readStamp k (maxOf (ls.map s.lineStamp)), .ok (ofBytes bs))
      | none => (s, .wait)
  | _ => (s, .wait)
/-- The checks of SPAWN against the target's header: the trap, if one is due (13 R288). -/
def State.spawnTrap (s : State) (g : Group) (h : Addr) (sz : Nat) (raw : Nat) (act : LaneMask) : Option Cause :=
  let t := parseHeader raw
  let fan := ((s.teamOf g).map (·.kern.hdr.fanout)).getD 0
  if h.toNat % 64 ≠ 0 ∨ !nodeHeaderOk raw ∨ t.recsz ≠ sz then some .nodeTarget
  else
    let full := fun (l : Nat) => decide (fan < g.sent.getD l 0 + 1)
    ((lanesOf act).find? fun l => full l || decide (t.maxdepth < s.laneDepth g l + 1)).map fun l => if full l then .nodeFanout else .nodeDepth
/-- The lanes of a SPAWN count their records as sent. -/
def Group.countSent (g : Group) (act : LaneMask) : Group :=
  { g with sent := (lanesOf act).foldl (fun t l => t.put l (t.getD l 0 + 1)) g.sent }
/-- A SPAWN whose records are on their way (its `aux`). -/
def spawnPushed : Nat := 1
/-- The push of a SPAWN, as a release at .dev: lanes in increasing order, out of the team's reservation (13 R282, R284, R288). -/
def State.spawnPush (s : State) (k gio : Nat) (g : Group) (o : Op) (h : Addr) (sz : Nat) : State :=
  let die := dieOfCore (coreOf k)
  let s := o.accs.foldl (fun s a =>
    s.push { die := die, asid := s.asidOf g, node := h, data := toBytes (16 * sz) a.data, depth := s.laneDepth g a.lane + 1, src := 0,
             gran := sz, spawn := some (g.team, g.gidx, gio) }) s
  let s := s.updTeam g.team fun t => { t with reserve := t.reserve - sz * o.accs.length }
  s.updOp k gio fun o => { o with accs := [], aux := spawnPushed }
/-- Every record of a pushed SPAWN is in its bin or ring, or was dropped there (13 R279, R288). -/
def State.spawnPlaced (s : State) (g : Group) (gio : Nat) : Bool := !s.inflight.any fun e => e.2.spawn == some (g.team, g.gidx, gio)
/-- SPAWN's part in memory: the header's read, where it faulted at issue, then the push. -/
def State.performSpawn (s : State) (k gio : Nat) : State :=
  s.performOp k gio fun g o l s =>
    let h := BitVec.ofNat 64 (o.args.headD 0)
    let sz := (o.args[1]?).getD 0
    if o.accs.isEmpty then (if o.aux = spawnPushed ∧ !s.spawnPlaced g gio then s else s.updOp k gio fun o => { o with performed := true })
    else if o.args.length = 3 then s.spawnPush k gio g o h sz
    else match l with
      | [] => s
      | a :: _ =>
        match s.targetRead k gio g { a with ea := h } 64 .read with
        | (s, some (.fault f)) => (s.updOp k gio fun o => { o with accs := o.accs.map fun a => { a with phase := .faulted f } }).logFaults k gio
        | (s, some p) =>
          match s.groupRead k g 64 p with
          | (s, .poison) => s.stopAtOp k gio .dataPoison 0 o.mask h
          | (s, .ok raw) =>
            match s.spawnTrap g h sz raw o.mask with
            | some c => s.stopAtOp k gio c 0 o.mask 0
            | none => ((s.updGroup k fun g => g.countSent o.mask).updOp k gio fun o => { o with args := o.args ++ [1] }).spawnPush k gio g o h sz
          | (s, .wait) => s
        | (s, none) => s
def execSpawn (o : SpawnOp) (s : State) : Out :=
  onIssuer s fun k g x =>
    let act := s.active g x o.g
    let h := s.readS g o.a.toNat
    let sz := o.sz.toNat + 1
    let accs := (lanesOf act).map fun l =>
      ({ lane := l, ea := h, data := ofBytes (((List.range (4 * sz)).map fun i => toBytes 4 (s.readV g (o.b.toNat + i) l).toNat).flatten) } : LaneAcc)
    let go := fun (s : State) (g : Group) accs args =>
      (s.setGroup k (g.launch x (.spawn o) act accs args [] [] none)).performSpawn k g.gio
    if act = 0 then go s g [] [h.toNat, sz]
    else if h.toNat % 64 ≠ 0 then s.trapAt k x .nodeTarget act
    else match s.answered k (s.asidOf g) h (s.locate k g x.xfaults h 64 .read) with
      | (s, none) => s.halt
      | (s, some .range) => s.trapAt k x .pageFault act h (some fkRange)
      | (s, some .outside) => s.trapAt k x .pageFault act h (some fkNotPresent)
      | (s, some .miss) => (s.postMisses k g x [(lowest act, h)] .read).halt
      | (s, some (.fault f)) =>
        if !s.canPlace k g then s.halt
        else
          let g1 := g.updSplit (lowest x.mask) fun y => { y with xfaults := [] }
          (s.setGroup k (g1.launch x (.spawn o) act (accs.map fun a => { a with phase := .faulted f }) [h.toNat, sz] [] [] none)).logOp k g.gio
      | (s, some p) =>
        match s.groupRead k g 64 p with
        | (s, .wait) => s.halt
        | (s, .poison) => s.trapAt k x .dataPoison act h
        | (s, .ok raw) =>
          match s.spawnTrap g h sz raw act with
          | some c => s.trapAt k x c act
          | none => go s (g.countSent act) accs [h.toNat, sz, 1]

/-- QSTAT's value for the node at an address (13 R291). -/
def State.qstatValue (s : State) (die : Nat) (asid : BitVec 16) (h : Addr) (ok : Bool) : BitVec 64 :=
  if !ok then BitVec.ofNat 64 (2 ^ 42)
  else
    let b := (s.bin? die asid h).map (·.2)
    let wait := (b.map (·.recs.length)).getD 0
    let spill := (b.map fun b => decide (b.sram < b.recs.length)).getD false
    let timed := (b.map fun b => b.timed || s.timerDue b).getD false
    let free := ((s.ctx asid).map (·.freeGranules)).getD 0
    BitVec.ofNat 64 (min wait (2 ^ 32 - 1) + 2 ^ 32 * min (s.nodeTeams die asid h).length 255 + 2 ^ 40 * b2n timed + 2 ^ 41 * b2n spill
      + 2 ^ 44 * min (free / 256) (2 ^ 20 - 1))
/-- QSTAT reads the launcher's state; a header that it cannot read is not a KIND 1 header. -/
def execQstat (o : SPair) (s : State) : Out :=
  onIssuer s fun k g x =>
    let act := s.active g x o.g
    let h := s.readS g o.a.toNat
    let die := dieOfCore (coreOf k)
    let answer := fun (s : State) ok => s.issueOp k g x (.qstat o) act [] [] [o.d.toNat] none fun gio s =>
      s.updOp k gio fun p => { p with performed := true, sOut := [(o.d.toNat, s.qstatValue die (s.asidOf g) h ok)] }
    if act = 0 then s.issueOp k g x (.qstat o) act [] [] [] none fun gio s => s.updOp k gio fun p => { p with performed := true }
    else if h.toNat % 64 ≠ 0 then answer s false
    else match s.engineRead die (s.asidOf g) h 64 .read false with
      | (s, .ok raw) => answer s (nodeHeaderOk (ofBytes raw))
      | (s, .error f) => if f.1 = fkWait then s.halt else answer s false

end Sys2Proof.Machine
end

