-- ==== Sys2Proof/Machine/Bundle.lean ====
section
/-! DEFINITION. Store bundles: the table, pending versions, commit, abort, references and horizons, and the bundle instructions
(11 R236 to R255). -/

namespace Sys2Proof.Machine

/-! ### The table (11 R236, R239) -/

def BundleState.code : BundleState → Nat
  | .none => 0 | .opened => 1 | .doomed => 2 | .closing => 3 | .committed => 4 | .done => 5 | .aborted => 6
/-- Codes of 11 R248. -/
def bConflict : Nat := 1
def bCapacity : Nat := 2
def bPoison : Nat := 3
def bLink : Nat := 4
def bLagging : Nat := 5
def bNoBundle : Nat := 6
def bAborted : Nat := 7
def bTooLate : Nat := 8
def bBadRec : Nat := 9
def bFull : Nat := 10
def handleOf (slot : Nat) (gen : BitVec 4) : BitVec 16 := gen ++ BitVec.ofNat 12 slot
/-- The bundle that a handle names within a context (11 R236). -/
def State.bundleIn (s : State) (asid : BitVec 16) (h : BitVec 16) : Option Bundle :=
  (s.bundleOf h).bind fun b => if b.asid = asid then some b else none
def State.updBundle (s : State) (slot : Nat) (f : Bundle → Bundle) : State := { s with bundles := s.bundles.upd slot f }
/-- A bundle may still take stores. -/
def Bundle.takes (b : Bundle) : Bool := b.st == .opened && !b.aborting
/-- The age of 11 R236 for bundles of this module: opening PTS, slot. -/
def olderBundle (a : Bundle) (sa : Nat) (b : Bundle) (sb : Nat) : Bool := decide (a.age < b.age) || (a.age == b.age && decide (sa < sb))
/-- The homes and the count of the pending lines of a bundle. -/
def State.pendingOf (s : State) (h : BitVec 16) : List Nat :=
  (s.homes.filter fun e => e.2.pend.any (·.names Config.selfModule h)).map (·.1)
def State.pendingHomes (s : State) (h : BitVec 16) : List Nat := ((s.pendingOf h).map sliceOf).dedup
def homeReachable (s : State) (home : Nat) : Bool := s.reachable (home / 64)

/-! ### The record (11 R238) -/

/-- The coordinator's fields of the record as they now stand; CTIME and NLINES are written at the commit point (11 R243 step 4). -/
def State.writeRecord (s : State) (slot : Nat) : State :=
  match s.bundles.get? slot with
  | none => s
  | some b =>
    let x : Nat := b.st.code + 16 * b.reason + 2 ^ 16 * (handleOf slot b.gen).toNat + (if b.t = 0 then 0 else 2 ^ 32 * (b.nlines % 2 ^ 32) + 2 ^ 64 * (b.t % 2 ^ 64))
    let r := s.homeStore (b.recKey + 48) (toBytes 16 x) s.devTime noGroup
    { r.1 with devPts := max r.1.devPts r.2 }
/-- One companion range in a record. -/
def recRange (x i : Nat) : Nat × Nat := (fld x (512 + 128 * i) 64, fld x (576 + 128 * i) 64)
def rangeOk (r : Nat × Nat) : Bool := decide (r.1 < r.2) && decide (r.2 ≤ 2 ^ 52) && r.1 % 128 == 0 && r.2 % 128 == 0
/-- The layout of 11 R238. -/
def recordOk (x : Nat) : Bool :=
  let nr := fld x 0 5
  decide (nr ≤ 16) && fld x 5 379 == 0 && fld x 384 4 == 0 && fld x 392 8 == 0 && fld x 2560 1536 == 0
    && (List.range 16).all fun i => if i < nr then rangeOk (recRange x i) else recRange x i == (0, 0)

/-! ### Opening (11 R250) -/

/-- The slot at the head of the order of freed slots. -/
def State.nextSlot (s : State) : Option (Nat × State) :=
  if s.bunNew < 4096 then some (s.bunNew, { s with bunNew := s.bunNew + 1 })
  else match s.bunFreed with
    | n :: t => some (n, { s with bunFreed := t })
    | [] => none
/-- BOPEN on a record: the status and handle for sD, and the state with the bundle open. -/
def State.openBundle (s : State) (asid : BitVec 16) (die pts : Nat) (sc : Scope) (key : Nat) (raw : Nat) : State × Nat :=
  if keyMod key ≠ Config.selfModule ∨ (keyTier key ≠ 0 ∧ keyTier key ≠ 1) ∨ !recordOk raw then (s, bBadRec * 2 ^ 16)
  else match s.nextSlot with
    | none => (s, bFull * 2 ^ 16)
    | some (n, s) =>
      let g := ((s.bundles.get? n).map (·.gen)).getD 0 + 1
      let g := if handleOf n g = 0 then 1 else g
      let ranges := (List.range (fld raw 0 5)).map (recRange raw)
      let b : Bundle := { gen := g, st := .opened, asid := asid, die := die, age := pts, scope := sc, ranges := ranges, recKey := key }
      let s := ({ s with bundles := s.bundles.put n b } : State).writeRecord n
      (s, (handleOf n g).toNat)

/-! ### Ends (11 R244) -/

/-- A group's BCOMMIT or BABORT has its outcome. -/
def State.endWait (s : State) (w : BundleWait) (code : Nat) (ferr : Bool) : State :=
  match w with
  | .commit k gio | .abort k gio =>
    (s.updOp k gio fun o => { o with performed := true, sOut := (o.sd.map fun d => (d, BitVec.ofNat 64 code)) }).updGroup k fun g =>
      { g with bcur := 0, ferr := g.ferr || ferr }
  | .hart h => s.updHart h fun x =>
      match x.wait with
      | .bcommit rd _ => { x with wait := .no, x := if rd = 0 then x.x else x.x.putD 0 rd.toNat (BitVec.ofNat 64 code) }
      | _ => x
def State.endWaits (s : State) (slot : Nat) (code : Nat) (ferr : Bool) : State :=
  match s.bundles.get? slot with
  | none => s
  | some b => (b.waits.foldl (fun s w => s.endWait w code ferr) s).updBundle slot fun b => { b with waits := [] }
/-- A slot is freed: it joins the end of the order (11 R236). -/
def State.freeSlot (s : State) (slot : Nat) : State := { s with bunFreed := s.bunFreed ++ [slot] }
/-- Every home has dropped the bundle's versions: ABORTED. -/
def State.endAbort (s : State) (slot : Nat) : State :=
  match s.bundles.get? slot with
  | some b =>
    if b.aborting && b.homes.isEmpty then
      let s := (s.updBundle slot fun b => { b with st := .aborted, aborting := false }).writeRecord slot
      (s.endWaits slot b.reason false).freeSlot slot
    else s
  | none => s
/-- An abort begins: the homes that hold a version are told to drop it. -/
def State.beginAbort (s : State) (slot reason : Nat) : State :=
  match s.bundles.get? slot with
  | none => s
  | some b =>
    let h := handleOf slot b.gen
    (s.updBundle slot fun b => { b with aborting := true, reason := if b.st = .doomed then b.reason else reason,
                                        nlines := if b.st = .opened then (s.pendingOf h).length else b.nlines,
                                        homes := s.pendingHomes h }).endAbort slot
/-- A wound: DOOMED with CONFLICT, its versions dropped at every home that a route reaches (11 R242). `BUNDLE_DROP` drops the others. -/
def State.wound (s : State) (slot : Nat) : State :=
  match s.bundles.get? slot with
  | none => s
  | some b =>
    let h := handleOf slot b.gen
    let hs := s.pendingHomes h
    let s0 := s
    let s := (hs.filter (homeReachable s)).foldl (fun s x => s.dropPending Config.selfModule h (some x)) s
    (s.updBundle slot fun b => { b with st := .doomed, reason := bConflict, nlines := (s0.pendingOf h).length, homes := hs.filter fun x => !homeReachable s x }).writeRecord slot
/-- BUNDLE_DROP: a home drops the bundle's versions (11 R244). -/
def execBundleDrop (slot home : Nat) (s : State) : Out :=
  .next (match s.bundles.get? slot with
    | some b =>
      if (b.aborting || b.st == .doomed) && b.homes.contains home && homeReachable s home then
        let s := s.dropPending Config.selfModule (handleOf slot b.gen) (some home)
        (s.updBundle slot fun b => { b with homes := b.homes.erase home }).endAbort slot
      else s
    | none => s)

/-! ### Commit (11 R243) -/

/-- Step 2: the first BCOMMIT closes the bundle. -/
def State.closeBundle (s : State) (slot pts : Nat) : State :=
  match s.bundles.get? slot with
  | none => s
  | some b =>
    let h := handleOf slot b.gen
    (s.updBundle slot fun b => { b with st := .closing, committer := pts, nlines := (s.pendingOf h).length, homes := s.pendingHomes h,
                                        held := s.pendingHomes h, reply := 0, due := s.cycle + s.linkWait }).writeRecord slot
/-- BCOMMIT by an agent whose earlier accesses are performed (11 R251): it closes, joins, or aborts the bundle of a context; the code when
    there is none. -/
def State.commitBundle (s : State) (asid : BitVec 16) (h : BitVec 16) (pts : Nat) (w : BundleWait) : State :=
  match s.bundleIn asid h with
  | none => s.endWait w bNoBundle false
  | some b =>
    let slot := handleSlot h
    let s1 := s.updBundle slot fun b => { b with waits := b.waits ++ [w] }
    match b.st with
    | .opened => if b.aborting then s1 else s1.closeBundle slot pts
    | .closing | .committed => if b.lagging then s.endWait w bLagging true else s1
    | .doomed => if b.aborting then s1 else s1.beginAbort slot b.reason
    | .done | .aborted => s.endWait w b.reason false
    | .none => s.endWait w bNoBundle false
/-- Step 3 at one home, over its pending lines in companion ranges: leases capped, copies recalled, the largest RTS + 1 (11 R243). -/
def State.prepareLine (s : State) (line : Nat) : State :=
  let s := s.recallNow line
  let h := s.home line
  s.setHomeRec line { h with cap := some h.rts, noCache := true }
def execBundlePrepare (slot home : Nat) (s : State) : Out :=
  .next (match s.bundles.get? slot with
    | some b =>
      if b.st != .closing || b.aborting || !b.homes.contains home || !homeReachable s home then s
      else
        let h := handleOf slot b.gen
        let mine := fun (p : Pending) => p.names Config.selfModule h
        let at1 := s.homes.filter fun e => sliceOf e.1 == home && e.2.pend.any mine
        let comp := (at1.filter fun e => e.2.pend.any fun p => mine p && p.companion).map (·.1)
        if at1.any fun e => e.2.pend.any fun p => mine p && !p.poison.isEmpty then s.beginAbort slot bPoison
        else if comp.any fun line => !(s.home line).dir.stable then s
        else
          let s := comp.foldl (fun s line => s.prepareLine line) s
          let r := maxOf (comp.map fun line => (s.home line).rts + 1)
          s.updBundle slot fun b => { b with homes := b.homes.erase home, reply := max b.reply r }
    | none => s)
/-- The logical time of the agent whose BCOMMIT closed the bundle. -/
def State.committerPts (s : State) (b : Bundle) : Nat :=
  match b.waits with
  | .commit k _ :: _ => max b.committer (s.pts (coreOf k))
  | .hart h :: _ => max b.committer (s.hart h).pts
  | _ => b.committer
/-- BUNDLE_COMMIT_POINT (the slot in hand): step 4. -/
def execBundleCommitPoint (s : State) : Out :=
  let slot := s.hand
  .next (match s.bundles.get? slot with
    | some b =>
      if b.st == .closing && !b.aborting && b.homes.isEmpty then
        (s.updBundle slot fun b => { b with st := .committed, t := max b.reply (s.committerPts b + 1), homes := b.held,
                                            due := s.cycle + s.linkWait }).writeRecord slot
      else s
    | none => s)
/-- BUNDLE_INSTALL: step 5 at one home; a line that a reader has already installed is acknowledged at once (11 R247). -/
def execBundleInstall (slot home : Nat) (s : State) : Out :=
  .next (match s.bundles.get? slot with
    | some b =>
      if b.st != .committed || !b.homes.contains home || !homeReachable s home then s
      else
        let h := handleOf slot b.gen
        let lines := (s.homes.filter fun e => sliceOf e.1 == home && e.2.pend.any fun p => p.names Config.selfModule h).map (·.1)
        let s := lines.foldl (fun s line => s.retained line { modu := Config.selfModule, handle := h, scope := b.scope, t := b.t }) s
        s.updBundle slot fun b => { b with homes := b.homes.erase home }
    | none => s)
/-- BUNDLE_DONE (the slot in hand): step 6; the notices leave, and the waiting BCOMMITs complete. -/
def execBundleDone (s : State) : Out :=
  let slot := s.hand
  .next (match s.bundles.get? slot with
    | some b =>
      if b.st == .committed && b.homes.isEmpty then
        let h := handleOf slot b.gen
        let s := (s.updBundle slot fun b => { b with st := .done }).writeRecord slot
        let s := (b.noticeDies ++ b.held.map (16 + ·)).foldl (fun (s : State) d =>
          { s with notices := s.notices.put s.notices.next (d, Config.selfModule, h) }) s
        (s.endWaits slot 0 false).freeSlot slot
      else s
    | none => s)
/-- A LINK event reports n outstanding acknowledgements of a peer (16 R340). -/
def State.linkEvent (s : State) (peer n : Nat) : State :=
  s.post { die := 0, kind := 5, source := 1280, arg0 := BitVec.ofNat 64 peer, arg1 := BitVec.ofNat 64 n }
/-- BUNDLE_PREPARE_TIMEOUT (the slot in hand): a peer's home did not reply within LINK_WAIT; the bundle aborts (11 R244). -/
def execBundlePrepareTimeout (s : State) : Out :=
  .next (match s.bundles.get? s.hand with
    | some b =>
      if b.st == .closing && !b.aborting && b.homes.any (fun h => !homeReachable s h) && decide (b.due ≤ s.cycle) then
        s.beginAbort s.hand bLink else s
    | none => s)
/-- BUNDLE_INSTALL_TIMEOUT (the slot in hand): the bundle stays committed, and its BCOMMITs complete with LAGGING, FERR and a report of the
    unacknowledged writes for each lagging module (11 R244, 16 R340). -/
def execBundleInstallTimeout (s : State) : Out :=
  .next (match s.bundles.get? s.hand with
    | some b =>
      if b.st == .committed && !b.lagging && !b.homes.isEmpty && decide (b.due ≤ s.cycle) then
        let s := s.endWaits s.hand bLagging true
        let peers := (b.homes.map (· / 64)).dedup
        let lines := (s.pendingOf (handleOf s.hand b.gen)).filter fun line => b.homes.contains (sliceOf line)
        peers.foldl (fun s p => s.linkEvent p ((lines.filter fun line => keyMod (line * 128) == p).length))
          ((s.updBundle s.hand fun b => { b with lagging := true, reason := bLagging }).writeRecord s.hand)
      else s
    | none => s)

/-! ### References and horizons (11 R245, R246) -/

def dropEntry (m : Nat) (h : BitVec 16) (l : List Horizon) : List Horizon := l.filter fun e => !(e.modu == m && e.handle == h)
/-- The entries of a bundle on a die retire. -/
def State.retireOn (s : State) (die m : Nat) (h : BitVec 16) : State :=
  { s with teams := s.teams.map fun (e : Nat × Team) =>
             (e.1, if dieOfCluster e.2.cluster = die then { e.2 with horizon := dropEntry m h e.2.horizon } else e.2),
           outTeams := s.outTeams.map fun (e : SavedTeam) =>
             if dieOfCluster e.team.cluster = die then { e with team := { e.team with horizon := dropEntry m h e.team.horizon } } else e,
           harts := s.harts.map fun (e : Nat × Hart) => (e.1, if e.1 / 12 = die then { e.2 with horizon := dropEntry m h e.2.horizon } else e.2) }
/-- BUNDLE_COMPLETION_NOTICE (the notice in hand): it reaches a die, or a home, which drops the references. -/
def execBundleCompletionNotice (s : State) : Out :=
  .next (match s.notices.get? s.hand with
    | some (d, m, h) =>
      let s1 := { s with notices := s.notices.del s.hand }
      if d < 16 then s1.retireOn d m h
      else if !homeReachable s (d - 16) then s
      else { s1 with homes := s1.homes.map fun (e : Nat × HomeLine) =>
              (e.1, if sliceOf e.1 = d - 16 && e.2.ref.any (fun r => r.modu == m && r.handle == h) then { e.2 with ref := none } else e.2) }
    | none => s)
/-- HORIZON_QUERY (the query in hand): it reaches the coordinator. -/
def execHorizonQuery (s : State) : Out :=
  .next (match s.queries.get? s.hand with
    | some q => if s.reachable q.2.1 then
        { s with queries := s.queries.del s.hand, answers := s.answers.put s.answers.next q } else s
    | none => s)
/-- HORIZON_QUERY_ANSWER (the query in hand, at its coordinator): answered once the bundle is DONE or its slot has moved on. -/
def execHorizonQueryAnswer (s : State) : Out :=
  .next (match s.answers.get? s.hand with
    | some (die, m, h) =>
      if s.refLive { modu := m, handle := h, scope := .dev, t := 0 } then s
      else { s with answers := s.answers.del s.hand }.retireOn die m h
    | none => s)

/-! ### Stores into a bundle (11 R240 to R242) -/

/-- How a bundled store ends at its home; one that waits names the bundle that it waits for, and whether for the drop of its versions alone. -/
inductive BndResult where
  | pending | late | refused
  | waits (behind : BitVec 16 × Bool)
  deriving DecidableEq, Repr
/-- What a store waits for has not come: the bundle is neither DONE nor ABORTED, or a wounded one still has a version at some home (11 R242). -/
def State.stillBehind (s : State) (w : BitVec 16 × Bool) : Bool :=
  match s.bundleOf w.1 with
  | some q => match q.st with
    | .done | .aborted => false
    | _ => !w.2 || !q.homes.isEmpty
  | none => false
def rangesHold (r : List (Nat × Nat)) (va : Addr) : Bool := r.any fun e => decide (e.1 ≤ va.toNat) && decide (va.toNat < e.2)
/-- What another bundle's version on the line means for a store of bundle b: the state, with that bundle wounded where b is the older, and what the
    store waits for, if it does (11 R242). -/
def State.resolveBundles (s : State) (b : Bundle) (h : BitVec 16) (line : Nat) : State × Option (BitVec 16 × Bool) :=
  match (s.home line).pend.find? fun p => !p.names Config.selfModule h with
  | none => (s, none)
  | some p =>
    match s.bundleOf p.handle with
    | some q =>
      if q.takes && olderBundle b (handleSlot h) q (handleSlot p.handle) then
        let s := s.wound (handleSlot p.handle)
        (s, if s.stillBehind (p.handle, true) then some (p.handle, true) else none)
      else (s, some (p.handle, false))
    | none => (s, none)
/-- A version with the bytes of a store merged into it. -/
def Pending.merge (p : Pending) (off : Nat) (bs : List Byte) (comp bad : Bool) : Pending :=
  let at1 := (List.range bs.length).map (off + ·)
  { p with bytes := (enum off bs).foldl (fun t e => t.put e.1 e.2) p.bytes, companion := p.companion || comp,
           poison := p.poison.filter (fun o => !at1.contains o) ++ if bad then at1 else [] }
/-- A store of a bundle reaches its line's home: merged, refused for want of room, late, or waiting behind another bundle (11 R240 to R242).
    `behind` is what it waited for already. -/
def State.bundledStore (s : State) (asid : BitVec 16) (h : BitVec 16) (line off : Nat) (bs : List Byte) (va : Addr) (bad : Bool)
    (behind : Option (BitVec 16 × Bool)) : State × BndResult :=
  match s.bundleIn asid h with
  | none => (s, .late)
  | some b =>
    if !b.takes then (s.updBundle (handleSlot h) fun b => { b with late := true }, .late)
    else match behind.filter s.stillBehind with
    | some w => (s, .waits w)
    | none =>
      match s.resolveBundles b h line with
      | (s, some w) => (s, .waits w)
      | (s, none) =>
        let hl := s.home line
        let comp := rangesHold b.ranges va
        if hl.pend.any (·.names Config.selfModule h) then
          (s.setHome line { hl with pend := hl.pend.map fun p => if p.names Config.selfModule h then p.merge off bs comp bad else p }, .pending)
        else if Config.pendingPerSlice ≤ s.pendingLines (sliceOf line) then
          ((s.updBundle (handleSlot h) fun b => { b with st := .doomed, reason := bCapacity, nlines := (s.pendingOf h).length }).writeRecord (handleSlot h),
           .refused)
        else
          let p : Pending := { modu := Config.selfModule, handle := h, scope := b.scope, bytes := [], companion := false }
          (s.setHome line { hl with pend := hl.pend ++ [p.merge off bs comp bad] }, .pending)

/-! ### The instructions (11 R249 to R253) -/

/-- BOPEN's part in memory: the record is read at its home. -/
def State.performBopen (s : State) (k gio : Nat) (sc : Scope) : State :=
  s.performOp k gio fun g o l s =>
    match o.accs, l with
    | [], _ => s.updOp k gio fun o => { o with performed := true }
    | _, a :: _ =>
      match (s.logFaults k gio).targetRead k gio g a 512 .read with
      | (s, some (.at h)) =>
        match s.groupRead k g 512 (.at h) with
        | (s, .wait) => s
        | (s, .poison) => s.poisonStop k gio a.lane a.ea
        | (s, .ok raw) =>
          let (s, v) := s.openBundle (s.asidOf g) (dieOfCore (coreOf k)) (s.pts (coreOf k)) sc h.key raw
          let s := s.updOp k gio fun o =>
            { (o.setLane a.lane (.done v)) with performed := true, sOut := (o.sd.map fun d => (d, BitVec.ofNat 64 v)) }
          (s.updGroup k fun g => { g with bcur := if v < 2 ^ 16 then BitVec.ofNat 16 v else g.bcur })
      | (s, some (.scratch _)) => s.updOp k gio fun o =>
          { (o.setLane a.lane (.done 0)) with performed := true, sOut := (o.sd.map fun d => (d, BitVec.ofNat 64 (bBadRec * 2 ^ 16))) }
      | (s, some (.fault f)) => (s.updOp k gio fun o => o.setLane a.lane (.faulted f)).logFaults k gio
      | (s, _) => s
    | _, [] => s
/-- A form that runs once per split writes its destination only when the split has an active lane. -/
def onceDst (act : LaneMask) (d : BitVec 6) : List Nat := if act = 0 then [] else [d.toNat]
def execBopen (o : BopenOp) (s : State) : Out :=
  onIssuer s fun k g x =>
    let act := s.active g x o.g
    let lanes := if act = 0 then 0 else maskOf [lowest act]
    s.issueMem k g x { instr := .bopen o, lanes := lanes, act := act, ea := fun _ => s.readS g o.a.toNat, bytes := 512, kind := .read,
                       sd := onceDst act o.d } fun gio s => s.performBopen k gio o.scope
/-- BOPEN.join's effect: BCUR names the bundle, when it is OPEN and of this context; BCUR changes in the order of the group's forms. -/
def State.performJoin (s : State) (k gio : Nat) : State :=
  s.performOp k gio fun g o _ s =>
    if g.ops.any fun e => decide (e.gio < gio) && isBundleForm e.instr then s
    else
    let h := BitVec.ofNat 16 (o.args.headD 0)
    let ok := ((s.bundleIn (s.asidOf g) h).map (·.takes)).getD false
    let v := BitVec.ofNat 64 (if ok then h.toNat else bNoBundle * 2 ^ 16)
    (s.updOp k gio fun o => { o with performed := true, sOut := (o.sd.map fun d => (d, v)) }).updGroup k fun g =>
      { g with bcur := if ok && !o.sd.isEmpty then h else g.bcur }
def execBopenJoin (o : SPair) (s : State) : Out :=
  onIssuer s fun k g x =>
    let act := s.active g x o.g
    s.issueOp k g x (.bopenJoin o) act [(s.readS g o.a.toNat).toNat % 2 ^ 16] [] (onceDst act o.d) none fun gio s => s.performJoin k gio
/-- BCOMMIT's effect, once every earlier access is performed (11 R243 step 1, R251). -/
def State.performBcommit (s : State) (k gio : Nat) : State :=
  s.performOp k gio fun g o _ s =>
    if o.sd.isEmpty then s.updOp k gio fun o => { o with performed := true }
    else if o.aux = 1 then s
    else if g.bcur = 0 then s.endWait (.commit k gio) bNoBundle false
    else (s.updOp k gio fun o => { o with aux := 1 }).commitBundle (s.asidOf g) g.bcur (s.pts (coreOf k)) (.commit k gio)
def execBcommit (o : SDst) (s : State) : Out :=
  onIssuer s fun k g x =>
    let act := s.active g x o.g
    s.issueOp k g x (.bcommit o) act [] [] (onceDst act o.d) none fun gio s => s.performBcommit k gio
/-- BABORT's effect (11 R252). -/
def State.performBabort (s : State) (k gio : Nat) : State :=
  s.performOp k gio fun g o _ s =>
    let w : BundleWait := .abort k gio
    if o.sd.isEmpty then s.updOp k gio fun o => { o with performed := true }
    else if o.aux = 1 then s
    else match s.bundleIn (s.asidOf g) g.bcur with
      | none => s.endWait w bNoBundle false
      | some b =>
        let slot := handleSlot g.bcur
        match b.st with
        | .opened | .doomed =>
          let s := (s.updOp k gio fun o => { o with aux := 1 }).updBundle slot fun b => { b with waits := b.waits ++ [w] }
          if b.aborting then s else s.beginAbort slot bAborted
        | .closing | .committed | .done | .aborted => s.endWait w bTooLate false
        | .none => s.endWait w bNoBundle false
def execBabort (o : SDst) (s : State) : Out :=
  onIssuer s fun k g x =>
    let act := s.active g x o.g
    s.issueOp k g x (.babort o) act [] [] (onceDst act o.d) none fun gio s => s.performBabort k gio
/-- The value of BSTAT (11 R253). -/
def State.bstatValue (s : State) (asid : BitVec 16) (h : BitVec 16) : Nat :=
  match s.bundleIn asid h with
  | none => 0
  | some b =>
    let n := if b.st = .opened then (s.pendingOf h).length else b.nlines
    let ended := b.st == .doomed || b.st == .done || b.st == .aborted
    b.st.code + 2 ^ 8 * (if ended then b.reason else 0) + 2 ^ 16 * b2n b.late + 2 ^ 32 * (n % 2 ^ 32)
/-- BSTAT's effect, after every earlier BOPEN, BCOMMIT and BABORT of the group has written its destination. -/
def State.performBstat (s : State) (k gio : Nat) : State :=
  s.performOp k gio fun g o _ s =>
    if g.ops.any fun e => decide (e.gio < gio) && isBundleForm e.instr then s
    else
      let h := match o.args with
        | [x] => BitVec.ofNat 16 x
        | _ => g.bcur
      s.updOp k gio fun o => { o with performed := true, sOut := o.sd.map fun d => (d, BitVec.ofNat 64 (s.bstatValue (s.asidOf g) h)) }
def execBstat (o : BstatOp) (s : State) : Out :=
  onIssuer s fun k g x =>
    let act := s.active g x o.g
    let args := match o.a with
      | some a => [(s.readS g a.toNat).toNat % 2 ^ 16]
      | none => []
    s.issueOp k g x (.bstat o) act args [] (onceDst act o.d) none fun gio s => s.performBstat k gio

end Sys2Proof.Machine
end

