-- ==== Sys2Proof/Machine/Copy.lean ====
section
/-! DEFINITION. The copy engine: tensor descriptors, requests, pieces, barrier objects, and KICK, BOBJ, TDSET and TDINV (07 R153 to R171). -/

namespace Sys2Proof.Machine

/-! ### Tensor descriptors (07 R153 to R155) -/

structure Tensor where
  base : Nat
  sbase : Nat
  /-- the fields as they stand, dimension 0 first -/
  dims : List Nat
  /-- byte strides, 0 for dimension 0 -/
  strs : List Nat
  sstr : Nat
  fmt : Nat
  rank : Nat
  scl : Bool
  deriving DecidableEq, Repr
def parseTensor (x : Nat) : Tensor :=
  { base := fld x 448 64, sbase := fld x 384 64, dims := [fld x 352 32, fld x 320 32, fld x 288 32, fld x 256 32],
    strs := [0, fld x 216 40, fld x 176 40, fld x 136 40], sstr := fld x 112 24, fmt := fld x 12 4, rank := fld x 10 2, scl := bitOf x 9 }
/-- An image keeps the layout of R154. -/
def tensorOk (x : Nat) : Bool :=
  let t := parseTensor x
  t.base % 16 == 0 && decide (t.base < 2 ^ 52) && decide (t.sbase < 2 ^ 52) && (t.scl || (t.sbase == 0 && t.sstr == 0))
    && fld x 16 96 == 0 && fld x 1 8 == 0 && decide (t.fmt < 8) && (!t.scl || (decide (3 ≤ t.fmt) && decide (t.fmt ≤ 6)))
    && (List.range 4).all fun k =>
      if k ≤ t.rank then decide (1 ≤ (t.dims[k]?).getD 0) && (t.strs[k]?).getD 0 % 16 == 0
      else (t.dims[k]?).getD 0 == 0 && (t.strs[k]?).getD 0 == 0
def descValid (x : Nat) : Bool := bitOf x 0 && tensorOk x
/-- Element bits of a format code (R154, R159). -/
def fmtBits (f : Nat) : Nat :=
  match f with
  | 0 => 32
  | 1 | 2 => 16
  | 5 => 4
  | _ => 8
/-- The byte of a zero code: +0, and 0x77 for DS8 (R159). -/
def zeroByte (f : Nat) : Byte := if f = 6 then 0x77 else 0
/-- Size of a dimension; 1 beyond RANK (R154). -/
def Tensor.dim (t : Tensor) (k : Nat) : Nat := if k ≤ t.rank then (t.dims[k]?).getD 1 else 1
def Tensor.str (t : Tensor) (k : Nat) : Nat := (t.strs[k]?).getD 0

/-- The address of a table entry (R153). -/
def State.entryVa (s : State) (asid : BitVec 16) (i : Nat) : Addr := ((s.ctx asid).map (·.tdtab)).getD 0 + BitVec.ofNat 64 (64 * i)
/-- Cached copies of an entry leave every request engine (R153). -/
def State.dropDesc (s : State) (asid : BitVec 16) (i : Nat) : State :=
  { s with tdCache := s.tdCache.map fun (e : Nat × Tab (BitVec 512)) => (e.1, e.2.del (4096 * asid.toNat + i)) }

/-- Cached copies of a context's entries leave every request engine while no team of it is resident: firmware may have rewritten them (R153). -/
def State.freshDescs (s : State) (asid : BitVec 16) : State :=
  if s.teams.any fun e => e.2.asid == asid then s
  else { s with tdCache := s.tdCache.map fun (e : Nat × Tab (BitVec 512)) => (e.1, e.2.filter fun d => d.1 / 4096 != asid.toNat) }

/-! ### Requests (07 R158 to R160) -/

structure ReqF where
  node : Nat
  tag : Nat
  c : List Int
  bndh : BitVec 16
  pitch : Nat
  toff : Nat
  obj : Nat
  soff : Nat
  rows : Nat
  elems : Nat
  tid : Nat
  op : Nat
  scl : Bool
  recd : Bool
  bnd : Bool
  rot : Nat
  deriving DecidableEq, Repr
def parseReq (x : Nat) : ReqF :=
  { node := fld x 448 64, tag := fld x 416 32, c := (List.range 4).map fun k => (BitVec.ofNat 32 (fld x (288 + 32 * k) 32)).toInt,
    bndh := BitVec.ofNat 16 (fld x 272 16), pitch := 16 * fld x 256 16, toff := fld x 235 21, obj := fld x 214 21, soff := fld x 193 21,
    rows := fld x 181 12 + 1, elems := fld x 169 12 + 1, tid := fld x 20 12, op := fld x 17 3, scl := bitOf x 16, recd := bitOf x 15,
    bnd := bitOf x 14, rot := fld x 11 3 }
/-- OBJ of a request that names no object. -/
def noObj : Nat := 0x1FFFFF
def ReqF.coord (f : ReqF) (k : Nat) : Int := (f.c[k]?).getD 0
/-- TileOffset of 04 R108. -/
def tileOffset (base pitch rot r b : Nat) : Nat := base + r * pitch + (b / 8 ^^^ r % 2 ^ rot) * 8 + b % 8
/-- Bytes of a tile row of elements of w bits. -/
def ReqF.rowBytes (f : ReqF) (w : Nat) : Nat := (f.elems * w + 7) / 8
/-- Scales of a trailer row, and its pitch (R159). -/
def ReqF.scales (f : ReqF) : Nat := (f.elems + 31) / 32
def ReqF.trailerPitch (f : ReqF) : Nat := 16 * ((f.scales + 15) / 16)
/-- N of R159: the bytes counted. -/
def ReqF.count (f : ReqF) (w : Nat) : Nat := f.rows * f.rowBytes w + if f.scl then f.rows * f.scales else 0
/-- OBJ names an object below the team's SCRATCH. -/
def ReqF.objOk (f : ReqF) (scratch : Nat) : Bool := f.obj != noObj && f.obj % 8 == 0 && decide (f.obj + 8 ≤ scratch)
/-- The largest tile byte of a row (R160). -/
def ReqF.rowTop (f : ReqF) (rb r : Nat) : Nat :=
  maxOf ((List.range ((rb + 7) / 8)).map fun u => tileOffset f.soff f.pitch f.rot r (min (8 * u + 7) (rb - 1)))
/-- BADREQ causes that the request's own fields show. -/
def reqBad (x : Nat) (scratch : Nat) (w : Nat) (nodeOk : Bool) : Bool :=
  let f := parseReq x
  fld x 32 137 != 0 || fld x 0 11 != 0 || decide (2 ≤ f.op) || f.rot == 7 || f.pitch == 0 || f.soff % 16 != 0 || f.toff % 16 != 0
    || (f.obj != noObj && !f.objOk scratch) || (f.bnd && f.op == 0) || decide (2 ^ 23 - 1 < f.count w) || (f.recd && !nodeOk)
/-- BADREQ causes that the descriptor shows. -/
def reqMisfit (x : Nat) (t : Tensor) (scratch : Nat) : Bool :=
  let f := parseReq x
  let rb := f.rowBytes (fmtBits t.fmt)
  decide (f.pitch < rb) || decide (f.pitch < 8 * 2 ^ f.rot)
    || (List.range f.rows).any (fun r => decide (scratch ≤ f.rowTop rb r))
    || (f.scl && decide (scratch < f.toff + (f.rows - 1) * f.trailerPitch + f.scales))
    || (t.fmt == 5 && (f.coord 0 % 2 != 0 || f.elems % 2 != 0)) || (f.scl && (!t.scl || f.coord 0 % 32 != 0))
    || (List.range 4).any fun k => decide (t.rank < k) && f.coord k != 0
def stBadReq : Nat := 1
def stBadTensor : Nat := 2
def stFault : Nat := 3
def stPoison : Nat := 4
def stAborted : Nat := 5
def stBadBundle : Nat := 6
def stBadTarget : Nat := 7
/-- The element width that counts a request: 8 without a valid descriptor (R160). -/
def reqWidth (d : Nat) : Nat := if descValid d then fmtBits (fld d 12 4) else 8
/-- The status of the checks of R160; where several fail, the order is the model's (log 29). -/
def State.reqStatus (s : State) (t : Team) (x d : Nat) (nodeOk : Bool) : Nat :=
  let f := parseReq x
  if reqBad x t.kern.hdr.scratch (reqWidth d) nodeOk then stBadReq
  else if !descValid d then stBadTensor
  else if reqMisfit x (parseTensor d) t.kern.hdr.scratch then stBadReq
  else if f.bnd && !(((s.bundleIn t.asid f.bndh).map (·.takes)).getD false) then stBadBundle
  else 0

/-! ### Barrier objects (07 R167, R168) -/

structure Bobj where
  err : Bool
  lerr : Bool
  ph : Nat
  ainit : Nat
  arem : Nat
  res : Nat
  pend : Int
  deriving DecidableEq, Repr
def parseObj (x : Nat) : Bobj :=
  { err := bitOf x 63, lerr := bitOf x 62, ph := fld x 48 14, ainit := fld x 41 7, arem := fld x 34 7, res := fld x 24 10,
    pend := (BitVec.ofNat 24 x).toInt }
def Bobj.pack (o : Bobj) : Nat :=
  b2n o.err * 2 ^ 63 + b2n o.lerr * 2 ^ 62 + o.ph * 2 ^ 48 + o.ainit * 2 ^ 41 + o.arem * 2 ^ 34 + o.res * 2 ^ 24 + (BitVec.ofInt 24 o.pend).toNat
def Bobj.addPend (o : Bobj) (n : Int) : Bobj :=
  let x := o.pend + n
  if 2 ^ 23 - 1 < x then { o with pend := 2 ^ 23 - 1, err := true }
  else if x < -2 ^ 23 then { o with pend := -2 ^ 23, err := true }
  else { o with pend := x }
def Bobj.complete (o : Bobj) : Bobj :=
  if o.arem = 0 ∧ o.pend = 0 then { o with lerr := o.err, err := false, ph := (o.ph + 1) % 2 ^ 14, arem := o.ainit } else o
def Bobj.arrive (o : Bobj) : Bobj := if o.arem = 0 then { o with err := true } else { o with arem := o.arem - 1 }
def State.obj (s : State) (t off : Nat) : Bobj := parseObj (ofBytes (s.scrBytes t off 8))
/-- The logical time of a group's team's cores and of the engines (log 28). -/
def State.syncTime (s : State) (k : Nat) : Nat :=
  match (s.group? k).bind fun g => s.teamOf g with
  | some t => max s.devPts (max (s.pts t.core) (if t.pair then s.pts (t.core + 1) else 0))
  | none => 0
/-- Logical time of a group's core passes that of its team's cores and of the engines: an acquire through the team's scratchpad or a
    barrier (05 R118; log 28). -/
def State.syncPts (s : State) (k : Nat) : State := s.raisePts (coreOf k) (s.syncTime k)
def isObjForm : Instr → Bool
  | .bobjInit _ | .bobjExpect _ | .bobjArrive _ | .bobjWait _ => true
  | _ => false
/-- A BOBJ.WAIT that sleeps on an object (R168). -/
def Op.waitsObj (o : Op) (off : Nat) : Option Nat :=
  match o.instr, o.args with
  | .bobjWait _, [a, ph] => if o.aux = 1 ∧ !o.performed ∧ a = off then some ph else none
  | _, _ => none
/-- Its wait ends: the phase has passed. -/
def State.endObjWait (s : State) (k gio : Nat) (o : Bobj) : State :=
  (s.updOp k gio fun p => { p with performed := true, accs := (p.accs.map fun a => { a with phase := .done 0 }),
                                   sOut := (p.sd.map fun d => (d, BitVec.ofNat 64 (b2n o.lerr))) }).syncPts k |>.noteRead k (.acq, .team) true
    (scrPlace ((((s.opOf k gio).map (·.args)).getD []).headD 0)) 8
/-- The splits that sleep on an object test it again. -/
def State.wakeObj (s : State) (t off : Nat) : State :=
  let o := s.obj t off
  (((s.team? t).map (·.groups)).getD []).foldl (fun s k =>
    (((s.group? k).map (·.ops)).getD []).foldl (fun s p =>
      match p.waitsObj off with
      | some ph => if o.ph ≠ ph % 2 ^ 14 then s.endObjWait k p.gio o else s
      | none => s) s) s
/-- One change of an object, on its pinned page. -/
def State.setObj (s : State) (t off : Nat) (o : Bobj) : State := (s.setScr t off (toBytes 8 o.pack)).wakeObj t off
/-- An instruction, a request or a waiter uses an object (R167). -/
def State.objUsed (s : State) (t off : Nat) : Bool :=
  match s.team? t with
  | none => false
  | some x =>
    let named := fun (q : BitVec 512) => (parseReq q.toNat).obj == off
    x.groups.any (fun k => (((s.group? k).map (·.ops)).getD []).any fun o => !o.performed && isObjForm o.instr && o.args.head? == some off)
      || x.queue.any (fun e => (e.read.map named).getD false) || s.copies.any fun e => e.2.team == t && named e.2.raw
/-- After an ordinary store to scratchpad bytes: an object in use that they touch holds a free value (R167). -/
def State.spoilObjs (s : State) (t off n : Nat) : State :=
  ((List.range ((off + n + 7) / 8 - off / 8)).map fun i => 8 * (off / 8 + i)).foldl (fun s o =>
    if s.objUsed t o then (s.setScr t o (toBytes 8 (s.free 64 (786432 + o)).toNat)).wakeObj t o else s) s
/-- An arrival of n bytes, with an error or not (R161, R165, R167). -/
def State.arriveObj (s : State) (t : Nat) (f : ReqF) (n : Nat) (bad : Bool) : State :=
  if f.obj = noObj then s
  else
    let o := (s.obj t f.obj).addPend (-(n : Int))
    s.setObj t f.obj ({ o with err := o.err || bad }).complete
/-- The page of a request's object is asked for. -/
def State.askObj (s : State) (t : Nat) (f : ReqF) : State := if f.obj = noObj then s else s.askPage t f.obj 8
/-- The page of a request's object is pinned. -/
def State.objPinned (s : State) (t : Nat) (f : ReqF) : Bool := f.obj == noObj || s.scrPinned t f.obj 8

/-! ### Fetching a request (07 R157, R160, R170) -/

def Team.entry? (t : Team) (id : Nat) : Option QueueEntry := t.queue.find? fun e => e.id == id
def State.updEntry (s : State) (team id : Nat) (f : QueueEntry → QueueEntry) : State :=
  s.updTeam team fun t => { t with queue := t.queue.map fun e => if e.id = id then f e else e }
/-- KICK completes when the engine has read, or discarded, every request it names. -/
def State.noteKick (s : State) (team k gio : Nat) : State :=
  let unread := (((s.team? team).map (·.queue)).getD []).any fun e => e.group == k && e.gio == gio && e.read.isNone
  s.updOp k gio fun o => match o.args with
    | [_, n, acc] => if acc = n && !unread then { o with performed := true } else o
    | _ => o
/-- An entry leaves the queue. -/
def State.dropEntry (s : State) (team id : Nat) : State :=
  match (s.team? team).bind fun t => t.entry? id with
  | some e => (s.updTeam team fun t => { t with queue := t.queue.filter fun x => x.id != id }).noteKick team e.group e.gio
  | none => s
/-- The entries before one in acceptance order. -/
def Team.before (t : Team) (id : Nat) : List QueueEntry := t.queue.takeWhile fun e => e.id != id
/-- Neither the entry nor one before it is held by its guard. -/
def Team.confirmed (t : Team) (e : QueueEntry) : Bool := e.slot.isNone && (t.before e.id).all fun x => x.slot.isNone
/-- A translation that unconfirmed work may use: an extent or a leaf with SPEC, the leaf with A; a walk for it leaves no mark, and one that finds
    no walker waits (03 R75, R77, R85). -/
def State.specXlate (s : State) (die : Nat) (t : Team) (va : Addr) (n : Nat) (priv : Privileged) : State × Option Nat :=
  let ok := fun (s : State) (h : Hit) => (({ s with devPts := max s.devPts h.acq } : State), if h.spec then some h.key else none)
  match (Near.hit s t.near t.asid va.toNat n .read priv).or (findTlb (s.tlbDie.getD die []) t.asid va.toNat .read priv) with
  | some h => ok s h
  | none =>
    match s.engineWalk die t.asid va.toNat with
    | none => (s, none)
    | some (s, w) =>
      let r := s.leafResult .read priv w
      if r.fault.isNone && pteA r.pte then ok s ((r.entry t.asid va.toNat r.pte).hit va.toNat) else (s, none)
/-- A read by a team's request engine: bytes, a fault, or a wait. -/
inductive EngRead where
  | bytes (x : Nat)
  | fault (kind : Nat) (va : Addr)
  | wait
  deriving DecidableEq, Repr
/-- The bytes of an aligned block that the request engine of a team reads. An unconfirmed read carries the team's horizon as every read does; it
    takes no requirement and raises no fault: it waits instead (03 R85; 07 R170; 11 R246, R247). -/
def State.copyRead (s : State) (team : Nat) (t : Team) (va : Addr) (n : Nat) (priv conf : Bool) : State × EngRead :=
  let die := dieOfCluster t.cluster
  if inWindow va n then
    let off := va.toNat - scratchBase
    if va.toNat < scratchBase ∨ t.kern.hdr.scratch < off + n then (s, if conf then .fault fkNotPresent va else .wait)
    else if s.scrPinned team off n then (s, .bytes (ofBytes (s.scrBytes team off n))) else (s.askPage team off n, .wait)
  else if conf then
    match s.engineXlate die t.asid va n .read priv t.near with
    | (s, .error f) => (s, .fault f va)
    | (s, .ok key) =>
      match s.teamRead team die key n with
      | some (s, bs) => (s, .bytes (ofBytes bs))
      | none => (s, .wait)
  else
    match s.specXlate die t va n priv with
    | (s, some key) =>
      if !s.reachable (keyMod key) then (s, .wait) else
      let s := (linesOf key n).foldl (fun s line => s.retainedAll line t.horizon) s
      if (linesOf key n).any (fun l => (s.home l).ref.isSome) then (s, .wait) else (s, .bytes (ofBytes (s.deviceRead key n)))
    | (s, none) => (s, .wait)
/-- The entry waits on a fault record of its engine (16 R390). -/
def State.holdEntry (s : State) (team : Nat) (t : Team) (e : QueueEntry) (kind : Nat) (va : Addr) : State :=
  match s.raiseRec (dieOfCluster t.cluster) (codeRequest t.cluster) (.request team e.id) (kind, va) t.asid (s.reportGroup team e.group) with
  | some s => s.updEntry team e.id fun e => { e with waiting := true }
  | none => s
/-- A fault of an entry's read: it is held, but one in the scratch window, which no mapping resolves, stops the kicking group (04 R105). -/
def State.entryFault (s : State) (team : Nat) (t : Team) (e : QueueEntry) (kind : Nat) (va : Addr) : State :=
  if inWindow va 1 then
    (s.dropEntry team e.id).stopGroup e.group { cause := Cause.pageFault.code, detail := BitVec.ofNat 8 kind, pc := e.pc, idx := e.idx, lanes := e.lanes,
                                                vaddr := va, gio := some e.gio }
  else s.holdEntry team t e kind va
/-- A refusal is reported (R160), and the entry leaves; none: the record that it pushes finds no granules, or its object's page is not back, and it
    waits (R166; 13 R277). -/
def State.refuse (s : State) (team : Nat) (t : Team) (e : QueueEntry) : Option State :=
  let x := (e.read.getD 0).toNat
  let f := parseReq x
  let n := f.count (reqWidth (e.desc.getD 0).toNat)
  let usable := f.objOk t.kern.hdr.scratch
  let push := f.recd && e.nodeOk
  if usable && !s.scrPinned team f.obj 8 then none
  else (if push then s.takeGranules t.asid 1 else some s).map fun s =>
  let s := (s.dropEntry team e.id).dropRec (.request team e.id)
  let s := if usable then s.arriveObj team f n true else s
  let s := if push then
      s.push { die := dieOfCluster t.cluster, asid := t.asid, node := BitVec.ofNat 64 f.node, depth := 0, src := 1, gran := 1,
               data := toBytes 16 (f.tag * 2 ^ 96 + n % 2 ^ 24 * 2 ^ 72 + e.status * 2 ^ 68 + f.tid * 2 ^ 52 + e.va.toNat % 2 ^ 52) }
    else s
  if (f.obj != noObj && !usable) || (f.obj == noObj && !push) then
    s.stopGroup e.group { cause := Cause.copyError.code, detail := BitVec.ofNat 8 e.status, pc := e.pc, idx := e.idx, lanes := e.lanes,
                          vaddr := e.va, gio := some e.gio }
  else s
/-- The header that a request's record goes to: a KIND 1 header with RECSZ 1. -/
def nodeTakesOne (x : Nat) : Bool := nodeHeaderOk x && (parseHeader x).recsz == 1
/-- The engine's read of the node header that REC names; none of it without REC. -/
def State.nodeRead (s : State) (team : Nat) (t : Team) (x : Nat) (conf : Bool) : State × EngRead :=
  let f := parseReq x
  if f.recd then
    if f.node % 64 = 0 then s.copyRead team t (BitVec.ofNat 64 f.node) 64 false conf else (s, .bytes 0)
  else (s, .bytes 0)
/-- The descriptor that a request names: the engine's cached copy, or the table's. -/
def State.descRead (s : State) (team : Nat) (t : Team) (tid : Nat) (conf : Bool) : State × EngRead :=
  match (s.tdCache.getD t.cluster []).get? (4096 * t.asid.toNat + tid) with
  | some d => (s, .bytes d.toNat)
  | none =>
    match s.copyRead team t (s.entryVa t.asid tid) 64 true conf with
    | (s, .bytes d) =>
      ({ s with tdCache := s.tdCache.put t.cluster ((s.tdCache.getD t.cluster []).put (4096 * t.asid.toNat + tid) (BitVec.ofNat 512 d)) },
       .bytes d)
    | r => r
/-- The checks of a request whose words are all read; a refusal that may be seen is made. -/
def State.judge (s : State) (team : Nat) (t : Team) (e : QueueEntry) (x d hdr : Nat) (conf : Bool) : State :=
  let ok := nodeTakesOne hdr
  let st := s.reqStatus t x d ok
  let e1 : QueueEntry := { e with desc := some (BitVec.ofNat 512 d), status := st, nodeOk := ok }
  let s := (s.updEntry team e.id fun _ => e1).dropRec (.request team e.id)
  if st ≠ 0 ∧ conf then (s.refuse team t e1).getD (s.askObj team (parseReq x)) else s
/-- One fetch of an entry: the request, then its descriptor and the header it names, then the checks. -/
def State.fetchEntry (s : State) (team : Nat) (t : Team) (e : QueueEntry) : State :=
  let conf := t.confirmed e
  let go := fun (s : State) (e : QueueEntry) (x : Nat) =>
    match s.descRead team t (parseReq x).tid conf with
    | (s, .wait) => s
    | (s, .fault f va) => s.entryFault team t e f va
    | (s, .bytes d) =>
      match s.nodeRead team t x conf with
      | (s, .wait) => s
      | (s, .fault f va) => s.entryFault team t e f va
      | (s, .bytes h) => s.judge team t e x d h conf
  match e.read with
  | some x => go s e x.toNat
  | none =>
    match s.copyRead team t e.va 64 false conf with
    | (s, .wait) => s
    | (s, .fault f va) => s.entryFault team t e f va
    | (s, .bytes x) =>
      let e1 := { e with read := some (BitVec.ofNat 512 x) }
      go ((s.updEntry team e.id fun _ => e1).noteKick team e.group e.gio) e1 x
/-- REQUEST_FETCH (256 times the team, plus the entry, in hand). -/
def execRequestFetch (s : State) : Out :=
  let team := s.hand / 256
  .next (match s.team? team with
    | none => s
    | some t =>
      match t.entry? (s.hand % 256) with
      | none => s
      | some e => if e.waiting || e.desc.isSome || e.bound == some false then s else s.fetchEntry team t e)

/-! ### Starting a request (07 R163, R165, R166) -/

/-- Bytes from a scratchpad offset list, cut where the tensor's line ends. -/
def cutLines : Nat → Nat → List (Nat × Byte) → List (Nat × List (Nat × Byte))
  | 0, _, _ => []
  | fuel + 1, va, l =>
    if l = [] then []
    else
      let n := min l.length (128 - va % 128)
      (va, l.take n) :: cutLines fuel (va + n) (l.drop n)
/-- Where a tile row's element 0 lies (R154). -/
def rowBase (t : Tensor) (f : ReqF) (r : Nat) : Int :=
  (t.base : Int) + f.coord 0 * fmtBits t.fmt / 8 + (f.coord 1 + r) * (t.str 1 : Nat) + f.coord 2 * (t.str 2 : Nat)
    + f.coord 3 * (t.str 3 : Nat)
/-- The row's coordinates 1 to 3 lie in the tensor (R159). -/
def rowIn (t : Tensor) (f : ReqF) (r : Nat) : Bool :=
  ([(1, f.coord 1 + r), (2, f.coord 2), (3, f.coord 3)] : List (Nat × Int)).all fun (k, i) =>
    decide (t.rank < k) || (decide (0 ≤ i) && decide (i < ((t.dims[k]?).getD 0 : Nat)))
/-- The pieces of a tile row: its bytes line by line, and the elements outside the tensor (R165). -/
def rowPieces (t : Tensor) (f : ReqF) (r : Nat) : List Piece :=
  let w := fmtBits t.fmt
  let rb := f.rowBytes w
  let a := if rowIn t f r then min (-(f.coord 0)).toNat f.elems else 0
  let b := if rowIn t f r then max a (min f.elems (((t.dims[0]?).getD 0 : Nat) - f.coord 0).toNat) else 0
  let ba := a * w / 8
  let bb := (b * w + 7) / 8
  let so := tileOffset f.soff f.pitch f.rot r
  let offs := (List.range (bb - ba)).map fun i => (so (ba + i), (if b * w < 8 * (ba + i) + 8 then (0x0F : Byte) else 0xFF))
  let out := ((List.range ba) ++ (List.range (rb - bb)).map (bb + ·)).map fun i => (so i, zeroByte t.fmt)
  let data := (cutLines (offs.length + 1) (BitVec.ofInt 64 (rowBase t f r + ba)).toNat offs).map fun p =>
    ({ va := BitVec.ofNat 64 p.1, offs := p.2, fills := [], bytes := p.2.length } : Piece)
  if out = [] then data else data ++ [{ va := 0, offs := [], fills := if f.op = 0 then out else [], bytes := out.length }]
/-- The piece of a trailer row (R155, R159, R165). -/
def scalePiece (t : Tensor) (f : ReqF) (r : Nat) : Piece :=
  let nb := f.scales
  let b0 := f.coord 0 / 32
  let nbt : Int := (((t.dims[0]?).getD 0 + 31) / 32 : Nat)
  let ins := (List.range nb).filter fun (j : Nat) => rowIn t f r && decide (0 ≤ b0 + (j : Int)) && decide (b0 + (j : Int) < nbt)
  let outs := (List.range nb).filter fun j => !ins.contains j
  let at1 := fun j => f.toff + r * f.trailerPitch + j
  let rho := (f.coord 1 + r) + t.dim 1 * (f.coord 2 + t.dim 2 * f.coord 3)
  { va := BitVec.ofInt 64 ((t.sbase : Int) + b0 + (ins.headD 0) + t.sstr * rho), offs := ins.map fun j => (at1 j, (0xFF : Byte)),
    fills := if f.op = 0 then outs.map fun j => (at1 j, (0x7F : Byte)) else [], bytes := nb }
def piecesOf (t : Tensor) (f : ReqF) : List Piece :=
  ((List.range f.rows).map (rowPieces t f)).flatten ++ if f.scl then (List.range f.rows).map (scalePiece t f) else []
/-- An entry starts, or is refused, in its turn; none: its record's reservation fails (R166). One whose descriptor read was declined still has the
    node header read that its record needs (R160). -/
def State.startEntry (s : State) (team : Nat) (t : Team) (e : QueueEntry) : Option State :=
  let x := (e.read.getD 0).toNat
  let d := (e.desc.getD 0).toNat
  let f := parseReq x
  if e.status = stFault ∧ f.recd ∧ !e.nodeOk then
    match s.nodeRead team t x true with
    | (_, .wait) => none
    | (s, .bytes h) => s.refuse team t { e with nodeOk := nodeTakesOne h }
    | (s, .fault _ _) => s.refuse team t e
  else if e.status ≠ 0 then s.refuse team t e
  else
    let go := fun (s : State) =>
      let r : Req := { team := team, cluster := t.cluster, group := e.group, va := e.va, raw := BitVec.ofNat 512 x, desc := BitVec.ofNat 512 d,
                       pieces := piecesOf (parseTensor d) f, load := f.op == 0, n := f.count (reqWidth d) }
      ({ s with copies := s.copies.put s.copies.next r } : State).dropEntry team e.id
    if f.recd then (s.takeGranules t.asid 1).map go else some (go s)
/-- The first request of a team's queue that can start, before any that its guard holds, starts. One that waits for a fault or for its reservation
    holds back no other. -/
def State.startNext (s : State) (team : Nat) (t : Team) : Option State :=
  if s.switchedOut t.asid t.cluster then none
  else (((t.queue.takeWhile fun e => e.slot.isNone && (e.desc.isSome || e.waiting)).filter fun e => !e.waiting).findSome? fun e => s.startEntry team t e)
/-- The teams of a cluster in the order of its request engine's turns: after the team slot that it served last (R163). -/
def State.turnOrder (s : State) (cl : Nat) : List (Nat × Team) :=
  let l := s.teams.filter fun e => e.2.cluster == cl
  let last := s.reqTurn.getD cl 255
  ((List.range 256).map fun i => (last + 1 + i) % 256).filterMap fun n => l.find? fun e => e.2.slot == n
/-- REQUEST_START (the team in hand): in its turn among the cluster's teams that have a request to start, the team's next request starts (R163). -/
def execRequestStart (s : State) : Out :=
  let team := s.hand
  .next (match s.team? team with
    | none => s
    | some t =>
      match (s.turnOrder t.cluster).findSome? fun e => (s.startNext e.1 e.2).map fun s => (e.1, s) with
      | some (n, s1) => if n = team then { s1 with reqTurn := s1.reqTurn.put t.cluster t.slot } else s
      | none => s)
/-- The command at the head of a team's request queue whose guard has resolved proceeds or is discarded (07 R170). -/
def State.releaseCopy (s : State) (team : Nat) : State :=
  match (s.team? team).bind fun t => t.queue.find? fun e => e.slot.isSome with
  | some e =>
    match e.bound with
    | some true => s.updEntry team e.id fun e => { e with slot := none }
    | some false => s.dropEntry team e.id
    | none => s
  | none => s

/-! ### Pieces (07 R161, R165) -/

/-- How a piece ends, or that it waits. -/
inductive PieceEnd where
  | waits
  /-- behind another bundle (11 R242) -/
  | behind (w : BitVec 16 × Bool)
  | fault (kind : Nat) (va : Addr)
  | moved
  | poison
  | unmoved
  | aborted
  | badTarget
  deriving DecidableEq, Repr
/-- The status a request ends with (R161). -/
def Req.status (r : Req) : Nat :=
  if r.poison then stPoison else if r.fault then stFault else if r.badTarget then stBadTarget else if r.aborted then stAborted else 0
/-- After its last piece the request's record is pushed (R166). -/
def State.endRequest (s : State) (n : Nat) (r : Req) : State :=
  let f := parseReq r.raw.toNat
  let s := { s with copies := s.copies.del n }
  if f.recd then
    s.push { die := dieOfCluster r.cluster, asid := ((s.team? r.team).map (·.asid)).getD 0, node := BitVec.ofNat 64 f.node, depth := 0, src := 1,
             gran := 1, data := toBytes 16 (f.tag * 2 ^ 96 + r.n % 2 ^ 24 * 2 ^ 72 + r.status * 2 ^ 68 + f.tid * 2 ^ 52 + r.va.toNat % 2 ^ 52) }
  else s
/-- A piece is counted, whether it moved or not (R161, R165). -/
def State.countPiece (s : State) (n i : Nat) (r : Req) (p : Piece) (e : PieceEnd) : State :=
  let r1 := { r with pieces := listSet r.pieces i { p with done := true, waiting := false }, poison := r.poison || e == .poison,
                     fault := r.fault || e == .unmoved, badTarget := r.badTarget || e == .badTarget, aborted := r.aborted || e == .aborted }
  let s := ({ s with copies := s.copies.put n r1 } : State).dropRec (.piece n i)
  let s := s.arriveObj r.team (parseReq r.raw.toNat) p.bytes (e != .moved)
  if r1.pieces.all (·.done) then s.endRequest n r1 else s
/-! ### KICK (07 R162, R169) -/

/-- How a guard slot of a team stands: 0 unresolved, 1 FALSE, 2 TRUE. -/
def State.guardCode (s : State) (team : Nat) (slot : Option (BitVec 4)) : Nat :=
  match slot with
  | none => 2
  | some n => match (s.team? team).bind fun t => t.guards.get? n.toNat with
    | some true => 2
    | some false => 1
    | none => 0
def boundOf (c : Nat) : Option Bool := if c = 0 then none else some (c == 2)
def queueRoom : Nat := 256
/-- The lowest identity that no entry of a queue has. -/
def freeId (q : List QueueEntry) : Nat := ((List.range queueRoom).find? fun i => !q.any fun e => e.id == i).getD 0
/-- Requests accepted one by one while the queue has room (R162). -/
def acceptN (o : Op) (k : Nat) (slot : Option (BitVec 4)) : Nat → List QueueEntry → Addr → List QueueEntry
  | 0, q, _ => q
  | n + 1, q, va =>
    let e : QueueEntry := { id := freeId q, va := va, group := k, gio := o.gio, slot := if o.aux = 2 then none else slot, bound := boundOf o.aux,
                            pc := o.pc, idx := o.idx, lanes := o.mask }
    acceptN o k slot n (q ++ [e]) (va + 64)
/-- What stands before a KICK, TDSET or TDINV of a group: the FENCE.ENG, TDSET and TDINV before it, and a KICK not yet accepted whole
    (R157; 06 R141). -/
def Group.engineBusy (g : Group) (o : Op) : Bool :=
  g.ops.any fun e => decide (e.gio < o.gio) && !e.performed && match e.instr, e.args with
    | .kick _, [_, n, acc] => acc != n
    | i, _ => engineOrder i
/-- An earlier access of the group to some line of the requests is not performed. -/
def Group.kickBusy (g : Group) (gio va n : Nat) : Bool :=
  g.ops.any fun e => decide (e.gio < gio) && !e.performed && e.accs.any fun a =>
    !a.phase.isDone && decide (va / 128 ≤ a.ea.toNat / 128) && decide (a.ea.toNat / 128 * 128 < va + 64 * n)
/-- KICK's effect: the L1 is written back, and requests enter the queue as room allows. -/
def State.performKick (s : State) (k gio : Nat) : State :=
  s.performOp k gio fun g o _ s =>
    match o.instr, o.args, s.teamOf g with
    | .kick f, [va, n, acc], some t =>
      if n = 0 then s.updOp k gio fun o => { o with performed := true }
      else if g.engineBusy o || g.kickBusy gio va n then s
      else
        let s := s.writeBackAll (coreOf k) (k, gio)
        let m := min (n - acc) (queueRoom - t.queue.length)
        let s := s.updTeam g.team fun t => { t with queue := acceptN o k f.slot m t.queue (BitVec.ofNat 64 (va + 64 * acc)) }
        let s := s.updOp k gio fun o => { o with args := [va, n, acc + m] }
        if acc + m = n then (s.freeOp k gio).noteKick g.team k gio
        else if o.isPlaced || g.canHold then s.updOp k gio fun o => { o with place := .held } else s
    | _, _, _ => s
def execKick (o : KickOp) (s : State) : Out :=
  onIssuer s fun k g x =>
    let act := s.active g x o.g
    let n := (s.readS g o.b.toNat).toNat
    let a := s.readS g o.a.toNat
    let room := queueRoom - (((s.teamOf g).map (·.queue.length)).getD 0)
    if act = 0 then s.issueOp k g x (.kick o) act [0, 0, 0] [] [] none fun gio s => s.performKick k gio
    else if 64 < n then s.trapAt k x .badKick act
    else if a.toNat % 64 ≠ 0 then s.trapAt k x .misaligned act a
    else if room < n ∧ !g.canHold then s.halt
    else s.issueOp k g x (.kick o) act [a.toNat, n, 0] [] [] none fun gio s =>
      (s.updOp k gio fun p => { p with aux := s.guardCode g.team o.slot }).performKick k gio

/-! ### TDSET and TDINV (07 R156, R157) -/

/-- The engine's write of a table entry's first bytes; a fault is held in a record of the cluster's request engine. -/
def State.writeEntry (s : State) (k gio : Nat) (t : Team) (i : Nat) (bs : List Byte) : State × Bool :=
  let va := s.entryVa t.asid i
  match s.engineXlate (dieOfCluster t.cluster) t.asid va bs.length .write true t.near with
  | (s, .ok key) => ((s.deviceWrite key bs).dropDesc t.asid i, true)
  | (s, .error f) =>
    match s.raiseRec (dieOfCluster t.cluster) (codeRequest t.cluster) (.table k gio) (f, va) t.asid (s.reportGroup (((s.group? k).map (·.team)).getD 0) k) with
    | some s => (s.updOp k gio fun o => { o with aux := 3 }, false)
    | none => (s, false)
/-- A descriptor of a request of this group that an earlier KICK named is not read yet, or its guard holds it (R157, R170). -/
def State.descsPending (s : State) (team k gio : Nat) : Bool :=
  (((s.team? team).map (·.queue)).getD []).any fun e => e.group == k && decide (e.gio < gio) && (e.desc.isNone || e.slot.isSome) && e.bound != some false
def State.performTdset (s : State) (k gio : Nat) : State :=
  s.performOp k gio fun g o l s =>
    match o.accs, l, s.teamOf g with
    | [], _, _ => s.updOp k gio fun o => { o with performed := true }
    | _, a :: _, some t =>
      if g.engineBusy o || s.descsPending g.team k gio || o.aux = 3 then s
      else match (s.logFaults k gio).targetRead k gio g a 64 .read with
        | (s, some (.fault f)) => (s.updOp k gio fun o => o.setLane a.lane (.faulted f)).logFaults k gio
        | (s, some p) =>
          match s.groupRead k g 64 p with
          | (s, .wait) => s
          | (s, .poison) => s.poisonStop k gio a.lane a.ea
          | (s, .ok img) =>
            let i := o.args.headD 0
            let fin := fun (s : State) (v : Nat) => (s.updOp k gio fun o =>
              { (o.setLane a.lane (.done v)) with performed := true, sOut := (o.sd.map fun d => (d, BitVec.ofNat 64 v)) }).dropRec (.table k gio)
            if 4095 < i ∨ !descValid img then fin s 1
            else match s.writeEntry k gio t i (toBytes 64 img) with
              | (s, true) => fin s 0
              | (s, false) => s
        | (s, none) => s
    | _, _, _ => s
def execTdset (o : SThree) (s : State) : Out :=
  onIssuer s fun k g x =>
    let act := s.active g x o.g
    let lanes := if act = 0 then 0 else maskOf [lowest act]
    s.issueMem k g x { instr := .tdset o, lanes := lanes, act := act, ea := fun _ => s.readS g o.a.toNat, bytes := 64, kind := .read,
                       args := [(s.readS g o.b.toNat).toNat], sd := onceDst act o.d } fun gio s => s.performTdset k gio
/-- V falls in each entry of a range. -/
def State.clearEntries (s : State) (k gio : Nat) (t : Team) (l : List Nat) : State × Bool :=
  l.foldl (fun (a : State × Bool) i =>
    if !a.2 then a
    else match a.1.engineXlate (dieOfCluster t.cluster) t.asid (a.1.entryVa t.asid i) 1 .write true t.near with
      | (s, .ok key) => s.writeEntry k gio t i [((s.deviceRead key 1).headD 0) &&& 0xFE]
      | (s, .error _) => s.writeEntry k gio t i [0]) (s, true)
def State.performTdinv (s : State) (k gio : Nat) : State :=
  s.performOp k gio fun g o _ s =>
    match o.args, s.teamOf g with
    | [first, n], some t =>
      if g.engineBusy o || s.descsPending g.team k gio || o.aux = 3 then s
      else
        let l := if n = 0 then List.range 4096 else (List.range (min n (4096 - min first 4096))).map (first + ·)
        match s.clearEntries k gio t l with
        | (s, true) => (s.updOp k gio fun o => { o with performed := true }).dropRec (.table k gio)
        | (s, false) => s
    | _, _ => s.updOp k gio fun o => { o with performed := true }
def execTdinv (o : STwo) (s : State) : Out :=
  onIssuer s fun k g x =>
    let act := s.active g x o.g
    let args := if act = 0 then [] else [(s.readS g o.a.toNat).toNat, (s.readS g o.b.toNat).toNat]
    s.issueOp k g x (.tdinv o) act args [] [] none fun gio s => s.performTdinv k gio

/-! ### The BOBJ forms (07 R168) -/

/-- A BOBJ form: it runs once, on an object of the scratch window. -/
def State.issueObj (s : State) (k : Nat) (g : Group) (x : Split) (i : Instr) (gd : Guard) (a : Addr) (args : Nat → List Nat) (sd : List Nat)
    (go : Nat → State → State) : State :=
  let act := s.active g x gd
  let off := a.toNat - scratchBase
  if act = 0 then s.issueOp k g x i act [] [] [] none go
  else if a.toNat % 8 ≠ 0 then s.trapAt k x .misaligned act a
  else if !inWindow a 8 then s.trapAt k x .unsupportedAccess act a
  else if ((s.teamOf g).map (·.kern.hdr.scratch)).getD 0 < off + 8 then s.trapAt k x .pageFault act a (some fkNotPresent)
  else go g.gio (s.setGroup k (g.launch x i act [{ lane := lowest act, ea := a }] (off :: args off) [] sd none))
/-- The effect of BOBJ.INIT, EXPECT and ARRIVE on an object. -/
def bobjNew (i : Instr) (o : Bobj) (n : Nat) : Bobj :=
  match i with
  | .bobjInit f => { err := false, lerr := false, ph := 0, ainit := f.n.toNat, arem := f.n.toNat, res := 0, pend := 0 }
  | .bobjExpect f => ((fun (p : Bobj) => if f.arrive then p.arrive else p) (o.addPend n)).complete
  | .bobjArrive _ => o.arrive.complete
  | _ => o
/-- The order of a write of an object, at .team (R168). -/
def bobjOrd : Instr → Ord × Scope
  | .bobjInit _ => (.rlx, .team)
  | _ => (.rel, .team)
/-- BOBJ.INIT, EXPECT, ARRIVE at their turn. -/
def State.performObj (s : State) (k gio : Nat) : State :=
  s.performOp k gio fun g o _ s =>
    match o.args with
    | off :: n =>
      if !s.scrPinned g.team off 8 then s.askPage g.team off 8
      else ((s.setObj g.team off (bobjNew o.instr (s.obj g.team off) (n.headD 0))).noteWrite k (bobjOrd o.instr) true (scrPlace off) 8).updOp k gio
        fun o => { o with performed := true }
    | [] => s.updOp k gio fun o => { o with performed := true }
def execBobjInit (o : BobjInitOp) (s : State) : Out :=
  onIssuer s fun k g x => s.issueObj k g x (.bobjInit o) o.g (s.readS g o.a.toNat) (fun _ => []) [] fun gio s => s.performObj k gio
def execBobjExpect (o : BobjExpectOp) (s : State) : Out :=
  onIssuer s fun k g x =>
    s.issueObj k g x (.bobjExpect o) o.g (s.readS g o.a.toNat) (fun _ => [(s.readS g o.b.toNat).toNat]) [] fun gio s => s.performObj k gio
def execBobjArrive (o : SAddr) (s : State) : Out :=
  onIssuer s fun k g x => s.issueObj k g x (.bobjArrive o) o.g (s.readS g o.a.toNat) (fun _ => []) [] fun gio s => s.performObj k gio
/-- BOBJ.WAIT at its turn, behind the group's earlier accesses to the object: it is answered, or sleeps until the phase passes. -/
def State.performObjWait (s : State) (k gio : Nat) : State :=
  s.performOp k gio fun g o l s =>
    match o.args with
    | [off, ph] =>
      if l.isEmpty then s
      else if !s.scrPinned g.team off 8 then s.askPage g.team off 8
      else if (s.obj g.team off).ph ≠ ph % 2 ^ 14 then s.endObjWait k gio (s.obj g.team off)
      else s.updOp k gio fun o => { o with aux := 1 }
    | _ => s.updOp k gio fun o => { o with performed := true }
/-- The split sleeps while an instruction that it waits for is not performed (12 R259). -/
def State.sleepOn (s : State) (k gio lane : Nat) : State :=
  match s.opOf k gio with
  | some o =>
    if o.performed then s
    else (s.updGroup k fun g => { (g.updSplit lane fun y => { y.moveNext with st := .sleep, wait := .op gio }) with gio := g.gio + 1 }).halt
  | none => s
def execBobjWait (o : SThree) (s : State) : Out :=
  onIssuer s fun k g x =>
    s.issueObj k g x (.bobjWait o) o.g (s.readS g o.a.toNat) (fun _ => [(s.readS g o.b.toNat).toNat]) [o.d.toNat] fun gio s =>
      (s.performObjWait k gio).sleepOn k gio (lowest x.mask)

end Sys2Proof.Machine
end

