-- ==== Sys2Proof/Machine/Barrier.lean ====
section
/-! DEFINITION. Team barriers: arrivals, phases and waits, for groups and sequencers (06 R142, R143; 10 R230). -/

namespace Sys2Proof.Machine

def Team.bar (t : Team) (n : Nat) : Barrier := t.bars.getD n {}
def State.barOf (s : State) (team n : Nat) : Barrier :=
  match s.team? team with
  | some t => t.bar n
  | none => {}
/-- Groups of a team not retired. -/
def State.unretired (s : State) (t : Team) : Nat := (t.groups.filter fun k => (s.group? k).isSome).length
/-- The phase of a waiter that slept on barrier n has passed: its group no longer stands in a phase there, and it acquires. -/
def State.wakeBarGroup (s : State) (k n : Nat) (b : Barrier) : State :=
  match s.group? k with
  | none => s
  | some g =>
    let passes := fun (x : Split) => match x.wait with
      | .barrier m t => m.toNat == n && t != b.ph
      | _ => false
    if !g.live1.any passes then s
    else
      let f := fun (x : Split) => if passes x then { x with st := if x.st == .sleep then .ready else x.st, wait := .nothing } else x
      let seen := g.live1.foldl (fun m x => match x.wait with
        | .barrier _ t => if passes x then max m (b.seenAt.getD t.toNat 0) else m
        | _ => m) g.seqSeen
      (s.setGroup k { g with splits := g.splits.map f, spilled := g.spilled.map f,
                             arr := g.arr &&& ~~~(BitVec.ofNat 16 (2 ^ n)), seqSeen := seen }).syncPts k
/-- A phase has completed: its waiters go on (R143). -/
def State.wakeBarrier (s : State) (team n : Nat) : State :=
  match s.team? team with
  | none => s
  | some t =>
    let b := t.bar n
    let s := match t.cmd with
      | some c => { s with plat := { s.plat with phases := s.plat.phases ++ [(c, n, (b.ph - 1).toNat, t.cluster)] } }
      | none => s
    let s := t.groups.foldl (fun s k => s.wakeBarGroup k n b) s
    match t.seq with
    | some q => s.updSeq q fun x => match x.waiting with
      | some (m, tgt) => if m.toNat = n ∧ tgt ≠ b.ph then { x with waiting := none, arr := x.arr &&& ~~~(BitVec.ofNat 16 (2 ^ n)) } else x
      | none => x
    | none => s
/-- One arrival that has been counted: the phase completes at zero (R143). -/
def Barrier.countDown (b : Barrier) : Barrier :=
  if b.rem ≤ 1 then { b with ph := b.ph + 1, rem := 0, isOpen := false, seenAt := b.seenAt.putD 0 b.ph.toNat b.seen, seen := 0 }
  else { b with rem := b.rem - 1 }
/-- `Arrive` of R143 on a team's barrier, by a party that knows of the sequencer's first `seen` commands. -/
def Barrier.arrive (b : Barrier) (groups count seen : Nat) : Barrier :=
  let b := if b.isOpen then b else { b with isOpen := true, dflt := count == 0, rem := if count = 0 then groups else count }
  ({ b with seen := max b.seen seen }).countDown
def State.arriveBarrier (s : State) (team n count seen : Nat) : State :=
  match s.team? team with
  | none => s
  | some t =>
    let b := (t.bar n).arrive (s.unretired t) count seen
    let s := s.updTeam team fun t => { t with bars := t.bars.put n b }
    if b.ph = (t.bar n).ph then s else s.wakeBarrier team n
/-- A group that retires without having arrived in an open default-count phase leaves it (R143). -/
def State.leaveBarriers (s : State) (g : Group) : State :=
  (List.range 16).foldl (fun s n =>
    match s.team? g.team with
    | none => s
    | some t =>
      let b := t.bar n
      if b.isOpen && b.dflt && !(g.arr.getLsbD n && g.lph.getD n 0 == b.ph) then
        let b1 := b.countDown
        let s := s.updTeam g.team fun t => { t with bars := t.bars.put n b1 }
        if b1.ph = b.ph then s else s.wakeBarrier g.team n
      else s) s
/-- A group has arrived: it keeps the phase (R142). -/
def Group.noteArrival (g : Group) (n : Nat) (ph : BitVec 16) : Group :=
  { g with lph := g.lph.putD 0 n ph, arr := g.arr ||| BitVec.ofNat 16 (2 ^ n) }
def State.groupArrive (s : State) (k : Nat) (n count : Nat) : State :=
  match s.group? k with
  | none => s
  | some g =>
    let ph := (s.barOf g.team n).ph
    (s.setGroup k (g.noteArrival n ph)).arriveBarrier g.team n count g.seqSeen

/-! ### The forms (R143) -/

/-- Every earlier access of the group is performed at .team: nothing that it has issued is outstanding; a pair of cores without a fused L1
    writes back first (04 R91, R94). -/
def Group.allPerformed (g : Group) : Bool := g.ops.all fun o => o.performed || !isAccess o.instr
def State.teamRelease (s : State) (k : Nat) : State := if s.reaches k .team then s else s.writeBackAll (coreOf k) (k, 0)
/-- An arrival, once the group's earlier accesses are performed and what the release wrote back is home (04 R94); until then the word waits. -/
def State.barArrive (s : State) (k : Nat) (g : Group) (o : BarOp) (go : State → State) : State :=
  if !g.allPerformed then s.halt
  else
    let s1 := s.teamRelease k
    if !s.reaches k .team && s1.unsent k then s1.halt else go (s1.groupArrive k o.n.toNat o.count.toNat)
/-- BAR.ARRIVE: it waits at issue for the group's earlier accesses. -/
def execBarArrive (o : BarOp) (s : State) : Out := onIssuer s fun k g _ => s.barArrive k g o id
/-- `Wait` of R143 by a split: it goes on, or sleeps past the end of its clause. -/
def State.groupWait (s : State) (k : Nat) (x : Split) (n : BitVec 4) : State :=
  match s.group? k with
  | none => s
  | some g =>
    let b := s.barOf g.team n.toNat
    let target := if g.arr.getLsbD n.toNat then g.lph.getD n.toNat 0 else b.ph
    let g1 := { g.updSplit (lowest x.mask) (fun y => y.moveTo x.fall) with gio := g.gio + 1 }
    if b.ph ≠ target then
      (((s.setGroup k { g1 with arr := g.arr &&& ~~~(BitVec.ofNat 16 (2 ^ n.toNat)), seqSeen := max g.seqSeen (b.seenAt.getD target.toNat 0) }).syncPts k)).halt
    else (s.setGroup k (g1.updSplit (lowest x.mask) fun y => { y with st := .sleep, wait := .barrier n target })).halt
def execBarWait (n : BitVec 4) (s : State) : Out := onIssuer s fun k _ x => s.groupWait k x n
def execBarSync (o : BarOp) (s : State) : Out :=
  onIssuer s fun k g x => s.barArrive k g o fun s => s.groupWait k x o.n

end Sys2Proof.Machine
end

