-- ==== Sys2Proof/Machine/Matrix.lean ====
section
/-! DEFINITION. The matrix engine and the team sequencers: stream words, operands, matrix commands, ACCLD (10 R215 to R235; 01 R32 to
R34). -/

namespace Sys2Proof.Machine

/-! ### The sequencer's registers (R216, R220) -/

/-- The sequencer whose word `exec` performs. A word without a sequencer has no effect. -/
def onSeq (s : State) (f : Nat → Seq → State) : Out :=
  .next (match s.cur with
    | .seq q => match s.seq? q with
      | some x => f q x
      | none => s
    | _ => s)
def Seq.readQ (x : Seq) (n : BitVec 5) : BitVec 64 := x.q.getD n.toNat 0
def Seq.writeQ (x : Seq) (n : BitVec 5) (v : BitVec 64) : Seq := { x with q := x.q.putD 0 n.toNat v }
/-- A q form: one register takes a value. -/
def qForm (s : State) (d : BitVec 5) (f : Seq → BitVec 64) : Out := onSeq s fun q x => s.updSeq q fun y => y.writeQ d (f x)
def Seq.qsrc (x : Seq) (signed : Bool) : QSrc → BitVec 64
  | .q n => x.readQ n
  | .imm i => if signed then i.signExtend 64 else i.setWidth 64
def execIaddQ (o : QBin) (s : State) : Out := qForm s o.d fun x => x.readQ o.a + x.qsrc true o.b
def execIsubQ (o : QBin) (s : State) : Out := qForm s o.d fun x => x.readQ o.a - x.qsrc true o.b
def execMovQ (o : QMov) (s : State) : Out := qForm s o.d fun x => x.readQ o.a
def execMovQImm32 (o : QImm) (s : State) : Out := qForm s o.d fun _ => o.imm.signExtend 64
def execMovQHi (o : QImm) (s : State) : Out := qForm s o.d fun x => o.imm ++ (x.readQ o.d).extractLsb' 0 32
def execShlQ (o : QBin) (s : State) : Out := qForm s o.d fun x => shift .shl 64 (x.readQ o.a) (x.qsrc false o.b)
/-- A taken branch: the PC stands at the target, and the step does not pass to the next word. -/
def execBraQ (o : QBra) (s : State) : Out :=
  onSeq s fun q x =>
    let take := match o.cond with
      | .always => true
      | .z a => x.readQ a == 0
      | .nz a => x.readQ a != 0
    if take then (s.updSeq q fun y => { y with pc := y.pc + o.off.signExtend 64 }).halt else s
def execExitQ (s : State) : Out := onSeq s fun q _ => (s.updSeq q fun y => { y with exited := true }).halt

/-! ### Operands (R221 to R223) -/

/-- A scratchpad operand as its two q registers give it. -/
structure Operand where
  base : BitVec 64
  lay : BitVec 64
  deriving DecidableEq, Repr
def Operand.off (o : Operand) : Nat := fld o.base.toNat 0 21
def Operand.pitch (o : Operand) : Nat := 16 * fld o.lay.toNat 0 16
def Operand.rot (o : Operand) : Nat := fld o.lay.toNat 16 3
def Operand.tpitch (o : Operand) : Nat := fld o.lay.toNat 20 24
/-- Byte b of row r, and scale byte c of row r. -/
def Operand.byteOff (o : Operand) (r b : Nat) : Nat := tileOffset o.off o.pitch o.rot r b
def Operand.scaleOff (o : Operand) (r c : Nat) : Nat := o.off + o.tpitch + 16 * r + c
/-- Check 1 of R223. -/
def Operand.layoutBad (o : Operand) (rowBytes : Nat) : Bool :=
  fld o.base.toNat 0 4 != 0 || fld o.base.toNat 21 43 != 0 || fld o.lay.toNat 44 20 != 0 || bitOf o.lay.toNat 19 || o.rot == 7
    || o.pitch == 0 || decide (o.pitch < 8 * 2 ^ o.rot) || decide (o.pitch < rowBytes)
/-- The offsets that a command uses: 64 rows of data bytes, and scale bytes. -/
def Operand.offsets (o : Operand) (rowBytes scales : Nat) : List Nat :=
  ((List.range 64).map fun r => (List.range rowBytes).map (o.byteOff r) ++ (List.range scales).map (o.scaleOff r)).flatten

/-- How a command uses its scratchpad operands: the operand, bytes per row, scale bytes per row. -/
def mOpds (rowBytes scales : Nat) (l : List (MOpd × List (BitVec 64))) : List (Operand × Nat × Nat) :=
  l.filterMap fun (m, v) => match m, v with
    | .scr _, [b, y] => some ({ base := b, lay := y }, rowBytes, scales)
    | _, _ => none
/-- Bytes of n chunks of a row, by format. -/
def chunkBytes (f n : Nat) : Nat := 32 * n * fmtBits f / 8
def SeqCmd.operands (c : SeqCmd) : List (Operand × Nat × Nat) :=
  let mma := fun (o : MmaOp) (sc : Nat) =>
    let n := o.nch.toNat + 1
    mOpds (chunkBytes o.fa.toNat n) sc [(o.a, c.args.take 2)] ++ mOpds (chunkBytes o.fb.toNat n) sc [(o.b, c.args.drop 2)]
  match c.instr, c.args with
  | .mma o, _ => mma o 0
  | .mmas o, _ => mma o (o.nch.toNat + 1)
  | .mld o, [b, y] => [({ base := b, lay := y }, 16 * (o.len.toNat + 1), if o.sc then 8 else 0)]
  | .mst o, [b, y] => [({ base := b, lay := y }, if o.fmt = .b32 then 256 else 128, 0)]
  | _, _ => []
/-- The checks of R223 in their order: the cause and its report, if one is due. -/
def SeqCmd.check (c : SeqCmd) (scratch : Nat) : Option (Cause × Nat) :=
  if c.operands.any fun o => o.1.layoutBad o.2.1 then some (.mseqOperand, 0)
  else if c.operands.any fun o => (o.1.offsets o.2.1 o.2.2).any fun b => decide (scratch ≤ b) then some (.pageFault, fkNotPresent)
  else none
/-- The q operands of a word, captured as it is taken (R217). -/
def Seq.pair (x : Seq) (n : BitVec 5) : List (BitVec 64) := [x.readQ n, x.readQ (n + 1)]
def Seq.capture (x : Seq) : MOpd → List (BitVec 64)
  | .tile _ => [0, 0]
  | .scr n => x.pair n
/-- The sequencer stops at a command's word (R219). -/
def State.stopCmd (s : State) (q : Nat) (c : SeqCmd) (e : Cause × Nat) : State :=
  (s.updSeq q fun x => { x with pc := c.pc, cmds := [], held := none }).stopSeq q e.1 e.2
def State.seqScratch (s : State) (x : Seq) : Nat := ((s.team? x.team).map (·.kern.hdr.scratch)).getD 0
/-- A matrix command is taken: it goes to the engine, is held on its guard, or is discarded (R231); a bad operand stops the sequencer. -/
def takeCmd (s : State) (i : Instr) (args : Seq → List (BitVec 64)) : Out :=
  onSeq s fun q x =>
    let c : SeqCmd := { instr := i, args := args x, pc := x.pc }
    let go := fun (_ : Unit) => match c.check (s.seqScratch x) with
      | some e => (s.stopCmd q c e).halt
      | none => s.updSeq q fun x => { x with cmds := x.cmds ++ [c] }
    match slotOf i with
    | none => go ()
    | some n => match s.guardCode x.team (some n) with
      | 2 => go ()
      | 1 => s
      | _ => s.updSeq q fun x => { x with held := some (c, n, none) }
def execMld (o : MldOp) (s : State) : Out := takeCmd s (.mld o) fun x => x.pair o.a
def execMma (o : MmaOp) (s : State) : Out := takeCmd s (.mma o) fun x => x.capture o.a ++ x.capture o.b
def execMmas (o : MmaOp) (s : State) : Out := takeCmd s (.mmas o) fun x => x.capture o.a ++ x.capture o.b
def execMzero (o : MzeroOp) (s : State) : Out := takeCmd s (.mzero o) fun _ => []
def execMst (o : MstOp) (s : State) : Out := takeCmd s (.mst o) fun x => x.pair o.a
/-- A held command whose guard has resolved goes to the engine or is discarded (07 R170, 10 R231). -/
def State.releaseSeq (s : State) (q : Nat) : State :=
  match s.seq? q with
  | none => s
  | some x =>
    match x.held with
    | some (c, _, some true) =>
      (match c.check (s.seqScratch x) with
       | some e => s.stopCmd q c e
       | none => s.updSeq q fun x => { x with held := none, cmds := x.cmds ++ [c] })
    | some (_, _, some false) => s.updSeq q fun x => { x with held := none }
    | _ => s

/-! ### Meeting the groups (R230) -/

/-- MARR: every earlier command of the stream is performed before the next word is taken, so it arrives at once. -/
def execMarr (o : BarOp) (s : State) : Out :=
  onSeq s fun q x =>
    let n := o.n.toNat
    let ph := (s.barOf x.team n).ph
    let s := s.updSeq q fun x => { x with lph := x.lph.putD 0 n ph, arr := x.arr ||| BitVec.ofNat 16 (2 ^ n) }
    s.arriveBarrier x.team n o.count.toNat x.count
def execMwait (n : BitVec 4) (s : State) : Out :=
  onSeq s fun q x =>
    let b := s.barOf x.team n.toNat
    let target := if x.arr.getLsbD n.toNat then x.lph.getD n.toNat 0 else b.ph
    if b.ph ≠ target then s.updSeq q fun x => { x with arr := x.arr &&& ~~~(BitVec.ofNat 16 (2 ^ n.toNat)) }
    else s.updSeq q fun x => { x with waiting := some (n, target) }

/-! ### The commands' effects (R226 to R229; 01 R32, R33) -/

/-- A tile register's byte: data bytes 0 to 127 of a row, then its scales. -/
def tileKey (t r b : Nat) : Nat := 8704 * t + 136 * r + b
/-- Byte b of row r of an operand, and its scale c. -/
def State.opdByte (s : State) (x : Seq) (m : MOpd) (v : List (BitVec 64)) (r b : Nat) : Nat :=
  match m, v with
  | .tile t, _ => (x.t.getD (tileKey t.toNat r b) 0).toNat
  | .scr _, [p, y] => (s.scrByte x.team (({ base := p, lay := y } : Operand).byteOff r b)).toNat
  | .scr _, _ => 0
def State.opdScale (s : State) (x : Seq) (m : MOpd) (v : List (BitVec 64)) (r c : Nat) : Nat :=
  match m, v with
  | .tile t, _ => (x.t.getD (tileKey t.toNat r (128 + c)) 0).toNat
  | .scr _, [p, y] => (s.scrByte x.team (({ base := p, lay := y } : Operand).scaleOff r c)).toNat
  | .scr _, _ => 0
/-- Element k of a row whose bytes are `b`: its code (R221). -/
def elemCode (f : Nat) (b : Nat → Nat) (k : Nat) : Nat :=
  match fmtBits f with
  | 4 => b (k / 2) / 16 ^ (k % 2) % 16
  | 16 => b (2 * k) + 256 * b (2 * k + 1)
  | _ => b k
def elemNum (f code : Nat) : Num :=
  match f with
  | 1 => fp16.decode code
  | 2 => bf16.decode code
  | 3 => e4m3.decode code
  | 4 => e5m2.decode code
  | 5 => e2m1.decode code
  | _ => ds8Decode code
/-- T of 01 R32 for one chunk: the products' exact sum, scaled, rounded once. -/
def chunkT (l : List (Num × Num)) (xa xb : Nat) : LaneWord :=
  let nan : LaneWord := BitVec.ofNat 32 fp32.nan
  let inf := fun (p : Num × Num) => p.1.isInf || p.2.isInf
  let neg := fun (p : Num × Num) => p.1.isNeg != p.2.isNeg
  if xa = 0xFF ∨ xb = 0xFF ∨ l.any (fun p => p.1.isNan || p.2.isNan) ∨ l.any (fun p => inf p && (p.1.isZero || p.2.isZero)) then nan
  else if l.any inf then
    if l.any (fun p => inf p && neg p) && l.any (fun p => inf p && !neg p) then nan
    else BitVec.ofNat 32 (fp32.infCode + if l.any (fun p => inf p && neg p) then fp32.signBit else 0)
  else
    let sum := l.foldl (fun (a : Dyadic) p => match p.1, p.2 with
      | .fin x, .fin y => a.add (x.mul y)
      | _, _ => a) { neg := false, m := 0, e := 0 }
    if sum.m = 0 then 0 else BitVec.ofNat 32 (fp32.round .rne (sum.scale ((xa : Int) - 127 + ((xb : Int) - 127)))).1
/-- One output element of MMA and MMAS over n chunks. -/
def mmaElem (i8 : Bool) (n : Nat) (a b : Nat → Nat) (fa fb : Nat) (xa xb : Nat → Nat) (acc : LaneWord) : LaneWord :=
  (List.range n).foldl (fun acc c =>
    let ks := (List.range 32).map (32 * c + ·)
    if i8 then
      acc + BitVec.ofInt 32 ((ks.map fun k => (BitVec.ofNat 8 (elemCode fa a k)).toInt * (BitVec.ofNat 8 (elemCode fb b k)).toInt).sum)
    else fp32Add acc (chunkT (ks.map fun k => (elemNum fa (elemCode fa a k), elemNum fb (elemCode fb b k))) (xa c) (xb c))) acc
def accKey (t e : Nat) : Nat := 4096 * t + e
/-- An accumulator tile with new elements. -/
def putAcc (m : Tab LaneWord) (t : Nat) (f : Nat → LaneWord) : Tab LaneWord :=
  (List.range 4096).foldl (fun m e => m.putD 0 (accKey t e) (f e)) m
/-- A tile is written by the sequencer's command number n. -/
def State.writeTile (s : State) (team tile n : Nat) (f : Team → Nat → LaneWord) : State :=
  s.updTeam team fun t => { t with acc := putAcc t.acc tile (f t), accWritten := t.accWritten.put tile n }
def State.doMma (s : State) (x : Seq) (o : MmaOp) (scaled : Bool) (args : List (BitVec 64)) : State :=
  let va := args.take 2
  let vb := args.drop 2
  let one := fun (m : MOpd) v r c => if scaled then s.opdScale x m v r c else 0x7F
  s.writeTile x.team o.d.toNat (x.count + 1) fun t e =>
    let i := e / 64
    let j := e % 64
    mmaElem (o.fa == 7) (o.nch.toNat + 1) (s.opdByte x o.a va i) (s.opdByte x o.b vb j) o.fa.toNat o.fb.toNat (one o.a va i) (one o.b vb j)
      (if o.z then 0 else t.acc.getD (accKey o.d.toNat e) 0)
def State.doMld (s : State) (q : Nat) (x : Seq) (o : MldOp) (p : Operand) : State :=
  let rows := List.range 64
  let data := (rows.map fun r => (List.range (16 * (o.len.toNat + 1))).map fun b =>
    (tileKey o.d.toNat r b, s.scrByte x.team (p.byteOff r b))).flatten
  let scales := (rows.map fun r => (List.range 8).map fun c =>
    (tileKey o.d.toNat r (128 + c), if o.sc then s.scrByte x.team (p.scaleOff r c) else (0x7F : Byte))).flatten
  s.updSeq q fun x => { x with t := (data ++ scales).foldl (fun t e => t.putD 0 e.1 e.2) x.t }
/-- The bytes that MST stores for an element (R229). -/
def mstBytes (f : MstFmt) (w : LaneWord) : List Byte :=
  let conv := fun (g : Fmt) => match fp32.decode w.toNat with
    | .nan => g.nan
    | .inf n => g.infCode + if n then g.signBit else 0
    | .fin d => (g.round .rne d).1
  match f with
  | .b32 => toBytes 4 w.toNat
  | .bf16 => toBytes 2 (conv bf16)
  | .f16 => toBytes 2 (conv fp16)
def State.doMst (s : State) (x : Seq) (o : MstOp) (p : Operand) : State :=
  let acc : Tab LaneWord := ((s.team? x.team).map (·.acc)).getD []
  let w := if o.fmt = .b32 then 4 else 2
  (List.range 4096).foldl (fun s e => s.setScr x.team (p.byteOff (e / 64) (w * (e % 64))) (mstBytes o.fmt (acc.getD (accKey o.d.toNat e) 0))) s
def State.doCmd (s : State) (q : Nat) (x : Seq) (c : SeqCmd) : State :=
  match c.instr, c.args with
  | .mma o, a => s.doMma x o false a
  | .mmas o, a => s.doMma x o true a
  | .mzero o, _ => s.writeTile x.team o.d.toNat (x.count + 1) fun _ _ => 0
  | .mld o, [b, y] => s.doMld q x o { base := b, lay := y }
  | .mst o, [b, y] => s.doMst x o { base := b, lay := y }
  | _, _ => s
/-- A command reads the bytes of its operands; MST writes them. -/
def SeqCmd.reads (c : SeqCmd) : Bool := match c.instr with
  | .mst _ => false
  | _ => true
/-- The sequencer whose command the engine of a core starts next (R234). -/
def State.engineNext (s : State) (core : Nat) : Option Nat :=
  ((List.range 4).map fun i => 4 * core + ((s.core core).turn + i) % 4).find? fun q => ((s.seq? q).map fun x => !x.cmds.isEmpty).getD false
/-- MATRIX_COMMAND_PERFORMED (the sequencer in hand): the oldest command that it has taken is performed, in its sequencer's turn; a page
    being refilled delays it, and a poisoned byte that it reads stops the sequencer (16 R357). -/
def execMatrixCommandPerformed (s : State) : Out :=
  let q := s.hand
  .next (match s.seq? q with
    | none => s
    | some x =>
      match x.cmds with
      | [] => s
      | c :: rest =>
        let offs := (c.operands.map fun o => o.1.offsets o.2.1 o.2.2).flatten
        if s.engineNext (q / 4) ≠ some q then s
        else if !offs.all fun b => s.scrPinned x.team b 1 then offs.foldl (fun s b => s.askPage x.team b 1) s
        else
          let s := s.updCore (q / 4) fun k => { k with turn := (q + 1) % 4 }
          if c.reads && offs.any fun b => s.scrPoisoned x.team b 1 then s.stopCmd q c (.dataPoison, 0)
          else (s.doCmd q x c).updSeq q fun y => { y with cmds := rest, count := x.count + 1 })

/-! ### ACCLD (R232; 05 R125) -/

/-- One element as a lane reads it: the last write that happens before the read, or any element of the tile (log 19). -/
def State.accElem (s : State) (g : Group) (t : Team) (tile e i : Nat) : LaneWord :=
  if t.accWritten.getD tile 0 ≤ g.seqSeen then t.acc.getD (accKey tile e) 0
  else t.acc.getD (accKey tile ((s.free 12 (327680 + i)).toNat)) 0
def execAccld (o : AccldOp) (s : State) : Out :=
  onIssuer s fun k g x =>
    let act := s.active g x o.g
    let n := 2 ^ o.cnt.toNat
    let e := fun l => (match o.b with
      | .v r => (s.readV g r.toNat l).toNat
      | .s r => (s.readS g r.toNat).toNat) % 4096
    if (lanesOf act).any fun l => e l % n != 0 then s.trapAt k x .misaligned act
    else match s.teamOf g with
      | none => s
      | some t =>
        let out := ((lanesOf act).map fun l =>
          laneOut o.d.toNat l ((List.range n).map fun i => s.accElem g t o.acc.toNat (e l + i) (8 * l + i))).flatten
        s.issueOp k g x (.accld o) act [] (vRange o.d.toNat n) [] none fun gio s =>
          s.updOp k gio fun p => { p with performed := true, vOut := out }

end Sys2Proof.Machine
end

