-- ==== Sys2Proof/Machine/Ray.lean ====
section
/-! DEFINITION. Rays: scenes, treelets, passes, callouts, and TRACE, CONT, RAYLD and GEOSTAT (14 R292 to R318). -/

namespace Sys2Proof.Machine

/-! ### FP32 steps, each rounded RNE -/

def rSub (a b : LaneWord) : LaneWord := fp32Add a (b ^^^ 0x80000000)
def rMul (a b : LaneWord) : LaneWord := BitVec.ofNat 32 (fp32.fma .rne false (f32 a) (f32 b) .nan).1
/-- a × b + c, rounded once. -/
def rFma (a b c : LaneWord) : LaneWord := BitVec.ofNat 32 (fp32.fma .rne true (f32 a) (f32 b) (f32 c)).1
def rRcp (a : LaneWord) : LaneWord := (sfuLane .rcp a).1
def rLt (a b : LaneWord) : Bool := (f32 a).lt (f32 b)
def rNan (a : LaneWord) : Bool := (f32 a).isNan
/-- a ≤ b, neither a NaN. -/
def rLe (a b : LaneWord) : Bool := !rNan a && !rNan b && !rLt b a
def rZero (a : LaneWord) : Bool := (f32 a).isZero
def rMin (a b : LaneWord) : LaneWord := if rLt b a then b else a
def rMax (a b : LaneWord) : LaneWord := if rLt a b then b else a
def rFinite (a : LaneWord) : Bool := !rNan a && !(f32 a).isInf
def negInf : LaneWord := 0xFF800000
def posInf : LaneWord := 0x7F800000
/-- An FP32 code as FP16, RNE; a NaN gives the canonical one. -/
def toHalf (w : LaneWord) : BitVec 16 :=
  BitVec.ofNat 16 (match f32 w with
    | .nan => fp16.nan
    | .inf n => fp16.infCode + if n then fp16.signBit else 0
    | .fin d => (fp16.round .rne d).1)
/-- An FP16 code as FP32, exactly. -/
def ofHalf (h : Nat) : LaneWord :=
  BitVec.ofNat 32 (match fp16.decode h with
    | .nan => fp32.nan
    | .inf n => fp32.infCode + if n then fp32.signBit else 0
    | .fin d => (fp32.round .rne d).1)
/-- A whole number as FP32. -/
def rNat (n : Nat) : LaneWord := BitVec.ofNat 32 (fp32.round .rne { neg := false, m := n, e := 0 }).1
/-- ⌊x⌋ for a finite x, at least 0. -/
def rFloor (a : LaneWord) : Nat :=
  match f32 a with
  | .fin d => if d.neg then 0 else (if 0 ≤ d.e then d.m * 2 ^ d.e.toNat else d.m / 2 ^ (-d.e).toNat)
  | _ => 0

/-! ### The scene header (R292, R293) -/

structure SceneF where
  shnode : List Nat
  fnode : Nat
  treetab : Nat
  raypool : Nat
  featbuf : Nat
  qbase : Nat
  hash : Nat
  hlo : List LaneWord
  hinv : LaneWord
  dt : LaneWord
  ntree : Nat
  nslot : Nat
  log2t : Nat
  levels : Nat
  nbase : Nat
  deriving DecidableEq, Repr
def parseScene (x : Nat) : SceneF :=
  { shnode := (List.range 16).map fun i => fld x (1024 + 64 * i) 64, fnode := fld x 960 64, treetab := fld x 896 64, raypool := fld x 832 64,
    featbuf := fld x 768 64, qbase := fld x 704 64, hash := fld x 640 64,
    hlo := (List.range 3).map fun i => BitVec.ofNat 32 (fld x (544 + 32 * i) 32), hinv := BitVec.ofNat 32 (fld x 512 32),
    dt := BitVec.ofNat 32 (fld x 480 32), ntree := fld x 460 20, nslot := fld x 443 17, log2t := fld x 438 5, levels := fld x 434 4 + 1,
    nbase := fld x 424 10 }
def posFinite (w : LaneWord) : Bool := rFinite w && !(f32 w).isNeg && !rZero w
/-- The rules of R293 but for those of the node headers. -/
def sceneOk (x : Nat) : Bool :=
  let c := parseScene x
  fld x 0 16 == 0x5A47 && fld x 16 8 == 0 && fld x 24 8 == 1 && fld x 32 32 == 0 && fld x 128 296 == 0 && c.treetab % 16 == 0
    && c.raypool % 4096 == 0 && c.featbuf % 1024 == 0 && c.qbase % 64 == 0 && c.hash % 128 == 0 && decide (1 ≤ c.ntree)
    && decide (1 ≤ c.nslot) && decide (c.nslot ≤ 65536) && decide (10 ≤ c.log2t) && decide (c.log2t ≤ 24) && posFinite c.hinv && posFinite c.dt
    && decide (2 ≤ c.nbase) && decide (c.nbase * 2 ^ c.levels ≤ 2 ^ 20) && (c.fnode != 0 || c.hash == 0) && (c.shnode.headD 0) != 0
/-- The node headers that a scene names, each with the record size it must have. -/
def SceneF.nodes (c : SceneF) : List (Nat × Nat) :=
  (c.shnode.filter (· != 0)).map (·, 4) ++ if c.fnode = 0 then [] else [(c.fnode, 16)]
def Scene.f (c : Scene) : SceneF := parseScene c.raw.toNat
/-- The MAXDEPTH that the Geode's copy gives a node. -/
def Scene.maxDepth (c : Scene) (node : Nat) : Nat := ((c.nodes.find? fun n => n.1 == node).map (·.2.maxdepth)).getD 0
def State.scene? (s : State) (asid : BitVec 16) (va : Addr) : Option Scene :=
  (s.scenes.find? fun e => e.2.asid == asid && e.2.va == va).map (·.2)
/-! ### A Geode's accesses (R292, R312; 04 R105, R107; 11 R246) -/

/-- Bytes that a Geode read, with the 32-byte sectors of them that are poisoned. -/
structure GeoBytes where
  bytes : List Byte
  bad : List Nat
  deriving DecidableEq, Repr
def GeoBytes.num (b : GeoBytes) (off n : Nat) : Nat := ofBytes (slice b.bytes off n)
def GeoBytes.w (b : GeoBytes) (off : Nat) : LaneWord := BitVec.ofNat 32 (b.num off 4)
def GeoBytes.poisoned (b : GeoBytes) (off n : Nat) : Bool := b.bad.any fun i => decide (i * 32 < off + n) && decide (off < i * 32 + 32)
/-- What a Geode's access meets: a result, a fault, a wait (for the team's horizon, or for a page or a team on its way back), or a place in the
    scratch window that the team does not have, which no mapping resolves. -/
inductive Geo (α : Type) where
  | ok (b : α)
  | fault (f : Nat × Addr)
  | wait
  | outside
  deriving DecidableEq, Repr
/-- A place in the scratch window, on the pinned page of the team whose lane traced or resumed the ray. -/
def State.geoWindow (s : State) (team : Nat) (va : Addr) (n : Nat) : Geo Nat :=
  match s.team? team with
  | some t =>
    let off := va.toNat - scratchBase
    if va.toNat < scratchBase ∨ t.kern.hdr.scratch < off + n then .outside
    else if s.scrPinned team off n then .ok off else .wait
  | none => if s.outTeams.any fun e => e.key == team then .wait else .outside
/-- A Geode's read of n bytes, for a team. -/
def State.geoRead (s : State) (die : Nat) (asid : BitVec 16) (team va n : Nat) : State × Geo GeoBytes :=
  let ea := BitVec.ofNat 64 va
  if inWindow ea n then (s, match s.geoWindow team ea n with
    | .ok off => .ok { bytes := s.scrBytes team off n,
                       bad := (List.range ((n + 31) / 32)).filter fun i => s.scrPoisoned team (off + 32 * i) (min 32 (n - 32 * i)) }
    | .fault f => .fault f
    | .wait => .wait
    | .outside => .outside) |> fun r => (r.1.askPage team (ea.toNat - scratchBase) n, r.2)
  else match s.enginePieces (n / 65536 + 2) die asid ea n .read false (s.nearOf team) with
    | (s, .error f) => (s, if f.1 = fkWait then .wait else .fault f)
    | (s, .ok l) =>
      match l.foldl (fun (a : Option (State × List Byte)) p => a.bind fun x => (x.1.teamRead team die p.1 p.2).map fun y => (y.1, x.2 ++ y.2))
          (some (s, [])) with
      | none => (s, .wait)
      | some (s, bs) =>
        let marks := (l.foldl (fun (a : Nat × List Nat) p =>
          (a.1 + p.2, a.2 ++ ((List.range ((p.2 + 31) / 32)).filter fun i => s.poisoned (p.1 + 32 * i) (min 32 (p.2 - 32 * i))).map (a.1 / 32 + ·))) (0, [])).2
        (s, .ok { bytes := bs, bad := marks })
/-- A Geode's write, for a team. -/
def State.geoWrite (s : State) (die : Nat) (asid : BitVec 16) (team va : Nat) (bs : List Byte) : State × Geo Unit :=
  let ea := BitVec.ofNat 64 va
  if inWindow ea bs.length then (match s.geoWindow team ea bs.length with
    | .ok off => (s.setScr team off bs, .ok ())
    | .fault f => (s, .fault f)
    | .wait => (s.askPage team (ea.toNat - scratchBase) bs.length, .wait)
    | .outside => (s, .outside))
  else match s.engineWrite die asid ea bs false (s.nearOf team) with
    | (s, .ok _) => (s, .ok ())
    | (s, .error f) => (s, if f.1 = fkWait then .wait else .fault f)

/-! ### Opening a scene (R293) -/

/-- What an attempt to read a scene finds. -/
inductive SceneRead where
  | ok (c : Scene)
  | bad
  /-- a byte of the scene header is poisoned: the reading group stops (16 R357) -/
  | poison
  | fault (kind : Nat) (va : Addr)
  | wait
  deriving DecidableEq, Repr
/-- The node headers of a scene, read in order (R293); none: one of them breaks its rules. -/
def State.readNodes (s : State) (die : Nat) (asid : BitVec 16) (team : Nat) : List (Nat × Nat) → State × Geo (Option (List (Nat × Header)))
  | [] => (s, .ok (some []))
  | (va, rs) :: t =>
    if va % 64 ≠ 0 then (s, .ok none)
    else match s.geoRead die asid team va 64 with
      | (s, .ok b) =>
        let x := ofBytes b.bytes
        if !nodeHeaderOk x || (parseHeader x).recsz != rs then (s, .ok none)
        else match State.readNodes s die asid team t with
          | (s, .ok l) => (s, .ok (l.map ((va, parseHeader x) :: ·)))
          | e => e
      | (s, .fault f) => (s, .fault f)
      | (s, .wait) => (s, .wait)
      | (s, .outside) => (s, .outside)
/-- The Geode's copy of a scene, made from the header's words (R293). A node header in the scratch window that the team does not have is no
    node header. -/
def State.openScene (s : State) (die : Nat) (asid : BitVec 16) (team : Nat) (va : Addr) (raw : Nat) : State × SceneRead :=
  if !sceneOk raw then (s, .bad)
  else match s.readNodes die asid team (parseScene raw).nodes with
    | (s, .ok none) | (s, .outside) => (s, .bad)
    | (s, .fault f) => (s, .fault f.1 f.2)
    | (s, .wait) => (s, .wait)
    | (s, .ok (some l)) =>
      let c : Scene := { asid := asid, va := va, raw := BitVec.ofNat 2048 raw, nodes := l }
      ({ s with scenes := s.scenes.put s.scenes.next c }, .ok c)
/-- A ray of the scene is in flight, or a TRACE or CONT of it that has passed its checks. -/
def State.sceneInUse (s : State) (asid : BitVec 16) (va : Addr) : Bool :=
  s.rays.any (fun e => e.2.asid == asid && e.2.scene == va) || s.groups.any fun e => s.asidOf e.2 == asid && e.2.ops.any fun o =>
    !o.performed && (match o.instr with
      | .trace _ | .cont _ | .contEnd _ => true
      | _ => false) && o.args == [va.toNat, 1]
/-- A scene with nothing in flight is let go. -/
def State.closeScene (s : State) (asid : BitVec 16) (va : Addr) : State :=
  if s.sceneInUse asid va then s else { s with scenes := s.scenes.filter fun e => !(e.2.asid == asid && e.2.va == va) }

/-! ### The ray record (R298) -/

structure RayRec where
  tmax : LaneWord
  tmin : LaneWord
  dir : List LaneWord
  org : List LaneWord
  tag : LaneWord
  tcur : LaneWord
  hitprim : LaneWord
  hitv : BitVec 16
  hitu : BitVec 16
  lastt : LaneWord
  lastidx : Nat
  tree : Nat
  hittree : Nat
  visits : Nat
  depth : Nat
  status : Nat
  st : Nat
  hit : Bool
  any : Bool
  cull : Bool
  shidx : Nat
  deriving DecidableEq, Repr
def w32 (x lo : Nat) : LaneWord := BitVec.ofNat 32 (fld x lo 32)
def parseRay (x : Nat) : RayRec :=
  { tmax := w32 x 480, tmin := w32 x 448, dir := [w32 x 352, w32 x 384, w32 x 416], org := [w32 x 256, w32 x 288, w32 x 320], tag := w32 x 224,
    tcur := w32 x 192, hitprim := w32 x 160, hitv := BitVec.ofNat 16 (fld x 144 16), hitu := BitVec.ofNat 16 (fld x 128 16), lastt := w32 x 96,
    lastidx := fld x 76 20, tree := fld x 56 20, hittree := fld x 36 20, visits := fld x 23 13, depth := fld x 17 6, status := fld x 14 3,
    st := fld x 11 3, hit := bitOf x 10, any := bitOf x 9, cull := bitOf x 8, shidx := fld x 4 4 }
def ax (l : List LaneWord) (a : Nat) : LaneWord := (l[a]?).getD 0
def RayRec.pack (r : RayRec) : Nat :=
  r.tmax.toNat * 2 ^ 480 + r.tmin.toNat * 2 ^ 448 + (ax r.dir 2).toNat * 2 ^ 416 + (ax r.dir 1).toNat * 2 ^ 384 + (ax r.dir 0).toNat * 2 ^ 352
    + (ax r.org 2).toNat * 2 ^ 320 + (ax r.org 1).toNat * 2 ^ 288 + (ax r.org 0).toNat * 2 ^ 256 + r.tag.toNat * 2 ^ 224
    + r.tcur.toNat * 2 ^ 192 + r.hitprim.toNat * 2 ^ 160 + r.hitv.toNat * 2 ^ 144 + r.hitu.toNat * 2 ^ 128 + r.lastt.toNat * 2 ^ 96
    + r.lastidx % 2 ^ 20 * 2 ^ 76 + r.tree % 2 ^ 20 * 2 ^ 56 + r.hittree % 2 ^ 20 * 2 ^ 36 + r.visits % 2 ^ 13 * 2 ^ 23 + r.depth % 64 * 2 ^ 17
    + r.status % 8 * 2 ^ 14 + r.st % 8 * 2 ^ 11 + b2n r.hit * 2 ^ 10 + b2n r.any * 2 ^ 9 + b2n r.cull * 2 ^ 8 + r.shidx % 16 * 2 ^ 4
def raFree : Nat := 0
def raQueued : Nat := 1
def raActive : Nat := 2
def raCallout : Nat := 3
def raWaitgran : Nat := 4
def rsHit : Nat := 1
def rsMiss : Nat := 2
def rsEnded : Nat := 3
def rsMalformed : Nat := 4
def rsFault : Nat := 5
def rsPoison : Nat := 6
def Ray.f (r : Ray) : RayRec := parseRay r.data.toNat
def Ray.with (r : Ray) (f : RayRec → RayRec) : Ray := { r with data := BitVec.ofNat 512 (f r.f).pack }
def State.updRay (s : State) (n : Nat) (f : Ray → Ray) : State := { s with rays := s.rays.upd n f }
def State.ray? (s : State) (asid : BitVec 16) (scene : Addr) (idx : Nat) : Option (Nat × Ray) :=
  s.rays.find? fun e => e.2.asid == asid && e.2.scene == scene && e.2.idx == idx
/-- A ray joins a queue, or a wait, at the tail. -/
def State.enqueue (s : State) (n st : Nat) : State :=
  { s.updRay n (fun r => { r.with (fun x => { x with st := st }) with enq := s.cycle, ord := s.rayOrder }) with rayOrder := s.rayOrder + 1 }
def Ray.work (r : Ray) : FaultWork := .ray r.asid r.scene r.idx
/-- A fault on a Geode's access for a ray is held, and its ray waits (R312). -/
def State.holdRay (s : State) (n : Nat) (r : Ray) (f : Nat × Addr) : State :=
  match s.raiseRec (dieOfCluster r.cluster) (codeGeode r.cluster) r.work f r.asid (s.reportGroup r.team r.group) with
  | some s => s.updRay n fun r => { r with waiting := true }
  | none => s
/-- A fault of the queue area or of GPRIV is held against the context, and the rays `l` wait for it (R312). -/
def State.holdArea (s : State) (asid : BitVec 16) (scene : Addr) (cluster : Nat) (l : List Nat) (f : Nat × Addr) : State :=
  match s.raiseRec (dieOfCluster cluster) (codeGeode cluster) (.area asid scene cluster) f asid (0xFF, 0) with
  | some s => l.foldl (fun (s : State) n => s.updRay n fun r => { r with areaWait := true }) s
  | none => s
/-- The pushed completion frees the slot and the reservation's rest (R305). -/
def State.endRay (s : State) (n : Nat) : State :=
  match s.rays.get? n with
  | none => s
  | some r =>
    let node := ((s.scene? r.asid r.scene).bind fun c => c.f.shnode[r.f.shidx]?).getD 0
    let s := s.push { die := dieOfCluster r.cluster, asid := r.asid, node := BitVec.ofNat 64 node, data := toBytes 64 r.data.toNat, depth := r.f.depth,
                      src := 2, gran := min 4 r.gran }
    let s := (s.giveGranules r.asid (r.gran - 4)).dropRec r.work
    ({ s with rays := s.rays.del n } : State).closeScene r.asid r.scene
/-- The record as it stands at completion. -/
def Ray.ended (r : Ray) (status : Nat) : Ray := { r.with (fun x => { x with status := status, st := raFree }) with ending := true, unsaved := true, gpriv := true }
/-- A ray whose access was declined, or can never be made, completes with FAULT and makes no further write (R312). -/
def State.failRay (s : State) (n : Nat) : State := (s.updRay n fun r => r.ended rsFault).endRay n
/-- A ray's record as its slot is to hold it. -/
def State.putRay (s : State) (r : Ray) (x : Nat) : State × Geo Unit :=
  s.geoWrite (dieOfCluster r.cluster) r.asid r.team ((((s.scene? r.asid r.scene).map fun c => c.f.raypool).getD 0 + 128 * r.idx) % 2 ^ 64) (toBytes 64 x)
/-- The word of the slot allocator; its value is the Geodes' own (R292; log 31). -/
def State.putGpriv (s : State) (r : Ray) : State × Geo Unit :=
  s.geoWrite (dieOfCluster r.cluster) r.asid r.team ((r.scene.toNat + 8) % 2 ^ 64) (toBytes 8 (Config.free s.fresh (786800 + r.idx)))
/-- The writes that a ray's slot still needs, in order; then its completion, if it has ended. A fault holds them, and they are made again. -/
def State.saveRay (s : State) (n : Nat) : State :=
  match s.rays.get? n with
  | none => s
  | some r =>
    let slot := fun (s : State) => match s.putRay r r.data.toNat with
      | (s, .ok _) =>
        let s := (s.updRay n fun r => { r with unsaved := false, gpriv := false }).dropRec r.work
        if r.ending then s.endRay n else s
      | (s, .fault f) => s.holdRay n r f
      | (s, .wait) => s
      | (s, .outside) => s.failRay n
    if !r.unsaved then s
    else if !r.gpriv then slot s
    else match s.putGpriv r with
      | (s, .ok _) => slot ((s.updRay n fun r => { r with gpriv := false }).dropRec (.area r.asid r.scene r.cluster))
      | (s, .fault f) => s.holdArea r.asid r.scene r.cluster [n] f
      | (s, .wait) => s
      | (s, .outside) => s.failRay n
/-- A ray in a new state, whose slot is to hold it. -/
def State.newRay (s : State) (n : Nat) (f : Ray → Ray) : State := (s.updRay n fun r => { f r with unsaved := true }).saveRay n
/-- A completion (R305). -/
def State.completeRay (s : State) (n status : Nat) : State := s.newRay n fun r => r.ended status

/-! ### Geometry (R300, R301) -/

/-- The slab of one axis; none: empty, or a NaN. -/
def slab (o d lo hi : LaneWord) : Option (LaneWord × LaneWord) :=
  if rLt hi lo then none
  else if rZero d then (if rLe lo o && rLe o hi then some (negInf, posInf) else none)
  else
    let inv := rRcp d
    let t1 := rMul (rSub lo o) inv
    let t2 := rMul (rSub hi o) inv
    if rNan t1 || rNan t2 then none else some (rMin t1 t2, rMax t1 t2)
/-- A box test: the entry and exit t (R300). `b` holds LO then HI. -/
def boxHit (r : RayRec) (b : Nat → LaneWord) : Option (LaneWord × LaneWord) :=
  match slab (ax r.org 0) (ax r.dir 0) (b 0) (b 3), slab (ax r.org 1) (ax r.dir 1) (b 1) (b 4), slab (ax r.org 2) (ax r.dir 2) (b 2) (b 5) with
  | some x, some y, some z =>
    let tn := rMax (rMax x.1 y.1) z.1
    let tf := rMin (rMin x.2 y.2) z.2
    if rLe tn tf && rLe r.tmin tf && rLt tn r.tmax then some (rMax r.tmin tn, tf) else none
  | _, _, _ => none
def vSub (a b : List LaneWord) : List LaneWord := (List.range 3).map fun i => rSub (ax a i) (ax b i)
def cross (a b : List LaneWord) : List LaneWord :=
  [(1, 2), (2, 0), (0, 1)].map fun (i, j) => rSub (rMul (ax a i) (ax b j)) (rMul (ax a j) (ax b i))
def dot (a b : List LaneWord) : LaneWord :=
  fp32Add (fp32Add (rMul (ax a 0) (ax b 0)) (rMul (ax a 1) (ax b 1))) (rMul (ax a 2) (ax b 2))
def rOne : LaneWord := 0x3F800000
/-- A triangle test: t, u and v of a hit (R301). -/
def triHit (r : RayRec) (v0 v1 v2 : List LaneWord) : Option (LaneWord × LaneWord × LaneWord) :=
  let e1 := vSub v1 v0
  let e2 := vSub v2 v0
  let pv := cross r.dir e2
  let det := dot e1 pv
  if rZero det || (r.cull && rLt det 0) then none
  else
    let inv := rRcp det
    let tv := vSub r.org v0
    let u := rMul (dot tv pv) inv
    if rLt u 0 || rLt rOne u then none
    else
      let qv := cross tv e1
      let v := rMul (dot r.dir qv) inv
      if rLt v 0 || rLt rOne (fp32Add u v) then none else some (rMul (dot e2 qv) inv, u, v)

/-! ### The walk of a treelet (R294 to R297) -/

/-- What a pass's walk of a treelet gathers: the nodes reached, blocks, bricks with their intervals, references; and whether it met a
    malformed child or a poisoned byte. -/
structure Visit where
  seen : List Nat := [0]
  todo : List Nat := [0]
  blocks : List Nat := []
  bricks : List (LaneWord × LaneWord × Nat) := []
  refs : List (LaneWord × Nat) := []
  bad : Bool := false
  poison : Bool := false
  deriving DecidableEq, Repr
def insertNew (x : Nat) (l : List Nat) : List Nat := if l.contains x then l else l ++ [x]
def Visit.count (v : Visit) : Nat := v.seen.length + v.blocks.length + (v.bricks.map (·.2.2)).dedup.length
/-- One child whose box is hit (R295, R302, R311). -/
def Visit.child (v : Visit) (c : SceneF) (root : Bool) (size ch : Nat) (t : LaneWord × LaneWord) : Visit :=
  let x := ch % 2 ^ 30
  match ch / 2 ^ 30 with
  | 3 => if !root || decide (2 ^ 20 ≤ x) || x == 0 || decide (c.ntree ≤ x) then { v with bad := true } else { v with refs := v.refs ++ [(t.1, x)] }
  | 2 =>
    if root || c.fnode == 0 || x % 2 == 1 || decide (2 ^ 11 ≤ x) || decide (size < 64 * x + 128) then { v with bad := true }
    else { v with bricks := v.bricks ++ [(t.1, t.2, x)] }
  | 1 => if 2 ^ 11 ≤ x ∨ size < 64 * x + 64 then { v with bad := true } else { v with blocks := insertNew x v.blocks }
  | _ =>
    if 2 ^ 11 ≤ x ∨ size < 64 * x + 64 then { v with bad := true }
    else if v.seen.contains x then v else { v with seen := v.seen ++ [x], todo := v.todo ++ [x] }
/-- One node: its reserved bits, then its two children. -/
def Visit.node (v : Visit) (c : SceneF) (r : RayRec) (root : Bool) (b : GeoBytes) (n : Nat) : Visit :=
  let size := b.bytes.length
  if size < 64 * n + 64 then { v with bad := true }
  else if b.poisoned (64 * n) 64 then { v with poison := true }
  else if b.num (64 * n + 56) 8 ≠ 0 then { v with bad := true }
  else [0, 1].foldl (fun (v : Visit) i =>
    let ch := b.num (64 * n + 48 + 4 * i) 4
    if ch = 0xFFFFFFFF then v
    else match boxHit r (fun m => b.w (64 * n + 24 * i + 4 * m)) with
      | some t => v.child c root size ch t
      | none => v) v
/-- The walk from node 0. `fuel` bounds the nodes: an index has 11 bits. -/
def visitAll : Nat → Visit → SceneF → RayRec → Bool → GeoBytes → Visit
  | 0, v, _, _, _, _ => v
  | fuel + 1, v, c, r, root, b =>
    match v.todo with
    | [] => v
    | n :: t => visitAll fuel (({ v with todo := t } : Visit).node c r root b n) c r root b

/-- The hits of a block: key (offset, triangle), primitive, t, u, v; none: the block is malformed. -/
def blockHits (r : RayRec) (b : GeoBytes) (x : Nat) : Option (List (Nat × Nat × LaneWord × LaneWord × LaneWord)) :=
  let hd := b.num (64 * x) 16
  let n := hd % 16 + 1
  if fld hd 4 28 ≠ 0 ∨ fld hd 64 64 ≠ 0 ∨ b.bytes.length < 64 * x + 16 + 36 * n then none
  else some ((List.range n).filterMap fun i =>
    let v := fun j => (List.range 3).map fun m => b.w (64 * x + 16 + 36 * i + 12 * j + 4 * m)
    (triHit r (v 0) (v 1) (v 2)).map fun h => (16 * x + i, fld hd 32 32 + i, h.1, h.2.1, h.2.2))
def blockBytes (b : GeoBytes) (x : Nat) : Nat := 16 + 36 * (b.num (64 * x) 4 % 16 + 1)
/-- A hit is accepted (R301): nearer than the present one, or of its t and before it. -/
def takeHit (r : RayRec) (key : Nat) (h : Nat × Nat × LaneWord × LaneWord × LaneWord) : RayRec × Nat :=
  let t := h.2.2.1
  let tree := r.tree
  let tie := r.hit && rLe t r.tmax && rLe r.tmax t && (decide (tree < r.hittree) || (tree == r.hittree && decide (h.1 < key)))
  if rLe r.tmin t && (rLt t r.tmax || tie) then
    ({ r with tmax := t, hit := true, hittree := tree, hitprim := BitVec.ofNat 32 h.2.1, hitu := toHalf h.2.2.2.1, hitv := toHalf h.2.2.2.2 }, h.1)
  else (r, key)

/-! ### Samples and features (R303, R304) -/

/-- Position at t. -/
def posAt (r : RayRec) (t : LaneWord) : List LaneWord := (List.range 3).map fun a => rFma t (ax r.dir a) (ax r.org a)
/-- The cell of a brick that holds a position. -/
def brickCell (b : GeoBytes) (x : Nat) (p : List LaneWord) : Nat :=
  let c := fun a =>
    let y := rMul (rSub (ax p a) (b.w (64 * x + 4 * a))) (b.w (64 * x + 24 + 4 * a))
    if rNan y then 0 else if rLt y 0 then 0 else if rLe (rNat 7) y then 7 else rFloor y
  c 0 + 8 * c 1 + 64 * c 2
/-- k × DT in FP32. -/
def marchT (dt : LaneWord) (k : Nat) : LaneWord :=
  match f32 dt with
  | .fin d => BitVec.ofNat 32 (fp32.round .rne { d with m := d.m * k }).1
  | _ => posInf
/-- ⌊x / DT⌋ for a finite x that is not negative. -/
def stepsTo (dt x : LaneWord) : Nat :=
  match f32 x, f32 dt with
  | .fin a, .fin d =>
    if a.neg ∨ d.m = 0 then 0
    else if d.e ≤ a.e then a.m * 2 ^ (a.e - d.e).toNat / d.m else a.m / (d.m * 2 ^ (d.e - a.e).toNat)
  | _, _ => 0
/-- The samples of a brick from step k on, at most `room` of them; `fuel` is the number of steps that remain below the exit. -/
def march : Nat → Nat → RayRec → GeoBytes → LaneWord → Nat → LaneWord → LaneWord → Nat → List LaneWord
  | 0, _, _, _, _, _, _, _, _ => []
  | _, 0, _, _, _, _, _, _, _ => []
  | fuel + 1, room + 1, r, b, dt, x, ta, tend, k =>
    let t := marchT dt k
    if !rLt t tend then []
    else if rLe ta t && rLt r.tcur t && b.num (64 * x + 64) 64 / 2 ^ brickCell b x (posAt r t) % 2 == 1 then
      t :: march fuel room { r with tcur := t } b dt x ta tend (k + 1)
    else march fuel (room + 1) r b dt x ta tend (k + 1)
/-- The largest finite FP32 code. -/
def rHuge : LaneWord := 0x7F7FFFFF
/-- The samples of one brick hit. -/
def brickSamples (room : Nat) (r : RayRec) (b : GeoBytes) (dt : LaneWord) (h : LaneWord × LaneWord × Nat) : List LaneWord :=
  let tend := rMin h.2.1 r.tmax
  let lo := rMax h.1 (rMax r.tcur 0)
  march (stepsTo dt (rMin tend rHuge) + 3) room r b dt h.2.2 h.1 tend (stepsTo dt (if rFinite lo then lo else 0) - 1)
/-- Hit bricks in increasing (te, offset). -/
def keyLt (a b : LaneWord × Nat) : Bool := rLt a.1 b.1 || (!rLt b.1 a.1 && decide (a.2 < b.2))
def insertBrick (x : LaneWord × LaneWord × Nat) : List (LaneWord × LaneWord × Nat) → List (LaneWord × LaneWord × Nat)
  | [] => [x]
  | y :: t => if keyLt (y.1, y.2.2) (x.1, x.2.2) then y :: insertBrick x t else x :: y :: t
/-- The hash-grid entries that a level of a sample needs: the byte offset of each corner's, or none for a NaN (R304). -/
def levelCell (c : SceneF) (p : List LaneWord) (l : Nat) : Option (List (Nat × LaneWord)) :=
  let n := c.nbase * 2 ^ l
  let x := fun a => rMul (rMul (rSub (ax p a) (ax c.hlo a)) c.hinv) (rNat n)
  if (List.range 3).any fun a => rNan (x a) then none
  else
    let sv := fun a => if rLt (x a) 0 then 0 else if rLt (rNat n) (x a) then rNat n else x a
    let g := fun a => min (rFloor (sv a)) (n - 1)
    let w := fun a => rSub (sv a) (rNat (g a))
    some ((List.range 8).map fun k =>
      let cx := fun a => k / 2 ^ a % 2
      let i := fun a => g a + cx a
      let idx := if (n + 1) ^ 3 ≤ 2 ^ c.log2t then i 0 + (n + 1) * (i 1 + (n + 1) * i 2)
        else (i 0 ^^^ (i 1 * 0x9E3779B1 ^^^ i 2 * 0x85EBCA77)) % 2 ^ 32 % 2 ^ c.log2t
      let om := fun a => if cx a = 1 then w a else rSub rOne (w a)
      (4 * (2 ^ c.log2t * l + idx), rMul (rMul (om 0) (om 1)) (om 2)))
/-- The feature pair of one level from its corners' entries and weights. -/
def featPair (l : List (Nat × LaneWord)) : Nat :=
  let f := fun sh => l.foldl (fun acc e => rFma e.2 (ofHalf (e.1 / 2 ^ sh % 2 ^ 16)) acc) (0 : LaneWord)
  (toHalf (f 0)).toNat + 2 ^ 16 * (toHalf (f 16)).toNat
/-- Features read: bytes, what the read met, or a poisoned entry. -/
inductive Feats where
  | ok (l : List Byte)
  | fault (f : Nat × Addr)
  | wait
  | outside
  | poison
  deriving DecidableEq, Repr
/-- The corners of one level, fetched in order. -/
def State.corners (s : State) (r : Ray) (c : SceneF) : List (Nat × LaneWord) → State × Except Feats (List (Nat × LaneWord))
  | [] => (s, .ok [])
  | (off, w) :: t =>
    match s.geoRead (dieOfCluster r.cluster) r.asid r.team ((c.hash + off) % 2 ^ 64) 4 with
    | (s, .fault f) => (s, .error (.fault f))
    | (s, .wait) => (s, .error .wait)
    | (s, .outside) => (s, .error .outside)
    | (s, .ok b) =>
      if b.bad ≠ [] then (s, .error .poison)
      else match State.corners s r c t with
        | (s, .ok l) => (s, .ok ((b.num 0 4, w) :: l))
        | e => e
/-- The 4L feature bytes of one sample. -/
def State.features (s : State) (r : Ray) (c : SceneF) (p : List LaneWord) : List Nat → State × Feats
  | [] => (s, .ok [])
  | l :: t =>
    let one : State × Except Feats Nat := match levelCell c p l with
      | none => (s, .ok 0x7E007E00)
      | some cs => match s.corners r c cs with
        | (s, .ok es) => (s, .ok (featPair es))
        | (s, .error e) => (s, .error e)
    match one with
    | (s, .error e) => (s, e)
    | (s, .ok x) => match State.features s r c p t with
      | (s, .ok bs) => (s, .ok (toBytes 4 x ++ bs))
      | e => e
/-- The features of every sample of a batch. -/
def State.batch (s : State) (r : Ray) (c : SceneF) : List LaneWord → State × Except Feats (List (List Byte))
  | [] => (s, .ok [])
  | t :: l =>
    match s.features r c (posAt r.f t) (List.range c.levels) with
    | (s, .ok bs) => match State.batch s r c l with
      | (s, .ok ls) => (s, .ok (bs :: ls))
      | e => e
    | (s, e) => (s, .error e)

/-! ### One ray's pass (R302, R305) -/

/-- How a ray leaves a pass. -/
inductive RayEnd where
  | wait
  | fault (f : Nat × Addr)
  | outside
  | complete (r : RayRec) (status : Nat)
  | queue (r : RayRec) (key : Nat)
  | callout (r : RayRec) (key : Nat) (ts : List LaneWord)
  deriving DecidableEq, Repr
/-- The triangle tests of a pass; none: a malformed block. `pick` chooses among the hits of an ANY pass. -/
def passHits (r : RayRec) (key : Nat) (b : GeoBytes) (blocks : List Nat) (pick : Nat) : Option (RayRec × Nat) :=
  match blocks.foldl (fun (a : Option (List (Nat × Nat × LaneWord × LaneWord × LaneWord))) x =>
      a.bind fun l => (blockHits r b x).map (l ++ ·)) (some []) with
  | none => none
  | some hs =>
    if r.any then
      let ok := hs.filter fun h => rLe r.tmin h.2.2.1 && rLt h.2.2.1 r.tmax
      match ok[pick % max 1 ok.length]? with
      | some h => some (takeHit r key h)
      | none => some (r, key)
    else some (hs.foldl (fun (a : RayRec × Nat) h => takeHit a.1 a.2 h) (r, key))
/-- The rest of a pass once triangles are tested: bricks, then the next queue. -/
def passRest (c : SceneF) (r : RayRec) (key : Nat) (b : GeoBytes) (v : Visit) : RayEnd :=
  let bricks := v.bricks.foldr insertBrick []
  if bricks.any fun h => b.num (64 * h.2.2 + 40) 24 != 0 then .complete r rsMalformed
  else
    let out := bricks.foldl (fun (a : List LaneWord × RayRec) h =>
      let new := brickSamples (16 - a.1.length) a.2 b c.dt h
      (a.1 ++ new, { a.2 with tcur := new.getLast?.getD a.2.tcur })) ([], r)
    if out.1 ≠ [] then .callout out.2 key out.1
    else if r.tree ≠ 0 then .queue { r with tree := 0 } key
    else
      let cand := v.refs.filter fun e => keyLt (r.lastt, r.lastidx) e && rLt e.1 r.tmax
      match cand.foldl (fun (m : Option (LaneWord × Nat)) e => match m with
          | some x => if keyLt e x then some e else some x
          | none => some e) none with
      | some e => .queue { r with lastt := e.1, lastidx := e.2, tree := e.2 } key
      | none => .complete r (if r.hit then rsHit else rsMiss)
/-- A ray's step of R302 over a treelet that stands in the buffer. -/
def advanceRay (c : SceneF) (r : RayRec) (key : Nat) (b : GeoBytes) (pick : Nat) : RayEnd :=
  let v := visitAll 2049 {} c r (r.tree == 0) b
  let r1 := { r with visits := v.count }
  if v.bad || decide (4096 < v.count) then .complete { r with visits := min v.count 4096 } rsMalformed
  else if v.poison || v.blocks.any (fun x => b.poisoned (64 * x) (blockBytes b x)) || v.bricks.any (fun h => b.poisoned (64 * h.2.2) 128) then
    .complete r1 rsPoison
  else match passHits r1 key b v.blocks pick with
    | none => .complete r1 rsMalformed
    | some (r2, k2) => if r2.any && r2.hit then .complete r2 rsHit else passRest c r2 k2 b v
/-- A ray's pass: its treelet's entry and bytes are read, and the ray advanced. -/
def State.passOf (s : State) (r : Ray) (c : SceneF) : State × RayEnd :=
  let read := fun (s : State) va n => s.geoRead (dieOfCluster r.cluster) r.asid r.team (va % 2 ^ 64) n
  match read s (c.treetab + 16 * r.f.tree) 16 with
  | (s, .fault f) => (s, .fault f)
  | (s, .wait) => (s, .wait)
  | (s, .outside) => (s, .outside)
  | (s, .ok e) =>
    let addr := e.num 8 8
    let lo := e.num 0 8
    let size := lo % 2 ^ 11
    if e.bad ≠ [] then (s, .complete r.f rsPoison)
    else if addr % 128 ≠ 0 ∨ lo / 2 ^ 11 ≠ 0 ∨ size = 0 ∨ 1024 < size then (s, .complete r.f rsMalformed)
    else match read s addr (128 * size) with
      | (s, .fault f) => (s, .fault f)
      | (s, .wait) => (s, .wait)
      | (s, .outside) => (s, .outside)
      | (s, .ok b) => (s, advanceRay c r.f r.hitKey b (Config.anyHit s.fresh r.idx))
/-- A callout record (R305). -/
def calloutData (c : SceneF) (scene : Addr) (idx : Nat) (r : RayRec) (ts : List LaneWord) : Nat :=
  ((enum 0 ts).map fun (e : Nat × LaneWord) => e.2.toNat * 2 ^ (384 + 32 * e.1)).sum + (c.featbuf + 1024 * idx) % 2 ^ 64 * 2 ^ 256
    + c.levels * 2 ^ 240 + ts.length * 2 ^ 224 + (ax r.dir 2).toNat * 2 ^ 192 + (ax r.dir 1).toNat * 2 ^ 160 + (ax r.dir 0).toNat * 2 ^ 128
    + r.tag.toNat * 2 ^ 96 + idx * 2 ^ 64 + scene.toNat
/-- The feature blocks of a batch are written. -/
def State.writeFeats (s : State) (r : Ray) (c : SceneF) : List (Nat × List Byte) → State × Geo Unit
  | [] => (s, .ok ())
  | (i, bs) :: t =>
    match s.geoWrite (dieOfCluster r.cluster) r.asid r.team ((c.featbuf + 1024 * r.idx + 64 * i) % 2 ^ 64) bs with
    | (s, .ok _) => State.writeFeats s r c t
    | e => e
/-- A Geode's write for a ray, then what follows it: a fault is held, the ray stays ACTIVE, and its pass is run again (R302, R312). -/
def State.afterWrite (n : Nat) (r : Ray) (x : State × Geo Unit) (go : State → State) : State :=
  match x with
  | (s, .ok _) => go s
  | (s, .fault f) => s.holdRay n r f
  | (s, .wait) => s
  | (s, .outside) => s.failRay n
def State.calloutRay (s : State) (n : Nat) (r : Ray) (c : SceneF) (x : RayRec) (key : Nat) (ts : List LaneWord) : State :=
  match s.batch r c ts with
  | (s, .error (.fault f)) => s.holdRay n r f
  | (s, .error .poison) => (s.updRay n fun r => r.with fun _ => x).completeRay n rsPoison
  | (s, .error .outside) => s.failRay n
  | (s, .error _) => s
  | (s, .ok fs) =>
    let y : RayRec := { x with st := raCallout }
    State.afterWrite n r (s.writeFeats r c (enum 0 fs)) fun s =>
      State.afterWrite n r (s.putRay r y.pack) fun s =>
        let s := (s.updRay n fun r => { (r.with fun _ => y) with hitKey := key, gran := r.gran - 16 }).dropRec r.work
        s.push { die := dieOfCluster r.cluster, asid := r.asid, node := BitVec.ofNat 64 c.fnode,
                 data := toBytes 256 (calloutData c r.scene r.idx x ts), depth := x.depth, src := 2, gran := 16 }
/-- The visits that a pass has made when its ray leaves it. -/
def RayEnd.visits : RayEnd → Nat
  | .complete r _ | .queue r _ | .callout r _ _ => r.visits
  | _ => 0
/-- Visits that a ray may still make once its context is to be switched out (R313). -/
def visitsLeft : Nat := 256
/-- One ray of a pass. Once its context is to be switched out, a ray that needs more than 256 visits goes back to the head of its queue, with its
    place and time kept (R313). -/
def State.advance (s : State) (n : Nat) : State :=
  match s.rays.get? n with
  | none => s
  | some r =>
    if r.waiting then s
    else match s.scene? r.asid r.scene with
      | none => s
      | some c =>
        let s := s.updRay n fun r => r.with fun x => { x with st := raActive }
        let r := { r with data := BitVec.ofNat 512 ({ r.f with visits := 0, st := raActive } : RayRec).pack }
        let e := s.passOf r c.f
        if s.switchedOut r.asid r.cluster && decide (visitsLeft < e.2.visits) then s.newRay n fun r => r.with fun x => { x with st := raQueued }
        else match e with
          | (s, .wait) => s
          | (s, .fault f) => s.holdRay n r f
          | (s, .outside) => s.failRay n
          | (s, .complete x st) => (s.updRay n fun r => r.with fun _ => x).completeRay n st
          | (s, .queue x key) =>
            State.afterWrite n r (s.putRay r ({ x with st := raQueued } : RayRec).pack) fun s =>
              ((s.updRay n fun r => { (r.with fun _ => x) with hitKey := key }).enqueue n raQueued).dropRec r.work
          | (s, .callout x key ts) => s.calloutRay n r c.f x key ts

/-! ### Choosing a treelet (R299, R308) -/

/-- The context is switched out of a cluster (16 R352). -/
def ageReset : BitVec 32 := 0x00010000
/-- The queue heads of a scene at a Geode lie in its queue area. -/
def State.headsAway (s : State) (asid : BitVec 16) (va : Addr) (c : Nat) : Bool := ((s.scene? asid va).map (·.away.contains c)).getD false
/-- Rays that wait in a cluster's queues, of the contexts it serves; a ray that a fault holds is not taken (R312). -/
def State.queued (s : State) (c : Nat) : List (Nat × Ray) :=
  s.rays.filter fun e => e.2.cluster == c && e.2.f.st == raQueued && !e.2.unsaved && !e.2.waiting && !e.2.areaWait
    && !s.switchedOut e.2.asid c && !s.headsAway e.2.asid e.2.scene c
def sameQueue (a b : Ray) : Bool := a.asid == b.asid && a.scene == b.scene && a.f.tree == b.f.tree
/-- The ray of a list that entered first. -/
def firstIn : List (Nat × Ray) → Option (Nat × Ray)
  | [] => none
  | x :: t => match firstIn t with
    | some y => if decide (x.2.ord < y.2.ord) then some x else some y
    | none => some x
/-- The rays of a list in the order of their entry; `fuel` bounds their number. -/
def inOrder : Nat → List (Nat × Ray) → List Nat
  | 0, _ => []
  | fuel + 1, l => match firstIn l with
    | some x => x.1 :: inOrder fuel (l.filter fun y => y.1 != x.1)
    | none => []
/-- The queue a Geode takes: an aged one, or the one with the most rays (R308); named by its oldest ray. -/
def State.chooseQueue (s : State) (c : Nat) : Option Ray :=
  let q := s.queued c
  let limit := (s.geoAge.getD c ageReset).toNat
  let heads := q.filter fun e => !q.any fun f => sameQueue e.2 f.2 && decide (f.2.ord < e.2.ord)
  let aged := heads.filter fun e => decide (e.2.enq + limit < s.cycle) || limit == 0
  match firstIn aged with
  | some x => some x.2
  | none =>
    let size := fun (e : Nat × Ray) => (q.filter fun f => sameQueue e.2 f.2).length
    let m := maxOf (heads.map size)
    (firstIn (heads.filter fun e => size e == m)).map (·.2)
/-- The queues of a scene at a Geode that hold rays: the treelets, with one ray of each. -/
def State.queuesAt (s : State) (asid : BitVec 16) (va : Addr) (c : Nat) : List (Nat × Ray) :=
  let l := s.rays.filter fun e => e.2.asid == asid && e.2.scene == va && e.2.cluster == c && e.2.f.st == raQueued
  l.filter fun e => !l.any fun f => f.2.f.tree == e.2.f.tree && decide (f.1 < e.1)
/-- The queue heads of a scene at a Geode are written to its queue area, or read back, queue by queue; whether all are. What they hold is the
    Geodes' own, and so is its place in the area (R292, R299, R313; log 31). -/
def State.moveHeads (out : Bool) (c : SceneF) : State → List (Nat × Ray) → State × Bool
  | s, [] => (s, true)
  | s, (n, r) :: t =>
    let die := dieOfCluster r.cluster
    let va := (c.qbase + 8 * (c.ntree * r.cluster + r.f.tree)) % 2 ^ 64
    let x : State × Geo Unit := if out then s.geoWrite die r.asid r.team va (toBytes 8 (Config.free s.fresh (2 ^ 45 + r.f.tree)))
      else match s.geoRead die r.asid r.team va 8 with
        | (s, .ok _) => (s, .ok ())
        | (s, .fault f) => (s, .fault f)
        | (s, .wait) => (s, .wait)
        | (s, .outside) => (s, .outside)
    let mine := (s.rays.filter fun e => e.2.asid == r.asid && e.2.scene == r.scene && e.2.cluster == r.cluster && e.2.f.st == raQueued).map (·.1)
    match x with
    | (s, .ok _) => State.moveHeads out c s t
    | (s, .fault f) => (s.holdArea r.asid r.scene r.cluster mine f, false)
    | (s, .wait) => (s, false)
    | (s, .outside) => (s.failRay n, false)
/-- The heads of a scene go out to memory, or come back. -/
def State.turnHeads (s : State) (out : Bool) (n : Nat) (c : Scene) (cl : Nat) : State × Bool :=
  match State.moveHeads out c.f s (s.queuesAt c.asid c.va cl) with
  | (s, true) => ((({ s with scenes := s.scenes.upd n fun x => { x with away := if out then cl :: x.away else x.away.filter (· != cl) } } : State).dropRec
      (.area c.asid c.va cl)), true)
  | r => r
/-- GEODE_PASS (the cluster in hand): writes that a fault held are made again and rays that it held go on, also while their context is being
    switched out; the queue heads of a context switched back in are read; otherwise the Geode chooses a queue and advances up to 256 of its
    rays, in the order of their entry. -/
def execGeodePass (s : State) : Out :=
  let c := s.hand
  let mine := s.rays.filter fun e => e.2.cluster == c && !e.2.waiting && !e.2.areaWait
  let unsaved := mine.filter fun e => e.2.unsaved
  let back := mine.filter fun e => e.2.f.st == raActive && !e.2.unsaved
  let heads := s.scenes.filter fun e => e.2.away.contains c && !s.switchedOut e.2.asid c
    && !s.rays.any fun r => r.2.asid == e.2.asid && r.2.scene == e.2.va && r.2.cluster == c && r.2.areaWait
  .next (if unsaved ≠ [] then (unsaved.map (·.1)).foldl (fun s n => s.saveRay n) s
    else if back ≠ [] then (back.map (·.1)).foldl (fun s n => s.advance n) s
    else if heads ≠ [] then heads.foldl (fun (s : State) e => (s.turnHeads false e.1 e.2 c).1) s
    else match s.chooseQueue c with
      | none => s
      | some r =>
        let q := (s.queued c).filter fun e => sameQueue r e.2
        ((inOrder q.length q).take 256).foldl (fun s n => s.advance n) s)

/-! ### TRACE (R314, R315) -/

/-- The lanes of a command write one value each. -/
def Op.allLanes (o : Op) (f : Nat → Nat) : Op :=
  { o with accs := o.accs.map fun a => { a with phase := .done (f a.lane) }, performed := true }
/-- A ray command stands at the head of its team's Geode queue and its guard has bound TRUE; it first joins the queue, in gio order of its
    group. -/
def isRayForm : Instr → Bool
  | .trace _ | .cont _ | .contEnd _ => true
  | _ => false
/-- A ray command's lanes wait at Geodes: it has left its queue. -/
def rayRouted (o : Op) : Bool := o.aux == 4
def State.joinRayQueue (s : State) (k : Nat) (g : Group) (o : Op) : State :=
  let q := ((s.teamOf g).map (·.rays)).getD []
  let mine := fun gio => q.any fun c => c.group == k && c.gio == gio
  if mine o.gio || g.ops.any (fun e => decide (e.gio < o.gio) && isRayForm e.instr && !e.performed && !rayRouted e && !mine e.gio) then s
  else s.updTeam g.team fun t => { t with rays := t.rays ++
    [{ id := o.gio, group := k, gio := o.gio, slot := if o.aux = 2 then none else slotOf o.instr, bound := boundOf o.aux }] }
def State.rayTurn (s : State) (k : Nat) (g : Group) (o : Op) : Bool :=
  match ((s.teamOf g).map (·.rays)).getD [] with
  | c :: _ => c.group == k && c.gio == o.gio && c.slot.isNone
  | [] => false
def State.leaveRayQueue (s : State) (team k gio : Nat) : State :=
  s.updTeam team fun t => { t with rays := t.rays.filter fun c => !(c.group == k && c.gio == gio) }
/-- The command at the head of a team's Geode queue whose guard has resolved proceeds or is discarded (07 R170, 14 R314). -/
def State.releaseGeode (s : State) (team : Nat) : State :=
  match (s.team? team).map (·.rays) with
  | some (c :: t) =>
    (match c.slot, c.bound with
     | some _, some true => s.updTeam team fun x => { x with rays := { c with slot := none } :: t }
     | some _, some false => (s.updTeam team fun x => { x with rays := t }).updOp c.group c.gio fun o => o.allLanes fun _ => 0xFFFFFFFC
     | _, _ => s)
  | _ => s
/-- The 10 words of a lane's TRACE, as a number. -/
def traceWord (data i : Nat) : LaneWord := BitVec.ofNat 32 (data / 2 ^ (32 * i))
/-- A lane's ray is refused for its values (R315). -/
def traceBad (c : SceneF) (d : Nat) : Bool :=
  let w := traceWord d
  let ctl := (w 9).toNat
  ctl / 64 != 0 || (c.shnode[ctl % 16]?).getD 0 == 0 || (List.range 6).any (fun i => !rFinite (w i))
    || (List.range 3).all (fun i => rZero (w (3 + i))) || !rFinite (w 6) || rLt (w 6) 0 || !(rLt (w 6) (w 7))
/-- A ray's record as TRACE writes it (R298, R315). -/
def traceRec (d depth : Nat) : RayRec :=
  let w := traceWord d
  let ctl := (w 9).toNat
  { tmax := w 7, tmin := w 6, dir := [w 3, w 4, w 5], org := [w 0, w 1, w 2], tag := w 8, tcur := negInf, hitprim := 0, hitv := 0, hitu := 0,
    lastt := w 6, lastidx := 0, tree := 0, hittree := 0, visits := 0, depth := depth, status := 0, st := raQueued, hit := false,
    any := bitOf ctl 5, cull := bitOf ctl 4, shidx := ctl % 16 }
/-- A free slot of a scene, if there is one: which of them a ray takes is free (log 74). -/
def State.freeRaySlot (s : State) (asid : BitVec 16) (va : Addr) (n lane : Nat) : Option Nat :=
  let used := (s.rays.filter fun e => e.2.asid == asid && e.2.scene == va).map (·.2.idx)
  ((List.range (min n (used.length + 1))).map fun i => (Config.free s.fresh (786944 + lane) + i) % n).find? fun i => !used.contains i
/-- One lane of a TRACE: the value for vD. -/
def State.traceLane (s : State) (k gio : Nat) (g : Group) (c : Scene) (a : LaneAcc) : State :=
  let ans := fun (s : State) x => s.doneLane k gio a.lane x
  if traceBad c.f a.data then ans s 0xFFFFFFFD
  else match s.freeRaySlot c.asid c.va c.f.nslot a.lane with
    | none => ans s 0xFFFFFFFF
    | some i => match s.takeGranules c.asid 20 with
      | none => ans s 0xFFFFFFFE
      | some s =>
        let n := s.rays.next
        let r : Ray := { asid := c.asid, scene := c.va, idx := i, cluster := clusterOf (coreOf k), team := g.team, group := k, gran := 20,
                         data := BitVec.ofNat 512 (traceRec a.data (s.laneDepth g a.lane + 1)).pack, enq := s.cycle, ord := s.rayOrder, unsaved := true, gpriv := true }
        ans (({ s with rays := s.rays.put n r, rayOrder := s.rayOrder + 1 } : State).saveRay n) i
/-- The NODE_DEPTH check of TRACE. -/
def State.traceDepth (s : State) (g : Group) (c : Scene) (l d : Nat) : Bool :=
  let node := (c.f.shnode[(traceWord d 9).toNat % 16]?).getD 0
  node != 0 && (decide (c.maxDepth node < s.laneDepth g l + 1) || (c.f.fnode != 0 && decide (c.maxDepth c.f.fnode < s.laneDepth g l + 1)))
/-- The ray of a lane's RAYID, when it is in CALLOUT. -/
def State.calloutOf (s : State) (c : Scene) (id : Nat) : Option (Nat × Ray) :=
  if id < c.f.nslot then (s.ray? c.asid c.va id).bind fun e => if e.2.f.st = raCallout then some e else none else none
/-- The NODE_DEPTH check of CONT (R316). -/
def State.contDepth (s : State) (g : Group) (c : Scene) (isEnd : Bool) (l id : Nat) : Bool :=
  match s.calloutOf c id with
  | some (_, r) =>
    let d := s.laneDepth g l + 1
    decide (c.maxDepth ((c.f.shnode[r.f.shidx]?).getD 0) < d) || (!isEnd && decide (c.maxDepth c.f.fnode < d))
  | none => false
/-- The trap that a ray command raises before any lane acts. -/
def State.rayTrap (s : State) (g : Group) (c : Scene) (i : Instr) (accs : List LaneAcc) : Bool :=
  accs.any fun a => match i with
    | .trace _ => s.traceDepth g c a.lane a.data
    | .cont _ => s.contDepth g c false a.lane a.data
    | _ => s.contDepth g c true a.lane a.data
/-- Lanes of a CONT go to the Geodes that hold their rays (R316). -/
def State.routeCont (s : State) (k gio : Nat) (g : Group) (c : Scene) (isEnd : Bool) (accs : List LaneAcc) : State :=
  accs.foldl (fun s a =>
    if c.f.nslot ≤ a.data then s.doneLane k gio a.lane 2
    else
      let home := ((s.ray? c.asid c.va a.data).map (·.2.cluster)).getD (clusterOf (coreOf k))
      let q : ContReq := { cluster := home, team := g.team, group := k, gio := gio, lane := a.lane, asid := c.asid, scene := c.va, ray := a.data,
                           depth := s.laneDepth g a.lane + 1, isEnd := isEnd }
      { s with contReqs := s.contReqs.put s.contReqs.next q }) s
/-- A scene header's read at a place that translates: the Geode's copy, or why there is none. -/
def State.readScene (s : State) (k : Nat) (g : Group) (va : Addr) (p : Place) : State × SceneRead :=
  match s.groupRead k g 256 p with
  | (s, .wait) => (s, .wait)
  | (s, .poison) => (s, .poison)
  | (s, .ok raw) => s.openScene (dieOfCore (coreOf k)) (s.asidOf g) g.team va raw
/-- The checks of a command that stands at the head of its queue, where they were not made at its issue: it was guarded, or its header's read
    had faulted (R314, R315; 07 R170). -/
def State.checkRay (s : State) (k gio : Nat) (g : Group) (o : Op) : State :=
  let va := BitVec.ofNat 64 (o.args.headD 0)
  let asid := s.asidOf g
  let s := s.closeScene asid va
  let again := fun (s : State) (ea : Addr) f => (s.updOp k gio fun o =>
    { o with accs := (if o.accs = [] then [({ lane := o.split, ea := va } : LaneAcc)] else o.accs).map fun a => { a with ea := ea, phase := .faulted f } }).logFaults k gio
  let pass := fun (s : State) (c : Scene) =>
    if s.rayTrap g c o.instr o.accs then (s.closeScene asid va).stopAtOp k gio .nodeDepth 0 o.mask 0
    else s.updOp k gio fun o => { o with args := [va.toNat, 1], accs := if o.mask = 0 then [] else o.accs }
  if va.toNat % 256 ≠ 0 then s.stopAtOp k gio .sceneBad 0 o.mask 0
  else match s.scene? asid va with
    | some c => pass s c
    | none => match s.targetRead k gio g { lane := (o.accs.headD { lane := o.split, ea := 0 }).lane, ea := va } 256 .read with
      | (s, none) => s
      | (s, some .range) => s.stopAtOp k gio .pageFault fkRange o.mask va
      | (s, some .outside) => s.stopAtOp k gio .pageFault fkNotPresent o.mask va
      | (s, some (.fault f)) => again s va f
      | (s, some p) => match s.readScene k g va p with
        | (s, .wait) => s
        | (s, .bad) => s.stopAtOp k gio .sceneBad 0 o.mask 0
        | (s, .poison) => s.stopAtOp k gio .dataPoison 0 o.mask va
        | (s, .fault f ea) => again s ea f
        | (s, .ok c) => pass s c
/-- What a checked command does at the head of its queue. -/
def State.actRay (s : State) (k gio : Nat) (g : Group) (o : Op) : State :=
  match s.scene? (s.asidOf g) (BitVec.ofNat 64 (o.args.headD 0)) with
  | none => s
  | some c =>
    let s := (s.leaveRayQueue g.team k gio).updOp k gio fun o => { o with aux := 4, performed := o.accs.isEmpty }
    let s := match o.instr with
      | .trace _ => o.accs.foldl (fun (s : State) a => s.traceLane k gio g c a) s
      | .cont _ => s.routeCont k gio g c false o.accs
      | _ => s.routeCont k gio g c true o.accs
    s.closeScene c.asid c.va
/-- A ray command at its turn. A context that is switched out keeps its commands (R313). -/
def State.performRay (s : State) (k gio : Nat) : State :=
  s.performOp k gio fun g o l s =>
    if rayRouted o || s.switchedOut (s.asidOf g) (clusterOf (coreOf k)) then s
    else if o.accs.any fun a => a.phase.isFault then s.logFaults k gio
    else
      let s := s.joinRayQueue k g o
      if !s.rayTurn k g o || l.length < o.accs.length then s
      else if o.args.length < 2 then s.checkRay k gio g o
      else s.actRay k gio g o
/-- A command enters flight. A guarded one that has not bound TRUE reads nothing and raises nothing yet (07 R170); else the scene header is read
    and checked, or its fault logged as for LD (R315). -/
def State.issueRay (s : State) (k : Nat) (g : Group) (x : Split) (i : Instr) (gd : Guard) (va : Addr) (d : BitVec 8) (data : Nat → Nat) : State :=
  let act := s.active g x gd
  let asid := s.asidOf g
  let accs := (lanesOf act).map fun l => ({ lane := l, ea := va, data := data l } : LaneAcc)
  let code := s.guardCode g.team (slotOf i)
  let s := s.closeScene asid va
  let enter := fun (s : State) (g : Group) accs args =>
    (s.setGroup k (g.launch x i act accs args (vRange d.toNat 1) [] none)).updOp k g.gio fun o => { o with aux := code }
  let go := fun (s : State) (c : Scene) =>
    if s.rayTrap g c i accs then (s.closeScene asid va).trapAt k x .nodeDepth act
    else (enter s g accs [va.toNat, 1]).performRay k g.gio
  let log := fun (s : State) (ea : Addr) f =>
    if !s.canPlace k g then s.halt
    else
      let l := if accs = [] then [({ lane := lowest x.mask, ea := va } : LaneAcc)] else accs
      (enter s (g.updSplit (lowest x.mask) fun y => { y with xfaults := [] }) (l.map fun a => { a with ea := ea, phase := .faulted f }) [va.toNat]).logOp k g.gio
  if code ≠ 2 then (enter s g accs [va.toNat]).performRay k g.gio
  else if va.toNat % 256 ≠ 0 then s.trapAt k x .sceneBad act
  else match s.scene? asid va with
    | some c => go s c
    | none => match s.answered k asid va (s.locate k g x.xfaults va 256 .read) with
      | (s, none) => s.halt
      | (s, some .range) => s.trapAt k x .pageFault act va (some fkRange)
      | (s, some .outside) => s.trapAt k x .pageFault act va (some fkNotPresent)
      | (s, some .miss) => (s.postMisses k g x [((if act = 0 then lowest x.mask else lowest act), va)] .read).halt
      | (s, some (.fault f)) => log s va f
      | (s, some p) => match s.readScene k g va p with
        | (s, .wait) => s.halt
        | (s, .bad) => s.trapAt k x .sceneBad act
        | (s, .poison) => s.trapAt k x .dataPoison act va
        | (s, .fault f ea) => log s ea f
        | (s, .ok c) => go s c
def execTrace (o : RayOp) (s : State) : Out :=
  onIssuer s fun k g x =>
    s.issueRay k g x (.trace o) o.g (s.readS g o.a.toNat) o.d fun l =>
      ofBytes (((List.range 10).map fun i => toBytes 4 (s.readV g (o.b.toNat + i) l).toNat).flatten)
def execCont (o : RayOp) (s : State) : Out :=
  onIssuer s fun k g x => s.issueRay k g x (.cont o) o.g (s.readS g o.a.toNat) o.d fun l => (s.readV g o.b.toNat l).toNat
def execContEnd (o : RayOp) (s : State) : Out :=
  onIssuer s fun k g x => s.issueRay k g x (.contEnd o) o.g (s.readS g o.a.toNat) o.d fun l => (s.readV g o.b.toNat l).toNat

/-! ### CONT at the holding Geode (R316) -/

/-- A context has been switched out of a cluster: while its OUT is still in progress the cluster's Geode goes on (R313, R316). -/
def State.outDone (s : State) (asid : BitVec 16) (c : Nat) : Bool :=
  s.switchedOut asid c && !(s.die (dieOfCluster c)).pre.any fun p => p.out && p.asid == asid && p.clusters.getLsbD c
/-- A request waits at its Geode: its context is switched out of that cluster, or the team that made it is (R313: a held CONT is saved with its
    team). -/
def State.contWaits (s : State) (q : ContReq) : Bool := s.outDone q.asid q.cluster || s.outTeams.any fun e => e.key == q.team
/-- CONT_REQUEST (the request in hand): requests of one team reach a Geode in order. -/
def execContRequest (s : State) : Out :=
  .next (match s.contReqs.get? s.hand with
    | none => s
    | some q =>
      if s.contWaits q || s.contReqs.any (fun e => decide (e.1 < s.hand) && e.2.cluster == q.cluster && e.2.team == q.team) then s
      else
        let s := { s with contReqs := s.contReqs.del s.hand }
        let done := fun (s : State) x => (s.doneLane q.group q.gio q.lane x).closeScene q.asid q.scene
        match s.ray? q.asid q.scene q.ray with
        | some (n, r) =>
          if r.f.st ≠ raCallout then done s 1
          else
            let s := s.updRay n fun r => { (r.with fun x => { x with depth := q.depth }) with group := q.group, team := q.team }
            done (if q.isEnd then s.completeRay n rsEnded else (s.enqueue n raWaitgran).newRay n id) 0
        | none => done s 1)

/-! ### RAYLD and GEOSTAT (R317, R318) -/

/-- The scene as the Geode knows it, or as its header in memory gives it; none: it is bad or cannot be read. -/
def State.sceneView (s : State) (die : Nat) (asid : BitVec 16) (team : Nat) (va : Addr) : Option SceneF :=
  let s := s.closeScene asid va
  match s.scene? asid va with
  | some c => some c.f
  | none =>
    if va.toNat % 256 ≠ 0 then none
    else match s.geoRead die asid team va.toNat 256 with
      | (s, .ok b) => match s.openScene die asid team va (ofBytes b.bytes) with
        | (_, .ok c) => some c.f
        | _ => none
      | _ => none
def execRayld (o : RayldOp) (s : State) : Out :=
  onIssuer s fun k g x =>
    let act := s.active g x o.g
    let n := 2 ^ o.cnt.toNat
    let va := s.readS g o.a.toNat
    let asid := s.asidOf g
    let view := s.sceneView (dieOfCore (coreOf k)) asid g.team va
    let word := fun l i =>
      let id := (s.readV g o.b.toNat l).toNat
      match view with
      | none => s.free 32 (393216 + 8 * l + i)
      | some c =>
        if c.nslot ≤ id then 0
        else match s.ray? asid va id with
          | some (_, r) => if r.f.st = raCallout then w32 r.data.toNat (32 * (o.w.toNat + i)) else s.free 32 (393216 + 8 * l + i)
          | none => s.free 32 (393216 + 8 * l + i)
    let out := ((lanesOf act).map fun l => laneOut o.d.toNat l ((List.range n).map (word l))).flatten
    s.issueOp k g x (.rayld o) act [] (vRange o.d.toNat n) [] none fun gio s => s.updOp k gio fun p => { p with performed := true, vOut := out }
def State.geostatValue (s : State) (k : Nat) (asid : BitVec 16) (va : Addr) : Nat :=
  match s.sceneView (dieOfCore (coreOf k)) asid (((s.group? k).map (·.team)).getD 0) va with
  | none => 1
  | some _ =>
    let mine := (s.rays.filter fun e => e.2.asid == asid && e.2.scene == va).map (·.2)
    let inCall := (mine.filter fun r => r.f.st == raCallout).length
    let inQueue := (mine.filter fun r => r.f.st == raQueued && r.cluster == clusterOf (coreOf k)).length
    mine.length * 2 ^ 47 + inCall * 2 ^ 30 + inQueue * 2 ^ 13
def execGeostat (o : SPair) (s : State) : Out :=
  onIssuer s fun k g x =>
    let act := s.active g x o.g
    let v := BitVec.ofNat 64 (s.geostatValue k (s.asidOf g) (s.readS g o.a.toNat))
    s.issueOp k g x (.geostat o) act [] [] (onceDst act o.d) none fun gio s =>
      s.updOp k gio fun p => { p with performed := true, sOut := if act = 0 then [] else [(o.d.toNat, v)] }

end Sys2Proof.Machine
end

