-- ==== Sys2Proof/Machine/Launch.lean ====
section
/-! DEFINITION. From launch to the start and the end of teams: contexts, queue slots, doorbells, commands, the choice of what starts, team
start, retirement (02 R59 to R62; 12 R256, R257, R265; 13 R280 to R286; 15 R320 to R332, R396). -/

namespace Sys2Proof.Machine

/-! ### Context descriptors (15 R320) -/

/-- A translation root: a valid non-leaf entry, of tier 0 or 1, with every other bit zero (03 R69). -/
def rootOk (x : Nat) : Bool := bitOf x 0 && fld x 1 11 == 0 && fld x 52 9 == 0 && decide (fld x 61 3 ≤ 1)
/-- The layout of 15 R320. -/
def descOk (x : Nat) : Bool :=
  fld x 384 40 == 0 && fld x 320 18 == 0 && fld x 256 12 == 0 && fld x 317 3 == 0 && fld x 160 16 == 0 && fld x 128 12 != 0
    && fld x 64 21 == 0 && fld x 8 56 == 0 && fld x 0 8 == 1 && rootOk (fld x 448 64)
def parseDesc (x key : Nat) : Ctx :=
  { root := BitVec.ofNat 64 (fld x 448 64), heapb := BitVec.ofNat 64 (fld x 384 64), tdtab := BitVec.ofNat 64 (fld x 320 64),
    pool := BitVec.ofNat 64 (fld x 256 64), poolsz := fld x 224 32, privb := BitVec.ofNat 64 (fld x 160 64),
    asid := BitVec.ofNat 16 (fld x 144 16), part := fld x 140 4, privstr := fld x 128 12, scrb := BitVec.ofNat 64 (fld x 64 64), key := key }
def State.slot (s : State) (n : Nat) : QSlot := s.slots.getD n {}
def State.setSlot (s : State) (n : Nat) (q : QSlot) : State := { s with slots := s.slots.put n q }
/-- The descriptor that a slot names, as it now stands. -/
def State.slotDesc (s : State) (q : QSlot) : Nat := s.deviceNum (ringKey q.ctxd) 64
/-- The context of a slot, read from its descriptor; its account of the pool goes on. -/
def State.openCtx (s : State) (q : QSlot) : State × Ctx :=
  let c := parseDesc (s.slotDesc q) (ringKey q.ctxd)
  let c1 := match s.ctx c.asid with
    | some o => { c with used := o.used, exhausted := o.exhausted, gone := o.gone && o.key == c.key && o.root == c.root }
    | none => c
  ({ s with ctxs := s.ctxs.put c.asid.toNat c1 }, c1)

/-! ### Commands (15 R324) -/

def cmdOp (x : Nat) : Nat := fld x 0 4
def cmdSer (x : Nat) : Bool := bitOf x 48
def cmdDie (x : Nat) : Nat := fld x 49 1
def cmdDepth (x : Nat) : Nat := fld x 50 6
def cmdArg (x : Nat) : Nat := fld x 192 64
def cmdAux (x : Nat) : Nat := fld x 256 64
def cmdHdr (x : Nat) : Addr := BitVec.ofNat 64 (fld x 320 64)
def cmdDonev (x : Nat) : BitVec 64 := BitVec.ofNat 64 (fld x 384 64)
def cmdDonea (x : Nat) : Addr := BitVec.ofNat 64 (fld x 448 64)
def cmdDims (x : Nat) : Nat × Nat × Nat := (fld x 160 32, fld x 128 32, fld x 96 32)
def cmdTeams (x : Nat) : Nat := (cmdDims x).1 * (cmdDims x).2.1 * (cmdDims x).2.2
/-- The fields that make a command BAD_CMD (15 R325). -/
def cmdBad (x : Nat) (krn : Bool) (desc : Nat) : Bool :=
  fld x 56 40 != 0 || fld x 4 44 != 0 || decide (5 < cmdOp x) || (cmdDonea x).toNat % 16 != 0 || !descOk desc
    || (cmdOp x == 1 && (cmdTeams x == 0 || decide (2 ^ 32 < cmdTeams x) || cmdAux x % 64 != 0))
    || ((cmdOp x == 4 || cmdOp x == 5) && !krn)
/-- Statuses of 15 R325. -/
def csBadHeader : Nat := 1
def csBadCmd : Nat := 2
def csCtxGone : Nat := 3
def csQuota : Nat := 4
def csFault : Nat := 5

/-- Fields of QS_CFG (15 R322). -/
def cfgEn (c : BitVec 64) : Bool := c.getLsbD 0
def cfgKrn (c : BitVec 64) : Bool := c.getLsbD 8
def cfgPrio (c : BitVec 64) : Nat := fld c.toNat 9 3
def cfgLog (c : BitVec 64) : Nat := fld c.toNat 16 4
def cfgDb (c : BitVec 64) : Nat := fld c.toNat 20 12
def State.outstanding (s : State) (slot : Nat) : Nat := (s.cmds.filter fun e => e.2.slot == slot).length
/-- A doorbell event of the queue block of die 0 (15 R323). -/
def State.doorbellEvent (s : State) (i arg1 : Nat) : State :=
  s.post { die := 0, kind := 3, source := 1024, arg0 := BitVec.ofNat 64 i, arg1 := BitVec.ofNat 64 arg1 }
/-- The event of an overrun, where one is due. -/
def State.postOverrun (s : State) (n : Nat) : State :=
  match (s.slot n).ovrDue with
  | some i => (s.setSlot n { s.slot n with ovrDue := none }).doorbellEvent i 1
  | none => s
/-- A slot that stops clears EN once its fetched commands have completed, and an overrun is then reported, also where firmware has cleared EN
    meanwhile (15 R323, R396). -/
def State.settleSlot (s : State) (n : Nat) : State :=
  let q := s.slot n
  if s.outstanding n != 0 then s
  else (if q.stopping then s.setSlot n { q with cfg := q.cfg &&& ~~~1, stopping := false } else s).postOverrun n

/-! ### Completion (15 R325, R396) -/

/-- A completed command leaves its slot. -/
def State.closeCmd (s : State) (n : Nat) (c : Cmd) : State :=
  ({ s with cmds := s.cmds.del n, plat := { s.plat with windows := s.plat.windows.del n, phases := s.plat.phases.filter fun e => e.1 != n } }.dropRec
    (.completion n)).settleSlot c.slot
/-- The completion writes that remain, in order, as a release at .dev. `fuel` is at least their number. -/
def State.writeDone : Nat → State → Nat → State
  | 0, s, _ => s
  | fuel + 1, s, n =>
    match s.cmds.get? n with
    | none => s
    | some c =>
      match c.writes with
      | [] => s.closeCmd n c
      | (va, v) :: t =>
        match s.engineWrite 0 c.asid va (toBytes 8 v.toNat) false with
        | (s, .ok _) => State.writeDone fuel { s with cmds := s.cmds.put n { c with writes := t, waiting := false } } n
        | (s, .error f) =>
          match s.raiseRec 0 codeDevice (.completion n) f c.asid (0xFF, 0) with
          | some s => { s with cmds := s.cmds.put n { c with waiting := true } }
          | none => s
/-- A command completes with a status. -/
def State.finishCmd (s : State) (n status : Nat) : State :=
  match s.cmds.get? n with
  | none => s
  | some c =>
    let x := c.raw.toNat
    let ws := if cmdDonea x = 0 ∨ (cmdDonea x).toNat % 16 ≠ 0 then []
              else [(cmdDonea x + 8, BitVec.ofNat 64 status), (cmdDonea x, cmdDonev x)]
    let s := ({ s with cmds := s.cmds.put n { c with done := true, started := true, status := status, writes := ws } }).dropRec (.command n)
    s.writeDone 3 n
/-- A command may start: those before it in its ring have started, or have begun to and wait by themselves, and under SER have completed (15
    R326, R396). -/
def State.mayStart (s : State) (c : Cmd) : Bool :=
  !(s.cmds.any fun e => e.2.slot == c.slot && decide (e.2.order < c.order) && (cmdSer c.raw.toNat || !(e.2.started || e.2.begun)))
/-- A command in hand of the operations that `p` selects: its completion writes are made if it is done; a bad or orphaned one completes
    (R325); else `start` starts it, or `go` goes on with it. -/
def onCmd (s : State) (p : Nat → Bool) (start : Nat → Cmd → State → State) (go : Nat → Cmd → State → State) : Out :=
  let n := s.hand
  .next (match s.cmds.get? n with
    | none => s
    | some c =>
      let x := c.raw.toNat
      if !p (cmdOp x) || c.waiting then s
      else if c.done then s.writeDone 3 n
      else if c.started then go n c s
      else if !s.mayStart c then s
      else if cmdBad x (cfgKrn (s.slot c.slot).cfg) (s.slotDesc (s.slot c.slot)) then s.finishCmd n csBadCmd
      else if ((s.ctx c.asid).map (·.gone)).getD false then s.finishCmd n csCtxGone
      else start n c s)
/-- A fault on a read for a command is held, and the command waits (R396). -/
def State.holdCmd (s : State) (n : Nat) (c : Cmd) (die : Nat) (f : Nat × Addr) : State :=
  match s.raiseRec die codeDevice (.command n) f c.asid (0xFF, 0) with
  | some s => { s with cmds := s.cmds.put n { c with waiting := true, begun := true } }
  | none => s
def State.setCmd (s : State) (n : Nat) (c : Cmd) : State := { s with cmds := s.cmds.put n c }

/-! ### Slots and doorbells (15 R322, R323) -/

/-- The enabled slot that names a doorbell. -/
def State.slotOfDoorbell (s : State) (i : Nat) : Option Nat :=
  (List.range 32).find? fun n => cfgEn (s.slot n).cfg && cfgDb (s.slot n).cfg == i
/-- TAIL more than a ring ahead of QS_HEAD: the slot stops (R323). -/
def State.checkOverrun (s : State) (n : Nat) : State :=
  let q := s.slot n
  if cfgEn q.cfg && !q.stopping && decide (2 ^ cfgLog q.cfg < (s.tails.getD (cfgDb q.cfg) 0 - q.head).toNat) then
    (s.setSlot n { q with ovr := true, stopping := true, ovrDue := some (cfgDb q.cfg) }).settleSlot n
  else s
/-- A write of TAIL (R323). -/
def State.writeTail (s : State) (i : Nat) (tail : BitVec 32) : State :=
  let s := { s with tails := s.tails.put i tail }
  match s.slotOfDoorbell i with
  | some n => s.checkOverrun n
  | none =>
    let b := s.pend.getD (i / 8) 0
    if b.getLsbD (i % 8) then s
    else ({ s with pend := s.pend.put (i / 8) (b ||| BitVec.ofNat 8 (2 ^ (i % 8))) }).doorbellEvent i 0
/-- DOORBELL_WRITE: i is below 4,096 (R323). -/
def execDoorbellWrite (i : Nat) (tail : BitVec 32) (s : State) : Out := .next (if i < 4096 then s.writeTail i tail else s)
/-- Pending bits fall where a write to PENDMAP has ones (R323, R391). -/
def State.clearPend (s : State) (off n : Nat) (v : BitVec 64) : State :=
  (List.range n).foldl (fun s i =>
    let b := s.pend.getD (off + i) 0
    { s with pend := s.pend.putD 0 (off + i) (b &&& ~~~(v.extractLsb' (8 * i) 8)) }) s
/-- PENDMAP_CLEAR: bytes off to off + n - 1 of the map's 512. -/
def execPendmapClear (off n : Nat) (v : BitVec 64) (s : State) : Out := .next (if off + n ≤ 512 then s.clearPend off n v else s)
/-- Fields of QS_CFG that are read-only while EN is 1: DBIDX, LOGSZ, KRN (R322). -/
def cfgFixed : BitVec 64 := 0xFFFF0100 &&& ~~~0xF000
/-- A write of EN = 1 is refused (R322). -/
def State.enableBad (s : State) (n : Nat) (v : BitVec 64) : Bool :=
  let q := s.slot n
  ((List.range 32).any fun m => m != n && cfgEn (s.slot m).cfg && cfgDb (s.slot m).cfg == cfgDb v)
    || fld v.toNat 32 32 != 0 || fld v.toNat 12 4 != 0 || fld v.toNat 1 7 != 0 || decide (cfgLog v < 6)
    || fld q.base.toNat 0 12 != 0 || fld q.base.toNat 52 12 != 0
    || fld q.ctxd.toNat 0 6 != 0 || decide (1 < fld q.ctxd.toNat 61 3) || fld q.ctxd.toNat 52 9 != 0
/-- A write to QS_CFG (R322). A slot enabled anew first reports an overrun that it has not yet reported (R323). -/
def State.writeCfg (s : State) (n : Nat) (v : BitVec 64) : State :=
  let q := s.slot n
  let v := if cfgEn q.cfg then (v &&& ~~~cfgFixed) ||| (q.cfg &&& cfgFixed) else v
  if !cfgEn v then s.setSlot n { q with cfg := v, stopping := false }
  else
    let q1 := { q with ovr := false, flt := false }
    if s.enableBad n v then s.setSlot n { q1 with err := true }
    else
      let s := s.setSlot n { q1 with cfg := v, err := false }
      (if cfgEn q.cfg then s else s.postOverrun n).checkOverrun n
/-- QS_ENABLE, QS_DISABLE: a write to QS_CFG with EN = 1 or 0. -/
def execQsEnable (slot : Nat) (cfg : BitVec 64) (s : State) : Out := .next (if slot < 32 ∧ cfgEn cfg then s.writeCfg slot cfg else s)
def execQsDisable (slot : Nat) (cfg : BitVec 64) (s : State) : Out := .next (if slot < 32 ∧ !cfgEn cfg then s.writeCfg slot cfg else s)
/-- COMMAND_FETCH (the slot in hand): the next ring entry is fetched (R323, R324, R326); a faulted read is held (R396). -/
def execCommandFetch (s : State) : Out :=
  let n := s.hand
  .next (
    let s := s.checkOverrun n
    let q := s.slot n
    if n ≥ 32 ∨ !cfgEn q.cfg ∨ q.stopping ∨ q.waiting ∨ s.tails.getD (cfgDb q.cfg) 0 = q.head then s
    else
      let (s, c) := s.openCtx q
      let va := q.base + BitVec.ofNat 64 (64 * (q.head.toNat % 2 ^ cfgLog q.cfg))
      match s.engineRead 0 c.asid va 64 .read false with
      | (s, .error f) =>
        match s.raiseRec 0 codeDevice (.ring n) f c.asid (0xFF, 0) with
        | some s => s.setSlot n { q with waiting := true }
        | none => s
      | (s, .ok bs) =>
        let i := s.cmds.next
        let c : Cmd := { slot := n, asid := c.asid, raw := BitVec.ofNat 512 (ofBytes bs), order := i, ready := s.cycle }
        ({ s with cmds := s.cmds.put i c }.setSlot n { q with head := q.head + 1 }).dropRec (.ring n))

/-! ### What a team needs (15 R331, R332; 08 R179; 10 R215, R224; 12 R256, R257; 16 R354) -/

/-- A group of a team to be started: its role, entry and register blocks. -/
structure Plan where
  role : Nat
  entry : Addr
  vinit : Nat
  vmax : Nat
  deriving DecidableEq, Repr
def plansFrom : Nat → List RoleEntry → List Plan
  | _, [] => []
  | i, r :: t => List.replicate r.groups { role := i, entry := r.entry, vinit := r.vinit, vmax := r.vmax } ++ plansFrom (i + 1) t
/-- The groups of a team in the order of their numbers (12 R257). -/
def Kernel.plan (k : Kernel) : List Plan :=
  if k.hdr.kind = 2 then plansFrom 0 k.roles
  else List.replicate k.hdr.groups { role := 0, entry := k.hdr.entry, vinit := k.hdr.vinit, vmax := k.hdr.vmax }
/-- The groups on core c of a team whose lower core is `core`: even ones below, odd ones above, of a pair (12 R256). -/
def plansOn (pair : Bool) (upper : Bool) (l : List Plan) : List Plan :=
  if !pair then (if upper then [] else l)
  else ((enum 0 l).filter fun e => (e.1 % 2 == 1) == upper).map (·.2)
/-- The start test of 08 R179 for groups one by one: free granules, needs of the residents, granules of VINIT and VMAX of each. -/
def startsIn : Nat → Nat → List (Nat × Nat) → Bool
  | _, _, [] => true
  | free, need, (vi, vm) :: t =>
    let need := max need (vm - vi)
    decide (vi ≤ free) && decide (need ≤ free - vi) && startsIn (free - vi) need t
def frames (h : Header) : Nat := (h.scratch + 4095) / 4096
/-- Teams that use a core for their sequencer and tiles. -/
def State.teamsOnCore (s : State) (c : Nat) : List (Nat × Team) := s.teams.filter fun e => e.2.core == c
def State.partOf (s : State) (t : Team) : Nat := ((s.ctx t.asid).map (·.part)).getD 0
/-- A start's groups fit one core (R331, R332; 08 R179). -/
def State.coreFits (s : State) (core part : Nat) (h : Header) (l : List Plan) : Bool :=
  let mine := s.groupsOn core
  let own := mine.filter fun e => s.partitionOf e.2 == part
  let gr := h.width / 16
  let new := l.map fun p => (p.vinit * gr, p.vmax * gr)
  l.isEmpty || (decide (mine.length + l.length ≤ Config.slotsPerCore) && decide (own.length + l.length ≤ quotaGslot (s.quota part))
    && startsIn (s.freeGranulesFor core part) (maxOf (mine.map fun e => e.2.need)) new)
/-- A start fits the lower core `core`: everything it needs can be held together, granules of the pool apart (R332). -/
def State.placeFits (s : State) (core part : Nat) (h : Header) (l : List Plan) : Bool :=
  let q := s.quota part
  let cl := clusterOf core
  let there := s.teams.filter fun e => e.2.cluster == cl
  let own := fun (ts : List (Nat × Team)) => ts.filter fun e => s.partOf e.2 == part
  let on := s.teamsOnCore core
  let sum := fun (f : Header → Nat) (ts : List (Nat × Team)) => (ts.map fun e => f e.2.kern.hdr).sum
  let seqs := fun (x : Header) => if x.seq then 1 else 0
  decide (core < Config.cores) && (!h.tpair || core % 2 == 0) && decide (there.length < 256)
    && there.all (fun e => e.2.kern.hdr.fuse == h.fuse)
    && s.coreFits core part h (plansOn h.tpair false l) && s.coreFits (core + 1) part h (plansOn h.tpair true l)
    && decide (sum frames there + frames h ≤ 512) && decide (sum frames (own there) + frames h ≤ quotaScrf q)
    && decide (sum (·.acct) on + h.acct ≤ 32) && decide (sum (·.acct) (own on) + h.acct ≤ quotaAcc q)
    && decide (sum seqs on + seqs h ≤ 4) && decide (sum seqs (own on) + seqs h ≤ quotaSeq q)
/-- It can never fit an empty core within its partition's caps (15 R325 QUOTA). -/
def State.neverFits (s : State) (part : Nat) (h : Header) (l : List Plan) : Bool :=
  let q := s.quota part
  let gr := h.width / 16
  let one := fun (p : List Plan) => decide (p.length ≤ min Config.slotsPerCore (quotaGslot q))
    && startsIn (min Config.granulesPerCore (quotaVrg q)) 0 (p.map fun p => (p.vinit * gr, p.vmax * gr))
  !(one (plansOn h.tpair false l) && one (plansOn h.tpair true l) && decide (frames h ≤ min 512 (quotaScrf q))
    && decide (h.acct ≤ min 32 (quotaAcc q)) && (!h.seq || decide (1 ≤ quotaSeq q)))
/-- Where a group's save frame begins in its private region (16 R354). -/
def frameOffset (h : Header) : Nat := (h.width * h.priv + 4095) / 4096 * 4096
/-- The bytes of a save frame: 64 KB, 4 KB and twice 16 KB; that of group 0 of a team with a sequencer is followed by the sequencer's area (16
    R354). -/
def frameBytes (h : Header) (gidx : Nat) : Nat := 102400 + if h.seq && gidx == 0 then 73728 + 16384 * h.acct else 0
/-- Bytes that a group's private region must hold (16 R354), when its stride is too small for them. -/
def frameShort (c : Ctx) (h : Header) : Option Nat :=
  let n := frameOffset h + frameBytes h (if h.seq then 0 else 1)
  if 65536 * c.privstr < n then some n else none

/-! ### Starting a team (15 R321, R332; 12 R256 to R259; 02 R38) -/

/-- A start that fits: what the launcher loads. -/
structure Start where
  ctx : Ctx
  kern : Kernel
  hdrVa : Addr
  plan : List Plan
  cmd : Option Nat
  tIndex : Nat := 0
  arg : Nat := 0
  /-- records by place in the team: group times width plus lane -/
  recs : List LaneRec
  count : Nat
  inGran : Nat := 0
  reserve : Nat
  extents : List Extent := []
  deriving DecidableEq, Repr
/-- The core partition with the fewest resident groups, the lowest of them (15 R333). -/
def State.emptiestPart (s : State) (core : Nat) : Nat :=
  let n := fun p => ((s.groupsOn core).filter fun e => e.2.part == p).length
  ((List.range 4).find? fun p => (List.range 4).all fun r => decide (n p ≤ n r)).getD 0
/-- The lowest free group slot of a core. -/
def State.freeGslot (s : State) (core : Nat) : Nat := ((List.range 64).find? fun i => (s.group? (64 * core + i)).isNone).getD 0
/-- A group enters its core (12 R257, R259; 15 R321); v0 holds the lane index, every other vector register 0 (08 R173). -/
def State.startGroup (s : State) (t core gidx : Nat) (num : Nat) (p : Start) (g : Plan) : State :=
  let slot := s.freeGslot core
  let k := 64 * core + slot
  let w := p.kern.hdr.width
  let lanes := allLanes (min w (p.recs.length - gidx * w))
  let priv := p.ctx.privb + BitVec.ofNat 64 (65536 * p.ctx.privstr * k)
  let sregs : Tab (BitVec 64) := Tab.putD 0 (Tab.putD 0 [] 0 (BitVec.ofNat 64 p.arg)) 1 (BitVec.ofNat 64 p.tIndex)
  let x : Group := { team := t, gidx := gidx, role := g.role, width := w, bornAt := s.cycle, born := num, part := s.emptiestPart core,
                     blocks := g.vinit, vmax := g.vmax, v := putLanes [] 0 (fun l => BitVec.ofNat 32 l) (List.range w),
                     s := sregs.putD 0 2 priv, live := lanes,
                     splits := [{ mask := lanes, pc := g.entry, coreLast := (s.core core).issued.getD (s.emptiestPart core) 0 }],
                     recs := [], priv := priv }
  s.setGroup k x
def State.startGroups (s : State) (t core num : Nat) (p : Start) : Nat → List Plan → State
  | _, [] => s
  | i, g :: rest =>
    let c := if p.kern.hdr.tpair then core + i % 2 else core
    (s.startGroup t c i num p g).startGroups t core num p (i + 1) rest
/-- A cluster takes the mode of a launch (04 R90): the change writes back and empties its L1s, and no PTS falls. -/
def State.setMode (s : State) (cl : Nat) (fuse : Bool) : State :=
  if s.fused.getLsbD cl == fuse then s
  else
    let cs := (List.range 4).map (4 * cl + ·)
    let s := cs.foldl (fun (s : State) c => s.writeBackAll c) s
    let top := maxOf (cs.map fun c => s.pts c)
    let s := cs.foldl (fun (s : State) c => s.updCore c fun x => { x with l1 := [], pts := top, base := top }) s
    { s with fused := if fuse then s.fused ||| BitVec.ofNat 36 (2 ^ cl) else s.fused &&& ~~~(BitVec.ofNat 36 (2 ^ cl)) }
/-- Keys of a team's groups, in the order of their numbers. -/
def State.groupKeys (s : State) (t : Nat) : List Nat :=
  let l := s.groups.filter fun e => e.2.team == t
  (List.range 32).filterMap fun i => (l.find? fun e => e.2.gidx == i).map (·.1)
/-- Records by 64 g + l. -/
def recTab (w : Nat) : Nat → List LaneRec → Tab LaneRec
  | _, [] => []
  | i, r :: t => (64 * (i / w) + i % w, r) :: recTab w (i + 1) t
/-- Everything the team needs is held at once, and its groups and its sequencer start (15 R332; 10 R215; 05 R118, log 28). -/
def State.startTeam (s : State) (core : Nat) (p : Start) : State :=
  let die := dieOfCore core
  let cl := clusterOf core
  let num := (s.die die).teams
  let t := 2 * num + die
  let h := p.kern.hdr
  let s := (s.setMode cl h.fuse).freshDescs p.ctx.asid
  let s := s.updDie die fun d => { d with teams := num + 1, lastBin := p.cmd.isNone }
  let cores := if h.tpair then [core, core + 1] else [core]
  let s := cores.foldl (fun (s : State) c => s.raisePts c s.devTime) s
  let slot := ((List.range 256).find? fun i => !s.teams.any fun e => e.2.cluster == cl && e.2.slot == i).getD 0
  let q := ((List.range 4).find? fun i => (s.seq? (4 * core + i)).isNone).map (4 * core + ·)
  let seq := if h.seq then q else none
  let team : Team := { asid := p.ctx.asid, cluster := cl, core := core, pair := h.tpair, slot := slot, num := num, kern := p.kern,
                       hdrVa := p.hdrVa, cmd := p.cmd, tIndex := p.tIndex, count := p.count, recs := recTab h.width 0 p.recs, inGran := p.inGran,
                       reserve := p.reserve, groups := [], seq := seq, extents := p.extents }
  let s := { s with teams := s.teams.put t team }
  let s := s.startGroups t core num p 0 p.plan
  let s := s.updTeam t fun x => { x with groups := s.groupKeys t }
  match seq with
  | some q => { s with seqs := s.seqs.put q { team := t, pc := h.mstream } }
  | none => s

/-! ### Which work starts (13 R280, R281, R283, R287; 15 R327) -/

def Bin.ready (b : Bin) : Bool := decide (b.kern.hdr.capacity ≤ b.recs.length) || (b.timed && !b.recs.isEmpty)
def Bin.oldest (b : Bin) : Nat := (b.recs.head?.map (·.arrived)).getD 0
def Bin.deepest (b : Bin) : Nat := maxOf ((b.recs.take b.kern.hdr.capacity).map (·.depth))
/-- The oldest record of a bin has waited more than 8 timers (R281). -/
def State.urgent (s : State) (b : Bin) : Bool := decide (b.oldest + 8 * b.kern.hdr.timerCycles < s.cycle)
/-- A list in the order that `before` gives. -/
def insertBy {α : Type} (before : α → α → Bool) (x : α) : List α → List α
  | [] => [x]
  | y :: t => if before x y then x :: y :: t else y :: insertBy before x t
def sortBy {α : Type} (before : α → α → Bool) (l : List α) : List α := l.foldr (insertBy before) []
/-- A candidate for the resources of a core: a bin, or a slot with the commands it would start teams of. -/
inductive Cand where
  | bin (n : Nat)
  | slot (l : List Nat)
  deriving DecidableEq, Repr
/-- Bins of a die that are ready, of contexts resident on some cluster of it (13 R287). -/
def State.readyBins (s : State) (die : Nat) : List (Nat × Bin) :=
  s.bins.filter fun e => e.2.die == die && e.2.ready && !((s.ctx e.2.asid).map (·.gone)).getD true
    && !s.awayFrom e.2.asid die
/-- Commands that would start a team. -/
def Cmd.offers (c : Cmd) : Bool := c.started && !c.done && c.kern.isSome && decide (c.nextTeam < cmdTeams c.raw.toNat)
/-- When a slot's wait began, for the priority of 15 R327. -/
def State.waitedSince (s : State) (c : Cmd) : Nat := max c.ready (s.slot c.slot).lastStart
def State.effPrio (s : State) (c : Cmd) : Nat := min 7 (cfgPrio (s.slot c.slot).cfg + (s.cycle - s.waitedSince c) / 16384)
/-- Slots in the order of 15 R327, each with its commands in ring order. -/
def State.slotCands (s : State) : List (List Nat) :=
  let offers := s.cmds.filter fun e => e.2.offers
  let heads := offers.filter fun e => !offers.any fun f => f.2.slot == e.2.slot && decide (f.2.order < e.2.order)
  let sorted := sortBy (fun (a b : Nat × Cmd) => decide (s.effPrio b.2 < s.effPrio a.2)
    || (s.effPrio a.2 == s.effPrio b.2 && (decide (a.2.ready < b.2.ready) || (a.2.ready == b.2.ready && decide (a.2.order ≤ b.2.order))))) heads
  sorted.map fun h => (offers.filter fun e => e.2.slot == h.2.slot).map (·.1)
def turnAbout : List Cand → List Cand → List Cand
  | a :: s, b :: t => a :: b :: turnAbout s t
  | [], t => t
  | s, [] => s
/-- The candidates of a die in their order (13 R281, 15 R327). -/
def State.candidates (s : State) (die : Nat) : List Cand :=
  let bins := s.readyBins die
  let first := sortBy (fun (a b : Nat × Bin) => decide (a.2.oldest ≤ b.2.oldest)) (bins.filter fun e => s.urgent e.2)
  let rest := sortBy (fun (a b : Nat × Bin) => decide (b.2.deepest < a.2.deepest) || (a.2.deepest == b.2.deepest && decide (a.2.oldest ≤ b.2.oldest)))
    (bins.filter fun e => !s.urgent e.2)
  let bs := rest.map fun e => Cand.bin e.1
  let ss := s.slotCands.map Cand.slot
  (first.map fun e => Cand.bin e.1) ++ if (s.die die).lastBin then turnAbout ss bs else turnAbout bs ss
/-- The context may start teams on a cluster. -/
def State.mayUse (s : State) (asid : BitVec 16) (cl : Nat) : Bool :=
  !s.switchedOut asid cl

/-- A copy request that holds a reservation, or a ray QUEUED or ACTIVE, of a context is in progress (13 R283). -/
def State.recordsComing (s : State) (asid : BitVec 16) : Bool :=
  (s.copies.any fun e => (parseReq e.2.raw.toNat).recd && (((s.team? e.2.team).map (·.asid)).getD 0) == asid)
    || s.rays.any fun e => e.2.asid == asid && (e.2.f.st == raQueued || e.2.f.st == raActive)
/-- What a bin would start: m records, oldest first (13 R280, R282). -/
def binStart (c : Ctx) (b : Bin) : Start :=
  let h := b.kern.hdr
  let m := min b.recs.length h.capacity
  { ctx := c, kern := b.kern, hdrVa := b.node, plan := b.kern.plan.take ((m + h.width - 1) / h.width), cmd := none,
    recs := (b.recs.take m).map (fun r => ({ data := r.data, depth := r.depth, src := r.src } : LaneRec)), count := m,
    inGran := ((b.recs.take m).map (·.gran)).sum, reserve := m * h.fanout * 16 }
/-- What waits for pool granules alone on a die, with the granules it needs and its node: ready bins that fit some core, RECORD commands, and
    rays that wait to be queued again (13 R282, R283; 14 R316). -/
def State.starved (s : State) (asid : BitVec 16) (die : Nat) : List (Nat × Addr) :=
  match s.ctx asid with
  | none => []
  | some c =>
    let bins := (s.readyBins die).filter fun (e : Nat × Bin) => e.2.asid == asid && (frameShort c e.2.kern.hdr).isNone
      && (List.range 72).any fun i => s.mayUse asid (clusterOf (72 * die + i)) && s.placeFits (72 * die + i) c.part e.2.kern.hdr (binStart c e.2).plan
    let recs := s.cmds.filter fun (e : Nat × Cmd) => e.2.asid == asid && e.2.short != 0 && !e.2.started && !e.2.done && cmdDie e.2.raw.toNat == die
    let out := s.rays.filter fun (e : Nat × Ray) => e.2.asid == asid && e.2.f.st == raWaitgran && dieOfCluster e.2.cluster == die
      && !s.switchedOut asid e.2.cluster
    let all := (bins.map fun (e : Nat × Bin) => ((binStart c e.2).reserve, e.2.node))
      ++ (recs.map fun (e : Nat × Cmd) => (e.2.short, cmdHdr e.2.raw.toNat))
      ++ out.map fun (e : Nat × Ray) => (16, BitVec.ofNat 64 (((s.scene? asid e.2.scene).map fun (x : Scene) => x.f.fnode).getD 0))
    all.filter fun w => decide (c.freeGranules < w.1)
/-- QUEUE_EXHAUSTED: work of a context on a die waits for granules alone, and nothing in progress will free any (13 R283). It names what the
    least of it needs; one event is posted for as long as that holds. -/
def State.exhaust (s : State) (asid : BitVec 16) (die : Nat) : State :=
  match s.ctx asid, (sortBy (fun (a b : Nat × Addr) => decide (a.1 ≤ b.1)) (s.starved asid die)).head? with
  | some c, some w =>
    if c.exhausted.getLsbD die || s.teams.any (fun e => e.2.asid == asid) || s.recordsComing asid then s
    else (s.updCtx asid fun c => { c with exhausted := c.exhausted ||| BitVec.ofNat 2 (2 ^ die) }).post
      { die := die, kind := 4, source := 768 + die, asid := asid, arg0 := w.2, arg1 := BitVec.ofNat 64 w.1 }
  | _, _ => s
/-- Granules were found: a die where nothing waits for any more may report again. -/
def State.relieved (s : State) (asid : BitVec 16) : State :=
  let m := maskWhere fun d => decide (d < 2) && !(s.starved asid d).isEmpty
  s.updCtx asid fun c => { c with exhausted := c.exhausted &&& m.setWidth 2 }
/-- A bin starts its team on a core, if it fits (13 R280, R282; 16 R354). -/
def State.tryBin (s : State) (core n : Nat) : State × Bool :=
  match s.bins.get? n with
  | none => (s, false)
  | some b =>
    match s.ctx b.asid with
    | none => (s, false)
    | some c =>
      let p := binStart c b
      if !s.mayUse b.asid (clusterOf core) then (s, false)
      else match frameShort c b.kern.hdr with
        | some need =>
          if b.framed then (s, false)
          else (({ s with bins := s.bins.put n { b with framed := true } }).post
            { die := b.die, kind := 9, source := 768 + b.die, asid := b.asid, arg0 := b.node, arg1 := BitVec.ofNat 64 need }, false)
        | none =>
          if !s.placeFits core c.part b.kern.hdr p.plan then (s, false)
          else match s.takeGranules b.asid p.reserve with
            | none => (s.exhaust b.asid b.die, false)
            | some s =>
              let s := s.startTeam core p
              let left : Bin := { b with recs := b.recs.drop p.count, sram := b.sram - p.count, timed := false }
              let s := (s.updCtx b.asid fun c => { c with exhausted := 0 })
              (({ s with bins := s.bins.put n left } : State).refillDie b.die, true)
/-- RAY_GRANULES_RESERVED (the ray in hand): the first ray of its context to wait obtains its 16 granules; one whose context
    is switched out of its cluster keeps its state (14 R313). While the pool lacks them it waits as a bin of FNODE does (14 R316). -/
def execRayGranulesReserved (s : State) : Out :=
  .next (match s.rays.get? s.hand with
    | none => s
    | some r =>
      if r.f.st ≠ raWaitgran ∨ s.switchedOut r.asid r.cluster ∨ s.rays.any (fun e => e.2.asid == r.asid && e.2.f.st == raWaitgran && decide (e.2.ord < r.ord) && !s.switchedOut e.2.asid e.2.cluster) then s
      else match s.takeGranules r.asid 16 with
        | none => s.exhaust r.asid (dieOfCluster r.cluster)
        | some s => (((s.updRay s.hand fun r => { r with gran := r.gran + 16 }).enqueue s.hand raQueued).newRay s.hand id).relieved r.asid)
/-- The synthesised record of an index-space lane (13 R286). -/
def indexRec (x y z i : Nat) : LaneRec := { data := toBytes 4 x ++ toBytes 4 y ++ toBytes 4 z ++ toBytes 4 i, depth := 0, src := 5 }
/-- What a DISPATCH would start next (13 R282, R286). -/
def dispatchStart (c : Ctx) (n : Nat) (d : Cmd) (k : Kernel) : Start :=
  let (nx, ny, _) := cmdDims d.raw.toNat
  let t := d.nextTeam
  let h := k.hdr
  let lanes := k.plan.length * h.width
  { ctx := c, kern := k, hdrVa := cmdHdr d.raw.toNat, plan := k.plan, cmd := some n, tIndex := t, arg := cmdArg d.raw.toNat,
    recs := (List.range lanes).map fun i => indexRec (t % nx) (t / nx % ny) (t / (nx * ny)) i, count := h.capacity,
    reserve := lanes * h.fanout * 16, extents := d.extents }
/-- A DISPATCH starts its next team on a core, if it fits. -/
def State.tryDispatch (s : State) (core n : Nat) : State × Bool :=
  match s.cmds.get? n with
  | none => (s, false)
  | some d =>
    match d.kern, s.ctx d.asid with
    | some k, some c =>
      let p := dispatchStart c n d k
      if !s.mayUse d.asid (clusterOf core) || !s.placeFits core c.part k.hdr p.plan then (s, false)
      else match s.takeGranules d.asid p.reserve with
        | none => (s, false)
        | some s =>
          let s := (s.startTeam core p).setCmd n { d with nextTeam := d.nextTeam + 1 }
          let s := s.updCtx d.asid fun c => { c with exhausted := 0 }
          (s.setSlot d.slot { s.slot d.slot with lastStart := s.cycle }, true)
    | _, _ => (s, false)
def State.tryFirst (s : State) (f : State → Nat → State × Bool) : List Nat → State × Bool
  | [] => (s, false)
  | n :: t => match f s n with
    | (s, true) => (s, true)
    | (s, false) => s.tryFirst f t
/-- The candidates are offered the core in turn; the first that fits starts. -/
def State.offer (s : State) (core : Nat) : List Cand → State
  | [] => s
  | .bin n :: t => match s.tryBin core n with
    | (s, true) => s
    | (s, false) => s.offer core t
  | .slot l :: t => match s.tryFirst (fun s n => s.tryDispatch core n) l with
    | (s, true) => s
    | (s, false) => s.offer core t
/-- TEAM_START (the core in hand, the lower of a pair): the free resources of a core are offered to the ready work of its die (13 R281, 15
    R327), and the first whose team can hold all that it needs starts it (R332). The SIMT cores start nothing before boot step 5. -/
def execTeamStart (s : State) : Out :=
  .next (if s.plat.simt && decide (s.hand < Config.cores) then s.offer s.hand (s.candidates (dieOfCore s.hand)) else s)

/-! ### Retirement and the end of a team (12 R265, 10 R218, 13 R285) -/

/-- The activation table of a core is freed when its owner has no group there (09 R200). -/
def State.freeTable (s : State) (core : Nat) : State :=
  match (s.core core).owner with
  | some a =>
    if (s.groupsOn core).any fun e => s.asidOf e.2 == a then s
    else s.updCore core fun c => { c with atab := [], atctl := [], act := false, owner := none, atops := [], atwritten := [] }
  | none => s
/-- The last group of a team has retired: the sequencer takes no further word, a held command is discarded, an MWAIT abandoned (10 R218). -/
def stopStream (x : Seq) : Seq := { x with exited := true, held := none, waiting := none }
/-- A copy request of a team is accepted, or in progress (log 32). -/
def State.copying (s : State) (t : Nat) (tm : Team) : Bool :=
  tm.queue.any (fun e => e.slot.isNone || e.bound == some true) || s.copies.any fun e => e.2.team == t
/-- The team's end: its L1s are written back, its resources, its reservation and its input records are freed, and its command may complete
    (13 R282, R285; 15 R324). -/
def State.endTeam (s : State) (t : Nat) : State :=
  match s.team? t with
  | none => s
  | some tm =>
    let busy := match tm.seq.bind s.seq? with
      | some x => !x.cmds.isEmpty && x.stop.isNone
      | none => false
    if tm.groups.any (fun k => ((s.group? k).map (·.team)) == some t) || busy || s.copying t tm then s
    else
      let cores := if tm.pair then [tm.core, tm.core + 1] else [tm.core]
      let s := cores.foldl (fun (s : State) c => s.writeBackAll c) s
      let s := s.giveGranules tm.asid (tm.reserve + tm.inGran)
      let s := { s with teams := s.teams.del t, seqs := match tm.seq with
        | some q => s.seqs.del q
        | none => s.seqs }
      let s := s.releaseBin (dieOfCluster tm.cluster) tm.asid tm.hdrVa
      match tm.cmd.bind fun n => (s.cmds.get? n).map fun c => (n, c) with
      | some (n, c) =>
        let c1 := { c with retired := c.retired + 1 }
        let s := s.setCmd n c1
        if c1.retired = cmdTeams c.raw.toNat ∧ !c.done then s.finishCmd n 0 else s
      | none => s
/-- A group has nothing left to do. -/
def Group.spent (g : Group) : Bool := g.live == 0 && g.ops.isEmpty && g.stop.isNone && (g.park == .no || g.park == .asked || g.park == .dumping)
/-- Walks, requests and waits that name a group no longer do. -/
def State.forgetGroup (s : State) (k : Nat) : State :=
  let other := fun (w : WalkFor) => match w with
    | .op j _ _ | .split j _ => j != k
    | .hart _ => true
  { s with
    walks := s.walks.map fun (e : Nat × Walk) => (e.1, { e.2 with waits := e.2.waits.filter fun w => other w.1 })
    waits := s.waits.filter fun w => match w.who with
      | .op j _ _ => j != k
      | _ => true
    reqs := s.reqs.filter fun e => match e.2.who with
      | .op j _ _ => j != k
      | _ => true
    cores := s.cores.map fun (e : Nat × Core) => (e.1, { e.2 with log := e.2.log.filter fun l => l.2 != k }) }
/-- A group leaves its core. -/
def State.retireGroup (s : State) (k : Nat) (g : Group) : State :=
  let s := (s.leaveBarriers g).forgetGroup k
  let s := ({ s with groups := s.groups.del k }).freeTable (coreOf k)
  match s.teamOf g with
  | some t =>
    if t.groups.any (fun j => ((s.group? j).map (·.team)) == some g.team) then s
    else match t.seq with
      | some q => s.updSeq q stopStream
      | none => s
  | none => s
/-- Team keys in hand stand above this bound. -/
def teamHand : Nat := 2 ^ 20
/-- GROUP_RETIRE (the group in hand; or, from 2^20 on, a team whose groups have all retired and whose last work has since ended): a group
    whose lanes have all exited and whose work is complete retires; the team ends with its last group (12 R265, 10 R218). -/
def execGroupRetire (s : State) : Out :=
  .next (if teamHand ≤ s.hand then s.endTeam (s.hand - teamHand)
    else match s.group? s.hand with
      | none => s
      | some g => if g.spent then (s.retireGroup s.hand g).endTeam g.team else s)

/-! ### The commands (15 R324) -/

/-- NOP (the command in hand): it completes when fetched. A command of a reserved OP completes with BAD_CMD. -/
def execNop (s : State) : Out := onCmd s (fun op => op == 0 || decide (5 < op)) (fun n _ s => s.finishCmd n 0) fun _ _ s => s
/-- The role table (02 R62), or none where it breaks its layout. -/
def parseRoles (l : List (Nat × Nat)) : Option (List RoleEntry) :=
  if l.all fun e => fld e.1 0 32 == 0 && fld e.1 56 8 == 0 && decide (1 ≤ fld e.1 32 8) && decide (1 ≤ fld e.1 40 8)
      && decide (fld e.1 40 8 ≤ fld e.1 48 8) && decide (fld e.1 48 8 ≤ 32) && e.2 % 8 == 0 then
    some (l.map fun e => { entry := BitVec.ofNat 64 e.2, vmax := fld e.1 48 8, vinit := fld e.1 40 8, groups := fld e.1 32 8 })
  else none
/-- One entry of an extent table (03 R73), where it is valid. -/
def parseExtent (x : Nat) : Option Extent :=
  let vb := fld x 192 64
  let ve := fld x 128 64
  let tier := fld x 125 3
  let peer := fld x 119 6
  if bitOf x 0 && fld x 1 2 == 0 && fld x 7 73 == 0 && fld x 116 3 == 0 && vb % 2 ^ 16 == 0 && decide (vb < 2 ^ 52) && ve % 2 ^ 16 == 0
      && decide (ve ≤ 2 ^ 52) && decide (vb < ve) && decide (tier ≤ 5) && (tier == 3 || tier == 4 || peer == 0) then
    some { vbase := BitVec.ofNat 64 vb, vend := ve, tier := tier, peer := peer, paddr := fld x 80 36, spec := bitOf x 6, x := bitOf x 5,
           w := bitOf x 4, r := bitOf x 3 }
  else none
def parseExtents : Nat → List Byte → List Extent
  | 0, _ => []
  | n + 1, bs => (match parseExtent (ofBytes (bs.take 32)) with
    | some e => [e]
    | none => []) ++ parseExtents n (bs.drop 32)
/-- What a DISPATCH reads before its first team (02 R60; 15 R396): the header, the safe-point table, the role table, the extents. -/
def State.readKernel (s : State) (c : Cmd) : State × Except (Nat × Addr) (Option (Kernel × List Extent)) :=
  let x := c.raw.toNat
  let va := cmdHdr x
  if va.toNat % 64 ≠ 0 then (s, .ok none)
  else match s.engineRead 0 c.asid va 64 .read false with
    | (s, .error f) => (s, .error f)
    | (s, .ok raw) =>
      let hx := ofBytes raw
      let h := parseHeader hx
      if !headerOk hx || h.kind == 1 then (s, .ok none)
      else match s.readSafe 0 c.asid h with
        | (s, .error f) => (s, .error f)
        | (s, .ok safe) =>
          match s.engineRead 0 c.asid h.roletab (16 * h.roles) .read false with
          | (s, .error f) => (s, .error f)
          | (s, .ok rb) =>
            match parseRoles (pairs16 h.roles rb) with
            | none => (s, .ok none)
            | some roles =>
              let k : Kernel := { hdr := h, roles := roles, safe := safe }
              if h.kind = 2 ∧ (roles.map (·.groups)).sum ≠ h.groups then (s, .ok none)
              else if cmdAux x = 0 then (s, .ok (some (k, [])))
              else match s.engineRead 0 c.asid (BitVec.ofNat 64 (cmdAux x)) 512 .read false with
                | (s, .error f) => (s, .error f)
                | (s, .ok eb) => (s, .ok (some (k, parseExtents 16 eb)))
/-- DISPATCH (the command in hand): it is checked and its tables are read once; its teams start by TEAM_START (15 R324 to R326, R396). -/
def execDispatch (s : State) : Out :=
  onCmd s (· == 1) (fun n c s =>
    match s.readKernel c with
    | (s, .error f) => s.holdCmd n c 0 f
    | (s, .ok none) => s.finishCmd n csBadHeader
    | (s, .ok (some (k, ext))) =>
      let ctx := (s.ctx c.asid).getD (parseDesc 0 0)
      if s.neverFits ctx.part k.hdr k.plan || (frameShort ctx k.hdr).isSome then s.finishCmd n csQuota
      else (s.setCmd n { c with started := true, kern := some k, extents := ext, ready := s.cycle }).dropRec (.command n))
    fun _ _ s => s
/-- RECORD (the command in hand): its record leaves for the bin of its node once the pool has its granules; it completes when the record is
    in its bin (13 R282, R283; 15 R324, R396). -/
def execRecord (s : State) : Out :=
  onCmd s (· == 2) (fun n c s =>
    let x := c.raw.toNat
    let die := cmdDie x
    let va := cmdHdr x
    if va.toNat % 64 ≠ 0 then s.finishCmd n csBadHeader
    else match s.engineRead die c.asid va 64 .read false with
      | (s, .error f) => s.holdCmd n c die f
      | (s, .ok raw) =>
        let h := parseHeader (ofBytes raw)
        if !nodeHeaderOk (ofBytes raw) || decide (h.maxdepth < cmdDepth x) then s.finishCmd n csBadHeader
        else match s.engineRead die c.asid (BitVec.ofNat 64 (cmdAux x)) (16 * h.recsz) .read false with
          | (s, .error f) => s.holdCmd n c die f
          | (s, .ok data) =>
            match s.takeGranules c.asid h.recsz with
            | none => (s.setCmd n { c with short := h.recsz, begun := true }).exhaust c.asid die
            | some s =>
              (((s.push { die := die, asid := c.asid, node := va, data := data, depth := cmdDepth x, src := 4, gran := h.recsz,
                          cmd := some n }).setCmd n { c with started := true }).dropRec (.command n)).relieved c.asid)
    fun n c s => if c.retired = 0 then s else s.finishCmd n (if c.retired = 1 then 0 else csBadHeader)
/-- The graph of a context is quiescent (13 R285). -/
def State.quiescent (s : State) (asid : BitVec 16) : Bool :=
  !(s.bins.any fun e => e.2.asid == asid && !e.2.recs.isEmpty) && !(s.inflight.any fun e => e.2.asid == asid)
    && !(s.teams.any fun e => e.2.asid == asid && (e.2.cmd.isNone || e.2.reserve != 0))
    && !(s.outTeams.any fun e => e.team.asid == asid && e.team.reserve != 0)
    && !(s.copies.any fun e => (parseReq e.2.raw.toNat).recd && (((s.team? e.2.team).map (·.asid)).getD 0) == asid)
    && !(s.rays.any fun e => e.2.asid == asid)
    && !(s.links.nm.any fun e => e.2.extractLsb' 16 16 == asid && e.2.extractLsb' 6 2 == 1)
/-- QUIESCE (the command in hand). -/
def execQuiesce (s : State) : Out :=
  onCmd s (· == 3) (fun n c s => if s.quiescent c.asid then s.finishCmd n 0 else s.setCmd n { c with started := true })
    fun n c s => if s.quiescent c.asid then s.finishCmd n 0 else s
/-- POOLGROW (the command in hand): POOLSZ grows, in the descriptor too; waiting work is tried again (13 R283). -/
def execPoolgrow (s : State) : Out :=
  onCmd s (· == 4) (fun n c s =>
    match s.ctx c.asid with
    | none => s.finishCmd n csCtxGone
    | some x =>
      let sz := (x.poolsz + cmdAux c.raw.toNat) % 2 ^ 32
      let s := (s.deviceWrite (x.key + 28) (toBytes 4 sz)).updCtx c.asid fun x => { x with poolsz := sz, exhausted := 0 }
      s.finishCmd n 0)
    fun _ _ s => s

/-! ### CTXDOWN (15 R324) -/

/-- Translations of a context leave every cache, as the invalidation command drops them with ALL clear (03 R80). -/
def State.dropAsid (s : State) (asid : BitVec 16) : State :=
  let keep := fun (t : TlbEntry) => t.asid != asid
  { s with
    tlbCore := s.tlbCore.map fun e => (e.1, e.2.filter keep)
    tlbCluster := s.tlbCluster.map fun e => (e.1, e.2.filter keep)
    tlbDie := s.tlbDie.map fun e => (e.1, e.2.filter keep)
    walkDie := s.walkDie.map fun e => (e.1, e.2.filter fun w => w.asid != asid)
    harts := s.harts.map fun e => (e.1, { e.2 with tlb := e.2.tlb.filter keep })
    walks := s.walks.filter fun e => e.2.asid != asid
    dies := [0, 1].foldl (fun d i => d.put i { s.die i with inval := (s.die i).inval + 1 }) s.dies }
/-- A group goes without being saved: its log entries, its waits and its requests with it. -/
def State.discardGroup (s : State) (k : Nat) : State :=
  let s := s.forgetGroup k
  { s with
    groups := s.groups.del k
    cores := s.cores.map fun (e : Nat × Core) => (e.1, { e.2 with atops := e.2.atops.filter fun a => a.1 != k })
    upcalls := s.upcalls.filter fun u => u.2.group != k
    bundles := s.bundles.map fun (e : Nat × Bundle) => (e.1, { e.2 with waits := e.2.waits.filter fun w => match w with
      | .commit j _ | .abort j _ => j != k
      | _ => true }) }
/-- Every resident team of a context is discarded, with its requests and its rays. -/
def State.discardTeams (s : State) (asid : BitVec 16) : State :=
  let ts := (s.teams.filter fun e => e.2.asid == asid).map (·.1)
  let gs := (s.groups.filter fun e => ts.contains e.2.team).map (·.1)
  let s := gs.foldl (fun (s : State) k => s.discardGroup k) s
  let s := { s with
    copies := s.copies.filter fun e => !ts.contains e.2.team
    seqs := s.seqs.filter fun e => !ts.contains e.2.team
    frecs := s.frecs.filter fun r => match r.work with
      | .request t _ => !ts.contains t
      | .piece q _ => !((s.copies.get? q).map fun r => ts.contains r.team).getD false
      | .seqFetch q => !((s.seq? q).map fun x => ts.contains x.team).getD false
      | .table k _ => !gs.contains k
      | .ray a _ _ | .area a _ _ => a != asid
      | .page t _ => !ts.contains t
      | .node n => ((s.inflight.get? n).map fun m => m.asid != asid).getD true
      | _ => true
    teams := s.teams.filter fun e => e.2.asid != asid
    outTeams := s.outTeams.filter fun e => e.team.asid != asid
    rays := s.rays.filter fun e => e.2.asid != asid
    contReqs := s.contReqs.filter fun e => e.2.asid != asid
    scenes := s.scenes.filter fun e => e.2.asid != asid
    bins := s.bins.filter fun e => e.2.asid != asid
    inflight := s.inflight.filter fun e => e.2.asid != asid }
  (((gs.map coreOf).dedup).foldl (fun (s : State) c => s.freeTable c) s).refillDie 0 |>.refillDie 1
/-- The open bundles of a context begin their abort (11 R244). -/
def State.abortBundles (s : State) (asid : BitVec 16) : State :=
  ((s.bundles.filter fun e => e.2.asid == asid && !e.2.aborting && (e.2.st == .opened || e.2.st == .doomed || e.2.st == .closing)).map (·.1)).foldl
    (fun (s : State) n => s.beginAbort n bAborted) s
def State.bundlesOver (s : State) (asid : BitVec 16) : Bool :=
  !s.bundles.any fun e => e.2.asid == asid && (e.2.aborting || e.2.st == .opened || e.2.st == .doomed || e.2.st == .closing)
/-- The other commands of a context complete with CTX_GONE. -/
def State.orphanCmds (s : State) (asid : BitVec 16) (n : Nat) : State :=
  ((s.cmds.filter fun e => e.2.asid == asid && e.1 != n && !e.2.done).map (·.1)).foldl (fun (s : State) m => s.finishCmd m csCtxGone) s
/-- CTXDOWN (the command in hand): the context's work is discarded; it completes when its bundles have ended. -/
def execCtxdown (s : State) : Out :=
  let ended := fun n (c : Cmd) (s : State) => if s.bundlesOver c.asid then s.finishCmd n 0 else s
  onCmd s (· == 5) (fun n c s =>
    let s := (s.discardTeams c.asid).updCtx c.asid fun x => { x with gone := true, used := 0, exhausted := 0 }
    let s := (((s.abortBundles c.asid).dropAsid c.asid).orphanCmds c.asid n).setCmd n { c with started := true }
    ended n c s)
    ended

end Sys2Proof.Machine
end

