-- ==== Sys2Proof/Machine/Fault.lean ====
section
/-! DEFINITION. The mailbox, declined faults, the event-queue registers, the debug window (16 R338, R339, R342, R345 to R347, R349, R350,
R390). -/

namespace Sys2Proof.Machine

/-! ### Flags of a clause (02 R38) -/

/-- One attached instruction of a clause has completed, or is dropped: with the clause's last one the flag's count falls. -/
def Group.releaseFlag (g : Group) (clause : Nat) (flag : Option Nat) : Group :=
  match flag with
  | none => g
  | some f =>
    match g.att.find? fun a => a.1 == clause && a.2.1 == f with
    | none => g
    | some (_, _, n) =>
      if n ≤ 1 then { g with att := g.att.filter (fun a => !(a.1 == clause && a.2.1 == f)), cf := g.cf.putD 0 f (g.cf.getD f 0 - 1) }
      else { g with att := g.att.map fun a => if a.1 == clause && a.2.1 == f then (a.1, a.2.1, n - 1) else a }
/-- The instruction of a clause's word, when it attaches to a flag. -/
def longWord (hdr w : Word) : Option Instr :=
  if hdrClass hdr = 2 ∨ hdrClass hdr = 3 then
    match decodeGroup w with
    | .ok i => if isLong i then some i else none
    | .error _ => none
  else none
/-- Words of a clause that will not issue release what they would have held. -/
def Group.releaseWords (g : Group) (r : Run) (ws : List Word) : Group :=
  ws.foldl (fun g w => match longWord r.hdr w with
    | some i => g.releaseFlag r.clause (attachTo r.hdr i)
    | none => g) g
/-- An instruction in flight is dropped: no event, no destination, its entry freed and its flag released (16 R347). -/
def State.dropOp (s : State) (k gio : Nat) : State :=
  match s.opOf k gio with
  | none => s
  | some o =>
    let s := (s.freeOp k gio).leaveRayQueue (((s.group? k).map (·.team)).getD 0) k gio
    s.updGroup k fun g => ({ g with ops := g.ops.filter fun e => e.gio != gio }).releaseFlag o.clause o.flag

/-! ### Declined faults (16 R345) -/

/-- An operation is placed, or waits behind one that is: at its line, by its order, or in its engine's order (16 R344, R345). -/
def Op.waitsBehind (e o : Op) : Bool :=
  !o.performed && !e.performed && decide (e.gio < o.gio) &&
    (ordersGroup o.instr || (holdsBack e.instr && isAccess o.instr) || (waitsForAll o.instr && isAccess e.instr)
      || (engineOrder e.instr && engineOrder o.instr) || (isRayForm e.instr && isRayForm o.instr)
      || e.accs.any fun a => !a.phase.isDone && o.accs.any fun b => a.ea.toNat / 128 == b.ea.toNat / 128)
/-- The operations that pass a test, and those that wait behind one that stays. -/
def stuckFrom (p : Op → Bool) : List Op → List Op → List Op
  | acc, [] => acc
  | acc, o :: t => if p o || acc.any fun e => e.waitsBehind o then stuckFrom p (acc ++ [o]) t else stuckFrom p acc t
/-- The logged and held instructions of a group, with those that wait behind them. -/
def Group.stuck (g : Group) : List Nat := (stuckFrom Op.isPlaced [] g.ops).map (·.gio)
/-- DONE of a declined fault: bit i for the (i + 1)-th instruction after it. -/
def Group.doneMask (g : Group) (gio : Nat) : BitVec 64 :=
  maskWhere fun i => decide (gio + 1 + i < g.gio) && !g.ops.any fun o => o.gio == gio + 1 + i
/-- A declined fault stops its group once every other issued instruction is complete, logged or held. -/
def State.tryDecline (s : State) (k : Nat) : State :=
  match s.group? k with
  | none => s
  | some g =>
    match g.declined, g.stop with
    | some gio, none =>
      match g.op? gio with
      | none => s.setGroup k { g with declined := none }
      | some o =>
        let stuck := g.stuck
        if g.ops.all fun e => stuck.contains e.gio then
          s.stopGroup k { cause := Cause.pageFault.code, detail := BitVec.ofNat 8 (faultKind o.fault), pc := o.pc, idx := o.idx, lanes := o.faultLanes,
                          vaddr := o.faultVa, gio := some gio, done := g.doneMask gio }
        else s
    | _, _ => s

/-! ### The mailbox (16 R342, R348 to R350, R390) -/

def mbCore (v : BitVec 64) : Nat := fld v.toNat 56 8
def mbTag (v : BitVec 64) : Nat := fld v.toNat 40 16
def mbStatus (v : BitVec 64) : Nat := fld v.toNat 24 16
def mbOp (v : BitVec 64) : Nat := fld v.toNat 0 4
/-- The agent that CORE names lies on a die. -/
def mbOnDie (die code : Nat) : Bool :=
  if code < Config.cores then dieOfCore code == die
  else if 0x90 ≤ code ∧ code < 0xC0 then decide (code - 0x90 < Config.clusters) && dieOfCluster (code - 0x90) == die
  else if 0xC0 ≤ code ∧ code < 0xF0 then decide (code - 0xC0 < Config.clusters) && dieOfCluster (code - 0xC0) == die
  else code == codeDevice
/-- A mailbox command of one operation, to an agent of its die. -/
def mailbox (op die : Nat) (v : BitVec 64) (s : State) (f : Nat → Nat → State → State) : Out :=
  .next (if mbOp v = op ∧ mbOnDie die (mbCore v) = true then f (mbCore v) (mbTag v) s else s)

/-- The key of an upcall: its die and its tag. -/
def upcallKey (die tag : Nat) : Nat := die * 65536 + tag
def Group.awaits (g : Group) (tag : Nat) : Bool := g.live1.any fun x => match x.wait with
  | .upcall t _ => t == tag
  | _ => false
/-- A reply reaches the group whose split sleeps on it: S[D] and S[D+1], and the split goes on (16 R348). -/
def Group.takeReply (g : Group) (tag : Nat) (d : BitVec 6) (x y : BitVec 64) : Group :=
  if !g.awaits tag then g
  else
    let f := fun (z : Split) => if z.wait == .upcall tag d then { z with wait := .nothing, st := if z.st = .sleep then .ready else z.st } else z
    let g := (g.writeS d.toNat x).writeS (d.toNat + 1) y
    { g with splits := g.splits.map f, spilled := g.spilled.map f }
/-- REPLY with its value and status. -/
def State.reply (s : State) (die core tag status : Nat) : State :=
  match s.upcalls.get? (upcallKey die tag) with
  | none => s
  | some u =>
    if u.core ≠ core then s
    else
      let val := (s.die die).mbVal
      let s := { s with upcalls := s.upcalls.del (upcallKey die tag) }
      if u.code = 0xF0 ∨ u.code = 0xF1 then s.doneLane u.group u.gio u.lane val.toNat
      else if u.code = 0xF2 then s
      else
        let ver := u.taken.getD (s.die die).fwver
        let g := fun (g : Group) => g.takeReply tag u.d val (BitVec.ofNat 64 (ver.toNat * 2 ^ 32 + status))
        { s.updGroup u.group g with outTeams := s.outTeams.map fun e =>
            if e.die = die then { e with groups := e.groups.map fun p => if p.1 = u.group then (p.1, g p.2) else p } else e }
def execMbReply (die : Nat) (v : BitVec 64) (s : State) : Out :=
  mailbox 0 die v s fun core tag s => s.reply die core tag (mbStatus v)

/-- The group and the instruction of a log entry of a core. -/
def State.logEntry (s : State) (core tag : Nat) : Option (Nat × Op) :=
  ((s.core core).log.get? tag).bind fun k =>
    (s.group? k).bind fun g => (g.ops.find? fun o => o.place == .logged tag).map fun o => (k, o)
/-- An instruction is to be replayed; PMC counter 4 counts it (16 R345, R359). -/
def State.replayOp (s : State) (k gio : Nat) : State :=
  s.updGroup k fun g => { g.updOp gio Op.retry with pmc := g.pmc.put 4 (g.pmc.getD 4 0 + 1) }
/-- The work of a fault record goes on: its access is made again (16 R390). -/
def State.retryWork (s : State) (w : FaultWork) : State :=
  match w with
  | .seqFetch q => s.updSeq q fun x => { x with fetchFault := none }
  | .request t id => s.updEntry t id fun e => { e with waiting := false }
  | .piece r i => { s with copies := s.copies.upd r fun x => { x with pieces := (enum 0 x.pieces).map fun e =>
      if e.1 = i then { e.2 with waiting := false } else e.2 } }
  | .table k gio => s.updOp k gio fun o => if o.aux = 3 then { o with aux := 0 } else o
  | .ray a va i => { s with rays := s.rays.map fun e =>
      (e.1, if e.2.asid = a ∧ e.2.scene = va ∧ e.2.idx = i then { e.2 with waiting := false } else e.2) }
  | .area a va c => { s with rays := s.rays.map fun e =>
      (e.1, if e.2.asid = a ∧ e.2.scene = va ∧ e.2.cluster = c then { e.2 with areaWait := false } else e.2) }
  | .ring n => s.setSlot n { s.slot n with waiting := false }
  | .page t p => s.updTeam t fun x => { x with pageWait := x.pageWait.erase p }
  | .command n => { s with cmds := s.cmds.upd n fun c => { c with waiting := false } }
  | .completion n => ({ s with cmds := s.cmds.upd n fun c => { c with waiting := false } } : State).writeDone 3 n
  | .node n => { s with inflight := s.inflight.upd n fun m => { m with waiting := false } }
/-- The record of an agent. -/
def State.faultRec (s : State) (die code tag : Nat) : Option FaultRec :=
  s.frecs.find? fun r => r.die == die && r.code == code && r.tag == tag
def execMbResolve (die : Nat) (v : BitVec 64) (s : State) : Out :=
  mailbox 1 die v s fun code tag s =>
    match s.logEntry code tag with
    | some (k, o) => s.replayOp k o.gio
    | none => match s.faultRec die code tag with
      | some r => s.retryWork r.work
      | none => s
/-- A declined fetch of a request (07 R160): of its descriptor, a refusal with FAULT, which its node header's read may still precede; of the node
    header, which then is none that REC may name, BADREQ (DESIGN CHOICE, log 29); of the request's own words, COPY_ERROR with FAULT against the
    kicking group (DESIGN CHOICE, log 72). -/
def State.declineRequest (s : State) (team id : Nat) : State :=
  match s.team? team with
  | none => s
  | some t =>
    match t.entry? id with
    | none => s
    | some e =>
      match e.read with
      | some x =>
        (match s.descRead team t (parseReq x.toNat).tid true with
         | (s, .bytes d) => s.judge team t { e with waiting := false } x.toNat d 0 true
         | (s, _) => (s.updEntry team id fun e => { e with waiting := false, desc := some 0, status := stFault }).dropRec (.request team id))
      | none => (s.dropEntry team id).stopGroup e.group { cause := Cause.copyError.code, detail := BitVec.ofNat 8 stFault, pc := e.pc, idx := e.idx,
                                                          lanes := e.lanes, vaddr := e.va, gio := some e.gio }
/-- The work of a declined record ends as its own rule gives (16 R390; 07 R161; 14 R312; 15 R325, R396). -/
def State.declineWork (s : State) (w : FaultWork) : State :=
  match w with
  | .seqFetch q => match s.seq? q with
    | some x => s.stopSeq q .pageFault (faultKind (x.fetchFault.getD 0)) 0 x.pc
    | none => s
  | .request t id => s.declineRequest t id
  | .piece r i =>
    match s.copies.get? r with
    | some x => match x.pieces[i]? with
      | some p => s.countPiece r i x p .unmoved
      | none => s
    | none => s
  | .table k gio => s.updOp k gio fun o => { o with performed := true, accs := o.accs.map fun a => { a with phase := .done 0 },
                                                    sOut := o.sd.map fun d => (d, s.free 64 (262144 + d)) }
  | .ray a va i => match s.ray? a va i with
    | some (n, _) => s.failRay n
    | none => s
  | .area a va c => ((s.rays.filter fun e => e.2.asid == a && e.2.scene == va && e.2.cluster == c && e.2.areaWait).map (·.1)).foldl
      (fun (s : State) n => s.failRay n) s
  | .page t p => s.retryWork (.page t p)
  | .ring n => (s.setSlot n { s.slot n with waiting := false, flt := true, stopping := true }).settleSlot n
  | .command n => s.finishCmd n csFault
  | .completion n => match s.cmds.get? n with
    | some c => s.closeCmd n c
    | none => s
  | .node n => match s.inflight.get? n with
    | some m => ({ s with inflight := s.inflight.del n }.dropRecord m).recordDone m 2
    | none => s
def execMbDecline (die : Nat) (v : BitVec 64) (s : State) : Out :=
  mailbox 2 die v s fun code tag s =>
    match s.logEntry code tag with
    | some (k, o) => (s.updGroup k fun g => { g with declined := g.declined.or (some o.gio) }).tryDecline k
    | none => match s.faultRec die code tag with
      | some r => ({ s with frecs := s.frecs.filter fun x => x.work != r.work }).declineWork r.work
      | none => s

/-! ### The event queue's registers (16 R338, R339, R350) -/

def badRing (v : BitVec 64) (low : Nat) : Bool := decide (1 < fld v.toNat 61 3) || fld v.toNat 52 9 != 0 || fld v.toNat 0 low != 0
def State.flushDie (s : State) (die : Nat) : State := s.flushEvents die s.evWait.length
def execEvqBaseWrite (die : Nat) (v : BitVec 64) (s : State) : Out :=
  .next (if badRing v 12 then s else (s.updDie die fun d => { d with evqBase := v }).flushDie die)
def execEvqTailwWrite (die : Nat) (v : BitVec 64) (s : State) : Out :=
  .next (if badRing v 3 then s else s.updDie die fun d => { d with evqTailw := v })
/-- The firmware that takes an event is fixed: an UPCALL event's upcall keeps the version (16 R350). -/
def State.takeEvent (s : State) (die i : Nat) : State :=
  let x := s.die die
  let raw := s.deviceNum (ringKey x.evqBase + 64 * (i % 2 ^ (fld x.evqCfg.toNat 0 4 + 6))) 64
  if fld raw 0 4 ≠ 2 then s
  else { s with upcalls := s.upcalls.upd (upcallKey die (fld raw 96 16)) fun u => { u with taken := u.taken.or (some x.fwver) } }
/-- Firmware consumes the entries that it passes (16 R339). -/
def State.writeHead (s : State) (die : Nat) (v : BitVec 64) : State :=
  let x := s.die die
  let n := min (v - x.evqHead).toNat (x.evqTail - x.evqHead).toNat
  let s := if x.evqBase = 0 then s else (List.range n).foldl (fun s i => s.takeEvent die (x.evqHead.toNat + i)) s
  (s.updDie die fun d => { d with evqHead := v }).flushDie die
def execEvqHeadWrite (die : Nat) (v : BitVec 64) (s : State) : Out := .next (s.writeHead die v)
def execFwsw (die : Nat) (v : BitVec 64) (s : State) : Out := .next (s.updDie die fun d => { d with fwver := v.setWidth 16 })

/-! ### The debug window (16 R346, R347) -/

/-- The stopped target that DW_SEL names. -/
inductive DwTarget where
  | group (k : Nat)
  | seq (q : Nat)
  deriving DecidableEq, Repr
def State.dwTarget (s : State) (die : Nat) : Option DwTarget :=
  let sel := (s.die die).dwSel.toNat
  let k := 64 * fld sel 0 8 + fld sel 8 6
  if fld sel 14 49 ≠ 0 ∨ Config.cores ≤ fld sel 0 8 ∨ dieOfCore (fld sel 0 8) ≠ die then none
  else (s.group? k).bind fun g =>
    if bitOf sel 63 then
      ((s.teamOf g).bind (·.seq)).bind fun q => if ((s.seq? q).map (·.stop.isSome)).getD false then some (.seq q) else none
    else if g.stop.isSome then some (.group k) else none
/-- The fields of DW_ADDR. -/
def dwKind (a : BitVec 64) : Nat := fld a.toNat 56 8
def dwIndex (a : BitVec 64) : Nat := fld a.toNat 32 16
def dwLane (a : BitVec 64) : Nat := fld a.toNat 24 8
def dwWord (a : BitVec 64) : Nat := fld a.toNat 0 16
def dwBad (a : BitVec 64) : Bool := fld a.toNat 48 8 != 0 || fld a.toNat 16 8 != 0
def splitCode : SplitState → Nat
  | .ready => 1 | .joinw => 2 | .sleep => 3 | .stopped => 4
/-- A split entry's 8-byte words, word 0 the lowest; a FREE entry has STATE 0 (12 R259). -/
def splitWord (x : Split) (code w : Nat) : BitVec 64 :=
  if w = 3 then x.mask else if w = 2 then x.pc
  else if w = 1 then BitVec.ofNat 64 (x.jid * 2 ^ 52 + x.depth * 2 ^ 44 + code * 2 ^ 40 + x.last % 2 ^ 32 * 2 ^ 8) else 0
def recWord (g : Group) (j w : Nat) : BitVec 64 :=
  if w = 1 then g.jmaskOf j else BitVec.ofNat 64 (g.parentOf j * 2 ^ 52 + g.refs j % 128 * 2 ^ 45)
/-- A word of a log entry of the group (16 R346, KIND 11). -/
def logWord (o : Op) (w : Nat) : BitVec 64 :=
  let lane := fun l => o.accs.find? fun a => a.lane == l && a.phase.isFault
  if w = 0 then o.word
  else if w = 1 then o.faultLanes
  else if w = 2 then ((o.accs.find? fun a => a.phase.isFault).map (·.ea)).getD 0
  else match lane ((w - 3) / 3) with
    | some a => if (w - 3) % 3 = 0 then a.ea else BitVec.ofNat 64 (a.data / 2 ^ (64 * ((w - 3) % 3 - 1)))
    | none => 0
/-- A FREE entry that nothing has written reads 0 (log 47). -/
def blankSplit : Split := { mask := 0, pc := 0 }
/-- Word w of entry i of the split table. -/
def Group.splitEntry (g : Group) (i w : Nat) : BitVec 64 :=
  match g.splits.find? fun x => x.place == i with
  | some x => splitWord x (splitCode x.st) w
  | none => splitWord (g.freeEntries.getD i blankSplit) 0 w
def Group.dwGet (g : Group) (kind i lane w : Nat) : Option (BitVec 64) :=
  let on := fun (b : Bool) (x : BitVec 64) => if b then some x else none
  match kind with
  | 0 => on (decide (lane < g.width) && (i == 255 || decide (i < 8 * g.blocks))) (if i = 255 then 0 else (g.v.getD (64 * i + lane) 0).setWidth 64)
  | 1 => on (decide (i < 64)) (g.s.getD i 0)
  | 2 => on (decide (i < 8)) (if i = 7 then allLanes g.width else g.p.getD i 0)
  | 3 => on (decide (i < 12)) (BitVec.ofNat 64 (g.cf.getD i 0))
  | 4 => some g.mode
  | 5 => some g.part64
  | 6 => some g.status
  | 7 => on (decide (w < 4) && decide (i < 4)) (g.splitEntry i w)
  | 8 => on (decide (w < 2) && (i == 0 || (g.recs.get? i).isSome)) (recWord g i w)
  | 9 => if w < 2 then g.stop.map fun t => if w = 0 then t.pc else BitVec.ofNat 64 t.idx else none
  | 10 => some (g.bcur.setWidth 64)
  | 11 => if w < 195 then (g.loggedOps[i]?).map fun o => logWord o w else none
  | _ => none
/-- A tile register's 8-byte word. -/
def Seq.tileWord (x : Seq) (t w : Nat) : BitVec 64 := BitVec.ofNat 64 (ofBytes ((List.range 8).map fun i => x.t.getD (8704 * t + 8 * w + i) 0))
def Seq.dwGet (x : Seq) (kind i w : Nat) : Option (BitVec 64) :=
  match kind with
  | 12 => if i < 32 then some (x.q.getD i 0) else none
  | 13 => if i < 8 ∧ w < 1088 then some (x.tileWord i w) else none
  | 14 => some x.pc
  | _ => none
/-- A split entry as a write to one of its words leaves it, and whether it is FREE then; `free`: it was. -/
def dwSplit (wd : Nat) (x : Split) (free : Bool) (w : Nat) (v : BitVec 64) : Split × Bool :=
  if w = 3 then ({ x with mask := v &&& allLanes wd }, free)
  else if w = 2 then (if x.pc = v then x else x.moveTo v, free)
  else if w = 1 then
    let y := { x with jid := fld v.toNat 52 12, depth := fld v.toNat 44 8 }
    match fld v.toNat 40 4 with
    | 0 => (y, true)
    | 1 => ({ y with st := .ready, wait := .nothing }, false)
    | 2 => ({ y with st := .joinw }, false)
    | 3 => ({ y with st := .sleep }, false)
    | _ => ({ y with st := .stopped }, false)
  else (x, free)
/-- A write to word w of entry i of the split table. -/
def Group.dwSetSplit (g : Group) (i w : Nat) (v : BitVec 64) : Group :=
  match g.splits.find? fun x => x.place == i with
  | some x =>
    let g := if w = 2 ∧ x.pc ≠ v then (match x.run with
      | some r => g.releaseWords r (r.words.drop r.idx)
      | none => g) else g
    let y := dwSplit g.width x false w v
    if y.2 then { g with splits := g.splits.filter (fun z => z.place != i), freeEntries := g.freeEntries.put i y.1 }
    else { g with splits := g.splits.map fun z => if z.place = i then y.1 else z }
  | none =>
    let y := dwSplit g.width (g.freeEntries.getD i blankSplit) true w v
    if y.2 then { g with freeEntries := g.freeEntries.put i y.1 } else g.seat y.1 i
/-- A write that breaks a layout rule of 12 R259 or R260: lanes beyond the group's, a misaligned PC, a STATE not used, a JID or a PARENT that
    names no record, another root record. -/
def Group.dwBreaks (g : Group) (kind i w : Nat) (v : BitVec 64) : Bool :=
  let none := fun (j : Nat) => j != 0 && (g.recs.get? j).isNone
  match kind, w with
  | 7, 3 => v &&& ~~~(allLanes g.width) != 0
  | 7, 2 => v.extractLsb' 0 3 != 0
  | 7, 1 => decide (4 < fld v.toNat 40 4) || (fld v.toNat 40 4 != 0 && none (fld v.toNat 52 12))
  | 8, 1 => if i = 0 then v != allLanes g.width else v &&& ~~~(allLanes g.width) != 0
  | 8, 0 => if i = 0 then fld v.toNat 52 12 != 0 else none (fld v.toNat 52 12)
  | _, _ => false
/-- The masks of the live splits are disjoint, and together the lanes that have not exited (12 R259). -/
def Group.masksOk (g : Group) : Bool :=
  g.live1.foldl (fun m x => m ||| x.mask) 0 == g.live && g.live1.Pairwise fun x y => x.mask &&& y.mask = 0
/-- A log entry's addresses and data as a write leaves them. -/
def dwLog (o : Op) (w : Nat) (v : BitVec 64) : Op :=
  if w < 3 then o
  else { o with accs := o.accs.map fun a =>
    if a.lane = (w - 3) / 3 ∧ a.phase.isFault = true then
      (match (w - 3) % 3 with
       | 0 => { a with ea := v }
       | 1 => { a with data := a.data / 2 ^ 64 * 2 ^ 64 + v.toNat }
       | _ => { a with data := a.data / 2 ^ 128 * 2 ^ 128 + v.toNat * 2 ^ 64 + a.data % 2 ^ 64 })
    else a }
/-- A write through the window; an item that may not be written keeps its value. -/
def Group.dwPut (g : Group) (kind i lane w : Nat) (v : BitVec 64) : Option Group :=
  match g.dwGet kind i lane w, kind with
  | none, _ => none
  | some _, 0 => some (g.writeV i (maskOf [lane]) fun _ => v.setWidth 32)
  | some _, 1 => some (g.writeS i v)
  | some _, 2 => some (g.writeP i (allLanes g.width) fun l => v.getLsbD l)
  | some _, 6 => some { g with jrel := v.getLsbD 5, ferr := v.getLsbD 6 }
  | some _, 7 => some (g.dwSetSplit i w v)
  | some _, 8 => some (if w = 1 then { g with recs := g.recs.upd i fun r => { r with jmask := v &&& allLanes g.width } }
                       else { g with recs := g.recs.upd i fun r => { r with parent := fld v.toNat 52 12 } })
  | some _, 9 => some { g with stop := g.stop.map fun t => if w = 0 then { t with pc := v } else { t with idx := v.toNat % 16 } }
  | some _, 10 => some { g with bcur := v.setWidth 16 }
  | some _, 11 => (g.loggedOps[i]?).map fun o => g.updOp o.gio fun p => dwLog p w v
  | some _, _ => some g
def Seq.dwPut (x : Seq) (kind i w : Nat) (v : BitVec 64) : Option Seq :=
  match x.dwGet kind i w, kind with
  | none, _ => none
  | some _, 12 => some { x with q := x.q.putD 0 i v }
  | some _, 13 => some { x with t := (enum (8704 * i + 8 * w) (toBytes 8 v.toNat)).foldl (fun t e => t.putD 0 e.1 e.2) x.t }
  | some _, _ => some { x with pc := v }
/-- An access or a command of the window: ERR says that it found no stopped target or a reserved address. -/
def State.dwDo (s : State) (die : Nat) (o : Option State) : State :=
  match o with
  | some t => t.updDie die fun d => { d with dwErr := false }
  | none => s.updDie die fun d => { d with dwErr := true }
/-- DW_DATA_WRITE. -/
def execDwDataWrite (die : Nat) (v : BitVec 64) (s : State) : Out :=
  let a := (s.die die).dwAddr
  .next (s.dwDo die (if dwBad a then none else (s.dwTarget die).bind fun t =>
    match t with
    | .group k => (s.group? k).bind fun g => (g.dwPut (dwKind a) (dwIndex a) (dwLane a) (dwWord a) v).map fun h =>
        if g.dwBreaks (dwKind a) (dwIndex a) (dwWord a) v then (s.setGroup k h).scramble k else s.setGroup k h
    | .seq q => (s.seq? q).bind fun x => (x.dwPut (dwKind a) (dwIndex a) (dwWord a) v).map fun x => s.updSeq q fun _ => x))
/-- The item that DW_ADDR names. -/
def State.dwItem (s : State) (die : Nat) : Option (BitVec 64) :=
  let a := (s.die die).dwAddr
  if dwBad a then none else (s.dwTarget die).bind fun t =>
    match t with
    | .group k => (s.group? k).bind fun g => g.dwGet (dwKind a) (dwIndex a) (dwLane a) (dwWord a)
    | .seq q => (s.seq? q).bind fun x => x.dwGet (dwKind a) (dwIndex a) (dwWord a)
/-- DW_DATA_READ (the die in hand): the value goes to the reading agent; 0 with ERR. -/
def State.readDw (s : State) (die : Nat) : State :=
  s.dwDo die ((s.dwItem die).map fun x => { s with bus := x }) |> fun t => if (s.dwItem die).isSome then t else { t with bus := 0 }
def execDwDataRead (s : State) : Out := .next (s.readDw s.hand)

/-- RESUME of a group: its logged and held instructions are replayed from their entries as they stand (16 R347). A split table whose masks break
    R259 makes the group unpredictable (16 R346). -/
def State.resumeGroup (s : State) (k : Nat) : State :=
  match s.group? k with
  | none => s
  | some g =>
    match g.stop with
    | none => s
    | some st =>
      let s := if g.masksOk then s else s.scramble k
      let faulted := (g.ops.filter fun o => o.accs.any fun a => a.phase.isFault).map (·.gio)
      let moved := g.splits.filter fun x => x.mask &&& st.lanes != 0 && st.gio.isNone && st.fall.isNone && x.pc != st.pc
      let s := faulted.foldl (fun (s : State) i => s.replayOp k i) s
      s.updGroup k fun g =>
        (moved.foldl (fun (g : Group) x => match x.run with
          | some r => g.releaseWords r (r.words.drop r.idx)
          | none => g) g).resume st
/-- SKIP of a group: the instruction at the resume point is dropped, and execution goes on from the next word. -/
def State.skipGroup (s : State) (k : Nat) : State :=
  match (s.group? k).bind (·.stop) with
  | none => s
  | some st =>
    match st.gio with
    | some gio => (s.dropOp k gio).resumeGroup k
    | none =>
      let s := s.resumeGroup k
      if st.fall.isSome then s
      else s.updGroup k fun g =>
        (g.splits.filter fun x => x.mask &&& st.lanes != 0).foldl (fun g x =>
          let g := match x.run with
            | some r => g.releaseWords r ((r.words[r.idx]?).toList)
            | none => g
          { (g.updSplit (lowest x.mask) fun y => if y.run.isSome then y.moveNext else { y with skip := y.skip + 1 }) with gio := g.gio + 1 }) g
/-- KILL of a group: every lane exits, and every log entry is dropped. -/
def State.killGroup (s : State) (k : Nat) : State :=
  match s.group? k with
  | none => s
  | some g =>
    let s := (g.ops.filter (·.isPlaced)).foldl (fun (s : State) o => s.dropOp k o.gio) s
    s.updGroup k fun g => (({ g with stop := none, declined := none, splits := g.splits.map resumeSplit }).exitLanes g.live).joins
/-- A sequencer goes on at its PC, or past it. -/
def State.goSeq (s : State) (q : Nat) (skip : Bool) : State :=
  s.updSeq q fun x => { x with stop := none, fetchFault := none, pc := if skip then x.pc + 8 else x.pc }
def State.dwCommand (s : State) (die : Nat) (f : DwTarget → Option State) : State := s.dwDo die ((s.dwTarget die).bind f)
/-- RESUME, SKIP and KILL of a die's window. KILL is a command for groups: a sequencer takes RESUME and SKIP. -/
def State.dwResume (s : State) (die : Nat) : State :=
  s.dwCommand die fun t => match t with
    | .group k => some (s.resumeGroup k)
    | .seq q => some (s.goSeq q false)
def State.dwSkip (s : State) (die : Nat) : State :=
  s.dwCommand die fun t => match t with
    | .group k => some (s.skipGroup k)
    | .seq q => some (s.goSeq q true)
def State.dwKill (s : State) (die : Nat) : State :=
  s.dwCommand die fun t => match t with
    | .group k => some (s.killGroup k)
    | .seq _ => none
/-- DW_RESUME, DW_SKIP, DW_KILL (the die in hand). -/
def execDwResume (s : State) : Out := .next (s.dwResume s.hand)
def execDwSkip (s : State) : Out := .next (s.dwSkip s.hand)
def execDwKill (s : State) : Out := .next (s.dwKill s.hand)

end Sys2Proof.Machine
end

