-- ==== Sys2Proof/Machine/Preempt.lean ====
section
/-! DEFINITION. Reading code (02 R35, R392), and pre-emption: parking, save and restore routines, the full dump, a context switched out and
in (16 R351 to R355; 07 R171; 10 R235; 13 R287; 14 R313). -/

namespace Sys2Proof.Machine

/-! ### A word of code (02 R392; 16 R343) -/

/-- What a read of one code word meets. -/
inductive CodeWord where
  | word (w : Word)
  /-- a fault that stops the group -/
  | stop (kind : Nat)
  | fault (kind : Nat)
  | miss
  | poison
  | wait
  deriving DecidableEq, Repr
/-- A group's read of the word at a virtual address, at its home: the dirty words of the group's own L1 go there first (02 R392). -/
def State.codeWord (s : State) (k : Nat) (g : Group) (xf : List (Nat × AccKind × Nat)) (va : Addr) : State × CodeWord :=
  match s.locate k g xf va 8 .fetch with
  | .range => (s, .stop fkRange)
  | .outside => (s, .stop fkNotPresent)
  | .scratch off =>
    if !s.scrPinned g.team off 8 then (s.askPage g.team off 8, .wait)
    else if s.scrPoisoned g.team off 8 then (s, .poison) else (s, .word (BitVec.ofNat 64 (ofBytes (s.scrBytes g.team off 8))))
  | .fault f => (s, if f = fkExec then .stop f else .fault f)
  | .miss => (s, .miss)
  | .at h =>
    match s.peerRead (2 + coreOf k) (s.asidOf g) va.toNat h.key with
    | (s, .error f) => (s, if f = fkWait then .wait else .fault f)
    | (s, .ok _) =>
      let s := (s.raisePts (coreOf k) h.acq).writeBack (coreOf k) (lineOf h.key)
      if s.poisoned h.key 8 then (s, .poison)
      else match s.teamRead g.team (dieOfCore (coreOf k)) h.key 8 with
        | some (s, bs) => (s, .word (BitVec.ofNat 64 (ofBytes bs)))
        | none => (s, .wait)
/-- The header that a split stands at, where it can be read at once. -/
def State.headerOf (s : State) (k : Nat) (g : Group) (x : Split) : Option Word :=
  match (s.codeWord k g x.xfaults x.pc).2 with
  | .word w => some w
  | _ => none
/-- The safe-point table of a group's kernel. -/
def State.safeTable (s : State) (g : Group) : List (Addr × Addr) := ((s.teamOf g).map (·.kern.safe)).getD []
/-- The SPID of the safe point that a split stands at (02 R40). -/
def State.safePoint (s : State) (k : Nat) (g : Group) (x : Split) : Option Nat :=
  (s.headerOf k g x).bind fun h => if hdrSafe h && decide (hdrSpid h < (s.safeTable g).length) then some (hdrSpid h) else none

/-! ### Parking (16 R353, R355) -/

/-- An instruction in flight that a parked group keeps: logged or held, a request or a ray command that its engine saves with the team, a
    wait that is made again, or one that waits behind such (log 34). -/
def Op.keeps (o : Op) : Bool :=
  !o.performed && !o.accs.any (fun a => match a.phase with
    | .atHome _ => true
    | _ => false) &&
  (o.isPlaced || match o.instr, o.args with
    | .kick _, [_, n, acc] => acc == n
    | .trace _, _ | .cont _, _ | .contEnd _, _ => !rayRouted o
    | .spawn _, _ => o.aux == spawnPushed
    | .bobjWait _, _ => o.aux == 1
    | .fenceEng _, _ => true
    | _, _ => false)
/-- Every lane of a CONT that is still unanswered waits at a Geode whose context has been switched out: it is held, and saved with its team
    (14 R313, R316). -/
def State.contHeld (s : State) (k : Nat) (g : Group) (o : Op) : Bool :=
  isRayForm o.instr && rayRouted o && s.contReqs.all fun e => !(e.2.team == g.team && e.2.group == k && e.2.gio == o.gio) || s.contWaits e.2
def State.opsPark (s : State) (k : Nat) (g : Group) : Bool :=
  (let kept := (stuckFrom (fun o => o.keeps || s.contHeld k g o) [] g.ops).map (·.gio)
   g.ops.all fun o => kept.contains o.gio) && !(s.core (coreOf k)).atops.any fun a => a.1 == k
/-- A split is parked. A split whose WAITV has been woken is not: it goes on to a safe point. -/
def State.splitParked (s : State) (k : Nat) (g : Group) (x : Split) : Bool :=
  x.run.isNone && match x.st, x.wait with
    | .ready, _ => x.skip == 0 && (s.safePoint k g x).isSome
    | .sleep, .op gio => ((g.op? gio).map fun o => match o.instr with
      | .waitv _ => false
      | _ => true).getD false
    | _, _ => true
def State.groupParks (s : State) (k : Nat) (g : Group) : Bool :=
  g.stop.isSome || (g.live1.all (fun x => s.splitParked k g x) && s.opsPark k g)
/-- The lowest lanes of a group's READY splits, in increasing order. -/
def Group.readyLanes1 (g : Group) : List Nat :=
  sortBy (fun (a b : Nat) => decide (a ≤ b)) ((g.live1.filter fun x => x.st == .ready).map fun x => lowest x.mask)
/-- A spilled split takes the place of the table's split with the smallest LAST. -/
def Group.intoTable (g : Group) (lane : Nat) : Group :=
  match g.spilled.find? fun x => lowest x.mask == lane, smallestLast (g.splits.filter fun x => x.run.isNone) with
  | some x, some v => g.swapSpilled v x
  | _, _ => g
/-- A routine starts for the split of a lane (16 R354). -/
def Group.startRoutine (g : Group) (lane : Nat) (r : Routine) (spid : Nat) (pc : Addr) : Group :=
  let g := g.intoTable lane
  let g := (g.writeS 63 g.priv).writeS 62 (BitVec.ofNat 64 spid)
  let g := g.updSplit lane fun x => { x with safePc := x.pc, spid := spid, pc := pc, routine := r, run := none, skip := 0 }
  { g with swept := g.swept ||| ((g.split? lane).map (·.mask)).getD 0 }
/-- The next save routine, or the group is parked. -/
def State.nextSave (s : State) (k : Nat) : State :=
  match s.group? k with
  | none => s
  | some g =>
    match g.park with
    | .saving (l :: rest) =>
      (match g.live1.find? fun x => lowest x.mask == l with
       | some x =>
         let id := (s.safePoint k g x).getD 0
         s.setGroup k { g.startRoutine l .save id (((s.safeTable g)[id]?).getD (x.pc, x.pc)).1 with park := .saving rest }
       | none => s.setGroup k { g with park := .saving rest })
    | .saving [] => s.setGroup k { g with park := .parked }
    | _ => s
/-- The next restore routine, or the group goes on (16 R354). -/
def State.nextRestore (s : State) (k : Nat) : State :=
  match s.group? k with
  | none => s
  | some g =>
    match g.park with
    | .restoring (l :: rest) =>
      (match g.live1.find? fun x => lowest x.mask == l with
       | some x => s.setGroup k { g.startRoutine l .restore x.spid (((s.safeTable g)[x.spid]?).getD (x.pc, x.pc)).2 with park := .restoring rest }
       | none => s.setGroup k { g with park := .restoring rest })
    | .restoring [] => s.setGroup k { (g.writeS 62 g.saved62).writeS 63 g.saved63 with park := .no, swept := 0 }
    | _ => s
/-- A routine of the group still runs. -/
def Group.inRoutine (g : Group) : Bool := g.live1.any fun x => x.routine != .none
/-- Every split has parked: what the hardware keeps is kept, links end, and the save routines begin. -/
def State.beginSave (s : State) (k : Nat) (g : Group) : State :=
  let g1 := { g with saved62 := g.s.getD 62 0, saved63 := g.s.getD 63 0, link := none, swept := 0, savedAt := s.cycle }
  if g.stop.isSome then s.setGroup k { g1 with park := .parked }
  else (s.setGroup k { g1 with park := .saving g1.readyLanes1 }).nextSave k
/-- The full dump is taken once every split stands at a clause boundary. -/
def State.tryDump (s : State) (k : Nat) (g : Group) : State :=
  if g.live1.all (fun x => x.run.isNone) && s.opsPark k g then
    let back := fun (x : Split) => if x.routine = .save then { x.moveTo x.safePc with routine := .none } else x
    let g1 := if g.savedAt = 0 ∧ g.swept = 0 then { g with saved62 := g.s.getD 62 0, saved63 := g.s.getD 63 0 } else g
    s.setGroup k { g1 with splits := g.splits.map back, spilled := g.spilled.map back, link := none, park := .parked, dumped := true }
  else s
/-- TRAP.save ends a save routine; elsewhere it is ILLEGAL_OP (16 R354, R358). -/
def execTrapSave (s : State) : Out :=
  onIssuer s fun k g x =>
    if x.routine ≠ .save then s.trapHeader k x .illegalOp x.mask
    else
      let g1 := { g with gio := g.gio + 1 }
      let g2 := g1.updSplit (lowest x.mask) fun y => { y.moveTo x.safePc with routine := .none }
      let s := s.setGroup k g2
      (if g2.inRoutine then s else s.nextSave k).halt
/-- TRAP.resume ends a restore routine. -/
def execTrapResume (s : State) : Out :=
  onIssuer s fun k g x =>
    if x.routine ≠ .restore then s.trapHeader k x .illegalOp x.mask
    else
      let g1 := { g with gio := g.gio + 1 }
      let g2 := g1.updSplit (lowest x.mask) fun y => { y.moveTo x.safePc with routine := .none }
      let s := s.setGroup k g2
      (if g2.inRoutine then s else s.nextRestore k).halt

/-! ### Switching out (16 R352) -/

/-- Pages of a team's scratchpad. -/
def pagesOf (t : Team) : List Nat := List.range (frames t.kern.hdr)
/-- A pinned page goes to its backing page, with the marks of its poisoned sectors; none: that page does not translate. -/
def State.unpinPage (s : State) (team : Nat) (t : Team) (p : Nat) : Option State :=
  if t.unpinned.contains p then some s
  else
    let die := dieOfCluster t.cluster
    let va := s.backingVa t p
    match s.engineXlate die t.asid va 4096 .write false with
    | (_, .error _) => none
    | (s, .ok key) =>
      let s := s.deviceWrite key (s.scrBytes team (4096 * p) 4096)
      some ((List.range 128).foldl (fun s i => if s.scrPoisoned team (4096 * p + 32 * i) 32 then s.markPoison (key + 32 * i) 32 else s) s)
def State.unpinAll (s : State) (team : Nat) (t : Team) : Option State :=
  (pagesOf t).foldl (fun (o : Option State) p => o.bind fun s => s.unpinPage team t p) (some s)
/-- The first page of a team whose backing page does not translate, with the fault. -/
def State.badPage (s : State) (t : Team) : Option (Nat × Nat) :=
  (pagesOf t).findSome? fun p => if t.unpinned.contains p then none
    else match (s.engineXlate (dieOfCluster t.cluster) t.asid (s.backingVa t p) 4096 .write false).2 with
      | .error f => some (p, f)
      | .ok _ => none
/-- Faults of backing pages are held, and the command waits (15 R321). -/
def State.holdPages (s : State) (l : List (Nat × Team)) : State :=
  l.foldl (fun (s : State) e => match s.badPage e.2 with
    | some b => s.holdPage e.1 b.1 e.2 b.2
    | none => s) s
/-- The team has nothing in progress that its save must wait for. -/
def State.teamQuiet (s : State) (n : Nat) (t : Team) : Bool :=
  t.groups.all (fun k => match s.group? k with
    | some g => g.team != n || g.park == .parked
    | none => true)
  && (match t.seq.bind fun q => s.seq? q with
    | some x => x.cmds.isEmpty || x.stop.isSome
    | none => true)
  && t.pageWait.isEmpty && !s.copies.any (fun e => e.2.team == n) && !t.queue.any fun e => e.waiting
/-- The save frames of a team are written. State holds what they keep, in a layout that the spec does not give: their bytes hold no known value (16
    R354; log 34). -/
def State.writeFrames (s : State) (t : Team) (gs : List (Nat × Group)) : State :=
  let h := t.kern.hdr
  gs.foldl (fun (s : State) e => s.freeArea (dieOfCluster t.cluster) t.asid (e.2.priv + BitVec.ofNat 64 (frameOffset h)) (frameBytes h e.2.gidx)
    (2 ^ 47 + e.1)) s
/-- A team's state is saved, and what it held is free (steps 5 and 6). -/
def State.saveTeam (s : State) (n : Nat) (t : Team) : Option State :=
  (s.unpinAll n t).map fun s =>
    let cores := if t.pair then [t.core, t.core + 1] else [t.core]
    let s := cores.foldl (fun (s : State) c => s.writeBackAll c) s
    let gs := s.groups.filter fun e => e.2.team == n
    let s := s.writeFrames t gs
    let sv : SavedTeam := { die := dieOfCluster t.cluster, key := n, team := { t with scr := [], scrPoison := [], unpinned := pagesOf t, asked := [] },
                            groups := gs.map fun e => (e.1, { e.2 with park := .no }),
                            seq := t.seq.bind fun q => (s.seq? q).map fun x => (q, { x with fetchFault := none }) }
    let s := (gs.map (·.1)).foldl (fun (s : State) k => s.forgetGroup k) s
    let s := { s with
      outTeams := s.outTeams ++ [sv]
      groups := s.groups.filter fun e => e.2.team != n
      teams := s.teams.del n
      seqs := s.seqs.filter fun e => e.2.team != n
      frecs := s.frecs.filter fun r => match r.work with
        | .request m _ => m != n
        | .seqFetch q => some q != t.seq
        | _ => true }
    (cores.foldl (fun (s : State) c => s.freeTable c) s).releaseBin (dieOfCluster t.cluster) t.asid t.hdrVa
/-- PRE_STAT (16 R351). -/
def Die.preStat (d : Die) : BitVec 64 := BitVec.ofNat 64 (d.preSeq.toNat * 2 ^ 8 + 8 * b2n d.dumped + d.preStatus.toNat)
/-- The command is DONE, and the queue block reports it. -/
def State.preDone (s : State) (die : Nat) (asid : BitVec 16) : State :=
  let s := s.updDie die fun d => { d with pre := none, preStatus := 0 }
  s.post { die := die, kind := 8, source := 1024 + die, asid := asid, arg0 := (s.die die).preSeq.setWidth 64, arg1 := (s.die die).preStat }
def State.teamsIn (s : State) (p : PreCmd) : List (Nat × Team) := s.teams.filter fun e => e.2.asid == p.asid && p.clusters.getLsbD e.2.cluster
/-- A ray has been run down: no pass, write or fault of it is left (14 R313; 16 R390). -/
def Ray.atRest (r : Ray) : Bool := !r.waiting && !r.areaWait && !r.unsaved && r.f.st != raActive
/-- The Geodes of some clusters save the queue heads of a context; whether all are saved (14 R313). -/
def State.saveHeads (s : State) (p : PreCmd) : State × Bool :=
  let l := (s.scenes.filter fun e => e.2.asid == p.asid).flatMap fun e =>
    ((List.range Config.clusters).filter fun c => p.clusters.getLsbD c && !e.2.away.contains c && !(s.queuesAt p.asid e.2.va c).isEmpty).map fun c => (e, c)
  l.foldl (fun (a : State × Bool) x => let r := a.1.turnHeads true x.1.1 x.1.2 x.2; (r.1, a.2 && r.2)) (s, true)
/-- OUT ends once every team is quiet, every ray of the clusters at rest and every queue head saved. -/
def State.finishOut (s : State) (die : Nat) (p : PreCmd) : State :=
  let ts := s.teamsIn p
  let rays := s.rays.any fun e => e.2.asid == p.asid && p.clusters.getLsbD e.2.cluster && !e.2.atRest
  let heads := s.saveHeads p
  if rays || !ts.all (fun e => s.teamQuiet e.1 e.2) then s
  else if !heads.2 then heads.1
  else let s := heads.1
    match ts.foldl (fun (o : Option State) e => o.bind fun s => s.saveTeam e.1 e.2) (some s) with
    | none => s.holdPages ts
    | some s => s.preDone die p.asid

/-! ### Switching in -/

/-- What a saved group needs of its core. -/
def planOf (g : Group) : Plan := { role := g.role, entry := 0, vinit := g.blocks, vmax := g.vmax }
/-- Everything that a saved team left is free (16 R352; 15 R332). -/
def State.mayRestore (s : State) (v : SavedTeam) : Bool :=
  v.groups.all (fun e => (s.group? e.1).isNone) && (v.seq.map fun q => (s.seq? q.1).isNone).getD true
    && !s.teams.any (fun e => e.2.cluster == v.team.cluster && e.2.slot == v.team.slot)
    && s.placeFits v.team.core (s.partOf v.team) v.team.kern.hdr (v.groups.map fun e => planOf e.2)
/-- A group's registers as its save left them: what a save routine was to keep is for its restore routine to bring back, and holds a free
    value until then (16 R354, R355). -/
def State.revive (s : State) (k : Nat) (g : Group) : Group :=
  if g.swept = 0 then g
  else
    let n := 2 ^ 24 * (k + 1)
    let v := (List.range (8 * g.blocks)).foldl (fun t r => putLanes t r (fun l => s.free 32 (n + 64 * r + l)) (lanesOf g.swept)) g.v
    let ss : Tab (BitVec 64) := (List.range 62).foldl (fun t i => t.putD 0 i (s.free 64 (n + 32768 + i))) []
    let p := (List.range 7).foldl (fun t i => t.putD 0 i ((g.p.getD i 0 &&& ~~~g.swept) ||| (s.free 64 (n + 65536 + i) &&& g.swept))) g.p
    let g := { g with v := v, p := p, s := Tab.putD 0 (Tab.putD 0 ss 62 g.saved62) 63 g.saved63 }
    if g.dumped then { g with swept := 0 }
    else
      let lanes := (g.live1.filter fun x => x.mask &&& g.swept != 0 && x.st == .ready).map fun x => lowest x.mask
      { g with park := .restoring (sortBy (fun (a b : Nat) => decide (b ≤ a)) lanes), swept := 0 }
/-- A restored log entry keeps its index where that is free, else it takes another and is reported again (log 34). -/
def State.relog (s : State) (k : Nat) (o : Op) : State :=
  match o.place with
  | .logged e =>
    if ((s.core (coreOf k)).log.get? e).isNone then s.updCore (coreOf k) fun c => { c with log := c.log.put e k }
    else match s.freeEntry (coreOf k) with
      | some e1 =>
        let s := s.updOp k o.gio fun o => { o with place := .logged e1 }
        (s.updCore (coreOf k) fun c => { c with log := c.log.put e1 k }).faultEvent k o e1
      | none => s.updOp k o.gio fun o => { o with place := .held }
  | _ => s
def State.restoreGroup (s : State) (k : Nat) (g : Group) : State :=
  let g1 := s.revive k { g with ops := g.ops.map fun o => match o.instr with
    | .bobjWait _ => { o with aux := 0 }
    | _ => o }
  let s := s.setGroup k { g1 with dumped := false }
  ((g.ops.foldl (fun (s : State) o => s.relog k o) s)).nextRestore k
def State.restoreTeam (s : State) (v : SavedTeam) : State :=
  let t := v.team
  let s := (s.setMode t.cluster t.kern.hdr.fuse).freshDescs t.asid
  let cores := if t.pair then [t.core, t.core + 1] else [t.core]
  let s := cores.foldl (fun (s : State) c => s.raisePts c s.devTime) s
  let s := ({ s with outTeams := s.outTeams.filter fun w => w.key != v.key, teams := s.teams.put v.key t } : State).updCtx t.asid fun c =>
    { c with exhausted := 0 }
  let s := match v.seq with
    | some (q, x) => { s with seqs := s.seqs.put q x }
    | none => s
  v.groups.foldl (fun (s : State) e => s.restoreGroup e.1 e.2) s
/-- IN restores each team whose place is free, and ends when all are back. -/
def State.finishIn (s : State) (die : Nat) (p : PreCmd) : State :=
  let mine := fun (v : SavedTeam) => v.team.asid == p.asid && p.clusters.getLsbD v.team.cluster
  let s := (s.outTeams.filter mine).foldl (fun (s : State) v => if s.mayRestore v then s.restoreTeam v else s) s
  if s.outTeams.any mine then s else s.preDone die p.asid
/-- The command in progress goes on. -/
def State.advancePre (s : State) (die : Nat) : State :=
  match (s.die die).pre with
  | none => s
  | some p => if p.out then s.finishOut die p else s.finishIn die p

/-! ### The command and its events (16 R351, R353, R355) -/

/-- CLMASK as clusters of the module. -/
def clustersOf (die : Nat) (v : BitVec 64) : BitVec 36 := BitVec.ofNat 36 (fld v.toNat 12 18 * 2 ^ (18 * die))
/-- Groups of a context on clusters. -/
def State.groupsIn (s : State) (p : PreCmd) : List Nat :=
  (s.groups.filter fun e => s.asidOf e.2 == p.asid && p.clusters.getLsbD (clusterOf (coreOf e.1))).map (·.1)
/-- Once no cluster of a die holds a context, its bin heads go to their rings (13 R287). -/
def State.headsToRings (s : State) (asid : BitVec 16) (die : Nat) : State :=
  if s.awayFrom asid die then
    ({ s with bins := s.bins.map fun e => (e.1, if e.2.die = die ∧ e.2.asid = asid then { e.2 with sram := 0 } else e.2) } : State).refillDie die
  else s
/-- Steps 1 and 2 of OUT: no team starts there, each group is told to park, and its WAITVs complete with WOKEN (06 R145). -/
def State.beginOut (s : State) (die : Nat) (p : PreCmd) : State :=
  let s := ({ s with outOf := s.outOf.put p.asid.toNat (s.outOf.getD p.asid.toNat 0 ||| p.clusters) } : State).headsToRings p.asid die
  let ks := s.groupsIn p
  let s := ks.foldl (fun (s : State) k => s.updGroup k fun g => { g with park := if g.park = .no then .asked else g.park, savedAt := 0 }) s
  (s.wakeWhere (fun w => match w.who with
    | .op k _ _ => ks.contains k
    | _ => false) 0).1.advancePre die
def State.beginIn (s : State) (die : Nat) (p : PreCmd) : State :=
  let s := { s with outOf := s.outOf.putD 0 p.asid.toNat (s.outOf.getD p.asid.toNat 0 &&& ~~~p.clusters) }
  (s.refillDie die).advancePre die
/-- A write to PRE_CMD (16 R351). -/
def State.writePre (s : State) (die : Nat) (v : BitVec 64) : State :=
  let d := s.die die
  if d.preStatus = 1 then s
  else
    let op := fld v.toNat 0 2
    let p : PreCmd := { asid := v.extractLsb' 48 16, clusters := clustersOf die v, out := op == 1, start := s.cycle }
    let s := s.updDie die fun d => { d with preSeq := v.extractLsb' 4 8, dumped := false }
    if op = 1 ∨ op = 2 then
      let s := s.updDie die fun d => { d with preStatus := 1, pre := some p }
      if op = 1 then s.beginOut die p else s.beginIn die p
    else s.updDie die fun d => { d with preStatus := 2 }
/-- PRE_OUT, PRE_IN: a write to PRE_CMD with OP 1 or 2. -/
def execPreOut (die : Nat) (v : BitVec 64) (s : State) : Out := .next (if fld v.toNat 0 2 = 1 then s.writePre die v else s)
def execPreIn (die : Nat) (v : BitVec 64) (s : State) : Out := .next (if fld v.toNat 0 2 = 2 then s.writePre die v else s)
/-- Dies in hand stand from this bound on. -/
def dieHand : Nat := 2 ^ 20
/-- GROUP_PARKED (the group in hand): a group that is to park, or to be dumped, has come to rest. With a die in hand, from 2^20 on, the
    die's command takes its further steps. -/
def execGroupParked (s : State) : Out :=
  .next (if dieHand ≤ s.hand then s.advancePre (s.hand - dieHand)
    else match s.group? s.hand with
      | none => s
      | some g =>
        match g.park with
        | .asked => if s.groupParks s.hand g then s.beginSave s.hand g else s
        | .dumping => s.tryDump s.hand g
        | _ => s)
/-- Cycles of a budget in microseconds of 1.05 GHz periods. -/
def budget (n : Nat) : Nat := 1050 * n
/-- Groups of the die's OUT that a test selects take the full dump. -/
def State.dumpWhere (s : State) (die : Nat) (p : PreCmd) (f : Group → Bool) : State :=
  let ks := (s.groupsIn p).filter fun k => ((s.group? k).map f).getD false
  if ks = [] then s
  else (ks.foldl (fun (s : State) k => s.updGroup k fun g => { g with park := .dumping }) s).updDie die fun d => { d with dumped := true }
/-- PARK_BUDGET_EXPIRE (the die in hand). -/
def execParkBudgetExpire (s : State) : Out :=
  let d := s.die s.hand
  .next (match d.pre with
    | some p => if p.out && decide (p.start + budget (fld d.preBudget.toNat 0 16) ≤ s.cycle) then
        s.dumpWhere s.hand p fun g => g.park == .asked else s
    | none => s)
/-- ROUTINE_BUDGET_EXPIRE (the die in hand). -/
def execRoutineBudgetExpire (s : State) : Out :=
  let d := s.die s.hand
  .next (match d.pre with
    | some p => if p.out then s.dumpWhere s.hand p fun g => (match g.park with
        | .saving _ => true
        | _ => false) && decide (g.savedAt + budget (fld d.preBudget.toNat 16 16) ≤ s.cycle) else s
    | none => s)
/-- SPLIT_ROTATION (the group in hand): after every 256 clauses the table's split of smallest LAST and the longest-spilled READY split
    change places (12 R261); at once when the table holds no READY split, since no clause could then be issued (12 R266, log 64). -/
def execSplitRotation (s : State) : Out :=
  .next (match s.group? s.hand with
  | none => s
  | some g =>
    let stuck := !g.splits.any fun x => x.st == .ready
    match g.spilled.find? fun x => x.st == .ready, smallestLast (g.splits.filter fun x => x.run.isNone) with
    | some x, some v =>
      if stuck || decide (g.rotated + 256 ≤ g.clauses) then
        (s.setGroup s.hand { g.swapSpilled v x with rotated := if stuck then g.rotated else g.clauses }).noteSpill s.hand g.spillBytes g
      else s
    | _, _ => s)

end Sys2Proof.Machine
end

