-- ==== Sys2Proof/Machine/Link.lean ====
section
/-! DEFINITION. The peer links, network arrivals, soft errors (16 R356, R357; 17 R364 to R372). -/

namespace Sys2Proof.Machine

def State.updLinks (s : State) (f : Links → Links) : State := { s with links := f s.links }
/-- A counter that saturates at 2^64 − 1 (17 R360). -/
def satAdd (a b : Nat) : Nat := min (a + b) (2 ^ 64 - 1)

/-! ### The matching table (17 R369 to R371) -/

/-- Fields of a matching-table entry (17 R369). -/
def nmBuf (e : BitVec 256) : Nat := fld e.toNat 192 64
def nmNode (e : BitVec 256) : Addr := e.extractLsb' 128 64
def nmLen (e : BitVec 256) : Nat := fld e.toNat 96 32
def nmTag (e : BitVec 256) : BitVec 32 := e.extractLsb' 64 32
def nmArrived (e : BitVec 256) : Nat := fld e.toNat 32 32
def nmAsid (e : BitVec 256) : BitVec 16 := e.extractLsb' 16 16
def nmSrc (e : BitVec 256) : BitVec 6 := e.extractLsb' 10 6
def nmAny (e : BitVec 256) : Bool := e.getLsbD 9
def nmDie (e : BitVec 256) : Nat := fld e.toNat 8 1
def nmState (e : BitVec 256) : Nat := fld e.toNat 6 2
def nmRearm (e : BitVec 256) : Bool := e.getLsbD 5
def nmArmed (e : BitVec 256) : Bool := nmState e == 1
/-- An entry with its STATE and ARRIVED set. -/
def nmSet (e : BitVec 256) (st arrived : Nat) : BitVec 256 :=
  BitVec.ofNat 256 (e.toNat - nmState e * 2 ^ 6 - nmArrived e * 2 ^ 32 + st * 2 ^ 6 + arrived % 2 ^ 32 * 2 ^ 32)
def State.nmEntry (s : State) (n : Nat) : BitVec 256 := s.links.nm.getD n 0
def State.setNm (s : State) (n : Nat) (e : BitVec 256) : State := s.updLinks fun l => { l with nm := l.nm.putD 0 n e }
/-- Word `w` of an entry. -/
def nmWord (e : BitVec 256) (w : Nat) : BitVec 64 := e.extractLsb' (64 * w) 64
/-- A write of word `w`: ARRIVED and STATE stand; TAG 0 frees the entry. -/
def nmPut (e : BitVec 256) (w : Nat) (v : BitVec 64) : BitVec 256 :=
  let x := e.toNat - (nmWord e w).toNat * 2 ^ (64 * w) + v.toNat * 2 ^ (64 * w)
  let y : BitVec 256 := nmSet (BitVec.ofNat 256 x) (nmState e) (nmArrived e)
  if nmTag y = 0 then nmSet y 0 (nmArrived y) else y
/-- NM_ENTRY_WRITE: ignored while the entry is ARMED. -/
def State.writeNm (s : State) (n w : Nat) (v : BitVec 64) : State :=
  if 1024 ≤ n ∨ 4 ≤ w ∨ nmArmed (s.nmEntry n) then s else s.setNm n (nmPut (s.nmEntry n) w v)
def execNmEntryWrite (n word : Nat) (v : BitVec 64) (s : State) : Out := .next (s.writeNm n word v)
/-- The header that an entry names is a KIND 1 header with RECSZ 2. The read is part of a register write, which waits for no walker (log 68). -/
def State.nmNodeOk (s : State) (e : BitVec 256) : Bool :=
  let free := { s with walks := s.walks.filter fun w => w.2.die != nmDie e }
  (nmNode e).toNat % 64 == 0 && match (free.engineRead (nmDie e) (nmAsid e) (nmNode e) 64 .read false).2 with
    | .ok raw => nodeHeaderOk (ofBytes raw) && (parseHeader (ofBytes raw)).recsz == 2
    | .error _ => false
/-- A field breaks R369. -/
def State.nmBad (s : State) (e : BitVec 256) : Bool :=
  nmBuf e % 128 != 0 || nmLen e == 0 || nmTag e == 0 || fld e.toNat 0 5 != 0 || !s.nmNodeOk e
/-- Another armed entry takes pieces that this one would (17 R370). -/
def State.nmConflict (s : State) (n : Nat) (e : BitVec 256) : Bool :=
  s.links.nm.any fun x => x.1 != n && nmArmed x.2 && nmAsid x.2 == nmAsid e && nmTag x.2 == nmTag e
    && (nmAny x.2 || nmAny e || nmSrc x.2 == nmSrc e)
def State.nmResult (s : State) (r : BitVec 2) : State := s.updLinks fun l => { l with nmStat := r }
/-- NM_ARM: the entry in bits 9:0 is armed, or the arm is refused (17 R370). An entry that is armed already keeps its reservation. -/
def State.armNm (s : State) (v : BitVec 64) : State :=
  let n := fld v.toNat 0 10
  let e := s.nmEntry n
  if s.nmBad e then s.nmResult 3
  else if s.nmConflict n e then s.nmResult 1
  else match if nmArmed e ∧ n ∉ s.links.nmHeld then some s else s.takeGranules (nmAsid e) 2 with
    | none => s.nmResult 2
    | some s => ((s.setNm n (nmSet e 1 0)).updLinks fun l => { l with nmHeld := l.nmHeld.erase n }).nmResult 0
def execNmArm (v : BitVec 64) (s : State) : Out := .next (s.armNm v)

/-- The record of 17 R372. -/
def nmRecord (n : Nat) (e : BitVec 256) (arrived : Nat) (src : BitVec 6) : List Byte :=
  toBytes 32 (nmBuf e * 2 ^ 192 + nmLen e * 2 ^ 160 + arrived % 2 ^ 32 * 2 ^ 128 + (nmTag e).toNat * 2 ^ 96 + n * 2 ^ 86 + src.toNat * 2 ^ 80
    + b2n (decide (nmLen e < arrived)) * 2 ^ 76)
/-- An armed entry counts a piece, and releases at its length (17 R371). -/
def State.countNm (s : State) (n : Nat) (src : BitVec 6) (bytes : Nat) : State :=
  let e := s.nmEntry n
  let a := nmArrived e + bytes
  if a < nmLen e then s.setNm n (nmSet e 1 a)
  else
    let s := s.push { die := nmDie e, asid := nmAsid e, node := nmNode e, data := nmRecord n e a src, depth := 0, src := 3, gran := 2 }
    if !nmRearm e then s.setNm n (nmSet e 2 a)
    else match s.takeGranules (nmAsid e) 2 with
      | some s => s.setNm n (nmSet e 1 0)
      | none => (s.setNm n (nmSet e 1 0)).updLinks fun l => { l with nmHeld := l.nmHeld ++ [n] }
/-- The armed entry that a piece's context, tag and sender match. -/
def State.nmMatch (s : State) (p : NetPiece) : Option Nat :=
  (s.links.nm.find? fun x => nmArmed x.2 && nmAsid x.2 == p.asid && nmTag x.2 == p.tag && (nmAny x.2 || nmSrc x.2 == p.src)).map (·.1)
/-- A piece's bytes lie in an entry's buffer. -/
def nmHolds (e : BitVec 256) (p : NetPiece) : Bool :=
  decide (nmBuf e ≤ p.va.toNat) && decide (p.va.toNat + p.bytes.length ≤ nmBuf e + nmLen e)
def State.missNm (s : State) (n : Nat) : State := s.updLinks fun l => { l with nmMiss := satAdd l.nmMiss n }
/-- A piece is written, and counted or missed. -/
def State.takePiece (s : State) (p : NetPiece) : State :=
  let n := p.bytes.length
  let t := s.deviceWrite p.key p.bytes
  if p.tag = 0 then t
  else match s.nmMatch p with
    | none => t.missNm n
    | some i => if nmHolds (s.nmEntry i) p then t.countNm i p.src n else t.missNm n
/-- A key of this module's own memory. -/
def State.ownMemory (s : State) (k : Nat) : Bool :=
  keyMod k == Config.selfModule && decide (keyTier k ≤ 1) && decide (keyPa k < s.tierLimit (keyTier k))
/-- NETWORK_PIECE_ARRIVE: a piece of another module's copy request is written here (17 R368, R371). It waits at its home while its entry
    lacks the granules of its next record, or a checkpoint holds the line. -/
def execNetworkPieceArrive (p : NetPiece) (s : State) : Out :=
  if !s.ownMemory p.key || !s.ownMemory (p.key + (p.bytes.length - 1)) then .fault (.noSuchAddress p.key)
  else if s.ckptHolds p.key then .next s
  else match s.nmMatch p with
    | some i =>
      if i ∈ s.links.nmHeld ∧ nmHolds (s.nmEntry i) p then
        match s.takeGranules p.asid 2 with
        | some s => .next ((s.updLinks fun l => { l with nmHeld := l.nmHeld.erase i }).takePiece p)
        | none => .next s
      else .next (s.takePiece p)
    | none => .next (s.takePiece p)

/-! ### Ports (17 R360, R366) -/

/-- Writes held for modules that a route now reaches are sent, in their order (17 R366). -/
def State.sendHeld (s : State) : State :=
  let go := s.links.out.filter fun w => s.reachable w.peer
  let s := s.updLinks fun l => { l with out := l.out.filter fun w => !s.reachable w.peer }
  go.foldl (fun s w => s.deviceWrite w.key w.bytes) s
def State.forgetProxies (s : State) : State := { s with proxies := s.proxies.filter fun e => s.reachable (keyMod (e.1 * 128)) }
/-- Port p of 12 is DOWN, RETRAIN or UP, and the modules that some UP route reaches are given with it. The proxies keep no lease of a module that
    no route reaches (R365). -/
def State.setPort (s : State) (port : Nat) (st : BitVec 2) (reach : BitVec 64) : State :=
  (s.updLinks fun l => { l with
    reach := reach
    peerWaits := l.peerWaits.filter fun w => !reach.getLsbD (w.peer % 64)
    portStat := (l.portStat &&& ~~~(3#24 <<< (2 * port))) ||| (st.setWidth 24 <<< (2 * port)) }).forgetProxies.sendHeld

/-! ### Soft errors (16 R356, R357) -/

/-- ECC_CORRECTED: the error is repaired in place, and nothing visible changes. -/
def execEccCorrected (_key : Nat) (s : State) : Out := .next s
/-- POISON_FOUND for a sector without a consumer (16 R340). -/
def State.poisonFound (s : State) (key : Nat) : State :=
  s.post { die := homeDie key, kind := 7, source := 1024 + homeDie key, arg0 := packedLoc key }
/-- Where a group stands: its first split of the table. -/
def State.stopPoison (s : State) (k : Nat) (item : BitVec 64) : State :=
  match (s.group? k).bind fun g => g.splits.head? with
  | some x => s.stopGroup k { cause := Cause.dataPoison.code, detail := BitVec.ofNat 8 x.idx, pc := x.pc, idx := x.idx, lanes := x.mask,
                              arg1 := item }
  | none => s
/-- ECC_UNCORRECTABLE: a sector is marked, or the owner of a register, a tile or an accumulator stops with DATA_POISON. -/
def execEccUncorrectable (t : ErrTarget) (s : State) : Out :=
  match t with
  | .sector key scrub =>
    if keyMod key = Config.selfModule ∧ s.tierLimit (keyTier key) ≤ keyPa key then .fault (.noSuchAddress key)
    else .next (let s := s.markPoison (key / 32 * 32) 32
                if scrub then s.poisonFound (key / 32 * 32) else s)
  | .group k item => .next (s.stopPoison k item)
  | .seq q item => .next (s.stopSeq q .dataPoison 0 item)

end Sys2Proof.Machine
end

