-- ==== Sys2Proof/Machine/Plat.lean ====
section
/-! DEFINITION. Boot, attestation, power and checkpoint (15 R335; 18 R375 to R382). -/

namespace Sys2Proof.Machine

def State.updPlat (s : State) (f : Platform → Platform) : State := { s with plat := f s.plat }

/-! ### Reset (18 R375, R376, R382) -/

/-- Memory of a tier of this module. -/
def ownTier (tier k : Nat) : Bool := keyMod k == Config.selfModule && keyTier k == tier
/-- Every agent and register at reset; what lies outside the module keeps its contents, and of its own memory what `keep` selects. -/
def State.cold (s : State) (keep : Nat → Bool) : State :=
  let stays := fun k => !(ownTier 0 k || ownTier 1 k) || keep k
  { State.reset with
    turns := s.turns
    fresh := s.fresh
    mem := s.mem.filter fun e => stays e.1
    poison := s.poison.filter fun e => stays (32 * e.1)
    plat := { fuse := s.plat.fuse } }
/-- COMPUTE_RESET: LPDDR-6 stays in self-refresh with its contents. -/
def execComputeReset (s : State) : Out := .next ((s.cold (ownTier 1)).updPlat fun p => { p with intact := true })
/-- POWER_LOSS: both tiers lose their contents (log 4). -/
def execPowerLoss (s : State) : Out := .next (s.cold fun _ => false)

/-! ### Boot (18 R375 to R377) -/

/-- BOOTST as its field map gives it. -/
def bootWord (image step code : Nat) : BitVec 64 := BitVec.ofNat 64 (image * 2 ^ 8 + step * 2 ^ 4 + code)
/-- An image is accepted: both signatures verify, and its version is not below the fuses' counter (18 R377). -/
def imageOk (fuse : BitVec 16) (i : ImageFacts) : Bool := i.readOk && i.ecdsaOk && i.lmsOk && decide (fuse ≤ i.version)
/-- Step 4: the measurements, FWVER, and the service cores, which enter the image in M mode. -/
def State.bootImage (s : State) (n : Nat) (i : ImageFacts) (entry : BitVec 64) : State :=
  let meas : Tab (BitVec 384) :=
    [(1, s.free 384 1), (2, i.digest), (4, s.plat.fuse.setWidth 384)]
  { s with
    plat := { s.plat with bootst := bootWord n 4 0, halted := false, meas := meas, intact := false }
    dies := [0, 1].foldl (fun d k => d.put k { s.die k with fwver := i.version }) s.dies
    harts := (List.range Config.harts).foldl (fun t h => t.put h { pc := entry, running := true }) s.harts }
/-- MODULE_RESET with what the ROM finds: the module comes out of reset, and the ROM of service core 0 takes its steps. Memory that was not
    left in self-refresh is cleared. The SIMT cores stay disabled until step 5 is reported. -/
def execModuleReset (b : BootFacts) (s : State) : Out :=
  let keep := s.plat.intact
  let s := (s.cold fun k => keep && ownTier 1 k).updLinks fun l => { l with pool := b.pool }
  .next (
    if !b.trained then s.updPlat fun p => { p with bootst := bootWord 0 1 1 }
    else if imageOk s.plat.fuse b.imageA then s.bootImage 1 b.imageA b.entry
    else if imageOk s.plat.fuse b.imageB then s.bootImage 2 b.imageB b.entry
    else s.updPlat fun p => { p with bootst := bootWord 0 (if b.imageB.readOk then 3 else 2) 2, intact := false })
/-- A write to BOOTST: Lemdekel reports CODE 3 when step 5 is complete, the SIMT cores enabled (18 R375, R376). -/
def State.writeBootst (s : State) (v : BitVec 64) : State :=
  if fld v.toNat 0 4 = 3 ∧ fld s.plat.bootst.toNat 8 4 ≠ 0 then
    s.updPlat fun p => { p with bootst := bootWord (fld p.bootst.toNat 8 4) 5 3, simt := true }
  else s

/-! ### SPDM (18 R378) -/

/-- Request codes of SPDM 1.2 (PRESUMED, log 14). -/
def spdmVersionCode : Nat := 0x84
def spdmCapsCode : Nat := 0xE1
def spdmAlgsCode : Nat := 0xE3
def spdmDigestsCode : Nat := 0x81
def spdmCertCode : Nat := 0x82
def spdmChallengeCode : Nat := 0x83
def spdmMeasCode : Nat := 0xE0
def State.booted (s : State) : Bool := fld s.plat.bootst.toNat 8 4 != 0
def State.recovery (s : State) : Bool := fld s.plat.bootst.toNat 0 4 == 2
/-- A response leaves for the requester: the request's code and what it reports. -/
def State.respond (s : State) (code payload : Nat) : State := s.updPlat fun p => { p with spdm := p.spdm ++ [(code, payload)] }
/-- The connection is negotiated, as the requests after it need. -/
def State.negotiated (s : State) : Bool := s.booted && s.plat.spdmVersion && s.plat.spdmCaps && s.plat.spdmAlgs
/-- GET_VERSION: 1.2; it begins a connection. -/
def execGetVersion (s : State) : Out :=
  .next (if s.booted || s.recovery then
      (s.updPlat fun p => { p with spdmVersion := true, spdmCaps := false, spdmAlgs := false }).respond spdmVersionCode 0x12
    else s)
def execGetCapabilities (s : State) : Out :=
  .next (if (s.booted || s.recovery) && s.plat.spdmVersion then
      (s.updPlat fun p => { p with spdmCaps := true }).respond spdmCapsCode (s.free 64 0).toNat
    else s)
/-- NEGOTIATE_ALGORITHMS: ECDSA P-384 and SHA-384, or none: 1 when both are agreed. -/
def execNegotiateAlgorithms (ecdsaP384 sha384 : Bool) (s : State) : Out :=
  .next (if s.booted && s.plat.spdmVersion && s.plat.spdmCaps then
      (s.updPlat fun p => { p with spdmAlgs := ecdsaP384 && sha384 }).respond spdmAlgsCode (b2n (ecdsaP384 && sha384))
    else s)
/-- GET_DIGESTS, GET_CERTIFICATE, CHALLENGE: what the certificates and the signatures are is not stated (log 14). -/
def execGetDigests (s : State) : Out := .next (if s.negotiated then s.respond spdmDigestsCode (s.free 384 0).toNat else s)
def execGetCertificate (slot off len : Nat) (s : State) : Out :=
  .next (if s.negotiated then s.respond spdmCertCode (s.free 64 (slot + off + len)).toNat else s)
def execChallenge (slot : Nat) (nonce : BitVec 256) (s : State) : Out :=
  .next (if s.negotiated then s.respond spdmChallengeCode (s.free 384 (slot + nonce.toNat)).toNat else s)
/-- Measurement i: 3 is the version of the firmware that now runs, as FWVER of die 0 gives it (16 R338, R350; log 57). -/
def State.measurement (s : State) (i : Nat) : Nat := if i = 3 then (s.die 0).fwver.toNat else (s.plat.meas.getD i 0).toNat
/-- GET_MEASUREMENTS: index 0 asks their number, 1 to 4 one of them; a signed response carries both signatures. In recovery the
    measurements report the failure. -/
def execGetMeasurements (index : Nat) (sign : Bool) (nonce : BitVec 256) (s : State) : Out :=
  let sig := if sign then (s.free 384 nonce.toNat).toNat * 2 ^ 384 else 0
  .next (if s.recovery then s.respond spdmMeasCode s.plat.bootst.toNat
    else if !s.negotiated then s
    else if index = 0 then s.respond spdmMeasCode (sig + 4)
    else s.respond spdmMeasCode (sig + s.measurement index))

/-! ### Power (15 R335, 18 R379) -/

/-- PWRCAP as it reads. -/
def capOf (v : BitVec 64) : BitVec 64 := BitVec.ofNat 64 (max 1200 (min 2400 (fld v.toNat 0 12)))
/-- POWER_CAP_THROTTLE: issue slots are withheld, or no longer; this changes timing only. -/
def execPowerCapThrottle (on : Bool) (s : State) : Out := .next (s.updPlat fun p => { p with throttled := on })
/-- A write to PWRCTL: with bit 0 clear every cluster is held at 1.05 GHz. -/
def State.writePwrctl (s : State) (v : BitVec 64) : State :=
  s.updPlat fun p => { p with pwrctl := v, steps := if v.getLsbD 0 then p.steps else [] }
/-- Steps of 25 MHz above 0.95 GHz; 4 is 1.05 GHz. -/
def Platform.step (p : Platform) (c : Nat) : Nat := p.steps.getD c 4
/-- The key with the largest count, the lowest of them. -/
def mostOf (t : Tab Nat) : Option Nat :=
  (t.find? fun e => t.all fun f => decide (f.2 ≤ e.2)).map (·.1)
/-- The end of a window of 8: the cluster that was last in at least 6 gains a step, which the cluster of its die that was first most often
    gives. -/
def Platform.shift (p : Platform) (w : PowerWindow) : Platform :=
  match w.lasts.find? fun e => decide (6 ≤ e.2) with
  | none => p
  | some (c, _) =>
    match mostOf (w.firsts.filter fun e => e.1 != c && dieOfCluster e.1 == dieOfCluster c) with
    | none => p
    | some d =>
      if p.step c < 8 ∧ 0 < p.step d then { p with steps := (p.steps.put c (p.step c + 1)).put d (p.step d - 1) } else p
/-- Every team of a command that has started has passed a phase of a barrier; the count is of 16 bits. -/
def State.phaseOver (s : State) (cmd bar ph : Nat) : Bool :=
  let behind := fun (t : Team) => t.cmd == some cmd && decide ((BitVec.ofNat 16 ph - (t.bar bar).ph).toNat < 2 ^ 15)
  !(s.teams.any fun e => behind e.2) && !s.outTeams.any fun e => behind e.team
/-- While issue slots are withheld, steps shift only between clusters whose draw stays under the limit: what they draw is not the model's to say
    (18 R379; log 59). -/
def State.mayShift (s : State) : Bool := !s.plat.throttled || Config.free s.fresh 786701 % 2 == 1
/-- POWER_SHIFT: the oldest phase that every team of its command has completed is compared over their clusters, in the command's window. -/
def execPowerShift (s : State) : Out :=
  .next (match s.plat.phases.find? fun e => s.phaseOver e.1 e.2.1 e.2.2.1 with
    | none => s
    | some (n, b, ph, _) =>
      let same := fun (e : Nat × Nat × Nat × Nat) => e.1 == n && e.2.1 == b && e.2.2.1 == ph
      let cs := (s.plat.phases.filter same).map fun e => e.2.2.2
      let may := s.mayShift
      s.updPlat fun p =>
        let p := { p with phases := p.phases.filter fun e => !same e }
        match cs, cs.getLast? with
        | f :: _, some l =>
          if cs.all (· == f) || !p.pwrctl.getLsbD 0 then p
          else
            let w := p.windows.getD n {}
            let w : PowerWindow := { window := w.window + 1, firsts := w.firsts.put f (w.firsts.getD f 0 + 1), lasts := w.lasts.put l (w.lasts.getD l 0 + 1) }
            if w.window < 8 then { p with windows := p.windows.put n w }
            else
              let q := { p with windows := p.windows.del n }
              if may then q.shift w else q
        | _, _ => p)

/-! ### Checkpoint (18 R380, R381) -/

/-- Bytes of tier 0, and of a region of the safe tier. -/
def regionBytes : Nat := 2 ^ 39
def tier0Base : Nat := physKey Config.selfModule 0 0
def regionBase (r : Nat) : Nat := physKey Config.selfModule 1 (r * regionBytes)
/-- Work that keeps a command from running. -/
def State.activeWork (s : State) : Bool :=
  !s.teams.isEmpty || !s.copies.isEmpty || !s.rays.isEmpty || s.cmds.any fun e => e.2.started && !e.2.done && cmdOp e.2.raw.toNat == 1
def State.ckptResult (s : State) (st : BitVec 3) : State := s.updPlat fun p => { p with ckptStatus := st }
/-- A write to CKPT_CMD (18 R380): steps 1 and 2 of R381 at once, and the copy in progress until CKPT_DONE. -/
def State.writeCkpt (s : State) (v : BitVec 64) : State :=
  if s.plat.ckptStatus = 1 then s
  else
    let op := fld v.toNat 0 2
    let s := s.updPlat fun p => { p with ckptSeq := v.extractLsb' 4 8 }
    if fld v.toNat 41 23 ≠ 0 ∨ fld v.toNat 12 27 ≠ 0 ∨ fld v.toNat 2 2 ≠ 0 ∨ op = 0 ∨ op = 3 then s.ckptResult 2
    else if s.activeWork then s.ckptResult 3
    else if s.homes.any fun e => !e.2.pend.isEmpty then s.ckptResult 4
    else
      let r := fld v.toNat 39 2
      let s := s.recallRange (tier0Base, tier0Base + regionBytes)
      let s := s.recallRange (regionBase r, regionBase r + regionBytes)
      let s := s.timeAdvance (s.largestLease (tier0Base, tier0Base + regionBytes))
      (s.updPlat fun p => { p with ckpt := some (op == 1, r) }).ckptResult 1
/-- CKPT_SAVE, CKPT_RESTORE: a write to CKPT_CMD with OP 1 or 2. -/
def execCkptSave (v : BitVec 64) (s : State) : Out := .next (if fld v.toNat 0 2 = 1 then s.writeCkpt v else s)
def execCkptRestore (v : BitVec 64) (s : State) : Out := .next (if fld v.toNat 0 2 = 2 then s.writeCkpt v else s)
/-- A table's entries of `n` keys from `src` on, laid at `dst`, over whatever stood there. -/
def copyTab {α : Type} (t : Tab α) (src dst n : Nat) : Tab α :=
  (t.filter fun e => decide (e.1 < dst))
    ++ (t.filter fun e => decide (src ≤ e.1) && decide (e.1 < src + n)).map (fun e => (e.1 - src + dst, e.2))
    ++ t.filter fun e => decide (dst + n ≤ e.1)
/-- The copy is complete, poisoned sectors with their marks; the writes that waited are performed. -/
def State.endCkpt (s : State) : State :=
  match s.plat.ckpt with
  | none => s
  | some (save, r) =>
    let src := if save then tier0Base else regionBase r
    let dst := if save then regionBase r else tier0Base
    let bad := (s.poison.filter fun e => decide (src ≤ 32 * e.1) && decide (32 * e.1 < src + regionBytes)).map fun e => 32 * e.1
    let held := s.plat.ckptHeld
    let s := { s with mem := copyTab s.mem src dst regionBytes, poison := copyTab s.poison (src / 32) (dst / 32) (regionBytes / 32) }
    let s := (s.timeAdvance (s.largestLease (dst, dst + regionBytes))).updPlat fun p => { p with ckpt := none, ckptHeld := [] }
    let s := bad.foldl (fun (s : State) k => s.poisonFound k) (s.ckptResult (if bad = [] then 0 else 5))
    held.foldl (fun (s : State) w => s.deviceWrite w.1 w.2) s

end Sys2Proof.Machine
end

