-- ==== Sys2Proof/Machine/Mmio.lean ====
section
/-! DEFINITION. The register blocks of tier 6, as their accesses act (03 R394; 15 R391; and the field maps that 15, 16, 17 and 18 give). -/

namespace Sys2Proof.Machine

/-! ### Where a register lies (03 R394) -/

/-- The block that a tier 6 address lies in, and the offset in it. -/
inductive Block where
  | queue (die : Nat)
  | xlat
  | link
  | geode (c : Nat)
  | doorbell (i : Nat)
  | none
  deriving DecidableEq, Repr
def blockOf (pa : Nat) : Block :=
  let f := pa / 2 ^ 16
  if f = 0 then .queue 0
  else if f = 0x10 then .queue 1
  else if f = 0x20 then .xlat
  else if f = 0x30 then .link
  else if 0x100 ≤ f ∧ f < 0x100 + Config.clusters then .geode (f - 0x100)
  else if 0x100000 ≤ f ∧ f < 0x100000 + 4096 then .doorbell (f - 0x100000)
  else .none

/-! ### Reads of 64-bit registers -/

/-- QS_STAT (15 R322). -/
def State.qsStat (s : State) (n : Nat) : BitVec 64 :=
  let q := s.slot n
  let idle := !cfgEn q.cfg && s.outstanding n == 0
  let drain := !cfgEn q.cfg && s.outstanding n != 0
  BitVec.ofNat 64 (s.outstanding n * 2 ^ 32 + b2n q.flt * 16 + b2n q.ovr * 8 + b2n q.err * 4 + b2n drain * 2 + b2n idle)
/-- The 8 bytes of PENDMAP at an offset (15 R323). -/
def State.pendWord (s : State) (off : Nat) : BitVec 64 :=
  BitVec.ofNat 64 (ofBytes ((List.range 8).map fun i => s.pend.getD (off + i) 0))
/-- CKPT_STAT (18 R380). -/
def Platform.ckptStat (p : Platform) : BitVec 64 := BitVec.ofNat 64 (p.ckptSeq.toNat * 2 ^ 8 + p.ckptStatus.toNat)
/-- XLAT_INVST (03 R79). -/
def Xlat.stat (x : Xlat) : BitVec 64 := BitVec.ofNat 64 (b2n x.lost * 2 ^ 16 + x.seq.toNat * 2 ^ 8 + x.status.toNat)
/-- The registers that each die has (16 R338, R346, R351); a register that is only written reads 0. -/
def State.dieGet (s : State) (die off : Nat) : BitVec 64 :=
  let d := s.die die
  match off with
  | 0x4008 => d.preStat
  | 0x4010 => d.preBudget
  | 0x6000 => d.evqBase
  | 0x6008 => d.evqCfg
  | 0x6010 => d.evqHead
  | 0x6018 => d.evqTail
  | 0x6020 => d.evqTailw
  | 0x6028 => d.fwver.setWidth 64
  | 0x6040 => d.mbVal
  | 0x7000 => d.dwSel
  | 0x7008 => d.dwAddr
  | 0x7010 => (s.dwItem die).getD 0
  | 0x7020 => BitVec.ofNat 64 (b2n d.dwErr)
  | _ => 0
/-- A slot's register (15 R322). -/
def State.slotGet (s : State) (n off : Nat) : BitVec 64 :=
  let q := s.slot n
  match off with
  | 0x00 => q.base
  | 0x08 => q.cfg
  | 0x10 => q.head.setWidth 64
  | 0x18 => q.ctxd
  | 0x20 => s.qsStat n
  | _ => 0
/-- The registers that the queue block of die 0 has alone (15 R322, R323, R331, R335; 18 R376, R379, R380). -/
def State.queueGet (s : State) (off : Nat) : BitVec 64 :=
  if off < 0x200 then s.pendWord off
  else if 0x1000 ≤ off ∧ off < 0x1800 then s.slotGet ((off - 0x1000) / 64) (off % 64)
  else if 0x2000 ≤ off ∧ off < 0x2080 then s.quota ((off - 0x2000) / 8)
  else match off with
    | 0x3000 => s.plat.pwrctl
    | 0x3008 => capOf s.plat.pwrcap
    | 0x3010 => s.plat.bootst
    | 0x5008 => s.plat.ckptStat
    | _ => s.dieGet 0 off
/-- The link block (17 R360, R361, R369). -/
def State.linkGet (s : State) (off : Nat) : BitVec 64 :=
  let l := s.links
  if 0x1000 ≤ off ∧ off < 0x9000 then nmWord (s.nmEntry ((off - 0x1000) / 32)) (off % 32 / 8)
  else if 0x9000 ≤ off ∧ off < 0x9110 then
    (if off % 16 = 0 then l.bindBase else l.bindAsid).getD ((off - 0x9000) / 16) 0
  else match off with
    | 0x00 => BitVec.ofNat 64 Config.selfModule
    | 0x08 => l.pgMap ||| BitVec.ofNat 64 (2 ^ Config.selfModule)
    | 0x10 => l.lnkWait.setWidth 64
    | 0x18 => l.reach
    | 0x20 => l.portStat.setWidth 64
    | 0x28 => BitVec.ofNat 64 l.hsDrop
    | 0x30 => BitVec.ofNat 64 l.nmMiss
    | 0x40 => l.nmStat.setWidth 64
    | _ => 0
/-- What the 64-bit register at an address holds; an offset that names none reads 0 (15 R391). -/
def State.regGet (s : State) (pa : Nat) : BitVec 64 :=
  let off := pa % 2 ^ 16 / 8 * 8
  match blockOf pa with
  | .queue 0 => s.queueGet off
  | .queue d => s.dieGet d off
  | .xlat => (match off with
    | 0x00 => s.xlat.inva
    | 0x08 => s.xlat.drnp
    | 0x18 => s.xlat.stat
    | _ => 0)
  | .link => s.linkGet off
  | .geode c => if off = 0 then (s.geoAge.getD c ageReset).setWidth 64 else 0
  | .doorbell i => if off = 0 then (s.tails.getD i 0).setWidth 64 else 0
  | .none => 0

/-! ### Writes of 64-bit registers -/

/-- The state that a meaning answers with. -/
def nextOr (s : State) (o : Out) : State :=
  match o with
  | .next t => t
  | _ => s
/-- A write to MB_CMD (16 R342). -/
def State.mailboxWrite (s : State) (die : Nat) (v : BitVec 64) : State :=
  match mbOp v with
  | 0 => nextOr s (execMbReply die v s)
  | 1 => nextOr s (execMbResolve die v s)
  | 2 => nextOr s (execMbDecline die v s)
  | _ => s
/-- A write to DW_CMD (16 R346, R347). -/
def State.dwCmd (s : State) (die : Nat) (v : BitVec 64) : State :=
  match fld v.toNat 0 2 with
  | 0 => s.dwResume die
  | 1 => s.dwSkip die
  | 2 => s.dwKill die
  | _ => s
/-- A register keeps only the bits of its fields; bits that its layout gives as zero are discarded (16 R338; 15 R335; 17 R361; log 46). -/
def fieldBits (m : Nat) (v : BitVec 64) : BitVec 64 := v &&& BitVec.ofNat 64 m
/-- A write to a register that each die has. -/
def State.diePut (s : State) (die off : Nat) (v : BitVec 64) : State :=
  match off with
  | 0x4000 => s.writePre die v
  | 0x4010 => s.updDie die fun d => { d with preBudget := fieldBits (2 ^ 32 - 1) v }
  | 0x6000 => nextOr s (execEvqBaseWrite die v s)
  | 0x6008 => (s.updDie die fun d => { d with evqCfg := fieldBits 15 v }).flushDie die
  | 0x6010 => s.writeHead die v
  | 0x6020 => nextOr s (execEvqTailwWrite die v s)
  | 0x6030 => nextOr s (execFwsw die v s)
  | 0x6040 => s.updDie die fun d => { d with mbVal := v }
  | 0x6048 => s.mailboxWrite die v
  | 0x7000 => s.updDie die fun d => { d with dwSel := v }
  | 0x7008 => s.updDie die fun d => { d with dwAddr := v }
  | 0x7010 => nextOr s (execDwDataWrite die v s)
  | 0x7018 => s.dwCmd die v
  | _ => s
/-- A write to a slot's register: its head and its context stand while EN is 1 (15 R322). -/
def State.slotPut (s : State) (n off : Nat) (v : BitVec 64) : State :=
  let q := s.slot n
  if off = 0x08 then s.writeCfg n v
  else if off = 0x00 then s.setSlot n { q with base := v }
  else if cfgEn q.cfg then s
  else match off with
    | 0x10 => s.setSlot n { q with head := v.setWidth 32 }
    | 0x18 => s.setSlot n { q with ctxd := v }
    | _ => s
def State.queuePut (s : State) (off : Nat) (v : BitVec 64) : State :=
  if off < 0x200 then s.clearPend off 8 v
  else if 0x1000 ≤ off ∧ off < 0x1800 then s.slotPut ((off - 0x1000) / 64) (off % 64) v
  else if 0x2000 ≤ off ∧ off < 0x2080 then { s with quotas := s.quotas.put ((off - 0x2000) / 8) v }
  else match off with
    | 0x3000 => s.writePwrctl (fieldBits 1 v)
    | 0x3008 => s.updPlat fun p => { p with pwrcap := v }
    | 0x3010 => s.writeBootst v
    | 0x5000 => s.writeCkpt v
    | _ => s.diePut 0 off v
def State.linkPut (s : State) (off : Nat) (v : BitVec 64) : State :=
  if 0x1000 ≤ off ∧ off < 0x9000 then s.writeNm ((off - 0x1000) / 32) (off % 32 / 8) v
  else if 0x9000 ≤ off ∧ off < 0x9110 then
    s.updLinks fun l => if off % 16 = 0 then { l with bindBase := l.bindBase.putD 0 ((off - 0x9000) / 16) (fieldBits (2 ^ 52 - 2 ^ 16) v) }
                        else { l with bindAsid := l.bindAsid.putD 0 ((off - 0x9000) / 16) (fieldBits (2 ^ 63 + 2 ^ 16 - 1) v) }
  else match off with
    | 0x08 => s.updLinks fun l => { l with pgMap := v ||| BitVec.ofNat 64 (2 ^ Config.selfModule) }
    | 0x10 => s.updLinks fun l => { l with lnkWait := v.setWidth 32 }
    | 0x38 => s.armNm v
    | _ => s
/-- The effect of a write to the 64-bit register at an address (15 R391). -/
def State.regPut (s : State) (pa : Nat) (v : BitVec 64) : State :=
  let off := pa % 2 ^ 16 / 8 * 8
  match blockOf pa with
  | .queue 0 => s.queuePut off v
  | .queue d => s.diePut d off v
  | .xlat => (match off with
    | 0x00 => { s with xlat := { s.xlat with inva := v } }
    | 0x08 => { s with xlat := { s.xlat with drnp := v } }
    | 0x10 => s.writeInvc v
    | 0x18 => if v.getLsbD 16 then { s with xlat := { s.xlat with lost := false } } else s
    | _ => s)
  | .link => s.linkPut off v
  | .geode c => if off = 0 then { s with geoAge := s.geoAge.put c (v.setWidth 32) } else s
  | .doorbell i => if off = 0 then s.writeTail i (v.setWidth 32) else s
  | .none => s

/-! ### Accesses by size (15 R391) -/

/-- The address lies in PENDMAP. -/
def inPendmap (pa : Nat) : Bool := decide (pa < 0x200)
/-- DW_DATA of a die, whose reads set or clear ERR (16 R346). -/
def dwDataOf (pa : Nat) : Option Nat :=
  match blockOf pa with
  | .queue d => if pa % 2 ^ 16 / 8 * 8 = 0x7010 then some d else none
  | _ => none
/-- A register whose write starts a command or a request: a write of half of it is ignored. -/
def startsCommand (pa : Nat) : Bool :=
  let off := pa % 2 ^ 16 / 8 * 8
  match blockOf pa with
  | .queue 0 => off == 0x5000 || off == 0x4000 || off == 0x6030 || off == 0x6048 || off == 0x7018
  | .queue _ => off == 0x4000 || off == 0x6030 || off == 0x6048 || off == 0x7018
  | .xlat => off == 0x10
  | .link => off == 0x38
  | _ => false
/-- The sizes that an access at an address may have. -/
def mmioSize (pa n : Nat) : Bool :=
  pa % n == 0 && (n == 8 || n == 4 || (inPendmap pa && (n == 1 || n == 2)))
/-- A read of n bytes; none: the size is not supported. -/
def State.mmioRead (s : State) (pa n : Nat) : Option (State × Nat) :=
  if !mmioSize pa n then none
  else
    let x := fld (s.regGet pa).toNat (8 * (pa % 8)) (8 * n)
    match dwDataOf pa with
    | some d => some (s.readDw d, x)
    | none => some (s, x)
/-- A value with n bytes of another from a byte on. -/
def mergeBytes (old : BitVec 64) (off n x : Nat) : BitVec 64 :=
  let m := 2 ^ (8 * n)
  BitVec.ofNat 64 (old.toNat - fld old.toNat (8 * off) (8 * n) * 2 ^ (8 * off) + x % m * 2 ^ (8 * off))
/-- A write of n bytes; none: the size is not supported. PENDMAP's bytes clear where they hold ones; the low half of a doorbell is TAIL. -/
def State.mmioWrite (s : State) (pa n x : Nat) : Option State :=
  if !mmioSize pa n then none
  else if inPendmap pa then some (s.clearPend pa n (BitVec.ofNat 64 x))
  else if n = 8 then some (s.regPut pa (BitVec.ofNat 64 x))
  else if startsCommand pa then some s
  else match blockOf pa with
    | .doorbell i => some (if pa % 2 ^ 16 = 0 then s.writeTail i (BitVec.ofNat 32 x) else s)
    | .xlat => some (if pa % 2 ^ 16 / 8 * 8 = 0x18 then (if pa % 8 = 0 then s.regPut pa (BitVec.ofNat 64 x) else s)
                     else s.regPut pa (mergeBytes (s.regGet pa) (pa % 8) n x))
    | _ => some (s.regPut pa (mergeBytes (s.regGet pa) (pa % 8) n x))
/-- REGISTER_WRITE: a write of n bytes at a tier 6 address, by an agent of the environment. A size that R391 does not admit has no effect:
    the access raises its exception at the agent. -/
def execRegisterWrite (pa : BitVec 52) (n : Nat) (v : BitVec 64) (s : State) : Out := .next ((s.mmioWrite pa.toNat n v.toNat).getD s)

end Sys2Proof.Machine
end

