-- ==== Sys2Proof/Machine/Host.lean ====
section
/-! DEFINITION. The host port: bindings, translation, the stream sequencer, reads, function-level reset (17 R361 to R363), and the events
that let held writes go on (17 R366; 18 R381). -/

namespace Sys2Proof.Machine

/-- The host port is on die 1 (17 R361). -/
def hostDie : Nat := 1
/-- The parts of a host request through a function's BAR: keys and lengths, or the fault. -/
def State.hostParts (s : State) (fn : Nat) (off : BitVec 64) (n : Nat) (kind : AccKind) :
    State × Except (Nat × Addr) (List (Nat × Nat)) :=
  let id := s.links.bindAsid.getD fn 0
  let va := s.links.bindBase.getD fn 0 + off
  if !id.getLsbD 63 || decide (2 ^ 36 < off.toNat + n) then (s, .error (fkNotPresent, va))
  else s.enginePieces (n / 65536 + 2) hostDie (id.setWidth 16) va n kind false
/-- A faulting host write is dropped, and reported (17 R361). -/
def State.hostFault (s : State) (fn : Nat) (f : Nat × Addr) : State :=
  s.post { die := 0, kind := 1, source := 1280, core := 0xFF, cause := 4, detail := f.1,
           asid := (s.links.bindAsid.getD fn 0).setWidth 16, vaddr := f.2 }
/-- The parts of a write reach their homes, line by line in increasing order of address; a part in tier 6 is a register write, dropped at a
    size that R391 does not admit (17 R363). -/
def State.hostStore (s : State) (parts : List (Nat × Nat)) (bs : List Byte) : State :=
  (parts.foldl (fun (a : State × List Byte) p =>
    let b := a.2.take p.2
    let t := if keyTier p.1 = 6 then (a.1.mmioWrite (keyPa p.1) p.2 (ofBytes b)).getD a.1 else a.1.deviceWrite p.1 b
    (t, a.2.drop p.2)) (s, bs)).1
/-- A posted write is translated and performed, or dropped. None: it cannot be performed at its homes yet. -/
def State.hostPut (s : State) (fn : Nat) (off : BitVec 64) (bs : List Byte) : Option State :=
  match s.hostParts fn off bs.length .write with
  | (s, .error f) => if f.1 = fkWait then none else some (s.hostFault fn f)
  | (s, .ok parts) =>
    if parts.any fun p => !s.reachable (keyMod p.1) || s.ckptHolds p.1 then none else some (s.hostStore parts bs)
/-- A write of stream 0 goes as it comes; its homes hold it while they must (17 R363, R366). One that finds no walker is not taken yet (log
    68). -/
def State.hostPost (s : State) (fn : Nat) (off : BitVec 64) (bs : List Byte) : State :=
  match s.hostParts fn off bs.length .write with
  | (s, .error f) => if f.1 = fkWait then s else s.hostFault fn f
  | (s, .ok parts) => s.hostStore parts bs

/-! ### Streams (17 R363) -/

/-- The key of a stream. -/
def streamKey (fn : Nat) (S : BitVec 8) : Nat := fn * 256 + S.toNat
def HeldWrite.stream1 (w : HeldWrite) : Nat := streamKey w.fn w.stream
def State.nextSeq (s : State) (k : Nat) : BitVec 16 := s.links.next.getD k 0
/-- A held write that is its stream's next. -/
def State.dueWrite (s : State) : Option HeldWrite := s.links.held.find? fun w => w.seq == s.nextSeq w.stream1
/-- Held writes whose turn has come are performed, one after another; `fuel` bounds their number. A write that must wait leaves its stream
    where it stands. -/
def State.drainStreams : Nat → List HeldWrite → State → State
  | 0, _, s => s
  | _ + 1, [], s => s
  | fuel + 1, w :: rest, s =>
    if w.seq = s.nextSeq w.stream1 then
      match s.hostPut w.fn w.off w.bytes with
      | some s =>
        let s := s.updLinks fun l => { l with next := l.next.putD 0 w.stream1 (s.nextSeq w.stream1 + 1), held := l.held.erase w }
        State.drainStreams fuel s.links.held s
      | none => State.drainStreams fuel rest s
    else State.drainStreams fuel rest s
def State.drain (s : State) : State :=
  s.drainStreams ((s.links.held.length + 1) * (s.links.held.length + 1)) s.links.held
/-- Writes and streams that the sequencer holds at once. -/
def heldLimit : Nat := 2048
def streamLimit : Nat := 64
/-- Streams with a gap, where `l` is held: those whose next write is not among them. -/
def State.gapStreams (s : State) (l : List HeldWrite) : Nat :=
  (((l.map HeldWrite.stream1).dedup).filter fun k => !l.any fun w => w.stream1 == k && w.seq == s.nextSeq k).length
def State.dropHost (s : State) : State := s.updLinks fun l => { l with hsDrop := satAdd l.hsDrop 1 }
/-- A prefixed write arrives. -/
def State.takeStream (s : State) (w : HeldWrite) : State :=
  let n := s.nextSeq w.stream1
  if 31 < (w.seq - n).toNat then s.dropHost
  else
    let l := s.links.held ++ [w]
    if heldLimit < l.length ∨ streamLimit < s.gapStreams l then s.dropHost
    else (s.updLinks fun k => { k with held := l }).drain
/-- HOST_WRITE: it is held, dropped or performed in the order of its stream; stream 0 goes as it comes. -/
def execHostWrite (w : HostWriteReq) (s : State) : Out :=
  .next (if 16 < w.fn then s
    else match w.pfx with
      | some (S, q) =>
        if S = 0 then s.hostPost w.fn w.off w.bytes
        else s.takeStream { fn := w.fn, stream := S, seq := q, off := w.off, bytes := w.bytes }
      | none => s.hostPost w.fn w.off w.bytes)

/-! ### Reads and reset -/

/-- The bytes of a range, those of poisoned sectors free (log 35). -/
def State.hostBytes (s : State) (k n : Nat) : List Byte :=
  (enum 0 (s.deviceRead k n)).map fun e => if s.poisoned (k + e.1) 1 then s.free 8 e.1 else e.2
/-- What a read of n bytes returns: the parts' bytes, or Unsupported Request for a size that a register does not admit. -/
def State.hostLoad (s : State) : List (Nat × Nat) → State × Option (List Byte)
  | [] => (s, some [])
  | p :: t =>
    match if keyTier p.1 = 6 then (s.mmioRead (keyPa p.1) p.2).map (fun r => (r.1, toBytes p.2 r.2)) else some (s, s.hostBytes p.1 p.2) with
    | none => (s, none)
    | some (s, bs) => match s.hostLoad t with
      | (s, some r) => (s, some (bs ++ r))
      | (s, none) => (s, none)
def State.answerHost (s : State) (fn : Nat) (r : Option (List Byte)) : State :=
  s.updLinks fun l => { l with hostReads := l.hostReads ++ [(fn, r)] }
/-- HOST_READ: translated and answered; a read that faults, or whose module does not answer, is an Unsupported Request. -/
def execHostRead (fn : Nat) (off : BitVec 64) (n : Nat) (s : State) : Out :=
  .next (if 16 < fn then s
    else match s.hostParts fn off n .read with
      | (s, .error f) => if f.1 = fkWait then s else s.answerHost fn none
      | (s, .ok parts) =>
        match s.hostLoad parts with
        | (s, r) => s.answerHost fn r)
/-- FUNCTION_LEVEL_RESET (the function in hand): its binding, its streams and its held writes go (17 R361, R363). -/
def execFunctionLevelReset (s : State) : Out :=
  let f := s.hand
  .next (s.updLinks fun l => { l with
    bindBase := l.bindBase.del f
    bindAsid := l.bindAsid.del f
    next := l.next.filter fun e => e.1 / 256 != f
    held := l.held.filter fun w => w.fn != f })

/-! ### Events that let held writes go on -/

/-- PORT_STATE_CHANGE: port p of 12 is DOWN, RETRAIN or UP (17 R360, R366). -/
def execPortStateChange (port : Nat) (st : BitVec 2) (reach : BitVec 64) (s : State) : Out :=
  .next (if 12 ≤ port ∨ st = 3 then s else (s.setPort port st reach).drain)
/-- CKPT_DONE (18 R381). -/
def execCkptDone (s : State) : Out := .next (if s.plat.ckpt.isSome then s.endCkpt.drain else s)

end Sys2Proof.Machine
end

