-- ==== Sys2Proof/Machine/Access.lean ====
section
/-! DEFINITION. Loads, stores, prefetches and atomics (06 R131 to R138; 04 R91 to R94; 11 R240 to R242; 15 R391). -/

namespace Sys2Proof.Machine

/-! ### Where a lane's access is performed (06 R133) -/

/-- A target that no access of n bytes may have: a register of tier 6 at a size that R391 does not admit. -/
def badRegister (n : Nat) (h : Hit) : Bool := keyTier h.key == 6 && !mmioSize (keyPa h.key) n
/-- A lane's translation does not let it act: a fault is noted and logged. -/
def State.laneFault (s : State) (k gio : Nat) (a : LaneAcc) (f : Nat) : State :=
  (s.updOp k gio fun o => o.setLane a.lane (.faulted f)).logFaults k gio
/-- An earlier access of the lane that may be to tier 6 is not performed: a lane's accesses to tier 6 keep program order (05 R113). -/
def State.registerBusy (s : State) (k : Nat) (g : Group) (gio lane : Nat) : Bool :=
  g.ops.any fun e => decide (e.gio < gio) && !e.performed && isAccess e.instr && e.accs.any fun a => a.lane == lane && match a.phase with
    | .done _ | .atHome _ => false
    | _ => match s.locate k g [] a.ea 1 .read with
      | .at h => keyTier h.key == 6
      | .miss | .fault _ => true
      | _ => false
/-- A lane waits at the home for a request of that number. -/
def State.laneAtHome (s : State) (k gio : Nat) (lane n : Nat) : State := s.updOp k gio fun o => o.setLane lane (.atHome n)
/-- A request of a group for one lane. -/
def State.askHome (s : State) (k gio : Nat) (lane line : Nat) (kind : ReqKind) : State × Nat :=
  s.postReq { core := coreOf k, line := line, kind := kind, pts := s.pts (coreOf k), who := .op k gio lane, horizon := s.horizonOf k }
/-- The lanes of an operation in turn, each with its target; a lane whose target is no place of memory faults. -/
def State.eachLane (s : State) (k gio : Nat) (l : List (LaneAcc × Place)) (scr : LaneAcc → Nat → State → State)
    (mem : LaneAcc → Hit → State → State) : State :=
  l.foldl (fun s e => match e.2 with
    | .scratch off => scr e.1 off s
    | .at h => mem e.1 h s
    | .fault f => s.laneFault k gio e.1 f
    | .range => s.laneFault k gio e.1 fkRange
    | .outside => s.laneFault k gio e.1 fkNotPresent
    | .miss => s) s

/-! ### Loads (06 R135) -/

/-- A load of the scratchpad (04 R107): a page not pinned waits for its refill, poison stops the group. -/
def State.scrLoad (s : State) (k gio : Nat) (g : Group) (o : Op) (n : Nat) (a : LaneAcc) (off : Nat) : State :=
  if !s.scrPinned g.team off n then s.askPage g.team off n
  else if s.scrPoisoned g.team off n then s.poisonStop k gio a.lane a.ea
  else
    let s := (s.readStamp k (s.syncTime k)).noteRead k (ordOf o.instr) false (scrPlace off) n
    s.doneLane k gio a.lane (ofBytes (s.scrBytes g.team off n))
/-- A load of a register of tier 6. -/
def State.regLoad (s : State) (k gio : Nat) (a : LaneAcc) (key n : Nat) : State :=
  match s.mmioRead (keyPa key) n with
  | some (s, x) => s.doneLane k gio a.lane x
  | none => s.stopAtOp k gio .unsupportedAccess 0 0 a.ea
/-- A load completed at the L1 or through it: the lanes of one line, which the L1 serves together or asks for together (04 R92, R97). An
    earlier write of the L1 to the line that is not performed holds it back (R93). Each request is a miss for counter 2 (16 R359, log 12). -/
def State.l1Load (s : State) (k gio : Nat) (g : Group) (od : Ord × Scope) (n line : Nat) (ls : List LaneAcc) : State :=
  let c := coreOf k
  let ws := (ls.flatMap fun a => spanWords (accOffset a) n).dedup
  if s.behindWrite s.reqs.next c line then s
  else if s.l1Serves c line ws then
    match s.takeRef g.team (dieOfCore c) ((s.l1Line? c line).bind (·.ref)) with
    | none => s
    | some s => ls.foldl (fun s a => (s.noteRead k od false (line * 128 + accOffset a) n).doneLane k gio a.lane (spanNum (s.l1Word c line) (accOffset a) n)) s
  else
    let s := s.updGroup k fun g => { g with pmc := g.pmc.put 2 (g.pmc.getD 2 0 + 1) }
    let (s, r) := s.askHome k gio (ls.headD { lane := 0, ea := 0 }).lane line (s.l1Asks c line ws)
    ls.foldl (fun s a => s.laneAtHome k gio a.lane r) s
/-- LD and LDNT at their turn. -/
def State.performLoad (s : State) (k gio : Nat) : State :=
  s.performOp k gio fun g o l s =>
    let n := accBytes o.instr
    let r := s.gather k gio g o l n .read false (badRegister n)
    let near := fun (key : Nat) => s.reaches k (ordOf o.instr).2 && !uncached key
    let l1 := r.2.filterMap fun e => match e.2 with
      | .at h => if near h.key then some (e.1, lineOf h.key) else none
      | _ => none
    let s := r.1.eachLane k gio r.2 (fun a off s => s.scrLoad k gio g o n a off) fun a h s =>
      if keyTier h.key = 6 then (if s.registerBusy k g gio a.lane then s else s.regLoad k gio a h.key n)
      else if near h.key then s
      else
        let (s, r) := s.askHome k gio a.lane (lineOf h.key) (.load (h.key % 128) n)
        s.laneAtHome k gio a.lane r
    ((l1.map (·.2)).dedup).foldl (fun s line => s.l1Load k gio g (ordOf o.instr) n line ((l1.filter fun e => e.2 == line).map (·.1))) s
/-- A load form: the operation and its destination registers (02 R48). -/
def loadForm (i : Instr) (gd : Guard) (ty : MemTy) (d : BitVec 8) (m : MemOpd) (s : State) : Out :=
  onIssuer s fun k g x =>
    s.issueMem k g x { instr := i, lanes := s.active g x gd, ea := s.effAddr g m.base m.idx m.scale m.off, bytes := tyBytes ty, kind := .read,
                       bad := badRegister (tyBytes ty), vd := vRange d.toNat (tyRegs ty) } fun gio s => s.performLoad k gio
def execLd (o : LdOp) (s : State) : Out := loadForm (.ld o) o.g o.ty o.d o.m s
def execLdnt (o : LdntOp) (s : State) : Out := loadForm (.ldnt o) o.g o.ty o.d o.m s

/-! ### Stores (06 R135; 04 R93) -/

/-- The low n bytes of a lane's registers from vd on (06 R135). -/
def State.storeData (s : State) (g : Group) (d n l : Nat) : Nat :=
  ofBytes (((List.range ((n + 3) / 4)).map fun i => toBytes 4 (s.readV g (if d = 255 then 255 else d + i) l).toNat).flatten) % 2 ^ (8 * n)
/-- ST at its turn. -/
def State.performStore (s : State) (k gio : Nat) : State :=
  s.performOp k gio fun g o l s =>
    let n := accBytes o.instr
    let c := coreOf k
    let r := s.gather k gio g o l n .write false (badRegister n)
    r.1.eachLane k gio r.2
      (fun a off s =>
        if !s.scrPinned g.team off n then s.askPage g.team off n else
          (((s.setScr g.team off (toBytes n a.data)).spoilObjs g.team off n).noteWrite k (ordOf o.instr) false (scrPlace off) n).doneLane k gio a.lane 0)
      fun a h s =>
        if keyTier h.key = 6 then
          if s.registerBusy k g gio a.lane then s
          else match s.mmioWrite (keyPa h.key) n a.data with
          | some s => s.doneLane k gio a.lane 0
          | none => s.stopAtOp k gio .unsupportedAccess 0 0 a.ea
        else if s.reaches k (ordOf o.instr).2 && decide (4 ≤ n) && !uncached h.key then
          if s.behindWrite s.reqs.next c (lineOf h.key) then s
          else ((((s.l1Store c (lineOf h.key) (h.key % 128) (toBytes n a.data)).noteWrite k (ordOf o.instr) false h.key n).laneStored k a.ea n).doneLane
            k gio a.lane 0)
        else
          let (s, r) := s.askHome k gio a.lane (lineOf h.key) (.write (h.key % 128) (toBytes n a.data))
          (s.laneAtHome k gio a.lane r).laneStored k a.ea n
def execSt (o : LdOp) (s : State) : Out :=
  onIssuer s fun k g x =>
    let n := tyBytes o.ty
    s.issueMem k g x { instr := .st o, lanes := s.active g x o.g, ea := s.effAddr g o.m.base o.m.idx o.m.scale o.m.off,
                       data := s.storeData g o.d.toNat n, bytes := n, kind := .write, bad := badRegister n } fun gio s => s.performStore k gio

/-! ### Stores into a bundle (11 R240, R242) -/

/-- Tiers that no pending version may have (11 R240). -/
def badBundled (h : Hit) : Bool := keyTier h.key == 2 || keyTier h.key == 5 || keyTier h.key == 6
/-- ST.bnd at its turn: each lane's bytes leave for the home of their line, under the bundle that BCUR named at issue. -/
def State.performBundled (s : State) (k gio : Nat) : State :=
  s.performOp k gio fun g o l s =>
    let n := accBytes o.instr
    let r := s.gather k gio g o l n .write true badBundled
    r.1.eachLane k gio r.2 (fun _ _ s => s) fun a h s =>
      let (s, q) := s.askHome k gio a.lane (lineOf h.key)
        (.bundled (h.key % 128) (toBytes n a.data) Config.selfModule (BitVec.ofNat 16 (o.args.headD 0)))
      s.laneAtHome k gio a.lane q
/-- A hold entry is left for one more ST.bnd, beside those in flight, each of which may come to wait behind another bundle (16 R343). -/
def Group.bndMayHold (g : Group) : Bool :=
  decide (g.heldOps.length + (g.ops.filter fun o => o.place == .free && !o.performed && match o.instr with
    | .stBnd _ => true
    | _ => false).length < 8)
/-- ST.bnd: with BCUR 0 it stops the group, before any other check (log 36); BCUR is read once the group's earlier BOPEN, BCOMMIT and BABORT
    have set it. -/
def execStBnd (o : StBndOp) (s : State) : Out :=
  onIssuer s fun k g x =>
    let n := tyBytes o.ty
    let act := s.active g x o.g
    if (g.ops.any fun e => isBundleForm e.instr) || !g.bndMayHold then s.halt
    else if act ≠ 0 ∧ g.bcur = 0 then s.trapAt k x .bundleNone act
    else s.issueMem k g x { instr := .stBnd o, lanes := act, ea := s.effAddr g o.m.base o.m.idx o.m.scale o.m.off,
                            data := s.storeData g o.d.toNat n, bytes := n, kind := .write, noWindow := true, together := true, bad := badBundled,
                            args := [g.bcur.toNat] } fun gio s => s.performBundled k gio
/-- An earlier bundled store of the same core to the line has not arrived: the lanes of one instruction arrive in their order (06 R134). -/
def State.behindBundled (s : State) (n : Nat) (r : HomeReq) : Bool :=
  s.reqs.any fun e => decide (e.1 < n) && e.2.core == r.core && e.2.line == r.line && match e.2.kind with
    | .bundled _ _ _ _ => true
    | _ => false
/-- BUNDLE_STORE_ARRIVE (the request in hand): a bundled store reaches its home, and is merged, refused, late, or waits behind another bundle
    in a hold entry (11 R240 to R242; 16 R343). Its module must answer (17 R366). -/
def execBundleStoreArrive (s : State) : Out :=
  let n := s.hand
  .next (match s.reqs.get? n with
    | none => s
    | some r =>
      match r.kind, r.who with
      | .bundled off bs _ h, .op k gio lane =>
        if !s.reachable (keyMod (r.line * 128)) || s.ckptHolds (r.line * 128) || s.behindBundled n r then s
        else
          match s.group? k, s.opOf k gio with
          | some g, some o =>
            let ea := ((o.accs.find? fun a => a.lane == lane).map (·.ea)).getD 0
            match s.bundledStore (s.asidOf g) h r.line off bs ea false r.behind with
            | (s, .waits w) =>
              let s := s.updReq n fun r => { r with behind := some w }
              if o.isPlaced || !g.canHold then s else s.updOp k gio fun o => { o with place := .held }
            | (s, _) =>
              let s := s.dropReq n
              let waits := s.reqs.any fun e => e.2.behind.isSome && match e.2.who with
                | .op j i _ => j == k && i == gio
                | _ => false
              ((if o.place == .held && !waits then s.freeOp k gio else s).doneLane k gio lane 0)
          | _, _ => s.dropReq n
      | _, _ => s)

/-! ### Prefetch (06 R136) -/

/-- A translation for a prefetch: a failed one drops it, and none is marked used (log 37). One that finds no walker is dropped too. -/
def State.prefetchKey (s : State) (k : Nat) (g : Group) (va : Addr) : State × Option Nat :=
  match s.locate k g [] va 4 .read with
  | .at h => (s.raisePts (coreOf k) h.acq, some h.key)
  | .miss =>
    (match s.engineWalk (dieOfCore (coreOf k)) (s.asidOf g) va.toNat with
    | none => (s, none)
    | some (s, w) =>
      let r := s.leafResult .read false w
      if r.fault.isSome then (s, none)
      else let h := (r.entry (s.asidOf g) va.toNat r.pte).hit va.toNat; (s.raisePts (coreOf k) h.acq, some h.key))
  | _ => (s, none)
/-- A line's home slice takes it, a pool line under an entry of the snoop filter (04 R104). -/
def State.warm (s : State) (line : Nat) : State := match s.poolEnter line with
  | (s, true) => s.setHome line (s.home line)
  | (s, false) => s
/-- One lane's prefetch: a fill of the whole line starts, or its home's slice takes the line. -/
def State.prefetch (s : State) (k : Nat) (g : Group) (die : Bool) (va : Addr) : State :=
  let c := coreOf k
  if va.toNat % 4 ≠ 0 then s
  else match s.prefetchKey k g va with
    | (s, none) => s
    | (s, some key) =>
      let line := lineOf key
      if uncached key then s
      else if die then (if s.reachable (keyMod key) then s.warm line else s)
      else if s.l1Serves c line (List.range 32) || s.reqs.any (fun e => e.2.line == line && e.2.core == c && e.2.who == .nobody) then s
      else (s.postReq { core := c, line := line, kind := .fill 0 32, pts := s.pts c, who := .nobody, horizon := s.horizonOf k }).1
/-- PREF produces no event, and never faults. -/
def execPref (o : PrefOp) (s : State) : Out :=
  onIssuer s fun k g x =>
    (lanesOf (s.active g x o.g)).foldl (fun s l => s.prefetch k g o.die (s.effAddr g o.m.base o.m.idx o.m.scale o.m.off l)) s

/-! ### Atomics (06 R134, R137, R138) -/

def badAtomic (h : Hit) : Bool := keyTier h.key == 6
/-- An atomic's read-modify-write in the scratchpad, in lane order (04 R107; 06 R134). -/
def State.scrRmw (s : State) (k gio : Nat) (g : Group) (o : Op) (n : Nat) (a : LaneAcc) (off : Nat) : State :=
  if !s.scrPinned g.team off n then s.askPage g.team off n
  else if s.scrPoisoned g.team off n then s.poisonStop k gio a.lane a.ea
  else
    let s := (s.readStamp k (s.syncTime k)).noteRead k (ordOf o.instr) true (scrPlace off) n
    let old := ofBytes (s.scrBytes g.team off n)
    (match rmwNew o.instr old a.data with
     | some x => (s.setScr g.team off (toBytes n x)).noteWrite k (ordOf o.instr) true (scrPlace off) n
     | none => s).doneLane k gio a.lane old
/-- An atomic at its turn. -/
def State.performAtomic (s : State) (k gio : Nat) : State :=
  s.performOp k gio fun g o l s =>
    let n := accBytes o.instr
    let r := s.gather k gio g o l n .rmw true badAtomic
    r.1.eachLane k gio r.2 (fun a off s => s.scrRmw k gio g o n a off) fun a h s =>
      let (s, q) := s.askHome k gio a.lane (lineOf h.key) .rmw
      (s.laneAtHome k gio a.lane q).laneStored k a.ea n
/-- An atomic form: w words of data from vc, and the old value to vd. -/
def atomForm (i : Instr) (gd : Guard) (b64 : Bool) (d c : BitVec 8) (words : Nat) (base : Option (BitVec 6)) (idx : BitVec 8) (scale : BitVec 2)
    (s : State) : Out :=
  onIssuer s fun k g x =>
    let n := if b64 then 8 else 4
    s.issueMem k g x { instr := i, lanes := s.active g x gd, ea := s.effAddr g base idx scale 0, data := s.storeData g c.toNat (4 * words),
                       bytes := n, kind := .rmw, together := true, bad := badAtomic, vd := vRange d.toNat (n / 4) } fun gio s =>
      s.performAtomic k gio
def atomWords (b64 : Bool) : Nat := if b64 then 2 else 1
def execAtomAdd (o : AtomOp) (s : State) : Out := atomForm (.atomAdd o) o.g o.b64 o.d o.c (atomWords o.b64) o.base o.idx o.scale s
def execAtomMin (o : AtomMmOp) (s : State) : Out := atomForm (.atomMin o) o.g o.b64 o.d o.c (atomWords o.b64) o.base o.idx o.scale s
def execAtomMax (o : AtomMmOp) (s : State) : Out := atomForm (.atomMax o) o.g o.b64 o.d o.c (atomWords o.b64) o.base o.idx o.scale s
def execAtomAnd (o : AtomOp) (s : State) : Out := atomForm (.atomAnd o) o.g o.b64 o.d o.c (atomWords o.b64) o.base o.idx o.scale s
def execAtomOr (o : AtomOp) (s : State) : Out := atomForm (.atomOr o) o.g o.b64 o.d o.c (atomWords o.b64) o.base o.idx o.scale s
def execAtomXor (o : AtomOp) (s : State) : Out := atomForm (.atomXor o) o.g o.b64 o.d o.c (atomWords o.b64) o.base o.idx o.scale s
def execAtomExch (o : AtomOp) (s : State) : Out := atomForm (.atomExch o) o.g o.b64 o.d o.c (atomWords o.b64) o.base o.idx o.scale s
def execAtomInc (o : AtomOp) (s : State) : Out := atomForm (.atomInc o) o.g o.b64 o.d o.c (atomWords o.b64) o.base o.idx o.scale s
def execAtomDec (o : AtomOp) (s : State) : Out := atomForm (.atomDec o) o.g o.b64 o.d o.c (atomWords o.b64) o.base o.idx o.scale s
def execAtomFadd (o : AtomFOp) (s : State) : Out := atomForm (.atomFadd o) o.g false o.d o.c 1 o.base o.idx o.scale s
def execAtomFmin (o : AtomFOp) (s : State) : Out := atomForm (.atomFmin o) o.g false o.d o.c 1 o.base o.idx o.scale s
def execAtomFmax (o : AtomFOp) (s : State) : Out := atomForm (.atomFmax o) o.g false o.d o.c 1 o.base o.idx o.scale s
/-- ATOM.CAS: the compare value, then the new value above it. -/
def execAtomCas (o : AtomOp) (s : State) : Out := atomForm (.atomCas o) o.g o.b64 o.d o.c (2 * atomWords o.b64) o.base o.idx o.scale s

end Sys2Proof.Machine
end

