-- ==== Sys2Proof/Machine/Sync.lean ====
section
/-! DEFINITION. Fences, waiting and waking, the conditional update of up to four lines, allocation, upcalls, guarded commands (06 R139 to
R151; 07 R170; 16 R348, R349). -/

namespace Sys2Proof.Machine

/-- An operation is performed, with the value that its scalar destination takes. -/
def State.endOp (s : State) (k gio v : Nat) : State :=
  s.updOp k gio fun o => { o with performed := true, sOut := o.sd.map fun d => (d, BitVec.ofNat 64 v) }

/-! ### Fences (06 R139 to R141) -/

def farScope : Scope → Bool
  | .peer | .sys => true
  | _ => false
/-- Writes of a group that another module or the pool has not acknowledged, by module (06 R140; 17 R366, R374). -/
def State.unacked (s : State) (k : Nat) : List Nat :=
  ((s.links.out ++ s.links.poolOut.map (·.2)).filter fun w => w.group == k).map (·.peer)
    ++ (s.reqs.filter fun e => !s.reachable (keyMod (e.2.line * 128)) && match e.2.kind, e.2.who with
      | .write _ _, .op j _ _ | .write _ _, .span j _ => j == k
      | _, _ => false).map fun e => keyMod (e.2.line * 128)
/-- A fence at its turn: .acq once every earlier read is performed, the others once every earlier access is, with what the links and the pool
    still owe at .peer and .sys. -/
def State.performFence (s : State) (k gio : Nat) : State :=
  s.performOp k gio fun g o _ s =>
    let reads := g.ops.any fun e => decide (e.gio < gio) && !e.performed && isRead e.instr && isAccess e.instr
    let od := ordOf o.instr
    if reads || (od.1 != .acq && farScope od.2 && !(s.unacked k).isEmpty) then s
    else s.updOp k gio fun o => { o with performed := true, pOut := match o.pd with
      | some p => [(p, o.mask)]
      | none => [] }
/-- FENCE has its event whatever its guard; it keeps the cycle at which LINK_WAIT ends (06 R140, 17 R367). -/
def execFence (o : FenceOp) (s : State) : Out :=
  onIssuer s fun k g x =>
    s.issueOp k g x (.fence o) (s.active g x o.g) [] [] [] (o.pd.map (·.toNat)) fun gio s =>
      (s.updOp k gio fun p => { p with aux := s.cycle + s.linkWait }).performFence k gio
/-- What is left of an operation is writes that another module has not acknowledged. -/
def State.onlyUnacked (s : State) (o : Op) : Bool :=
  !o.accs.isEmpty && o.accs.all fun a => match a.phase with
    | .done _ => true
    | .atHome n => ((s.reqs.get? n).map fun r => (match r.kind with
      | .write _ _ => true
      | _ => false) && !s.reachable (keyMod (r.line * 128))).getD false
    | _ => false
/-- FENCE_LINK_TIMEOUT: a fence of .peer or .sys for which only unacknowledged writes are left, with the write-back of 04 R94 made, ends with an
    error, FERR, and a report for each module (06 R140). -/
def execFenceLinkTimeout (k gio : Nat) (s : State) : Out :=
  .next (match s.group? k, s.opOf k gio with
    | some g, some o =>
      let far := match o.instr with
        | .fence f => farScope f.scope && f.ord != .acq
        | _ => false
      let g1 := { g with ops := g.ops.filter fun e => !decide (e.gio < gio) || e.performed || !s.onlyUnacked e }
      if !far || o.performed || decide (s.cycle < o.aux) || !g1.mayPerform o then s
      else
        let s := s.writeBackAll (coreOf k) (k, gio)
        let ms := s.unacked k
        if ms.isEmpty || s.reqs.any (fun e => e.2.isSpan && (s.l1Group (coreOf k)).contains (s.l1Core e.2.core e.2.line)
            && s.reachable (keyMod (e.2.line * 128))) then s
        else
          let s := s.updGroup k fun g => { (g.updOp gio fun o => { o with performed := true, pOut := match o.pd with
            | some p => [(p, 0)]
            | none => [] }).fenceSeen (ordOf o.instr).1 with ferr := true }
          (ms.dedup).foldl (fun (s : State) m => s.linkEvent m ((ms.filter (· == m)).length)) s
    | _, _ => s)
/-- FENCE.ENG at its turn, with the write-back of 04 R94 (06 R141). -/
def State.performFenceEng (s : State) (k gio : Nat) : State :=
  s.performOp k gio fun _ _ _ s =>
    let s := s.writeBackAll (coreOf k) (k, gio)
    if s.unsent k then s else s.updOp k gio fun o => { o with performed := true }
def execFenceEng (o : GuardOnly) (s : State) : Out :=
  onIssuer s fun k g x => s.issueOp k g x (.fenceEng o) (s.active g x o.g) [] [] [] none fun gio s => s.performFenceEng k gio

/-! ### Forms that run once for a split (06 R145 to R148) -/

/-- The target of an address that an operation in flight uses: its lane waits for the walk, or is logged when it faults. -/
def State.opPlace (s : State) (k gio : Nat) (g : Group) (lane : Nat) (va : Addr) (n : Nat) (kind : AccKind) : State × Option Place :=
  let s := s.updOp k gio fun o => { o with accs := o.accs.map fun a => if a.lane = lane then { a with ea := va } else a }
  let conditional := ((s.opOf k gio).map fun o => match o.instr with
    | .condq _ => true
    | _ => false).getD false
  match if kind == .write && !conditional then s.target1 k gio g { lane := lane, ea := va } n kind
        else s.targetRead k gio g { lane := lane, ea := va } n kind with
  | (s, some (.fault f)) => (s.laneFault k gio { lane := lane, ea := va } f, none)
  | (s, some .range) => (s.laneFault k gio { lane := lane, ea := va } fkRange, none)
  | (s, some .outside) => (s.laneFault k gio { lane := lane, ea := va } fkNotPresent, none)
  | r => r
/-- Targets of several addresses, in order; none while one of them has no translation. -/
def State.opPlaces (s : State) (k gio : Nat) (g : Group) (lane : Nat) : List (Addr × Nat × AccKind) → State × Option (List Place)
  | [] => (s, some [])
  | (va, n, kind) :: t => match s.opPlace k gio g lane va n kind with
    | (s, none) => (s, none)
    | (s, some p) => match s.opPlaces k gio g lane t with
      | (s, some l) => (s, some (p :: l))
      | (s, none) => (s, none)
/-- The lines and the buffer slots of LINKQ and CONDQ: the checks of 06 R132 in their order, over both, then their targets; none while one of them
    has no translation, waits behind an earlier access to its line (16 R344), or where the group has stopped. -/
def State.quadPlaces (s : State) (k gio : Nat) (g : Group) (o : Op) (lane : Nat) (lines bufs : List (Addr × Nat × AccKind)) :
    State × Option (List Place × List Place) :=
  let all := lines ++ bufs
  match all.find? fun e => decide (2 ^ 52 < e.1.toNat + e.2.1) with
  | some e => (s.stopAtOp k gio .pageFault fkRange o.mask e.1, none)
  | none => match lines.find? fun e => inWindow e.1 e.2.1 with
    | some e => (s.stopAtOp k gio .unsupportedAccess 0 o.mask e.1, none)
    | none => match bufs.find? fun e => s.locate k g [] e.1 e.2.1 e.2.2 == .outside with
      | some e => (s.stopAtOp k gio .pageFault fkNotPresent o.mask e.1, none)
      | none =>
        if all.any fun e => g.lineBusy gio e.1 then (s, none)
        else match s.opPlaces k gio g lane all with
          | (s, none) => (s, none)
          | (s, some ps) =>
            if ps.any fun p => match p with
              | .at h => keyTier h.key == 6
              | _ => false then (s.stopAtOp k gio .unsupportedAccess 0 o.mask ((all.head?.map (·.1)).getD 0), none)
            else (s, some (ps.take lines.length, ps.drop lines.length))
/-- The once-only form's issue: with no active lane it is at most a fence (05 R112); else its one address is checked and it enters flight (06 R132). -/
def State.issueOnce (s : State) (k : Nat) (g : Group) (x : Split) (i : Instr) (gd : Guard) (va : Addr) (n : Nat) (bad : Hit → Bool) (args : List Nat)
    (d : BitVec 6) (go : Nat → State → State) : State :=
  let act := s.active g x gd
  if act = 0 then s.issueOp k g x i act [] [] [] none go
  else s.issueMem k g x { instr := i, lanes := maskOf [lowest act], act := act, ea := fun _ => va, bytes := n, kind := .read, noWindow := true, together := true,
                          bad := bad, args := args, sd := [d.toNat] } go
/-- Another module's memory has no place in the wait-and-wake table (06 R144), and tier 6 none here. -/
def badWait (h : Hit) : Bool := keyTier h.key == 6 || keyMod h.key != Config.selfModule

/-! ### WAITV and WAKE -/

/-- Entries of a die's table (06 R144). -/
def waitEntries : Nat := 4096
/-- The wait step at the home: status, or none when the entry is installed (06 R145). -/
def State.waitStep (s : State) (key n want : Nat) (va : Addr) (who : Waiter) (cycles : Nat) : State × Option Nat :=
  let x := ofBytes (slice (s.current (lineOf key)) (key % 128) n)
  let die := homeDie key
  if x ≠ want % 2 ^ (8 * n) then (s, some 1)
  else if waitEntries ≤ (s.waits.filter fun w => w.die == die).length then (s, some 3)
  else ({ s with waits := s.waits ++ [WaitEntry.mk die va key n who s.waitOrder s.cycle cycles], waitOrder := s.waitOrder + 1 }, none)
/-- A home access by an operation of a group, in one step: its module answers and the line is quiet, a copy in E or M is fetched from its owner, or
    for a write (`w`) every copy recalled, its own L1's words and retained versions are in, and the line's reference is taken; false: it waits
    (04 R94, R103; 11 R246, R247; 18 R381). -/
def State.homeTurn (s : State) (k gio : Nat) (g : Group) (w : Bool) (line : Nat) : State × Bool :=
  let d := (s.home line).dir
  if !s.reachable (keyMod (line * 128)) || !d.stable || w && s.ckptHolds (line * 128) then (s, false)
  else if w && d.st != .i then (s.startRecall line, false)
  else if d.st == .em then (s.startForward line none, false)
  else
    let s := s.writeBack (coreOf k) line (k, gio)
    if s.behindWrite s.reqs.next (coreOf k) line then (s, false)
    else
      let s := s.retainedAll line (s.horizonOf k)
      match s.takeRef g.team (dieOfCore (coreOf k)) (s.home line).ref with
      | some s => (s, true)
      | none => (s, false)
/-- The same for several lines. -/
def State.homeTurns (s : State) (k gio : Nat) (g : Group) (w : Bool) (l : List Nat) : State × Bool :=
  l.foldl (fun (a : State × Bool) line => let r := a.1.homeTurn k gio g w line; (r.1, a.2 && r.2)) (s, true)
/-- WAITV at its turn. A group that is told to park completes it with WOKEN (16 R352). -/
def State.performWaitv (s : State) (k gio : Nat) : State :=
  s.performOp k gio fun g o l s =>
    let n := accBytes o.instr
    if o.aux = 1 then s
    else match (s.gather k gio g o l n .read true badWait) with
      | (s, [(a, .at h)]) =>
        let line := lineOf h.key
        if s.poisoned h.key n then s.poisonStop k gio a.lane a.ea
        else match s.homeTurn k gio g false line with
          | (s, false) => s
          | (s, true) =>
            let s := (s.readStamp k (s.home line).wts).noteRead k (ordOf o.instr) false h.key n
            match s.waitStep h.key n (o.args.headD 0) a.ea (.op k gio a.lane) ((o.args[1]?).getD 0) with
            | (s, some v) => s.endOp k gio v
            | (s1, none) =>
              if g.park ≠ .no ∨ s.switchedOut (s.asidOf g) (clusterOf (coreOf k)) = true then s.endOp k gio 0
              else s1.updOp k gio fun o => { o with aux := 1 }
      | (s, _) => s
def execWaitv (o : WaitvOp) (s : State) : Out :=
  onIssuer s fun k g x =>
    let n := if o.b64 then 8 else 4
    s.issueOnce k g x (.waitv o) o.g (s.readS g o.a.toNat) n badWait [(s.readS g o.b.toNat).toNat, (s.readS g o.c.toNat).toNat] o.d fun gio s =>
      (s.performWaitv k gio).sleepOn k gio (lowest x.mask)
/-- WAITV_TIMEOUT: an entry whose cycles have passed wakes with TIMEOUT (06 R145). -/
def execWaitvTimeout (die order : Nat) (s : State) : Out :=
  .next (match s.waits.find? fun w => w.die == die && w.order == order with
    | some w =>
      if w.cycles ≠ 0 ∧ w.since + w.cycles ≤ s.cycle then
        ({ s with waits := s.waits.filter fun v => !(v.die == die && v.order == order) } : State).answerWaiter w 2
      else s
    | none => s)
/-- The entries that a WAKE of an address wakes (06 R144, R146). -/
def wakes (va : Addr) (key : Nat) (w : WaitEntry) : Bool := w.va == va && w.key == key
/-- WAKE at its turn, once the group's writes to the line are at the home. -/
def State.performWake (s : State) (k gio : Nat) : State :=
  s.performOp k gio fun g o l s =>
    match s.gather k gio g o l 4 .read true badWait with
    | (s, [(a, .at h)]) =>
      if s.behindWrite s.reqs.next (coreOf k) (lineOf h.key) then s
      else
        let s := s.writeBack (coreOf k) (lineOf h.key) (k, gio)
        let r := s.wakeWhere (wakes a.ea h.key) (o.args.headD 0)
        r.1.endOp k gio r.2
    | (s, _) => s
def execWake (o : SyncOp) (s : State) : Out :=
  onIssuer s fun k g x =>
    s.issueOnce k g x (.wake o) o.g (s.readS g o.a.toNat) 4 badWait [(s.readS g o.b.toNat).toNat] o.d fun gio s => s.performWake k gio

/-! ### LINKQ and CONDQ (06 R147, R148) -/

def descRegion (d : Nat) : Addr := BitVec.ofNat 64 (fld d 0 64)
def descBuf (d : Nat) : Addr := BitVec.ofNat 64 (fld d 64 64)
def descLine (d i : Nat) : Nat := fld d (128 + 8 * i) 5
/-- The slots that a mask selects. -/
def slotsIn (mask : Nat) : List Nat := (List.range 4).filter fun i => bitOf mask i
/-- A bad descriptor or mask (06 R147). -/
def descBad (d mask : Nat) : Bool :=
  let r := (descRegion d).toNat
  let b := (descBuf d).toNat
  fld d 160 96 != 0 || (List.range 4).any (fun i => fld d (133 + 8 * i) 3 != 0) || r % 4096 != 0 || b % 128 != 0
    || mask == 0 || decide (15 < mask) || !decide ((slotsIn mask).map (descLine d)).Nodup
    || (decide (b < r + 4096) && decide (r < b + 512))
def lineVa (d i : Nat) : Addr := descRegion d + BitVec.ofNat 64 (128 * descLine d i)
def bufVa (d i : Nat) : Addr := descBuf d + BitVec.ofNat 64 (128 * i)
/-- LINKQ's home step: each line gives its stamp and its data. -/
def State.linkStep (s : State) (ls : List (Nat × Nat)) : State × List (Nat × Nat × Nat × List Byte) :=
  let s := ls.foldl (fun (s : State) e => s.setHome e.2 (s.home e.2)) s
  (s, ls.map fun e => (e.1, e.2, (s.home e.2).wts, s.bytes (e.2 * 128) 128))
/-- CONDQ's test at the home. -/
def State.linkHolds (s : State) (l : Link) : Bool :=
  !l.broken && l.lines.all fun e => (s.home e.2.1).wts == e.2.2 && (s.home e.2.1).pend.isEmpty
/-- CONDQ's writes: every line under one stamp, past every lease on any of them (06 R148). -/
def State.condStep (s : State) (ws : List (Nat × List Byte)) (pts : Nat) (who : Nat × Nat) : State × Nat :=
  let t := ws.foldl (fun t w => max t ((s.home w.1).rts + 1)) pts
  ws.foldl (fun (a : State × Nat) w => let r := a.1.homeWrite (w.1 * 128) w.2 t who; (r.1, max a.2 r.2)) (s, t)
/-- The link, after a LINKQ. -/
def linkOf (d mask : Nat) (r : List (Nat × Nat × Nat × List Byte)) : Link :=
  { region := descRegion d, mask := BitVec.ofNat 4 mask, lines := r.map fun e => (e.1, e.2.1, e.2.2.1) }
/-- No link, one of other slots, or one of another region: NOLINK. -/
def noLink (l : Option Link) (d mask : Nat) : Bool :=
  match l with
  | some k => (BitVec.ofNat 4 mask &&& ~~~k.mask) != 0 || k.region != descRegion d
  | none => true

/-- The lines of translated places. -/
def linesAt (ps : List (Nat × Place)) : List (Nat × Nat) := ps.filterMap fun e => match e.2 with
  | .at h => some (e.1, lineOf h.key)
  | _ => none
/-- A buffer slot may be accessed: its page is pinned, or no earlier write of the L1 to its line is on its way, and where the access is made at the
    home that line is quiet (04 R91, R94, R103, R106). -/
def State.bufReady (s : State) (k gio : Nat) (g : Group) (w : Bool) (p : Place) : State × Bool :=
  match p with
  | .scratch off => (s.askPage g.team off 128, s.scrPinned g.team off 128)
  | .at h =>
    if s.reaches k .team && !uncached h.key then (s, !s.behindWrite s.reqs.next (coreOf k) (lineOf h.key)) else s.homeTurn k gio g w (lineOf h.key)
  | _ => (s, false)
def State.bufsReady (s : State) (k gio : Nat) (g : Group) (w : Bool) (l : List Place) : State × Bool :=
  l.foldl (fun (a : State × Bool) p => let r := a.1.bufReady k gio g w p; (r.1, a.2 && r.2)) (s, true)
/-- A buffer slot is stored, strong and .rlx at .team. -/
def State.bufStore (s : State) (k gio : Nat) (g : Group) (p : Place) (bs : List Byte) : State :=
  match p with
  | .scratch off => ((s.setScr g.team off bs).spoilObjs g.team off bs.length).noteWrite k (.rlx, .team) true (scrPlace off) bs.length
  | .at h =>
    if s.reaches k .team && !uncached h.key then s.l1Store (coreOf k) (lineOf h.key) 0 bs
    else
      let r := s.homeWrite h.key bs (s.pts (coreOf k)) (k, gio)
      (r.1.l1Update (coreOf k) (lineOf h.key) 0 bs).raisePts (coreOf k) r.2
  | _ => s
/-- The descriptor of a LINKQ or CONDQ in flight, read as by the group. -/
def State.opDesc (s : State) (k gio : Nat) (g : Group) (o : Op) (lane : Nat) : State × Option Nat :=
  let va := BitVec.ofNat 64 ((o.args[1]?).getD 0)
  match s.opPlace k gio g lane va 32 .read with
  | (s, some (.at h)) =>
    if keyTier h.key = 6 then (s.stopAtOp k gio .unsupportedAccess 0 o.mask va, none)
    else match s.groupRead k g 32 (.at h) with
      | (s, .ok x) => (s, some x)
      | (s, .wait) => (s, none)
      | (s, .poison) => (s.poisonStop k gio lane va, none)
  | (s, _) => (s, none)
def State.setLink (s : State) (k : Nat) (l : Option Link) : State := s.updGroup k fun g => { g with link := l }
/-- LINKQ at its turn. -/
def State.performLinkq (s : State) (k gio : Nat) : State :=
  s.performOp k gio fun g o l s =>
    let mask := o.args.headD 0
    match l with
    | [] => s.logFaults k gio
    | a :: _ => match (s.logFaults k gio).opDesc k gio g o a.lane with
      | (s, none) => s
      | (s, some d) =>
        if descBad d mask then (s.setLink k none).endOp k gio 3
        else
          let sl := slotsIn mask
          match s.quadPlaces k gio g o a.lane (sl.map fun i => (lineVa d i, 128, AccKind.read)) (sl.map fun i => (bufVa d i, 128, AccKind.write)) with
          | (s, none) => s
          | (s, some (ps, bs)) =>
            let ls := linesAt (sl.zip ps)
            let (s, ready) := s.homeTurns k gio g false (ls.map (·.2))
            let (s, room) := s.bufsReady k gio g true bs
            if !ready || !room then s
            else if ls.any fun e => s.poisoned (e.2 * 128) 128 then s.poisonStop k gio a.lane (descRegion d)
            else
              let (s, r) := s.linkStep ls
              let s := s.readStamp k (maxOf (r.map fun e => e.2.2.1))
              let s := r.foldl (fun s e => s.noteRead k (ordOf o.instr) true (e.2.1 * 128) 128) s
              let s := (r.zip bs).foldl (fun (s : State) e => (s.bufStore k gio g e.2 e.1.2.2.2).laneStored k (bufVa d e.1.1) 128) s
              (s.setLink k (some (linkOf d mask r))).endOp k gio 0
def execLinkq (o : SyncOp) (s : State) : Out :=
  onIssuer s fun k g x =>
    let va := s.readS g o.a.toNat
    s.issueOnce k g x (.linkq o) o.g va 32 badAtomic [(s.readS g o.b.toNat).toNat, va.toNat] o.d fun gio s => s.performLinkq k gio
/-- The slots of a buffer, read as by the group; none: one of them waits. -/
def State.bufRead (s : State) (k : Nat) (g : Group) : List Place → State × Option (List (List Byte))
  | [] => (s, some [])
  | p :: t => match s.groupRead k g 128 p with
    | (s, .ok x) => (match s.bufRead k g t with
      | (s, r) => (s, r.map (toBytes 128 x :: ·)))
    | (s, _) => (s, none)
/-- CONDQ at its turn. -/
def State.performCondq (s : State) (k gio : Nat) : State :=
  s.performOp k gio fun g o l s =>
    let mask := o.args.headD 0
    match l with
    | [] => s.logFaults k gio
    | a :: _ => match (s.logFaults k gio).opDesc k gio g o a.lane with
      | (s, none) => s
      | (s, some d) =>
        if descBad d mask then (s.setLink k none).endOp k gio 3
        else if noLink g.link d mask then (s.setLink k none).endOp k gio 2
        else
          let sl := slotsIn mask
          match s.quadPlaces k gio g o a.lane (sl.map fun i => (lineVa d i, 128, AccKind.write)) (sl.map fun i => (bufVa d i, 128, AccKind.read)), g.link with
          | (s, some (ps, bs)), some lk =>
            let ls := linesAt (sl.zip ps)
            if bs.any fun p => match p with
              | .at h => s.poisoned h.key 128
              | .scratch off => s.scrPoisoned g.team off 128
              | _ => false then s.poisonStop k gio a.lane (descBuf d)
            else (match s.bufRead k g bs with
             | (s, none) => s
             | (s, some data) =>
               let (s, ready) := s.homeTurns k gio g true (ls.map (·.2))
               let (s, quiet) := s.homeTurns k gio g false ((lk.lines.map (·.2.1)).filter fun e => !(ls.map (·.2)).contains e)
               let all := (ls.map (·.2) ++ lk.lines.map (·.2.1)).dedup
               if !ready || !quiet then s
               else
                 let s := all.foldl (fun s e => s.noteRead k (ordOf o.instr) true (e * 128) 128) s
                 if !s.linkHolds lk then ((s.readStamp k (maxOf (all.map fun e => (s.home e).wts))).setLink k none).endOp k gio 1
                 else
                   let r := s.condStep ((ls.map (·.2)).zip data) (s.pts (coreOf k)) (k, gio)
                   let s := ls.foldl (fun (s : State) e => (s.l1Drop (coreOf k) e.2 0 128).noteWrite k (ordOf o.instr) true (e.2 * 128) 128)
                     (r.1.raisePts (coreOf k) r.2)
                   (s.setLink k none).endOp k gio 0)
          | (s, _), _ => s
def execCondq (o : SyncOp) (s : State) : Out :=
  onIssuer s fun k g x =>
    let va := s.readS g o.a.toNat
    s.issueOnce k g x (.condq o) o.g va 32 badAtomic [(s.readS g o.b.toNat).toNat, va.toNat] o.d fun gio s => s.performCondq k gio

/-! ### Upcalls (16 R348, R349) -/

/-- The lowest tag of a die that is free. -/
def State.freeUpcall (s : State) (die : Nat) : Nat := s.upcalls.fresh 65536 (upcallKey die 0) - upcallKey die 0
/-- A hardware upcall in a lane's place. -/
def State.hwUpcall (s : State) (k gio lane : Nat) (code arg0 : Nat) (arg1 : Addr) : State :=
  match s.group? k with
  | none => s
  | some g =>
    let die := dieOfCore (coreOf k)
    let tag := s.freeUpcall die
    let u : Upcall := { core := coreOf k, group := k, gio := gio, lane := lane, code := BitVec.ofNat 8 code, d := 0 }
    let s := { s with upcalls := s.upcalls.put (upcallKey die tag) u }
    s.post { die := die, kind := 2, source := coreOf k, core := coreOf k, gslot := k % 64, cause := code, tag := tag, asid := s.asidOf g,
             lanes := maskOf [lane], arg0 := BitVec.ofNat 64 arg0, arg1 := arg1 }
/-- UPCALL: the split posts its event and sleeps until the reply. -/
def execUpcall (o : UpcallOp) (s : State) : Out :=
  onIssuer s fun k g x =>
    let act := s.active g x o.g
    let a := o.a.toNat
    let die := dieOfCore (coreOf k)
    let g1 := { g with gio := g.gio + 1 }
    if act = 0 then (s.setGroup k (g1.updSplit (lowest x.mask) fun y => y.moveTo x.fall)).halt
    else
      let tag := s.freeUpcall die
      let u : Upcall := { core := coreOf k, group := k, gio := g.gio, lane := lowest x.mask, code := o.code, d := o.d }
      let s1 := { s with upcalls := s.upcalls.put (upcallKey die tag) u }
      let s1 := s1.setGroup k (g1.updSplit (lowest x.mask) fun y => { y.moveTo x.fall with st := .sleep, wait := .upcall tag o.d })
      (s1.post { die := die, kind := 2, source := coreOf k, core := coreOf k, gslot := k % 64, cause := o.code.toNat, tag := tag,
                 asid := s.asidOf g, lanes := act, pc := s.readS g (a + 3), vaddr := s.readS g (a + 2), arg0 := s.readS g a,
                 arg1 := s.readS g (a + 1) }).halt

/-! ### Allocation (06 R149 to R151) -/

/-- The free list of a cluster, a context and a class. -/
def heapKey (cl : Nat) (asid : BitVec 16) (cls : Nat) : Nat := (cl * 65536 + asid.toNat) * 16 + cls
def heapOwner (off : Nat) : Nat := fld off 34 6
def heapClass (off : Nat) : Nat := fld off 30 4
/-- The class that serves n bytes: blocks of 2^(k + 4). -/
def classOf1 (n : Nat) : Nat := ((List.range 13).find? fun i => decide (n ≤ 2 ^ (i + 4))).getD 12
/-- One lane's allocation. -/
def State.allocLane (s : State) (k gio : Nat) (g : Group) (a : LaneAcc) : State :=
  let n := a.data
  let wait := fun (s : State) => s.laneAtHome k gio a.lane 0
  if n = 0 then s.doneLane k gio a.lane 0
  else if 65536 < n then wait (s.hwUpcall k gio a.lane 0xF1 n 0)
  else
    let key := heapKey (clusterOf (coreOf k)) (s.asidOf g) (classOf1 n)
    match s.heap.getD key [] with
    | b :: t => ({ s with heap := s.heap.put key t } : State).doneLane k gio a.lane b
    | [] => wait (s.hwUpcall k gio a.lane 0xF0 (classOf1 n) 0)
def State.performAlloc (s : State) (k gio : Nat) : State :=
  s.performOp k gio fun g o l s =>
    if o.accs.isEmpty then s.updOp k gio fun o => { o with performed := true }
    else l.foldl (fun s a => s.allocLane k gio g a) (s.raisePts (coreOf k) s.devTime)
def execAlloc (o : VUn) (s : State) : Out :=
  onIssuer s fun k g x =>
    let act := s.active g x o.g
    let accs := (lanesOf act).map fun l => ({ lane := l, ea := 0, data := (s.readV g o.a.toNat l).toNat } : LaneAcc)
    (s.setGroup k (g.launch x (.alloc o) act accs [] (vRange o.d.toNat 2) [] none)).performAlloc k g.gio
/-- An address lies in its context's heap window: its offset. -/
def State.heapOff (s : State) (asid : BitVec 16) (va : Nat) : Option Nat :=
  let b := (((s.ctx asid).map fun (c : Ctx) => c.heapb).getD 0).toNat
  if b ≤ va ∧ va < b + 2 ^ 40 then some (va - b) else none
/-- The block that an offset names breaks 06 R149. -/
def badBlock (off : Nat) : Bool :=
  decide (35 < heapOwner off) || decide (12 < heapClass off) || fld off 0 30 % 2 ^ (heapClass off + 4) != 0
/-- One lane's block goes to its list, through the exchange when another cluster owns it; its first 8 bytes are free (06 R151). -/
def State.freeBlock (s : State) (k gio : Nat) (g : Group) (a : LaneAcc) : State :=
  let asid := s.asidOf g
  let done := fun (s : State) => s.doneLane k gio a.lane 0
  if a.data = 0 then done s
  else match s.heapOff asid a.data with
    | none => (done s).hwUpcall k gio a.lane 0xF2 0 (BitVec.ofNat 64 a.data)
    | some off =>
      let key := heapKey (heapOwner off) asid (heapClass off)
      let r := s.engineXlate (dieOfCore (coreOf k)) asid (BitVec.ofNat 64 a.data) 8 .write false (s.nearOf g.team)
      let s := done (match r with
        | (s, .ok p) => s.deviceWrite p (toBytes 8 (s.free 64 (524288 + a.lane)).toNat)
        | (s, .error _) => s)
      if heapOwner off = clusterOf (coreOf k) then { s with heap := s.heap.put key (a.data :: s.heap.getD key []) }
      else { s with exchange := s.exchange.put s.exchange.next (key, a.data) }
def State.performFree (s : State) (k gio : Nat) : State :=
  s.performOp k gio fun g o l s =>
    if o.accs.isEmpty then s.updOp k gio fun o => { o with performed := true } else l.foldl (fun s a => s.freeBlock k gio g a) s
def execFree (o : FreeOp) (s : State) : Out :=
  onIssuer s fun k g x =>
    let act := s.active g x o.g
    let addr := fun l => (s.readV64 g o.a.toNat l).toNat
    let bad := (lanesOf act).filter fun l => addr l != 0 && ((s.heapOff (s.asidOf g) (addr l)).map badBlock).getD false
    match bad with
    | l :: _ => s.trapAt k x .badFree (maskOf bad) (BitVec.ofNat 64 (addr l))
    | [] =>
      let accs := (lanesOf act).map fun l => ({ lane := l, ea := 0, data := addr l } : LaneAcc)
      (s.setGroup k (g.launch x (.free o) act accs [] [] [] none)).performFree k g.gio
/-- FREE_EXCHANGE_PUSH (the block in hand): it reaches its owner's list. -/
def execFreeExchangePush (s : State) : Out :=
  .next (match s.exchange.get? s.hand with
    | some (key, b) => { s with exchange := s.exchange.del s.hand, heap := s.heap.put key (b :: s.heap.getD key []) }
    | none => s)

/-! ### Guarded commands (07 R170) -/

/-- GUARDED_COMMAND_RELEASE: the command at a queue's head proceeds or is discarded, as its slot has resolved. -/
def execGuardedCommandRelease (q : GuardedQueue) (s : State) : Out :=
  .next (match q with
    | .copy t => s.releaseCopy t
    | .geode t => s.releaseGeode t
    | .seq n => s.releaseSeq n)

end Sys2Proof.Machine
end

