-- ==== Sys2Proof/Machine/Named.lean ====
section
/-! DEFINITION. What a clause's words name and need: the vector registers of an instruction, and the checks of a clause before it starts (02 R36,
R37, R41, R51; 08 R177). -/

namespace Sys2Proof.Machine

/-! ### Vector registers that an instruction names (08 R177) -/

/-- A source of k registers. -/
def srcRegs (k : Nat) : Src → List (Nat × Nat)
  | .v n => [(n.toNat, k)]
  | _ => []
def vsRegs (k : Nat) : VOrS → List (Nat × Nat)
  | .v n => [(n.toNat, k)]
  | .s _ => []
def optRegs : Option (BitVec 8) → List (Nat × Nat)
  | some n => [(n.toNat, 1)]
  | none => []
def binRegs (single : Bool) (o : IntBin) : List (Nat × Nat) :=
  (o.d.toNat, w64 o.b64) :: srcRegs (w64 o.b64) o.a ++ srcRegs (if single then 1 else w64 o.b64) o.b
def terRegs (single : Bool) (o : IntTer) : List (Nat × Nat) :=
  (o.d.toNat, w64 o.b64) :: srcRegs (w64 o.b64) o.a ++ srcRegs (if single then 1 else w64 o.b64) o.b ++ srcRegs (w64 o.b64) o.c
def unRegs (o : IntUn) : List (Nat × Nat) := (o.d.toNat, w64 o.b64) :: srcRegs (w64 o.b64) o.a
def vUnRegs (dk ak : Nat) (o : VUn) : List (Nat × Nat) := [(o.d.toNat, dk), (o.a.toNat, ak)]
def cvtRegs : CvtTy → Nat
  | .b64 => 2
  | _ => 1
def packRegs : PackTy → Nat
  | .e2m1 => 8
  | _ => 4
def atomRegs (b64 : Bool) (c : Nat) (d idx x : BitVec 8) : List (Nat × Nat) := [(d.toNat, w64 b64), (idx.toNat, 1), (x.toNat, c * w64 b64)]
def compactRegs (o : Compact) : List (Nat × Nat) :=
  (o.d.toNat, 1) :: (o.a.toNat, 1) :: (match o.b with
    | .v n => [(n.toNat, 1)]
    | .s _ => [])
/-- First register and number, for each operand that names vector registers. -/
def named : Instr → List (Nat × Nat)
  | .brx o | .ret o => vsRegs 2 o.t
  | .call o => [(o.d.toNat, 2)]
  | .iadd o | .isub o | .imul o | .imulhi o | .imin o | .imax o => binRegs false o
  | .shl o | .shr o | .sar o | .bfx o => binRegs true o
  | .imad o => terRegs false o
  | .fshl o | .fshr o | .bfi o => terRegs true o
  | .lop3 o => (o.d.toNat, w64 o.b64) :: srcRegs (w64 o.b64) o.a ++ srcRegs (w64 o.b64) o.b ++ srcRegs (w64 o.b64) o.c
  | .popc o | .clz o | .brev o | .mov o => unRegs o
  | .isetp o => srcRegs (w64 o.b64) o.a ++ srcRegs (w64 o.b64) o.b
  | .sel o => (o.d.toNat, w64 o.b64) :: srcRegs (w64 o.b64) o.a ++ srcRegs (w64 o.b64) o.b
  | .movImm32 o => [(o.d.toNat, 1)]
  | .movImm32B64 o => [(o.d.toNat, 2)]
  | .lea o => (o.d.toNat, w64 o.b64) :: srcRegs (w64 o.b64) o.a ++ srcRegs 1 o.b
  | .s2v o => [(o.d.toNat, w64 o.b64)]
  | .v2s o => [(o.a.toNat, w64 o.b64)]
  | .fadd o | .fmul o => (o.d.toNat, 1) :: srcRegs 1 o.a ++ srcRegs 1 o.b
  | .ffma o => (o.d.toNat, 1) :: srcRegs 1 o.a ++ srcRegs 1 o.b ++ srcRegs 1 o.c
  | .fmin o | .fmax o => (o.d.toNat, 1) :: srcRegs 1 o.a ++ srcRegs 1 o.b
  | .fsetp o => srcRegs 1 o.a ++ srcRegs 1 o.b
  | .hfma2 o => (o.d.toNat, 1) :: srcRegs 1 o.a ++ srcRegs 1 o.b ++ srcRegs 1 o.c
  | .hadd2 o | .hmul2 o => (o.d.toNat, 1) :: srcRegs 1 o.a ++ srcRegs 1 o.b
  | .frcp o | .frsq o | .fsqrt o | .fexp2 o | .flog2 o | .fsin o | .fcos o | .ftanh o | .atab o => vUnRegs 1 1 o
  | .atload o => [(o.a.toNat, 2)]
  | .cvt o => [(o.d.toNat, cvtRegs o.dt), (o.a.toNat, cvtRegs o.st)]
  | .cvtp2 o => [(o.d.toNat, 1), (o.a.toNat, 1), (o.b.toNat, 1)]
  | .cvtp4 o => (o.d.toNat, 1) :: (o.a.toNat, packRegs o.dt) :: optRegs o.scale
  | .cvtds o => (o.d.toNat, 1) :: (o.a.toNat, 4) :: optRegs o.scale
  | .unpk o => (o.d.toNat, 1) :: (o.a.toNat, 1) :: optRegs o.scale
  | .shfl o => (o.d.toNat, w64 o.b64) :: (o.a.toNat, w64 o.b64) :: srcRegs 1 o.b
  | .vote o => (match o.dst with
    | .ballot d => [(d.toNat, 2)]
    | _ => [])
  | .redux o => [(o.d.toNat, w64 o.op.b64), (o.a.toNat, w64 o.op.b64)]
  | .scan o => [(o.d.toNat, w64 o.op.b64), (o.a.toNat, w64 o.op.b64)]
  | .matchLanes o => [(o.d.toNat, 2), (o.a.toNat, w64 o.b64)]
  | .faddCompact o | .fmulCompact o | .ffmaCompact o | .fminCompact o | .fmaxCompact o | .iaddCompact o | .isubCompact o | .iminCompact o
  | .imaxCompact o | .shlCompact o | .shrCompact o | .sarCompact o | .imulCompact o | .hadd2F16Compact o | .hmul2F16Compact o
  | .hfma2F16Compact o | .hadd2Bf16Compact o | .hmul2Bf16Compact o | .hfma2Bf16Compact o => compactRegs o
  | .movCompact o => [(o.d.toNat, 1), (o.a.toNat, 1)]
  | .ld o | .st o => [(o.d.toNat, o.ty.regs), (o.m.idx.toNat, 1)]
  | .stBnd o => [(o.d.toNat, o.ty.regs), (o.m.idx.toNat, 1)]
  | .ldnt o => [(o.d.toNat, o.ty.regs), (o.m.idx.toNat, 1)]
  | .pref o => [(o.m.idx.toNat, 1)]
  | .atomAdd o | .atomAnd o | .atomOr o | .atomXor o | .atomExch o | .atomInc o | .atomDec o => atomRegs o.b64 1 o.d o.idx o.c
  | .atomMin o | .atomMax o => atomRegs o.b64 1 o.d o.idx o.c
  | .atomFadd o | .atomFmin o | .atomFmax o => atomRegs false 1 o.d o.idx o.c
  | .atomCas o => atomRegs o.b64 2 o.d o.idx o.c
  | .alloc o => vUnRegs 2 1 o
  | .free o => [(o.a.toNat, 2)]
  | .accld o => (o.d.toNat, 2 ^ o.cnt.toNat) :: vsRegs 1 o.b
  | .spawn o => [(o.b.toNat, 4 * (o.sz.toNat + 1))]
  | .recld o => [(o.d.toNat, o.ty.regs), (o.b.toNat, 1)]
  | .nodeid o => [(o.d.toNat, 1)]
  | .trace o => [(o.d.toNat, 1), (o.b.toNat, 10)]
  | .cont o | .contEnd o => [(o.d.toNat, 1), (o.b.toNat, 1)]
  | .rayld o => [(o.d.toNat, 2 ^ o.cnt.toNat), (o.b.toNat, 1)]
  | _ => []
/-- Every register that an instruction names lies in an allocation of n, or is v255. -/
def inAllocation (n : Nat) (i : Instr) : Bool := (named i).all fun e => (e.1 == 255 && e.2 == 1) || decide (e.1 + e.2 ≤ n)

/-! ### Pair words (02 R49, R51) -/

def halfX (w : Word) : BitVec 32 := w.setWidth 32
def halfY (w : Word) : BitVec 32 := w.extractLsb' 32 32
/-- The filler (02 R49). -/
def fillerHalf : BitVec 32 := 0x3C00000E
def copOf (h : BitVec 32) : Nat := fld h.toNat 26 6
/-- IMUL and the packed forms stand in X alone (02 R50). -/
def xOnly (h : BitVec 32) : Bool := decide (0x10 ≤ copOf h) && decide (copOf h ≤ 0x16)
/-- FFMA and the packed HFMA2 read their destination (02 R50, R51). -/
def readsDest (cop : Nat) : Bool := cop == 0x03 || cop == 0x13 || cop == 0x16
/-- A half's destination, its register reads and its scalar (02 R51), by its COP and its register fields alone: the pairing checks stand
    before the word checks (R41). The filler, and a COP that 02 R50 does not give, take no port (the latter DESIGN CHOICE, log 66). -/
def halfPorts (h : BitVec 32) : Option (Nat × List Nat × Option Nat) :=
  let d := fld h.toNat 19 7
  let a := fld h.toNat 12 7
  let b := fld h.toNat 5 7
  let c := copOf h
  if h = fillerHalf then none
  else if c = 0x0F then some (d, [a], none)
  else if (1 ≤ c ∧ c ≤ 5) ∨ (8 ≤ c ∧ c ≤ 0x16) then
    some (d, (if readsDest c then [d] else []) ++ a :: (if h.getLsbD 4 then [] else [b]), if h.getLsbD 4 then some b else none)
  else none
/-- A pair word breaks 02 R51. -/
def pairBad (w : Word) : Bool :=
  let px := halfPorts (halfX w)
  let py := halfPorts (halfY w)
  let reads := (((px.map (·.2.1)).getD []) ++ ((py.map (·.2.1)).getD [])).dedup
  xOnly (halfY w) || (List.range 4).any (fun b => decide (2 < (reads.filter fun n => n % 4 == b).length))
    || (match px, py with
        | some a, some b => a.1 % 4 == b.1 % 4 || (match a.2.2, b.2.2 with
          | some m, some n => m != n
          | _, _ => false)
        | _, _ => false)

/-! ### The checks of a clause (02 R36, R37, R38, R41, R42) -/

def classCode : Class → Nat
  | .vec => 0 | .pair => 1 | .mem => 2 | .async => 3 | .ctrl => 4 | .stream => 5
/-- The header's own checks (02 R37). -/
def headerBad (h : Word) (nsp : Nat) : Bool :=
  decide (4 < hdrClass h) || fld h.toNat 32 2 != 0 || fld h.toNat 0 20 != 0 || (!hdrSetaV h && hdrSeta h != 0) || (!hdrSetbV h && hdrSetb h != 0)
    || (hdrSetaV h && decide (11 < hdrSeta h)) || (hdrSetbV h && decide (11 < hdrSetb h))
    || (hdrSetaV h && hdrSetbV h && hdrSeta h == hdrSetb h) || (hdrSetbV h && !hdrSetaV h)
    || (!hdrSafe h && hdrSpid h != 0) || (hdrSafe h && decide (nsp ≤ hdrSpid h))
def opcOf (w : Word) : Nat := fld w.toNat 56 8
/-- The class of a word does not belong in its place (02 R36); a word of no group class raises ILLEGAL_OP instead (02 R54). -/
def classBad (h w : Word) (last : Bool) : Bool :=
  match classOf (opcOf w) with
  | none | some .stream => false
  | some c => if isTransfer (opcOf w) then !last else classCode c != hdrClass h
def okInstr (w : Word) : Option Instr := Illegal.toOption (decodeGroup w)
/-- Its two operations, where both decode. -/
def okPair (w : Word) : Option (Instr × Instr) :=
  match Illegal.toOption (decodeHalf (halfX w)), Illegal.toOption (decodeHalf (halfY w)) with
  | some x, some y => some (x, y)
  | _, _ => none
/-- Forms that must stand in the last word (06 R143; 08 R178; 16 R348). -/
def lastOnly : Instr → Bool
  | .reggrow _ | .regshrink _ | .barWait _ | .barSync _ | .upcall _ => true
  | _ => false
/-- A word raises ILLEGAL_OP: it does not decode, stands where its entry forbids, or needs what the kernel has not (02 R41; 10 R232). -/
def opBad (w : Word) (last seq : Bool) (acct : Nat) : Bool :=
  match okInstr w with
  | none => true
  | some (.accld o) => !seq || decide (acct ≤ o.acc.toNat)
  | some i => lastOnly i && !last
/-- Why a clause may not run (02 R41, in its order). -/
inductive Verdict where
  | ok
  | illegalClause
  | illegalOp (idx : Nat)
  deriving DecidableEq, Repr
/-- The header and class checks come first, and with them two that R41 does not place: Missing SETA (R38), tested on the words that decode,
    and a BRA or CALL offset with bits 2:0 set (R42). DESIGN CHOICE, log 66. -/
def clauseVerdict (hdr : Word) (ws : List Word) (h : Header) : Verdict :=
  let n := ws.length
  let at1 := enum 0 ws
  if headerBad hdr h.nsp then .illegalClause
  else if hdrClass hdr = 1 then
    if ws.any pairBad then .illegalClause
    else match at1.find? fun e => (okPair e.2).isNone with
      | some e => .illegalOp e.1
      | none => .ok
  else if at1.any fun e => classBad hdr e.2 (e.1 + 1 == n) then .illegalClause
  else if ws.any fun w => (match okInstr w with
      | some i => (!hdrSetaV hdr && writesRegister i) || !i.targetAligned
      | none => false) then .illegalClause
  else match at1.find? fun e => opBad e.2 (e.1 + 1 == n) h.seq h.acct with
    | some e => .illegalOp e.1
    | none => .ok
/-- The instructions of a clause's words. -/
def wordInstrs (hdr w : Word) : List Instr :=
  if hdrClass hdr = 1 then (match okPair w with
    | some p => [p.1, p.2]
    | none => [])
  else (okInstr w).toList

end Sys2Proof.Machine
end

