-- ==== Sys2Proof/Machine/Clause.lean ====
section
/-! DEFINITION. The start of a clause, and the completion of an instruction in flight (02 R38 to R41, R392; 08 R177; 12 R271; 15 R333; 16
R343 to R347). -/

namespace Sys2Proof.Machine

/-! ### The clause fetch (02 R392; 16 R343) -/

/-- What a read of a whole clause meets. -/
inductive Fetched where
  | clause (hdr : Word) (ws : List Word)
  /-- at an address: what stands in the way -/
  | other (va : Addr) (c : CodeWord)
  deriving DecidableEq, Repr
/-- n words from an address on. -/
def State.fetchWords (s : State) (k : Nat) (g : Group) (xf : List (Nat × AccKind × Nat)) : Nat → Addr → State × Except (Addr × CodeWord) (List Word)
  | 0, _ => (s, .ok [])
  | n + 1, va => match s.codeWord k g xf va with
    | (s, .word w) => (match s.fetchWords k g xf n (va + 8) with
      | (s, .ok l) => (s, .ok (w :: l))
      | r => r)
    | (s, c) => (s, .error (va, c))
def State.fetchClause (s : State) (k : Nat) (g : Group) (x : Split) : State × Fetched :=
  match s.codeWord k g x.xfaults x.pc with
  | (s, .word h) => (match s.fetchWords k g x.xfaults (hdrCount h + 1) (x.pc + 8) with
    | (s, .ok ws) => (s, .clause h ws)
    | (s, .error e) => (s, .other e.1 e.2))
  | (s, c) => (s, .other x.pc c)
/-- A fetch that faults waits, and is reported once; each later attempt walks again (16 R343; log 38). -/
def State.fetchFaulted (s : State) (k : Nat) (g : Group) (x : Split) (va : Addr) (f : Nat) : State :=
  let s1 := s.setGroup k (g.updSplit (lowest x.mask) fun y => { y with xfaults := [], fetchFault := true })
  if x.fetchFault then s1
  else s1.post { die := dieOfCore (coreOf k), kind := 1, source := coreOf k, core := coreOf k, gslot := k % 64, cause := 4,
                 detail := faultKind f, asid := s.asidOf g, lanes := x.mask, pc := x.pc, vaddr := va, arg0 := faultLoc f }

/-! ### Which split starts (02 R38 to R40; 12 R271; 15 R333) -/

/-- The partition's groups. -/
def State.partGroups (s : State) (core part : Nat) : List (Nat × Group) := (s.groupsOn core).filter fun e => e.2.part == part
/-- Flags that a clause will hold from word `skip` on: flag and number of instructions attached to it. -/
def clauseFlags (hdr : Word) (ws : List Word) (skip : Nat) : List (Nat × Nat) :=
  let fs := (ws.drop skip).filterMap fun w => (longWord hdr w).bind fun i => attachTo hdr i
  (fs.dedup).map fun f => (f, (fs.filter (· == f)).length)
/-- Its WAIT flags are clear, every flag at a safe point. -/
def Group.flagsClear (g : Group) (h : Word) : Bool :=
  (List.range 12).all fun n => g.cf.getD n 0 == 0 || (!hdrWait h n && !hdrSafe h)
/-- A group that parks starts only what its parking lets start (16 R353, R354). -/
def Group.parkLets (g : Group) (x : Split) (h : Word) : Bool :=
  match g.park with
  | .no => true
  | .asked => !(hdrSafe h && x.routine == .none)
  | .saving _ | .restoring _ => x.routine != .none
  | _ => false
/-- Its oldest logged or held access is 64 instructions back (16 R344). -/
def Group.atLimit (g : Group) : Bool := g.ops.any fun o => o.isPlaced && decide (o.gio + 64 < g.gio)
/-- The exchange of 12 R261 is due: no clause of the group starts before it. -/
def Group.rotationDue (g : Group) : Bool :=
  g.spilled.any (fun x => x.st == .ready) && (!g.splits.any (fun x => x.st == .ready) || decide (g.rotated + 256 ≤ g.clauses))
/-- An acquire or an acquire fence whose event has not happened: the clause fetches after it in gio wait for it (02 R392). One that sleeps has
    made its read. -/
def Op.beforeFetch (o : Op) : Bool :=
  !o.performed && match o.instr with
    | .waitv _ => acquires (ordOf o.instr).1 && o.aux != 1
    | .bobjWait _ => o.aux != 1
    | i => acquires (ordOf i).1
/-- A split of the group may fetch and start a clause: it is READY, its group runs, and nothing holds its fetch (02 R392; 12 R261; 16 R336,
    R344, R345). -/
def Group.mayFetch (g : Group) (x : Split) : Bool :=
  x.st == .ready && x.run.isNone && g.stop.isNone && g.declined.isNone && !g.atLimit && !g.rotationDue && !g.ops.any Op.beforeFetch
/-- A fetched clause may start: its flags are clear and take no 64th count, and no swap of its group is outstanding (02 R38, R40; 09 R201). -/
def State.mayStartClause (s : State) (k : Nat) (g : Group) (x : Split) (hdr : Word) (ws : List Word) : Bool :=
  g.flagsClear hdr && g.parkLets x hdr && !(s.core (coreOf k)).atops.any (fun a => a.1 == k && a.2 == .swap)
    && !(clauseFlags hdr ws x.skip).any fun f => decide (63 ≤ g.cf.getD f.1 0)
/-- A split could start its clause, but for YIELD and for the choice among the splits: it is READY and its whole clause is fetched (15 R333). -/
def State.couldStart (s : State) (k : Nat) (g : Group) (x : Split) : Bool :=
  g.mayFetch x && !x.fetchFault && match (s.fetchClause k g x).2 with
    | .clause h ws => s.mayStartClause k g x h ws
    | .other _ _ => false
/-- Another split of the partition is ready: it could start its clause (12 R271; DEDUCED, log 67). -/
def State.otherReady (s : State) (k : Nat) (g : Group) (x : Split) : Bool :=
  (s.partGroups (coreOf k) g.part).any fun e => e.2.splits.any fun y => !(e.1 == k && lowest y.mask == lowest x.mask) && s.couldStart e.1 e.2 y
/-- YIELD still passes a split over: no other split has issued a clause, and one is ready or 64 cycles without one have not passed (12 R271). -/
def State.passedOver (s : State) (k : Nat) (g : Group) (x : Split) : Bool :=
  match x.yielded with
  | some (n, t) => decide (s.issueCount (coreOf k) g.part ≤ n) && (decide (s.cycle < t + 64) || s.otherReady k g x)
  | none => false
/-- A split that could start its clause but for the choice among them (15 R333). -/
def State.eligible (s : State) (k : Nat) (g : Group) (x : Split) : Bool := s.couldStart k g x && !s.passedOver k g x
/-- Cycles pass: the 64 cycles of a YIELD count only while no other split of its partition is ready (12 R271). -/
def State.passCycles (s : State) (n : Nat) : State :=
  let still := fun (k : Nat) (g : Group) (x : Split) =>
    { x with yielded := x.yielded.map fun y => (y.1, if s.otherReady k g x then s.cycle + n else y.2) }
  { s.tickAll n with groups := s.groups.map fun e => if e.2.splits.any (fun x => x.yielded.isSome) then
      (e.1, { e.2 with splits := e.2.splits.map (still e.1 e.2) }) else e }
/-- The order of the issue slot: smallest issue count, then the older group, then the lower lane. -/
def firstOf (a b : Group × Split) : Bool :=
  decide (a.2.coreLast < b.2.coreLast) || (a.2.coreLast == b.2.coreLast && (olderThan a.1 b.1 || (a.1.age == b.1.age && decide (lowest a.2.mask ≤ lowest b.2.mask))))
/-- A clause that holds the issue slot, be its split asleep; one whose group is stopped has given it up (02 R39). -/
def Split.holdsSlot (x : Split) : Bool := (x.run.map fun r => !(r.back && x.st == .stopped)).getD false
/-- A clause of the partition has not issued its last word (02 R39). -/
def State.slotBusy (s : State) (core part : Nat) : Bool := (s.partGroups core part).any fun e => e.2.splits.any Split.holdsSlot
/-- A clause that goes on after its group stopped waits while another clause has the slot. -/
def State.slotTaken (s : State) (core part : Nat) : Bool :=
  (s.partGroups core part).any fun e => e.2.splits.any fun x => (x.run.map fun r => !r.back).getD false
/-- No eligible split of the partition stands before this one. -/
def State.chosen (s : State) (k : Nat) (g : Group) (x : Split) : Bool :=
  (s.partGroups (coreOf k) g.part).all fun e => e.2.splits.all fun y =>
    (e.1 == k && lowest y.mask == lowest x.mask) || !s.eligible e.1 e.2 y || firstOf (g, x) (e.2, y)

/-! ### CLAUSE_START -/

/-- A clause that passed its checks starts: counts on its flags, ATB latched, its place in the issue order. -/
def State.startClause (s : State) (k : Nat) (g : Group) (x : Split) (hdr : Word) (ws : List Word) : State :=
  let c := coreOf k
  let fs := clauseFlags hdr ws x.skip
  let n := s.issueCount c g.part + 1
  let g1 := fs.foldl (fun (g : Group) f => { g with cf := g.cf.put f.1 (g.cf.getD f.1 0 + 1), att := g.att ++ [(g.clauses, f.1, f.2)] }) g
  let g2 := g1.updSplit (lowest x.mask) fun y => { y with
    run := some { hdr := hdr, words := ws, idx := x.skip, clause := g.clauses, atb := (s.core c).act }, skip := 0, last := g.clauses + 1, coreLast := n, yielded := none }
  (s.setGroup k { g2 with clauses := g.clauses + 1, atb := (s.core c).act }).updCore c fun z => { z with issued := z.issued.put g.part n }
/-- The checks in their order: decoding, then the allocation (02 R41; 08 R177). -/
def State.enterClause (s : State) (k : Nat) (g : Group) (x : Split) (hdr : Word) (ws : List Word) : State :=
  match clauseVerdict hdr ws (((s.teamOf g).map (·.kern.hdr)).getD {}) with
  | .illegalClause => s.trapHeader k x .illegalClause x.mask
  | .illegalOp i => s.trapHeader k x .illegalOp x.mask (some i)
  | .ok =>
    if !s.mayStartClause k g x hdr ws || s.passedOver k g x || !s.chosen k g x then s
    else if !ws.all fun w => (wordInstrs hdr w).all (inAllocation (8 * g.blocks)) then s.trapHeader k x .regRange x.mask
    else if ws.length ≤ x.skip then s.setGroup k (g.updSplit (lowest x.mask) fun y => y.moveTo (afterClause x.pc hdr))
    else s.startClause k g x hdr ws
/-- CLAUSE_START: the split of a lane fetches its clause, which is decoded and checked whole, and starts it when it may and is chosen. -/
def execClauseStart (k lane : Nat) (s : State) : Out :=
  .next (match (s.group? k).bind fun g => (g.split? lane).map fun x => (g, x) with
    | none => s
    | some (g, x) =>
      if !g.mayFetch x || s.slotBusy (coreOf k) g.part then s
      else if !aligned8 x.pc then s.trapHeader k x .illegalClause x.mask
      else match s.fetchClause k g x with
        | (s, .clause hdr ws) => s.enterClause k { g with splits := g.splits.map fun y => if y.mask = x.mask then { y with fetchFault := false } else y }
                                   { x with fetchFault := false } hdr ws
        | (s, .other va c) => match c with
          | .stop f => s.trapHeader k x .pageFault x.mask (some f) none va
          | .fault f => s.fetchFaulted k g x va f
          | .miss => s.postMisses k g x [(lowest x.mask, va)] .fetch
          | .poison => s.trapHeader k x .dataPoison x.mask none none va
          | _ => s)

/-! ### INSTRUCTION_COMPLETE (02 R38; 16 R343 to R347) -/

/-- The part of an instruction in flight that is still to be performed, at its turn. -/
def State.performInstr (s : State) (k gio : Nat) : Instr → State
  | .ld _ | .ldnt _ => s.performLoad k gio
  | .st _ => s.performStore k gio
  | .stBnd _ => s.performBundled k gio
  | .atomAdd _ | .atomMin _ | .atomMax _ | .atomAnd _ | .atomOr _ | .atomXor _ | .atomExch _ | .atomInc _ | .atomDec _ | .atomFadd _
  | .atomFmin _ | .atomFmax _ | .atomCas _ => s.performAtomic k gio
  | .fence _ => s.performFence k gio
  | .fenceEng _ => s.performFenceEng k gio
  | .waitv _ => s.performWaitv k gio
  | .wake _ => s.performWake k gio
  | .linkq _ => s.performLinkq k gio
  | .condq _ => s.performCondq k gio
  | .alloc _ => s.performAlloc k gio
  | .free _ => s.performFree k gio
  | .kick _ => s.performKick k gio
  | .bobjInit _ | .bobjExpect _ | .bobjArrive _ => s.performObj k gio
  | .bobjWait _ => s.performObjWait k gio
  | .tdset _ => s.performTdset k gio
  | .tdinv _ => s.performTdinv k gio
  | .bopen o => s.performBopen k gio o.scope
  | .bopenJoin _ => s.performJoin k gio
  | .bcommit _ => s.performBcommit k gio
  | .babort _ => s.performBabort k gio
  | .bstat _ => s.performBstat k gio
  | .spawn _ => s.performSpawn k gio
  | .trace _ | .cont _ | .contEnd _ => s.performRay k gio
  | _ => s
/-- What a lane's answer writes: a load's words, an atomic's old value, an address, a status. -/
def laneWords (i : Instr) (x : Nat) : Nat × List LaneWord :=
  let old := fun (d : BitVec 8) (b64 : Bool) => (d.toNat, tyWords (if b64 then MemTy.b64 else MemTy.b32) x)
  match i with
  | .ld o => (o.d.toNat, tyWords o.ty x)
  | .ldnt o => (o.d.toNat, tyWords o.ty x)
  | .atomAdd o | .atomAnd o | .atomOr o | .atomXor o | .atomExch o | .atomInc o | .atomDec o | .atomCas o => old o.d o.b64
  | .atomMin o | .atomMax o => old o.d o.b64
  | .atomFadd o | .atomFmin o | .atomFmax o => old o.d false
  | .alloc o => old o.d true
  | .trace o | .cont o | .contEnd o => old o.d false
  | _ => (255, [])
/-- The vector values that an operation writes when it completes. -/
def Op.outs (o : Op) : List (Nat × LaneWord) :=
  o.vOut ++ (o.accs.map fun a => match a.phase with
    | .done x => let w := laneWords o.instr x; laneOut w.1 a.lane w.2
    | _ => []).flatten
/-- Its registers are written: those that another instruction wrote meanwhile with free values (02 R38); a lane that has exited keeps none. -/
def State.writeOuts (s : State) (g : Group) (o : Op) : Group :=
  let g := o.outs.foldl (fun (g : Group) e =>
    let n := e.1 / 64
    let l := e.1 % 64
    if g.live.getLsbD l then g.writeV n (maskOf [l]) fun _ => if o.spoiltV.contains e.1 then s.free 32 (589824 + e.1) else e.2 else g) g
  let g := o.sOut.foldl (fun (g : Group) e => g.writeS e.1 (if o.spoiltS.contains e.1 then s.free 64 (655360 + e.1) else e.2)) g
  o.pOut.foldl (fun (g : Group) e =>
    g.writeP e.1 o.mask fun l => if o.spoiltP.contains (64 * e.1 + l) then (s.free 64 (720896 + e.1)).getLsbD l else e.2.getLsbD l) g
/-- Splits that slept on an operation go on. -/
def wakeSplit (gio : Nat) (x : Split) : Split :=
  if x.wait = .op gio then { x with wait := .nothing, st := if x.st = .sleep then .ready else x.st } else x
/-- A performed operation completes: its entry is freed, its registers written, its flag released, its split woken. -/
def State.finishOp (s : State) (k gio : Nat) (o : Op) : State :=
  let s := s.freeOp k gio
  match s.group? k with
  | none => s
  | some g =>
    let g1 := s.writeOuts { g with ops := g.ops.filter fun e => e.gio != gio } o
    let g2 := { g1 with splits := g1.splits.map (wakeSplit gio), spilled := g1.spilled.map (wakeSplit gio) }
    (s.setGroup k (g2.releaseFlag o.clause o.flag)).tryDecline k
/-- A stopped group performs nothing that waits on its fault, and a parking group nothing that it keeps (16 R345, R347, R353). -/
def Group.mayGoOn (g : Group) (o : Op) : Bool :=
  (g.stop.isNone || !(o.place == .held || o.accs.any (fun a => a.phase.isFault) || g.ops.any fun e => e.isPlaced && e.waitsBehind o))
    && match g.park with
      | .saving _ | .parked | .restoring _ => !o.keeps
      | _ => true
/-- INSTRUCTION_COMPLETE: an instruction of a group is performed as far as it may be, and completes when it is. -/
def execInstructionComplete (k gio : Nat) (s : State) : Out :=
  .next (match (s.group? k).bind fun g => (g.op? gio).map fun o => (g, o) with
    | none => s
    | some (g, o) =>
      let s := if o.performed || !g.mayGoOn o then s else s.performInstr k gio o.instr
      match s.opOf k gio with
      | some o => if o.performed then s.finishOp k gio o else s.tryDecline k
      | none => s)

end Sys2Proof.Machine
end

