-- ==== Sys2Proof/Machine/Priv.lean ====
section
/-! DEFINITION. The service cores' privileged architecture: control and status registers, the entry of a trap and the return from one,
interrupts (15 R393; PRESUMED where the manual refers to the RISC-V architecture, logs 7 and 8). -/

namespace Sys2Proof.Machine

/-! ### Registers -/

def Hart.reg (x : Hart) (n : Nat) : BitVec 64 := if n = 0 then 0 else x.x.getD n 0
def Hart.setReg (x : Hart) (n : Nat) (v : BitVec 64) : Hart := if n = 0 then x else { x with x := x.x.putD 0 n v }
def setBit (v : BitVec 64) (i : Nat) (b : Bool) : BitVec 64 :=
  if b then v ||| BitVec.ofNat 64 (2 ^ i) else v &&& ~~~(BitVec.ofNat 64 (2 ^ i))
/-- A value with the bits of a mask taken from another. -/
def maskIn (old new mask : BitVec 64) : BitVec 64 := (old &&& ~~~mask) ||| (new &&& mask)
def Mode.code : Mode → Nat
  | .u => 0
  | .s => 1
  | .m => 3
def privMode (n : Nat) : Mode :=
  match n with
  | 0 => .u
  | 1 => .s
  | _ => .m
/-- mstatus with MPP, bits 12:11. -/
def putMpp (v : BitVec 64) (p : Mode) : BitVec 64 := maskIn v (BitVec.ofNat 64 (p.code * 2 ^ 11)) 0x1800

/-! ### Interrupts -/

/-- The interrupt causes, in the order in which the architecture serves them. -/
def irqCauses : List Nat := [11, 3, 7, 9, 1, 5, 13]
/-- A pending interrupt that its own enable bit admits. -/
def Hart.irqPending (x : Hart) : Bool := (x.mip &&& x.mie) != 0
/-- The interrupt that the hart takes next: one for M mode first, then one delegated to S mode. -/
def Hart.irq (x : Hart) : Option Nat :=
  let p := x.mip &&& x.mie
  let pm := p &&& ~~~x.mideleg
  let d := p &&& x.mideleg
  let mOk := x.mode != .m || x.mstatus.getLsbD 3
  let sOk := x.mode == .u || (x.mode == .s && x.mstatus.getLsbD 1)
  if mOk && pm != 0 then irqCauses.find? fun c => pm.getLsbD c
  else if sOk && d != 0 then irqCauses.find? fun c => d.getLsbD c else none

/-! ### Trap entry and return -/

/-- The address of a handler: vectored interrupts stand four bytes apart. -/
def handler (tvec : BitVec 64) (cause : Nat) (irq : Bool) : BitVec 64 :=
  let base := tvec &&& ~~~3#64
  if irq && tvec.getLsbD 0 then base + BitVec.ofNat 64 (4 * cause) else base
def causeWord (cause : Nat) (irq : Bool) : BitVec 64 := setBit (BitVec.ofNat 64 cause) 63 irq
/-- A trap is delegated to S mode. -/
def Hart.delegated (x : Hart) (cause : Nat) (irq : Bool) : Bool :=
  x.mode != .m && (if irq then x.mideleg else x.medeleg).getLsbD cause
/-- A hart takes a trap: the pc, the cause, the value and the mode are saved, interrupts are disabled, and the handler's mode is entered; its
    link and its reservation end (06 R148; 15 R393). -/
def Hart.enterTrap (x : Hart) (cause : Nat) (tval : BitVec 64) (irq : Bool) : Hart :=
  let x := { x with link := none, resv := none, wait := .no, xfault := none, answer := none, due := 0 }
  if x.delegated cause irq then
    { x with sepc := x.pc, scause := causeWord cause irq, stval := tval,
             mstatus := setBit (setBit (setBit x.mstatus 5 (x.mstatus.getLsbD 1)) 1 false) 8 (x.mode == .s),
             mode := .s, pc := handler x.stvec cause irq }
  else
    { x with mepc := x.pc, mcause := causeWord cause irq, mtval := tval,
             mstatus := putMpp (setBit (setBit x.mstatus 7 (x.mstatus.getLsbD 3)) 3 false) x.mode,
             mode := .m, pc := handler x.mtvec cause irq }
def State.hartTrap (s : State) (h cause : Nat) (tval : BitVec 64) : State := (s.updHart h fun x => x.enterTrap cause tval false).halt
def State.hartIrq (s : State) (h cause : Nat) : State := (s.updHart h fun x => x.enterTrap cause 0 true).halt
/-- An instruction of a hart is done. -/
def Hart.retire (x : Hart) (pc : BitVec 64) : Hart :=
  { x with pc := pc, instret := (x.instret + 1) % 2 ^ 64, xfault := none, answer := none, due := 0 }
/-- An instruction that names the next pc itself. -/
def State.hartJump (s : State) (h : Nat) (pc : BitVec 64) : State := (s.updHart h fun x => x.retire pc).halt
/-- MRET. -/
def Hart.mret (x : Hart) : Hart :=
  let pm := privMode (fld x.mstatus.toNat 11 2)
  let st := putMpp (setBit (setBit x.mstatus 3 (x.mstatus.getLsbD 7)) 7 true) .u
  { x.retire x.mepc with mode := pm, mstatus := if pm = .m then st else setBit st 17 false }
/-- SRET. -/
def Hart.sret (x : Hart) : Hart :=
  let st := setBit (setBit (setBit x.mstatus 1 (x.mstatus.getLsbD 5)) 5 true) 8 false
  { x.retire x.sepc with mode := if x.mstatus.getLsbD 8 then .s else .u, mstatus := setBit st 17 false }

/-- A sleep ends: x.waitv takes a status, and its table entry goes; WFI goes on (06 R152). -/
def State.endSleep (s : State) (h status : Nat) : State :=
  match (s.hart h).wait with
  | .wfi => s.updHart h fun x => { x with wait := .no }
  | .waitv rd =>
    ({ s with waits := s.waits.filter fun w => w.who != .hart h } : State).updHart h fun x =>
      { (x.setReg rd.toNat (BitVec.ofNat 64 status)) with wait := .no }
  | _ => s
/-- INTERRUPT_PENDING: an interrupt becomes pending at a hart. One that its enable bit admits ends a sleep, x.waitv's with 2, and one that the
    hart may take is taken (06 R152; 15 R393). -/
def execInterruptPending (h cause : Nat) (s : State) : Out :=
  .next (if Config.harts ≤ h ∨ !(s.hart h).running ∨ !irqCauses.contains cause then s
    else
      let s := s.updHart h fun x => { x with mip := setBit x.mip cause true }
      let s := if (s.hart h).irqPending then s.endSleep h 2 else s
      match (s.hart h).wait, (s.hart h).irq with
      | .no, some c => s.hartIrq h c
      | _, _ => s)

/-! ### Control and status registers -/

/-- Bits of mstatus that a write changes: SIE, MIE, SPIE, MPIE, SPP, VS, MPP, FS, MPRV, SUM, MXR, TVM, TW, TSR; of sstatus: SIE, SPIE, SPP, VS,
    FS, SUM, MXR. -/
def mstatusMask : BitVec 64 := 0x7E7FAA
def sstatusMask : BitVec 64 := 0x0C6722
/-- What mstatus reads as: UXL and SXL are 2, SD is set while FS or VS is dirty. -/
def Hart.mstatusWord (x : Hart) : BitVec 64 :=
  setBit (x.mstatus ||| 0xA00000000) 63 (fld x.mstatus.toNat 13 2 == 3 || fld x.mstatus.toNat 9 2 == 3)
def sstatusRead : BitVec 64 := sstatusMask ||| 0x8000000300000000
/-- A write to mstatus; MPP keeps its value when the write names no mode. -/
def writeMstatus (old v mask : BitVec 64) : BitVec 64 :=
  let n := maskIn old v mask
  if fld n.toNat 11 2 = 2 then maskIn n old 0x1800 else n
/-- Interrupts that exist; those that S mode may take; those whose pending bit software writes. -/
def irqMask : BitVec 64 := 0x2AAA
def sIrqMask : BitVec 64 := 0x2222
/-- Exceptions that may be delegated. -/
def medelegMask : BitVec 64 := 0xB3FF
/-- satp takes MODE 0, or MODE 15 with PPN bits 43:41 zero; another MODE leaves it as it is (03 R70). -/
def writeSatp (old v : BitVec 64) : BitVec 64 :=
  match fld v.toNat 60 4 with
  | 0 => 0
  | 15 => v &&& ~~~0xE0000000000#64
  | _ => old
def Hart.satpMode (x : Hart) : Nat := fld x.satp.toNat 60 4
def Hart.asid (x : Hart) : BitVec 16 := x.satp.extractLsb' 44 16
/-- The root that satp names, in the form of a non-leaf entry (03 R69, R70). -/
def Hart.root (x : Hart) : BitVec 64 := BitVec.ofNat 64 (fld x.satp.toNat 40 1 * 2 ^ 61 + fld x.satp.toNat 0 40 * 2 ^ 12 + 1)

/-- A counter of U mode may be read in the present mode. -/
def Hart.counterOk (x : Hart) (i : Nat) : Bool :=
  x.mode == .m || (x.mcounteren.getLsbD i && (x.mode == .s || x.scounteren.getLsbD i))
/-- What a register reads as; none where no register of the base architecture has the number. Counts of cycles and of time are free values
    (log 12); an unimplemented counter reads 0. -/
def State.csrGet (s : State) (h : Nat) (x : Hart) (a : Nat) : Option (BitVec 64) :=
  match a with
  | 0x100 => some (x.mstatusWord &&& sstatusRead)
  | 0x104 => some (x.mie &&& x.mideleg)
  | 0x105 => some x.stvec
  | 0x106 => some x.scounteren
  | 0x10A => some 0
  | 0x140 => some x.sscratch
  | 0x141 => some x.sepc
  | 0x142 => some x.scause
  | 0x143 => some x.stval
  | 0x144 => some (x.mip &&& x.mideleg)
  | 0x14D => some x.stimecmp
  | 0x180 => some x.satp
  | 0x300 => some x.mstatusWord
  | 0x301 => some 0
  | 0x302 => some x.medeleg
  | 0x303 => some x.mideleg
  | 0x304 => some x.mie
  | 0x305 => some x.mtvec
  | 0x306 => some x.mcounteren
  | 0x30A => some 0
  | 0x320 => some 0
  | 0x340 => some x.mscratch
  | 0x341 => some x.mepc
  | 0x342 => some x.mcause
  | 0x343 => some x.mtval
  | 0x344 => some x.mip
  | 0xB00 => some (s.free 64 1)
  | 0xB02 => some (BitVec.ofNat 64 x.instret)
  | 0xC00 => if x.counterOk 0 then some (s.free 64 1) else none
  | 0xC01 => if x.counterOk 1 then some (s.free 64 2) else none
  | 0xC02 => if x.counterOk 2 then some (BitVec.ofNat 64 x.instret) else none
  | 0xF11 | 0xF12 | 0xF13 | 0xF15 => some 0
  | 0xF14 => some (BitVec.ofNat 64 h)
  | _ =>
    if (0xB03 ≤ a ∧ a < 0xB20) ∨ (0x323 ≤ a ∧ a < 0x340) ∨ (0x3A0 ≤ a ∧ a < 0x3F0) then some 0
    else if 0xC03 ≤ a ∧ a < 0xC20 then (if x.counterOk (a - 0xC00) then some 0 else none) else none
/-- The hart with a register written. -/
def Hart.csrPut (x : Hart) (a : Nat) (v : BitVec 64) : Hart :=
  match a with
  | 0x100 => { x with mstatus := writeMstatus x.mstatus v sstatusMask }
  | 0x104 => { x with mie := maskIn x.mie v (x.mideleg &&& irqMask) }
  | 0x105 => { x with stvec := v &&& ~~~2#64 }
  | 0x106 => { x with scounteren := v &&& 0xFFFFFFFF }
  | 0x140 => { x with sscratch := v }
  | 0x141 => { x with sepc := v &&& ~~~1#64 }
  | 0x142 => { x with scause := v }
  | 0x143 => { x with stval := v }
  | 0x144 => { x with mip := maskIn x.mip v (x.mideleg &&& 2) }
  | 0x14D => { x with stimecmp := v, mip := setBit x.mip 5 false }
  | 0x180 => { x with satp := writeSatp x.satp v }
  | 0x300 => { x with mstatus := writeMstatus x.mstatus v mstatusMask }
  | 0x302 => { x with medeleg := v &&& medelegMask }
  | 0x303 => { x with mideleg := v &&& sIrqMask }
  | 0x304 => { x with mie := v &&& irqMask }
  | 0x305 => { x with mtvec := v &&& ~~~2#64 }
  | 0x306 => { x with mcounteren := v &&& 0xFFFFFFFF }
  | 0x340 => { x with mscratch := v }
  | 0x341 => { x with mepc := v &&& ~~~1#64 }
  | 0x342 => { x with mcause := v }
  | 0x343 => { x with mtval := v }
  | 0x344 => { x with mip := maskIn x.mip v sIrqMask }
  | 0xB02 => { x with instret := (v.toNat + 2 ^ 64 - 1) % 2 ^ 64 }
  | _ => x
/-- The mode may reach the register; satp is kept from S mode by TVM. -/
def Hart.csrMode (x : Hart) (a : Nat) : Bool :=
  decide (a / 256 % 4 ≤ x.mode.code) && !(a == 0x180 && x.mode == .s && x.mstatus.getLsbD 20)
/-- Numbers whose registers belong to extensions that the manual does not describe: floating point, vectors, the hypervisor. -/
def csrForeign (a : Nat) : Bool :=
  decide (a < 4) || (decide (8 ≤ a) && decide (a < 16)) || (decide (0xC20 ≤ a) && decide (a < 0xC23))
    || (decide (0x200 ≤ a) && decide (a < 0x300)) || (decide (0x600 ≤ a) && decide (a < 0x700)) || a == 0xE12

end Sys2Proof.Machine
end

