-- ==== Sys2Proof/Machine/Hart.lean ====
section
/-! DEFINITION. The service cores: translation and memory through their caches, the RISC-V base instructions (PRESUMED, log 7), and the Fintas
extension (02 R63, R64; 03 R70; 04 R99 to R103; 05 R114; 06 R152; 11 R254; 15 R393). -/

namespace Sys2Proof.Machine

/-- What a part of a hart's instruction answers: a value, an exception with its trap value, or that it waits and is tried again. -/
inductive HRes (α : Type) where
  | ok (a : α)
  | trap (cause : Nat) (tval : BitVec 64)
  | wait
  deriving DecidableEq, Repr

/-! ### Translation (03 R70) -/

/-- The causes of a page fault and of an access fault of an access (15 R393). -/
structure Faults where
  page : Nat
  access : Nat
  deriving DecidableEq, Repr
def fetchFaults : Faults := ⟨12, 1⟩
def loadFaults : Faults := ⟨13, 5⟩
def storeFaults : Faults := ⟨15, 7⟩

/-- An untranslated address as a physical one: TIER 63:61, PEER 60:55, address 51:0 (PRESUMED, log 6); none where there is no memory. -/
def State.bareKey (s : State) (va : Nat) : Option Nat :=
  let t := fld va 61 3
  let peer := fld va 55 6
  let pa := fld va 0 52
  let ofPeer := t = 3 ∨ t = 4
  if fld va 52 3 ≠ 0 ∨ t = 7 ∨ s.tierLimit t ≤ pa ∨ (t = 6 ∧ !mmioFrame pa) ∨ (ofPeer ∧ !s.member peer) ∨ (¬ ofPeer ∧ peer ≠ 0) then none
  else some (tierKey t peer pa)
def Hart.paged (x : Hart) (kind : AccKind) : Bool := x.accMode kind != .m && x.satpMode == 15
/-- Under MXR a load may use a page that only X allows. -/
def Hart.mxr (x : Hart) (kind : AccKind) : Bool := kind == .read && x.mstatus.getLsbD 19
/-- The hart's own TLB comes before its die's translation cache (03 R76). -/
def Hart.hit (x : Hart) (die : List TlbEntry) (kind : AccKind) (a : Nat) : Option TlbEntry :=
  let priv := x.accMode kind != .u
  let look := fun k => (x.tlb ++ die).find? fun t => t.serves x.asid a k priv
  (look kind).or (if x.mxr kind then look .fetch else none)
/-- S mode does not fetch from a user page, and reads or writes it only under SUM. -/
def Hart.userBad (x : Hart) (kind : AccKind) (t : TlbEntry) : Bool :=
  !ptePriv t.pte && x.accMode kind == .s && (kind == .fetch || !x.mstatus.getLsbD 18)
/-- The key of an access that lies within one line. A miss waits for a walk; a walk's fault is taken at the access that met it. The walk sets A
    and D before SUM is looked at (DESIGN CHOICE, log 70). -/
def State.hartXlate (s : State) (h : Nat) (va : BitVec 64) (kind : AccKind) (f : Faults) : State × HRes Nat :=
  let x := s.hart h
  let a := va.toNat
  if !x.paged kind then (s, match s.bareKey a with
    | some k => .ok k
    | none => .trap f.access va)
  else if 2 ^ 52 ≤ a then (s, .trap f.page va)
  else match x.hit (s.tlbDie.getD (h / 12) []) kind a with
    | some t => (s.updHart h fun x => { x with pts := max x.pts t.wts },
                 if x.userBad kind t then .trap f.page va else .ok (leafKey t.pte t.vbase a))
    | none =>
      let post := fun (s : State) k => s.postWalk (h / 12) x.asid x.root va (.hart h) k
      match x.xfault with
      | some (fk, fva) =>
        if fva.toNat / 65536 ≠ a / 65536 then (post s kind, .wait)
        else if x.mxr kind && fk == fkRead then (post (s.updHart h fun x => { x with xfault := none }) .fetch, .wait)
        else (s, .trap f.page va)
      | none => (post s kind, .wait)

/-! ### Memory (04 R99 to R103; 11 R246, R247; 17 R362, R366) -/

/-- An x.strm of this hart to the line is not performed. -/
def State.strmPending (s : State) (h line : Nat) : Bool := s.reqs.any fun e => e.2.who == .hart h && e.2.line == line
/-- Any x.strm of this hart. -/
def State.strmAny (s : State) (h : Nat) : Bool := s.reqs.any fun e => e.2.who == .hart h
/-- A line's module does not answer: the access waits until LINK_WAIT has passed and then faults (17 R366). None: it answers. -/
def State.hartAway (s : State) (h line : Nat) (f : Faults) (va : BitVec 64) : Option (State × HRes Unit) :=
  if s.reachable (keyMod (line * 128)) then none
  else
    let x := s.hart h
    if x.due = 0 then some (s.setHart h { x with due := s.cycle + s.linkWait }, .wait)
    else if x.due ≤ s.cycle then
      let mine := fun (m : Msg) => m.core == h && m.line == line && (m.kind == .gets || m.kind == .getm || m.kind == .upgrade)
      some (({ s with msgs := s.msgs.filter fun e => !mine e.2 } : State).setHart h
        { x with want := if x.want.map (·.1) = some line then none else x.want }, .trap f.page va)
    else some (s, .wait)
/-- The hart asks a line's home for a copy or for permission, one request at a time. -/
def State.hartAsk (s : State) (h line : Nat) (kind : MsgKind) : State :=
  let x := s.hart h
  if x.want.isSome then s
  else (s.setHart h { x with want := some (line, kind) }).sendMsg { kind := kind, core := h, line := line, pts := x.pts }
/-- What every access to a line first meets: its module, its own x.strm writes, the versions that its horizon requires. -/
def State.hartReady (s : State) (h line : Nat) (f : Faults) (va : BitVec 64) : State × HRes Unit :=
  match s.hartAway h line f va with
  | some r => r
  | none => if s.strmPending h line then (s, .wait) else (s.retainedAll line (s.hart h).horizon, .ok ())
/-- A read takes the reference that its line carries (11 R246). Its bytes are free where they are poisoned (log 35). -/
def State.hartTake (s : State) (h key n : Nat) (bs : List Byte) : State × HRes Nat :=
  match s.takeRefHart h ((s.homeRec? (lineOf key)).bind fun r => r.ref) with
  | none => (s, .wait)
  | some s => (s, .ok (if s.poisoned key n then (s.free (8 * n) 7).toNat else ofBytes bs))
/-- n bytes of one line, through the cache; tiers 5 and 6 at once. -/
def State.hartRead (s : State) (h key n : Nat) (f : Faults) (va : BitVec 64) : State × HRes Nat :=
  let line := lineOf key
  if keyTier key = 6 then (match s.mmioRead (keyPa key) n with
    | some (s, v) => (s, .ok v)
    | none => (s, .trap f.access va))
  else match s.hartReady h line f va with
    | (s, .trap c t) => (s, .trap c t)
    | (s, .wait) => (s, .wait)
    | (s, .ok _) =>
      if keyTier key = 5 then s.hartTake h key n (s.bytes key n)
      else match (s.hart h).cache.get? line with
        | some c => s.hartTake h key n (slice c.data (key % 128) n)
        | none => match (s.hart h).answer with
          | some (l, d) => if l = line then s.hartTake h key n (slice d (key % 128) n) else (s.hartAsk h line .gets, .wait)
          | none => (s.hartAsk h line .gets, .wait)
/-- Write permission for a line: held, or asked for (04 R102, R103); a checkpoint makes the write wait (18 R381). -/
def State.hartOwn (s : State) (h key : Nat) (f : Faults) (va : BitVec 64) : State × HRes Unit :=
  let line := lineOf key
  if keyTier key = 6 then (s, .ok ())
  else match s.hartReady h line f va with
    | (s, .ok _) =>
      if s.ckptHolds key then (s, .wait)
      else if keyTier key = 5 then (s, .ok ())
      else match (s.hart h).cache.get? line with
        | some c => if c.st = .m ∨ c.st = .e then (s, .ok ()) else (s.hartAsk h line .upgrade, .wait)
        | none => (s.hartAsk h line .getm, .wait)
    | r => r
/-- A store into a line that the hart may write. -/
def State.hartPut (s : State) (h key : Nat) (bs : List Byte) (f : Faults) (va : BitVec 64) : State × HRes Unit :=
  let line := lineOf key
  if keyTier key = 6 then (match s.mmioWrite (keyPa key) bs.length (ofBytes bs) with
    | some s => (s, .ok ())
    | none => (s, .trap f.access va))
  else if keyTier key = 5 then ((s.homeWrite key bs 0 noGroup).1, .ok ())
  else
    let s := s.noteStore key bs.length
    let put := fun (k : Nat) (b : List Byte) (s : State) =>
      s.updHart h fun x => { x with cache := x.cache.upd line fun c => { st := .m, data := overlay c.data (k % 128) b } }
    (match s.liveHeader key bs.length with
     | some k => put k s.spoiltHeader (put key bs s)
     | none => put key bs s, .ok ())
/-- The parts of an access by lines: offset in the access, and length. -/
def lineParts (va : BitVec 64) (n : Nat) : List (Nat × Nat) :=
  let m := 128 - va.toNat % 128
  if n ≤ m then [(0, n)] else [(0, m), (m, n - m)]
/-- Each part of an access in turn. -/
def State.hartEach {α β : Type} (f : State → α → State × HRes β) : State → List α → State × HRes (List β)
  | s, [] => (s, .ok [])
  | s, a :: t => match f s a with
    | (s, .trap c v) => (s, .trap c v)
    | (s, .wait) => (s, .wait)
    | (s, .ok b) => match State.hartEach f s t with
      | (s, .ok l) => (s, .ok (b :: l))
      | (s, .trap c v) => (s, .trap c v)
      | (s, .wait) => (s, .wait)
def hartBind {α β : Type} (r : State × HRes α) (f : State → α → State × HRes β) : State × HRes β :=
  match r with
  | (s, .ok a) => f s a
  | (s, .trap c v) => (s, .trap c v)
  | (s, .wait) => (s, .wait)
/-- The keys of the parts of an access: address, key, offset, length. -/
def State.hartKeys (s : State) (h : Nat) (va : BitVec 64) (n : Nat) (kind : AccKind) (f : Faults) : State × HRes (List (BitVec 64 × Nat × Nat × Nat)) :=
  State.hartEach (fun s p =>
    let a := va + BitVec.ofNat 64 p.1
    hartBind (s.hartXlate h a kind f) fun s k => (s, .ok (a, k, p.1, p.2))) s (lineParts va n)
/-- A load of n bytes at any address (log 7: a misaligned one is performed part by part). -/
def State.hartLoad (s : State) (h : Nat) (va : BitVec 64) (n : Nat) (kind : AccKind) (f : Faults) : State × HRes Nat :=
  hartBind (s.hartKeys h va n kind f) fun s ps =>
    hartBind (State.hartEach (fun s p => hartBind (s.hartRead h p.2.1 p.2.2.2 f p.1) fun s v => (s, .ok (v * 2 ^ (8 * p.2.2.1)))) s ps) fun s vs =>
      (s, .ok vs.sum)
/-- A store of n bytes at any address: no part is stored until every part may be. -/
def State.hartStore (s : State) (h : Nat) (va : BitVec 64) (n x : Nat) : State × HRes Unit :=
  let f := storeFaults
  hartBind (s.hartKeys h va n .write f) fun s ps =>
    hartBind (State.hartEach (fun s p => s.hartOwn h p.2.1 f p.1) s ps) fun s _ =>
      hartBind (State.hartEach (fun s p => s.hartPut h p.2.1 (toBytes p.2.2.2 (x / 2 ^ (8 * p.2.2.1))) f p.1) s ps) fun s _ => (s, .ok ())
/-- A read of a line's bytes at its home, as an uncached access of the extension. -/
def State.hartAtHome (s : State) (h key n : Nat) (f : Faults) (va : BitVec 64) : State × HRes (List Byte) :=
  let line := lineOf key
  hartBind (s.hartReady h line f va) fun s _ =>
    hartBind (s.hartTake h key n (slice (s.current line) (key % 128) n)) fun s v =>
      (s.updHart h fun x => { x with pts := max x.pts (s.lineStamp line) }, .ok (toBytes n v))
/-- How a hart's instruction ends: with its effect, with its exception, or not yet. -/
def State.hartEnd {α : Type} (r : State × HRes α) (h : Nat) (f : State → α → State) : State :=
  match r with
  | (s, .ok a) => f s a
  | (s, .trap c v) => s.hartTrap h c v
  | (s, .wait) => s.halt
def State.setX (s : State) (h rd : Nat) (v : BitVec 64) : State := s.updHart h fun x => x.setReg rd v

/-! ### The fetch (02 R392) -/

/-- Two bytes of an instruction, as memory now stands (log 7). -/
def State.fetchHalf (s : State) (h : Nat) (pc : BitVec 64) : State × HRes Nat :=
  hartBind (s.hartXlate h pc .fetch fetchFaults) fun s k =>
    if keyTier k = 6 then (s, .trap 1 pc)
    else match s.hartAway h (lineOf k) fetchFaults pc with
      | some (s, .trap c v) => (s, .trap c v)
      | some (s, _) => (s, .wait)
      | none => (s, .ok (if s.poisoned k 2 then (s.free 16 3).toNat else ofBytes (slice (s.current (lineOf k)) (k % 128) 2)))
/-- The word at the hart's pc; its upper half is 0 where the lower one is a 16-bit instruction. -/
def State.hartFetch (s : State) (h : Nat) : State × HRes (BitVec 32) :=
  let pc := (s.hart h).pc
  hartBind (s.fetchHalf h pc) fun s lo =>
    if lo % 4 ≠ 3 then (s, .ok (BitVec.ofNat 32 lo))
    else hartBind (s.fetchHalf h (pc + 2)) fun s hi => (s, .ok (BitVec.ofNat 32 (lo + 2 ^ 16 * hi)))

/-! ### Arithmetic -/

def shamt {w : Nat} (b : BitVec w) : Nat := b.toNat % w
/-- The operations of OP and OP-IMM by funct3; `alt` is bit 30. -/
def rvAlu {w : Nat} (f3 : Nat) (alt : Bool) (a b : BitVec w) : BitVec w :=
  match f3 with
  | 0 => if alt then a - b else a + b
  | 1 => a <<< shamt b
  | 2 => if a.slt b then 1 else 0
  | 3 => if a.ult b then 1 else 0
  | 4 => a ^^^ b
  | 5 => if alt then a.sshiftRight (shamt b) else a >>> shamt b
  | 6 => a ||| b
  | _ => a &&& b
/-- The operations of the multiply and divide extension. -/
def rvMul {w : Nat} (f3 : Nat) (a b : BitVec w) : BitVec w :=
  match f3 with
  | 0 => a * b
  | 1 => BitVec.ofInt w (a.toInt * b.toInt / 2 ^ w)
  | 2 => BitVec.ofInt w (a.toInt * b.toNat / 2 ^ w)
  | 3 => BitVec.ofNat w (a.toNat * b.toNat / 2 ^ w)
  | 4 => if b = 0 then BitVec.allOnes w else BitVec.ofInt w (a.toInt.tdiv b.toInt)
  | 5 => if b = 0 then BitVec.allOnes w else a / b
  | 6 => if b = 0 then a else BitVec.ofInt w (a.toInt.tmod b.toInt)
  | _ => if b = 0 then a else a % b
def rvTaken (f3 : Nat) (a b : BitVec 64) : Option Bool :=
  match f3 with
  | 0 => some (a == b)
  | 1 => some (a != b)
  | 4 => some (a.slt b)
  | 5 => some (!a.slt b)
  | 6 => some (a.ult b)
  | 7 => some (!a.ult b)
  | _ => none
/-- The new value of an AMO by funct5. -/
def rvAmo {w : Nat} (f5 : Nat) (a b : BitVec w) : Option (BitVec w) :=
  match f5 with
  | 0 => some (a + b)
  | 1 => some b
  | 4 => some (a ^^^ b)
  | 8 => some (a ||| b)
  | 12 => some (a &&& b)
  | 16 => some (if b.slt a then b else a)
  | 20 => some (if a.slt b then b else a)
  | 24 => some (if b.ult a then b else a)
  | 28 => some (if a.ult b then b else a)
  | _ => none

/-- The fields of a word. -/
def wRd (w : BitVec 32) : Nat := fld w.toNat 7 5
def wRs1 (w : BitVec 32) : Nat := fld w.toNat 15 5
def wRs2 (w : BitVec 32) : Nat := fld w.toNat 20 5
def wF3 (w : BitVec 32) : Nat := fld w.toNat 12 3
def wF7 (w : BitVec 32) : Nat := fld w.toNat 25 7
def immI (w : BitVec 32) : BitVec 64 := (w.extractLsb' 20 12).signExtend 64
def immS (w : BitVec 32) : BitVec 64 := (w.extractLsb' 25 7 ++ w.extractLsb' 7 5).signExtend 64
def immB (w : BitVec 32) : BitVec 64 :=
  (w.extractLsb' 31 1 ++ w.extractLsb' 7 1 ++ w.extractLsb' 25 6 ++ w.extractLsb' 8 4 ++ 0#1).signExtend 64
def immU (w : BitVec 32) : BitVec 64 := (w.extractLsb' 12 20 ++ 0#12).signExtend 64
def immJ (w : BitVec 32) : BitVec 64 :=
  (w.extractLsb' 31 1 ++ w.extractLsb' 12 8 ++ w.extractLsb' 20 1 ++ w.extractLsb' 21 10 ++ 0#1).signExtend 64
def sext32 (x : BitVec 32) : BitVec 64 := x.signExtend 64

/-! ### The base instructions -/

/-- A word that is no instruction (02 R64; RISC-V: the trap value is the word). -/
def State.hartIllegal (s : State) (h : Nat) (w : BitVec 32) : State := s.hartTrap h 2 (w.setWidth 64)
/-- A word of an extension that the manual names and does not describe. -/
def foreign (w : BitVec 32) : Out := .refused (.riscvExtension w)
def State.opImm (s : State) (h : Nat) (x : Hart) (w : BitVec 32) : Out :=
  let a := x.reg (wRs1 w)
  let f3 := wF3 w
  let hi := fld w.toNat 26 6
  if f3 = 1 ∧ hi ≠ 0 ∨ f3 = 5 ∧ hi ≠ 0 ∧ hi ≠ 16 then foreign w
  else .next (s.setX h (wRd w) (rvAlu f3 (f3 == 5 && hi == 16) a (if f3 = 1 ∨ f3 = 5 then BitVec.ofNat 64 (fld w.toNat 20 6) else immI w)))
def State.opImm32 (s : State) (h : Nat) (x : Hart) (w : BitVec 32) : Out :=
  let a := (x.reg (wRs1 w)).setWidth 32
  let f3 := wF3 w
  let f7 := wF7 w
  if f3 = 0 then .next (s.setX h (wRd w) (sext32 (a + (immI w).setWidth 32)))
  else if (f3 = 1 ∧ f7 = 0) ∨ (f3 = 5 ∧ (f7 = 0 ∨ f7 = 32)) then
    .next (s.setX h (wRd w) (sext32 (rvAlu f3 (f7 == 32) a (BitVec.ofNat 32 (wRs2 w)))))
  else if f3 = 1 ∨ f3 = 5 then foreign w
  else .next (s.hartIllegal h w)
def State.opReg (s : State) (h : Nat) (x : Hart) (w : BitVec 32) : Out :=
  let a := x.reg (wRs1 w)
  let b := x.reg (wRs2 w)
  let f3 := wF3 w
  match wF7 w with
  | 0 => .next (s.setX h (wRd w) (rvAlu f3 false a b))
  | 1 => .next (s.setX h (wRd w) (rvMul f3 a b))
  | 32 => if f3 = 0 ∨ f3 = 5 then .next (s.setX h (wRd w) (rvAlu f3 true a b)) else foreign w
  | _ => foreign w
def State.opReg32 (s : State) (h : Nat) (x : Hart) (w : BitVec 32) : Out :=
  let a := (x.reg (wRs1 w)).setWidth 32
  let b := (x.reg (wRs2 w)).setWidth 32
  let f3 := wF3 w
  match wF7 w with
  | 0 => if f3 = 0 ∨ f3 = 1 ∨ f3 = 5 then .next (s.setX h (wRd w) (sext32 (rvAlu f3 false a b))) else .next (s.hartIllegal h w)
  | 1 => if f3 = 0 ∨ 4 ≤ f3 then .next (s.setX h (wRd w) (sext32 (rvMul f3 a b))) else .next (s.hartIllegal h w)
  | 32 => if f3 = 0 ∨ f3 = 5 then .next (s.setX h (wRd w) (sext32 (rvAlu f3 true a b))) else foreign w
  | _ => foreign w
def State.opLoad (s : State) (h : Nat) (x : Hart) (w : BitVec 32) : State :=
  let f3 := wF3 w
  if f3 = 7 then s.hartIllegal h w
  else
    let n := 2 ^ (f3 % 4)
    State.hartEnd (s.hartLoad h (x.reg (wRs1 w) + immI w) n .read loadFaults) h fun s v =>
      s.setX h (wRd w) (if f3 < 4 then (BitVec.ofNat (8 * n) v).signExtend 64 else BitVec.ofNat 64 v)
def State.opStore (s : State) (h : Nat) (x : Hart) (w : BitVec 32) : State :=
  let f3 := wF3 w
  if 4 ≤ f3 then s.hartIllegal h w
  else State.hartEnd (s.hartStore h (x.reg (wRs1 w) + immS w) (2 ^ f3) (x.reg (wRs2 w)).toNat) h fun s _ => s
def State.opBranch (s : State) (h : Nat) (x : Hart) (w : BitVec 32) : State :=
  match rvTaken (wF3 w) (x.reg (wRs1 w)) (x.reg (wRs2 w)) with
  | some true => s.hartJump h (x.pc + immB w)
  | some false => s
  | none => s.hartIllegal h w
/-- FENCE waits for the hart's x.strm writes unless it is .acq (FENCE r,rw and FENCE r,r); its other accesses are performed in order (05 R114).
    FENCE.I has nothing to wait for. -/
def State.opFence (s : State) (h : Nat) (w : BitVec 32) : Out :=
  match wF3 w with
  | 0 =>
    let acq := fld w.toNat 28 4 == 0 && w.getLsbD 25 && !w.getLsbD 24 && w.getLsbD 21
    .next (if !acq && s.strmAny h then s.halt else s)
  | 1 => .next s
  | 2 => foreign w
  | _ => .next (s.hartIllegal h w)

/-- LR, SC and the AMOs; one with .rl waits for the hart's x.strm writes (05 R113, R114). -/
def State.opAmo (s : State) (h : Nat) (x : Hart) (w : BitVec 32) : Out :=
  let f3 := wF3 w
  let n := 2 ^ f3
  let va := x.reg (wRs1 w)
  let bits := 8 * n
  let value := fun (v : Nat) => (BitVec.ofNat bits v).signExtend 64
  if f3 ≠ 2 ∧ f3 ≠ 3 then .next (s.hartIllegal h w)
  else if w.getLsbD 25 && s.strmAny h then .next s.halt
  else match fld w.toNat 27 5 with
    | 2 =>
      .next (if wRs2 w ≠ 0 then s.hartIllegal h w
      else if va.toNat % n ≠ 0 then s.hartTrap h 4 va
      else State.hartEnd (hartBind (s.hartXlate h va .read loadFaults) fun s k =>
          if keyTier k = 6 then (s, .trap 5 va) else hartBind (s.hartRead h k n loadFaults va) fun s v => (s, .ok (k, v))) h fun s r =>
        (s.updHart h fun x => { x with resv := if (x.cache.get? (lineOf r.1)).isSome then some (lineOf r.1, r.1) else none }).setX h (wRd w) (value r.2))
    | 3 =>
      .next (if va.toNat % n ≠ 0 then s.hartTrap h 6 va
      else State.hartEnd (hartBind (s.hartXlate h va .write storeFaults) fun s k =>
          if keyTier k = 6 then (s, .trap 7 va)
          else if (s.hart h).resv ≠ some (lineOf k, k) then (s, .ok 1)
          else hartBind (s.hartOwn h k storeFaults va) fun s _ =>
            hartBind (s.hartPut h k (toBytes n (x.reg (wRs2 w)).toNat) storeFaults va) fun s _ => (s, .ok 0)) h fun s (v : Nat) =>
        (s.updHart h fun x => { x with resv := none }).setX h (wRd w) (BitVec.ofNat 64 v))
    | f5 =>
      .next (if (rvAmo f5 0#64 0#64).isNone then s.hartIllegal h w
      else if va.toNat % n ≠ 0 then s.hartTrap h 6 va
      else State.hartEnd (hartBind (s.hartXlate h va .rmw storeFaults) fun s k =>
          if keyTier k = 6 then (s, .trap 7 va)
          else hartBind (s.hartOwn h k storeFaults va) fun s _ =>
            hartBind (s.hartRead h k n storeFaults va) fun s v =>
              let new := (rvAmo f5 (BitVec.ofNat bits v) ((x.reg (wRs2 w)).setWidth bits)).getD 0
              hartBind (s.hartPut h k (toBytes n new.toNat) storeFaults va) fun s _ => (s, .ok v)) h fun s v =>
        s.setX h (wRd w) (value v))

/-- SFENCE.VMA drops translations of this hart alone (03 R70); G entries stand when it names a context. -/
def State.opSfence (s : State) (h : Nat) (x : Hart) (w : BitVec 32) : State :=
  let va := (x.reg (wRs1 w)).toNat
  let asid := (x.reg (wRs2 w)).setWidth 16
  let drops := fun (t : TlbEntry) =>
    (wRs1 w == 0 || (decide (t.vbase ≤ va) && decide (va < t.vbase + t.size))) && (wRs2 w == 0 || (t.asid == asid && !pteG t.pte))
  let mine := fun (e : WalkFor × AccKind × Addr) => e.1 == .hart h
  ({ s with walks := s.walks.map fun e => (e.1, { e.2 with waits := e.2.waits.filter fun v => !mine v }) } : State).updHart h fun x =>
    { x with tlb := x.tlb.filter fun t => !drops t }
/-- The Zicsr instructions: the old value to rd, and the new one to the register. -/
def State.opCsr (s : State) (h : Nat) (x : Hart) (w : BitVec 32) : Out :=
  let a := fld w.toNat 20 12
  let f3 := wF3 w
  let src := if 4 ≤ f3 then BitVec.ofNat 64 (wRs1 w) else x.reg (wRs1 w)
  let puts := f3 % 4 == 1 || wRs1 w != 0
  if csrForeign a then foreign w
  else .next (match s.csrGet h x a with
    | none => s.hartIllegal h w
    | some old =>
      if !x.csrMode a || (puts && a / 1024 == 3) then s.hartIllegal h w
      else
        let new := match f3 % 4 with
          | 1 => src
          | 2 => old ||| src
          | _ => old &&& ~~~src
        (s.updHart h fun x => if puts then x.csrPut a new else x).setX h (wRd w) old)
def State.opSystem (s : State) (h : Nat) (x : Hart) (w : BitVec 32) : Out :=
  match wF3 w with
  | 0 =>
    if wF7 w = 9 ∧ wRd w = 0 then
      .next (if x.mode = .u ∨ (x.mode = .s ∧ x.mstatus.getLsbD 20) then s.hartIllegal h w else s.opSfence h x w)
    else if [0x0B, 0x0C, 0x11, 0x13, 0x31, 0x33].contains (wF7 w) then foreign w
    else if wRd w ≠ 0 ∨ wRs1 w ≠ 0 then .next (s.hartIllegal h w)
    else match fld w.toNat 20 12 with
      | 0 => .next (s.hartTrap h (match x.mode with
        | .u => 8
        | .s => 9
        | .m => 11) 0)
      | 1 => .next (s.hartTrap h 3 x.pc)
      | 0x102 => .next (if x.mode = .u ∨ (x.mode = .s ∧ x.mstatus.getLsbD 22) then s.hartIllegal h w else (s.updHart h Hart.sret).halt)
      | 0x302 => .next (if x.mode ≠ .m then s.hartIllegal h w else (s.updHart h Hart.mret).halt)
      | 0x105 => .next (if x.mode = .u ∨ (x.mode = .s ∧ x.mstatus.getLsbD 21) then s.hartIllegal h w
          else if x.irqPending then s else s.updHart h fun x => { x with wait := .wfi })
      | 0x0D | 0x1D => foreign w
      | _ => .next (s.hartIllegal h w)
  | 4 => foreign w
  | _ => s.opCsr h x w
/-- One word of the base architecture on a hart. -/
def State.hartWord (s : State) (h : Nat) (x : Hart) (w : BitVec 32) : Out :=
  match fld w.toNat 0 7 with
  | 0x03 => .next (s.opLoad h x w)
  | 0x0F => s.opFence h w
  | 0x13 => s.opImm h x w
  | 0x17 => .next (s.setX h (wRd w) (x.pc + immU w))
  | 0x1B => s.opImm32 h x w
  | 0x23 => .next (s.opStore h x w)
  | 0x2F => s.opAmo h x w
  | 0x33 => s.opReg h x w
  | 0x37 => .next (s.setX h (wRd w) (immU w))
  | 0x3B => s.opReg32 h x w
  | 0x63 => .next (s.opBranch h x w)
  | 0x67 => .next (if wF3 w = 0 then (s.setX h (wRd w) (x.pc + 4)).hartJump h ((x.reg (wRs1 w) + immI w) &&& ~~~1#64) else s.hartIllegal h w)
  | 0x6F => .next ((s.setX h (wRd w) (x.pc + 4)).hartJump h (x.pc + immJ w))
  | 0x73 => s.opSystem h x w
  | 0x07 | 0x27 | 0x43 | 0x47 | 0x4B | 0x4F | 0x53 | 0x57 => foreign w
  | _ => .next (s.hartIllegal h w)
/-- HART_INSTRUCTION: the word is one of the base architecture. -/
def execHartInstruction (w : BitVec 32) (s : State) : Out :=
  match s.cur with
  | .hart h => s.hartWord h (s.hart h) w
  | _ => .next s

/-! ### The Fintas extension (06 R152; 11 R254) -/

/-- A word of the extension: what it does for its hart. -/
def onHart (s : State) (f : Nat → Hart → State) : Out :=
  .next (match s.cur with
    | .hart h => f h (s.hart h)
    | _ => s)
/-- An access of the extension within a line: aligned, translated, in a tier that it admits. -/
def State.hartPlace (s : State) (h : Nat) (va : BitVec 64) (n : Nat) (kind : AccKind) (misaligned : Nat) (f : Faults) (bad : Hit → Bool) :
    State × HRes Nat :=
  if va.toNat % n ≠ 0 then (s, .trap misaligned va)
  else hartBind (s.hartXlate h va kind f) fun s k => if bad { key := k, spec := false } then (s, .trap f.access va) else (s, .ok k)
/-- x.waitv (06 R152). -/
def execXWaitv (o : XWaitvOp) (s : State) : Out :=
  onHart s fun h x =>
    let va := x.reg o.rs1.toNat
    let n := if o.w32 then 4 else 8
    State.hartEnd (hartBind (s.hartPlace h va n .read 4 loadFaults badWait) fun s k =>
        hartBind (s.hartAtHome h k n loadFaults va) fun s bs => (s, .ok (k, bs))) h fun s r =>
      let want := (x.reg o.rs2.toNat).toNat
      let seen := if s.poisoned r.1 n then ofBytes (slice (s.current (lineOf r.1)) (r.1 % 128) n) else want
      if ofBytes r.2 ≠ want % 2 ^ (8 * n) then s.setX h o.rd.toNat 1
      else match s.waitStep r.1 n seen va (.hart h) 0 with
        | (s, some v) => s.setX h o.rd.toNat (BitVec.ofNat 64 v)
        | (s1, none) =>
          if x.irqPending then s.setX h o.rd.toNat 2 else s1.updHart h fun x => { x with wait := .waitv o.rd }
/-- x.wake (06 R146, R152). -/
def execXWake (o : XWakeOp) (s : State) : Out :=
  onHart s fun h x =>
    let va := x.reg o.rs1.toNat
    if o.rl && s.strmAny h then s.halt else
    State.hartEnd (hartBind (s.hartPlace h va 4 .read 6 storeFaults badWait) fun s k =>
        hartBind (s.hartReady h (lineOf k) storeFaults va) fun s _ => (s, .ok k)) h fun s k =>
      let r := s.wakeWhere (wakes va k) (x.reg o.rs2.toNat).toNat
      r.1.setX h o.rd.toNat (BitVec.ofNat 64 r.2)

/-- The descriptor of x.linkq and x.condq. -/
def State.hartDesc (s : State) (h : Nat) (va : BitVec 64) : State × HRes Nat :=
  hartBind (s.hartPlace h va 32 .read 6 storeFaults badAtomic) fun s k =>
    hartBind (s.hartAtHome h k 32 storeFaults va) fun s bs => (s, .ok (ofBytes bs))
/-- The keys of several lines. -/
def State.hartLines (s : State) (h : Nat) (kind : AccKind) (l : List (BitVec 64)) : State × HRes (List Nat) :=
  State.hartEach (fun s va => s.hartPlace h va 128 kind 6 storeFaults badAtomic) s l
/-- A line is stored at its home, its copies taken back. -/
def State.hartHomePut (s : State) (h key : Nat) (bs : List Byte) : State :=
  let r := s.homeWrite key bs (s.hart h).pts noGroup
  r.1.updHart h fun x => { x with pts := max x.pts r.2 }
/-- Every line may be reached and read, or written (`w`), at its home now: a copy in E or M is fetched, or every copy recalled, first
    (04 R103). -/
def State.hartSteady (s : State) (h : Nat) (f : Faults) (l : List Nat) (w : Bool) : State × HRes Unit :=
  hartBind (State.hartEach (fun s k =>
    let line := lineOf k
    hartBind (s.hartReady h line f 0) fun s _ =>
      let d := (s.home line).dir
      if !d.stable || (w && s.ckptHolds k) then (s, .wait)
      else if w && d.st != .i then (s.startRecall line, .wait)
      else if d.st == .em then (s.startForward line none, .wait)
      else (s, .ok ())) s l) fun s _ => (s, .ok ())
def State.hartLink (s : State) (h : Nat) (l : Option Link) : State := s.updHart h fun x => { x with link := l }
/-- x.linkq (06 R147, R148, R152). -/
def execXLinkq (o : XLinkqOp) (s : State) : Out :=
  onHart s fun h x =>
    let mask := (x.reg o.rs2.toNat).toNat
    State.hartEnd (s.hartDesc h (x.reg o.rs1.toNat)) h fun s d =>
      if descBad d mask then (s.hartLink h none).setX h o.rd.toNat 3
      else
        let sl := slotsIn mask
        State.hartEnd (hartBind (s.hartLines h .read (sl.map (lineVa d))) fun s ks =>
            hartBind (s.hartLines h .write (sl.map (bufVa d))) fun s bs =>
              hartBind (s.hartSteady h storeFaults ks false) fun s _ =>
                hartBind (s.hartSteady h storeFaults bs true) fun s _ =>
                  hartBind (State.hartEach (fun s k => s.hartTake h k 128 []) s ks) fun s _ => (s, .ok (ks, bs))) h fun s r =>
          let q := s.linkStep (sl.zip (r.1.map lineOf))
          let s := (q.2.zip r.2).foldl (fun (s : State) e =>
            s.hartHomePut h e.2 (if s.poisoned (e.1.2.1 * 128) 128 then toBytes 128 (s.free 1024 8).toNat else e.1.2.2.2)) q.1
          (s.hartLink h (some (linkOf d mask q.2))).setX h o.rd.toNat 0
/-- x.condq (06 R147, R148, R152). -/
def execXCondq (o : XCondqOp) (s : State) : Out :=
  onHart s fun h x =>
    let mask := (x.reg o.rs2.toNat).toNat
    if o.rl && s.strmAny h then s.halt else
    State.hartEnd (s.hartDesc h (x.reg o.rs1.toNat)) h fun s d =>
      let sl := slotsIn mask
      let done := fun (s : State) (v : Nat) => (s.hartLink h none).setX h o.rd.toNat (BitVec.ofNat 64 v)
      if descBad d mask then done s 3
      else if noLink x.link d mask then done s 2
      else
        let lk := x.link.getD { region := 0, mask := 0, lines := [] }
        let linked := lk.lines.map fun e => e.2.1 * 128
        State.hartEnd (hartBind (s.hartLines h .write (sl.map (lineVa d))) fun s ks =>
            hartBind (s.hartLines h .read (sl.map (bufVa d))) fun s bs =>
              hartBind (s.hartSteady h storeFaults (ks ++ linked) true) fun s _ =>
                hartBind (State.hartEach (fun s k => s.hartAtHome h k 128 storeFaults 0) s bs) fun s data =>
                  (s, .ok ((ks.map lineOf).zip data))) h fun s ws =>
          if !s.linkHolds lk then done s 1
          else
            let r := s.condStep ws (s.hart h).pts noGroup
            done (r.1.updHart h fun x => { x with pts := max x.pts r.2 }) 0

/-- The scope that x.bopen's code names: die, device, peer or system (11 R254). -/
def scopeOf (n : Nat) : Option Scope :=
  match n with
  | 2 => some .die
  | 3 => some .dev
  | 4 => some .peer
  | 5 => some .sys
  | _ => none
/-- x.bopen (11 R250, R254). -/
def execXBopen (o : XBopenOp) (s : State) : Out :=
  onHart s fun h x =>
    let va := x.reg o.rs1.toNat
    let bad := BitVec.ofNat 64 (bBadRec * 2 ^ 16)
    match scopeOf (x.reg o.rs2.toNat).toNat with
    | none => s.setX h o.rd.toNat bad
    | some sc =>
      State.hartEnd (s.hartPlace h va 512 .read 6 storeFaults fun _ => false) h fun s k =>
        if keyMod k ≠ Config.selfModule ∨ (keyTier k ≠ 0 ∧ keyTier k ≠ 1) then s.setX h o.rd.toNat bad
        else State.hartEnd (State.hartEach (fun s i => s.hartAtHome h (k + 128 * i) 128 storeFaults va) s (List.range 4)) h fun s bs =>
          let r := s.openBundle x.asid (h / 12) (s.hart h).pts sc k (ofBytes bs.flatten)
          r.1.setX h o.rd.toNat (BitVec.ofNat 64 r.2)
/-- x.bcommit (11 R243, R251, R254): the hart stalls until its register is written. -/
def execXBcommit (o : XBcommitOp) (s : State) : Out :=
  onHart s fun h x =>
    let hd := (x.reg o.rs1.toNat).setWidth 16
    if s.strmAny h then s.halt
    else (s.updHart h fun x => { x with wait := .bcommit o.rd hd }).commitBundle x.asid hd x.pts (.hart h)
/-- x.strm (06 R152): the store is sent to its home, in order within its stream. -/
def execXStrm (o : XStrmOp) (s : State) : Out :=
  onHart s fun h x =>
    let va := x.reg o.rs1.toNat
    let bs := toBytes 8 (x.reg o.rs2.toNat).toNat
    State.hartEnd (s.hartPlace h va 8 .write 6 storeFaults fun _ => false) h fun s k =>
      if keyTier k = 6 ∧ s.reqs.any (fun e => e.2.core == strmCore h o.stream.toNat) = true then s.halt
      else if keyTier k = 6 then State.hartEnd (s.hartPut h k bs storeFaults va) h fun s _ => s
      else (s.postReq { core := strmCore h o.stream.toNat, line := lineOf k, kind := .write (k % 128) bs, pts := x.pts, who := .hart h }).1

end Sys2Proof.Machine
end

