-- ==== Sys2Proof/Machine/Pieces.lean ====
section
/-! DEFINITION. The pieces of copy requests (07 R161, R165; 11 R255; 15 R391). -/

namespace Sys2Proof.Machine

/-- A piece's bytes in runs within one line: address, first byte, length. -/
def runsIn : Nat → Nat → Nat → Nat → List (Nat × Nat × Nat)
  | 0, _, _, _ => []
  | fuel + 1, va, i, n =>
    if n = 0 then []
    else
      let m := min n (128 - va % 128)
      (va, i, m) :: runsIn fuel (va + m) (i + m) (n - m)
/-- Where a run of a piece lies. -/
def State.copyPlace (s : State) (t : Team) (va : Addr) (n : Nat) (kind : AccKind) : State × Place :=
  if inWindow va n then
    (s, if scratchBase ≤ va.toNat ∧ va.toNat - scratchBase + n ≤ t.kern.hdr.scratch then .scratch (va.toNat - scratchBase) else .outside)
  else match s.engineXlate (dieOfCluster t.cluster) t.asid va n kind false t.near with
    | (s, .error f) => (s, .fault f)
    | (s, .ok key) => (s, .at { key := key, spec := false })
/-- Scratchpad bytes of a piece stored one by one. -/
def State.putOffs (s : State) (team : Nat) (l : List (Nat × Byte)) : State := l.foldl (fun s e => s.setScr team e.1 [e.2]) s
/-- The bytes of a run as the engine reads them: value and whether one is poisoned; none: it waits. A register of tier 6 is read by an access of a
    size that R391 admits; it states no answer for another, whose bytes are free (log 30). -/
def State.copyBytes (s : State) (team : Nat) (t : Team) (p : Place) (n : Nat) : Option (State × List Byte × Bool) :=
  match p with
  | .scratch off => if s.scrPinned team off n then some (s, s.scrBytes team off n, s.scrPoisoned team off n) else none
  | .at h =>
    if keyTier h.key = 6 then some (match s.mmioRead (keyPa h.key) n with
      | some (s, x) => (s, toBytes n x, false)
      | none => (s, (List.range n).map fun i => s.free 8 (262144 + i), false))
    else (s.teamRead team (dieOfCluster t.cluster) h.key n).map fun r => (r.1, r.2, r.1.poisoned h.key n)
  | _ => some (s, [], false)
/-- A LOAD's piece. -/
def State.loadPiece (s : State) (team : Nat) (t : Team) (p : Piece) : State × PieceEnd :=
  let n := p.offs.length
  if !(p.offs ++ p.fills).all (fun e => s.scrPinned team e.1 1) then (s, .waits)
  else
    (runsIn (n + 1) p.va.toNat 0 n).foldl (fun (a : State × PieceEnd) r =>
      match a.2 with
      | .moved | .poison =>
        match a.1.copyPlace t (BitVec.ofNat 64 r.1) r.2.2 .read with
        | (s, .fault f) => (s, .fault f (BitVec.ofNat 64 r.1))
        | (s, .outside) => (s, .unmoved)
        | (s, pl) =>
          match s.copyBytes team t pl r.2.2 with
          | none => (s, .waits)
          | some (s, bs, bad) =>
            let l := (enum 0 bs).filterMap fun (e : Nat × Byte) => (p.offs[r.2.1 + e.1]?).map fun o => (o.1, e.2 &&& o.2)
            let s := s.putOffs team l
            (if bad then l.foldl (fun s e => s.markScr team e.1 1) s else s, if bad then .poison else a.2)
      | e => (a.1, e)) (s.putOffs team p.fills, .moved)
/-- Bytes under nibble masks, over what stands there. -/
def maskBytes : List Byte → List Byte → List Byte → List Byte
  | o :: os, b :: bs, m :: ms => ((o &&& ~~~m) ||| (b &&& m)) :: maskBytes os bs ms
  | _, _, _ => []
/-- A run of a STORE's piece at its home: an ordinary write, or a pending version (R161, R165; 11 R255). -/
def State.storeRun (s : State) (team : Nat) (t : Team) (f : ReqF) (va : Addr) (pl : Place) (bs ms : List Byte) (bad : Bool) (behind : Option (BitVec 16 × Bool)) :
    State × PieceEnd :=
  match pl with
  | .scratch off =>
    if f.bnd then (s, .badTarget)
    else if !s.scrPinned team off bs.length then (s, .waits)
    else
      let s := s.setScr team off (maskBytes (s.scrBytes team off bs.length) bs ms)
      (if bad then s.markScr team off bs.length else s, if bad then .poison else .moved)
  | .at h =>
    if f.bnd && (keyTier h.key == 2 || keyTier h.key == 5 || keyTier h.key == 6) then (s, .badTarget)
    else if f.bnd && (!s.reachable (keyMod h.key) || s.ckptHolds h.key) then (s, .waits)
    else if f.bnd then
      let line := lineOf h.key
      let mine := ((s.home line).pend.find? fun p => p.names Config.selfModule f.bndh).map (·.bytes)
      let old := (List.range bs.length).map fun i =>
        ((mine.getD []).get? (h.key % 128 + i)).getD (((s.current line)[h.key % 128 + i]?).getD 0)
      match s.bundledStore t.asid f.bndh line (h.key % 128) (maskBytes old bs ms) va bad behind with
      | (s, .pending) => (s, if bad then .poison else .moved)
      | (s, .waits w) => (s, .behind w)
      | (s, _) => (s, .aborted)
    else if keyTier h.key = 6 then ((s.mmioWrite (keyPa h.key) bs.length (ofBytes bs)).getD s, .moved)
    else if keyMod h.key = Config.selfModule ∧ !uncached h.key ∧ !(s.home (lineOf h.key)).dir.stable then (s, .waits)
    else
      let s := s.deviceWrite h.key (maskBytes (s.deviceRead h.key bs.length) bs ms)
      (if bad then s.markPoison h.key bs.length else s, if bad then .poison else .moved)
  | .outside => (s, if f.bnd then .badTarget else .unmoved)
  | _ => (s, .unmoved)
def State.storePiece (s : State) (team : Nat) (t : Team) (f : ReqF) (p : Piece) : State × PieceEnd :=
  let n := p.offs.length
  if !p.offs.all (fun e => s.scrPinned team e.1 1) then (s, .waits)
  else
    (runsIn (n + 1) p.va.toNat 0 n).foldl (fun (a : State × PieceEnd) r =>
      match a.2 with
      | .moved | .poison =>
        let os := slice p.offs r.2.1 r.2.2
        let bs := os.map fun o => a.1.scrByte team o.1
        let bad := os.any fun o => a.1.scrPoisoned team o.1 1
        match a.1.copyPlace t (BitVec.ofNat 64 r.1) r.2.2 .write with
        | (s, .fault k) => (s, .fault k (BitVec.ofNat 64 r.1))
        | (s, pl) =>
          match s.storeRun team t f (BitVec.ofNat 64 r.1) pl bs (os.map (·.2)) bad p.behind with
          | (s, .moved) => (s, a.2)
          | r => r
      | e => (a.1, e)) (s, .moved)
/-- The scratchpad pages of a piece are asked for. -/
def State.askPiece (s : State) (t : Nat) (p : Piece) : State :=
  let s := (p.offs ++ p.fills).foldl (fun s e => s.askPage t e.1 1) s
  if inWindow p.va p.offs.length then s.askPage t (p.va.toNat - scratchBase) p.offs.length else s
/-- PIECE_ARRIVE: a piece of a started request is written and counted. -/
def execPieceArrive (req piece : Nat) (s : State) : Out :=
  .next (match s.copies.get? req with
    | none => s
    | some r =>
      match r.pieces[piece]?, s.team? r.team with
      | some p, some t =>
        let f := parseReq r.raw.toNat
        if p.done || p.waiting then s
        else if !s.objPinned r.team f then s.askObj r.team f
        else
          let e := if r.load then s.loadPiece r.team t p
            else if r.aborted && f.bnd then (s, .aborted) else s.storePiece r.team t f p
          match e with
          | (_, .waits) => s.askPiece r.team p
          | (_, .behind w) =>
            let s := if w.2 && ((s.bundleOf w.1).map (·.takes)).getD false then s.wound (handleSlot w.1) else s
            { s with copies := s.copies.put req { r with pieces := listSet r.pieces piece { p with behind := some w } } }
          | (s, .fault k va) =>
            (match s.raiseRec (dieOfCluster r.cluster) (codeRequest r.cluster) (.piece req piece) (k, va) t.asid (s.reportGroup r.team r.group) with
             | some s => { s with copies := s.copies.put req { r with pieces := listSet r.pieces piece { p with waiting := true } } }
             | none => s)
          | (s, e) => s.countPiece req piece r p e
      | _, _ => s)

end Sys2Proof.Machine
end

