-- ==== Sys2Proof/Machine/VecInt.lean ====
section
/-! DEFINITION. The vector integer forms (08 R182 to R190). -/

namespace Sys2Proof.Machine

/-- A two-source form lane by lane (08 R182). -/
def intBin (f : (w : Nat) → BitVec w → BitVec w → BitVec w) (ik : ImmKind) (o : IntBin) (s : State) : Out :=
  vecForm o.g o.b64 o.d s fun g l => at2 f o.b64 (s.src g ik o.b64 l o.a) (s.src g ik o.b64 l o.b)
/-- A two-source form whose B is a single register (08 R182). -/
def intBinSingle (f : (w : Nat) → BitVec w → BitVec w → BitVec w) (o : IntBin) (s : State) : Out :=
  vecForm o.g o.b64 o.d s fun g l => at2 f o.b64 (s.src g .zero o.b64 l o.a) (s.src g .zero false l o.b)
/-- A one-source form. -/
def intUn (f : (w : Nat) → BitVec w → BitVec w) (o : IntUn) (s : State) : Out :=
  vecForm o.g o.b64 o.d s fun g l => at1 f o.b64 (s.src g .sign o.b64 l o.a)
def arithForm (f : Arith) (o : IntBin) (s : State) : Out :=
  intBin (fun w a b => arith f o.sat o.uns w a b 0) .sign o s

def execIadd (o : IntBin) (s : State) : Out := arithForm .add o s
def execIsub (o : IntBin) (s : State) : Out := arithForm .sub o s
def execImul (o : IntBin) (s : State) : Out := arithForm .mul o s
def execImad (o : IntTer) (s : State) : Out :=
  vecForm o.g o.b64 o.d s fun g l =>
    at3 (arith .mad o.sat o.uns) o.b64 (s.src g .sign o.b64 l o.a) (s.src g .sign o.b64 l o.b) (s.src g .sign o.b64 l o.c)
def execImulhi (o : IntBin) (s : State) : Out := intBin (mulHi o.uns) .sign o s
def execImin (o : IntBin) (s : State) : Out := intBin (intMin o.uns) .sign o s
def execImax (o : IntBin) (s : State) : Out := intBin (intMax o.uns) .sign o s
def execLop3 (o : Lop3V) (s : State) : Out :=
  vecForm o.g o.b64 o.d s fun g l =>
    at3 (lop3 o.lut) o.b64 (s.src g .zero o.b64 l o.a) (s.src g .zero o.b64 l o.b) (s.src g .zero o.b64 l o.c)
def execShl (o : IntBin) (s : State) : Out := intBinSingle (shift .shl) o s
def execShr (o : IntBin) (s : State) : Out := intBinSingle (shift .shr) o s
def execSar (o : IntBin) (s : State) : Out := intBinSingle (shift .sar) o s
/-- Funnel shifts are .b32 only. -/
def funnelForm (left : Bool) (o : IntTer) (s : State) : Out :=
  vecForm o.g false o.d s fun g l =>
    (funnel left (s.src32 g .sign l o.a) (s.src32 g .sign l o.b) (s.src32 g .sign l o.c)).setWidth 64
def execFshl (o : IntTer) (s : State) : Out := funnelForm true o s
def execFshr (o : IntTer) (s : State) : Out := funnelForm false o s
def execPopc (o : IntUn) (s : State) : Out := intUn popCount o s
def execClz (o : IntUn) (s : State) : Out := intUn leadZeros o s
def execBrev (o : IntUn) (s : State) : Out := intUn bitRev o s
def execBfx (o : IntBin) (s : State) : Out := intBinSingle (bitExtract o.uns) o s
def execBfi (o : IntTer) (s : State) : Out :=
  vecForm o.g o.b64 o.d s fun g l =>
    at3 bitInsert o.b64 (s.src g .sign o.b64 l o.a) (s.src g .sign false l o.b) (s.src g .sign o.b64 l o.c)
def execIsetp (o : IsetpV) (s : State) : Out :=
  predForm o.g o.d s fun g l =>
    combine o.bop (atCmp (intCompare o.uns o.cmp) o.b64 (s.src g .sign o.b64 l o.a) (s.src g .sign o.b64 l o.b))
      (s.predAt g o.pc o.pcn l)
def execSel (o : SelV) (s : State) : Out :=
  vecForm o.g o.b64 o.d s fun g l =>
    if s.predAt g o.pc o.pcn l then s.src g .sign o.b64 l o.a else s.src g .sign o.b64 l o.b
def execMov (o : IntUn) (s : State) : Out := intUn (fun _ a => a) o s
/-- MOV vD, #imm32 (08 R188). -/
def execMovImm32 (o : MovImmV) (s : State) : Out := vecForm o.g false o.d s fun _ _ => o.imm.setWidth 64
/-- MOV.b64 vD, #imm32 sign-extends (08 R188). -/
def execMovImm32B64 (o : MovImmV) (s : State) : Out := vecForm o.g true o.d s fun _ _ => o.imm.signExtend 64
/-- b' of LEA: the immediate, or b zero- or sign-extended from 32 bits (08 R189). -/
def leaIndex (isImm sx b64 : Bool) (b : BitVec 64) : BitVec 64 :=
  if isImm || !b64 then b else if sx then (b.setWidth 32).signExtend 64 else (b.setWidth 32).setWidth 64
def execLea (o : LeaV) (s : State) : Out :=
  vecForm o.g o.b64 o.d s fun g l =>
    at2 (leaSum o.sh.toNat) o.b64 (s.src g .sign o.b64 l o.a) (leaIndex o.b.isImm o.sx o.b64 (s.src g .sign false l o.b))
/-- S2V runs once per split: one lane receives the scalar, or each active lane its bit (08 R190). -/
def execS2v (o : S2vOp) (s : State) : Out :=
  onIssuer s fun k g x =>
    let act := s.active g x o.g
    match o.sel with
    | .lane l =>
      s.setGroup k (g.writeD o.b64 o.d (act &&& maskOf [l.toNat % g.width]) fun _ => s.readS g o.a.toNat)
    | .all => s.setGroup k (g.writeD false o.d act fun l => BitVec.ofNat 64 (b2n ((s.readS g o.a.toNat).getLsbD l)))
/-- V2S: the named lane's register, active or not, or the lowest active lane's (08 R190). -/
def execV2s (o : V2sOp) (s : State) : Out :=
  scalarForm o.g o.d s fun g act =>
    let l := match o.sel with
      | .lane l => l.toNat % g.width
      | .all => lowest act
    if o.b64 then s.readV64 g o.a.toNat l else (s.readV g o.a.toNat l).setWidth 64

/-! ### The scalar forms (08 R181, R182) -/

def sIntBin (f : (w : Nat) → BitVec w → BitVec w → BitVec w) (ik : ImmKind) (o : SIntBin) (s : State) : Out :=
  scalarForm o.g o.d s fun g _ => at2 f o.b64 (s.ssrc g ik o.b64 o.a) (s.ssrc g ik o.b64 o.b)
def sArith (f : Arith) (o : SIntBin) (s : State) : Out := sIntBin (fun w a b => arith f o.sat o.uns w a b 0) .sign o s

def execIaddScalar (o : SIntBin) (s : State) : Out := sArith .add o s
def execIsubScalar (o : SIntBin) (s : State) : Out := sArith .sub o s
def execImulScalar (o : SIntBin) (s : State) : Out := sArith .mul o s
def execImadScalar (o : SIntTer) (s : State) : Out :=
  scalarForm o.g o.d s fun g _ =>
    at3 (arith .mad o.sat o.uns) o.b64 (s.ssrc g .sign o.b64 o.a) (s.ssrc g .sign o.b64 o.b) (s.ssrc g .sign o.b64 o.c)
def execImulhiScalar (o : SIntBin) (s : State) : Out := sIntBin (mulHi o.uns) .sign o s
def execIminScalar (o : SIntBin) (s : State) : Out := sIntBin (intMin o.uns) .sign o s
def execImaxScalar (o : SIntBin) (s : State) : Out := sIntBin (intMax o.uns) .sign o s
def execLop3Scalar (o : Lop3S) (s : State) : Out :=
  scalarForm o.g o.d s fun g _ =>
    at3 (lop3 o.lut) o.b64 (s.ssrc g .zero o.b64 o.a) (s.ssrc g .zero o.b64 o.b) (s.ssrc g .zero o.b64 o.c)
def execShlScalar (o : SIntBin) (s : State) : Out := sIntBin (shift .shl) .zero o s
def execShrScalar (o : SIntBin) (s : State) : Out := sIntBin (shift .shr) .zero o s
def execSarScalar (o : SIntBin) (s : State) : Out := sIntBin (shift .sar) .zero o s
/-- The scalar ISETP compares once and writes P[D][l] in every active lane (08 R187). -/
def execIsetpScalar (o : IsetpS) (s : State) : Out :=
  predForm o.g o.d s fun g l =>
    combine o.bop (atCmp (intCompare o.uns o.cmp) o.b64 (s.ssrc g .sign o.b64 o.a) (s.ssrc g .sign o.b64 o.b))
      (s.predAt g o.pc o.pcn l)
/-- The scalar SEL reads its predicate in the lowest active lane (08 R187). -/
def execSelScalar (o : SelS) (s : State) : Out :=
  scalarForm o.g o.d s fun g act =>
    at1 (fun _ a => a) o.b64
      (if s.predAt g o.pc o.pcn (lowest act) then s.ssrc g .sign o.b64 o.a else s.ssrc g .sign o.b64 o.b)
def execMovScalar (o : SIntUn) (s : State) : Out :=
  scalarForm o.g o.d s fun g _ => at1 (fun _ a => a) o.b64 (s.ssrc g .sign o.b64 o.a)
/-- MOV sD, #imm32 zero-extends, MOV.b64 sign-extends, MOV.hi replaces the upper half (08 R188). -/
def execMovImm32Scalar (o : MovImmS) (s : State) : Out := scalarForm o.g o.d s fun _ _ => o.imm.setWidth 64
def execMovImm32B64Scalar (o : MovImmS) (s : State) : Out := scalarForm o.g o.d s fun _ _ => o.imm.signExtend 64
def execMovHiScalar (o : MovImmS) (s : State) : Out :=
  scalarForm o.g o.d s fun g _ => o.imm ++ (s.readS g o.d.toNat).setWidth 32
def execLeaScalar (o : LeaS) (s : State) : Out :=
  scalarForm o.g o.d s fun g _ =>
    at2 (leaSum o.sh.toNat) o.b64 (s.ssrc g .sign o.b64 o.a)
      (leaIndex o.b.isImm o.sx o.b64 (s.ssrc g .sign (o.b64 && !o.b.isImm) o.b))

/-! ### The compact integer operations of a pair word (02 R50) -/

def compactInt (f : (w : Nat) → BitVec w → BitVec w → BitVec w) (o : Compact) (s : State) : Out :=
  intBin f .sign { g := compactGuard o.gn o.gp, b64 := false, sat := false, uns := false, d := o.d.setWidth 8,
                   a := .v (o.a.setWidth 8), b := compactB o.b } s
def compactArith (f : Arith) (o : Compact) (s : State) : Out := compactInt (fun w a b => arith f false false w a b 0) o s

def execIaddCompact (o : Compact) (s : State) : Out := compactArith .add o s
def execIsubCompact (o : Compact) (s : State) : Out := compactArith .sub o s
def execIminCompact (o : Compact) (s : State) : Out := compactInt (intMin false) o s
def execImaxCompact (o : Compact) (s : State) : Out := compactInt (intMax false) o s
def execShlCompact (o : Compact) (s : State) : Out := compactInt (shift .shl) o s
def execShrCompact (o : Compact) (s : State) : Out := compactInt (shift .shr) o s
def execSarCompact (o : Compact) (s : State) : Out := compactInt (shift .sar) o s
def execImulCompact (o : Compact) (s : State) : Out := compactArith .mul o s
def execMovCompact (o : CompactMov) (s : State) : Out :=
  vecForm (compactGuard o.gn o.gp) false (o.d.setWidth 8) s fun g l => (s.readV g (o.a.setWidth 8 : BitVec 8).toNat l).setWidth 64
/-- The filler has no effect (02 R49). -/
def execFiller (s : State) : Out := .next s

end Sys2Proof.Machine
end

