-- ==== Sys2Proof/Machine/Dispatch.lean ====
section
/-! DEFINITION. What each instruction and event does: one arm per constructor of `Instr`, each a direct call of its meaning. -/

namespace Sys2Proof.Machine

open Sys2Proof

def exec (i : Instr) (s : State) : Host.Outcome State Fault Refusal :=
  match i with
  -- clauses and control
  | .clauseStart k lane => Sys2Proof.Machine.execClauseStart k lane s
  | .instructionComplete k gio => Sys2Proof.Machine.execInstructionComplete k gio s
  | .bra o => Sys2Proof.Machine.execBra o s
  | .brx o => Sys2Proof.Machine.execBrx o s
  | .call o => Sys2Proof.Machine.execCall o s
  | .ret o => Sys2Proof.Machine.execRet o s
  | .exit o => Sys2Proof.Machine.execExit o s
  | .setmode o => Sys2Proof.Machine.execSetmode o s
  | .partset tw => Sys2Proof.Machine.execPartset tw s
  | .reggrow n => Sys2Proof.Machine.execReggrow n s
  | .regshrink n => Sys2Proof.Machine.execRegshrink n s
  | .barArrive o => Sys2Proof.Machine.execBarArrive o s
  | .barWait n => Sys2Proof.Machine.execBarWait n s
  | .barSync o => Sys2Proof.Machine.execBarSync o s
  | .gset o => Sys2Proof.Machine.execGset o s
  | .gclr o => Sys2Proof.Machine.execGclr o s
  | .guardedCommandRelease q => Sys2Proof.Machine.execGuardedCommandRelease q s
  | .trap o => Sys2Proof.Machine.execTrap o s
  | .upcall o => Sys2Proof.Machine.execUpcall o s
  | .bkpt o => Sys2Proof.Machine.execBkpt o s
  | .clock o => Sys2Proof.Machine.execClock o s
  | .clockPts o => Sys2Proof.Machine.execClockPts o s
  | .pmc o => Sys2Proof.Machine.execPmc o s
  | .gstat o => Sys2Proof.Machine.execGstat o s
  -- vector integer
  | .iadd o => Sys2Proof.Machine.execIadd o s
  | .isub o => Sys2Proof.Machine.execIsub o s
  | .imul o => Sys2Proof.Machine.execImul o s
  | .imad o => Sys2Proof.Machine.execImad o s
  | .imulhi o => Sys2Proof.Machine.execImulhi o s
  | .imin o => Sys2Proof.Machine.execImin o s
  | .imax o => Sys2Proof.Machine.execImax o s
  | .lop3 o => Sys2Proof.Machine.execLop3 o s
  | .shl o => Sys2Proof.Machine.execShl o s
  | .shr o => Sys2Proof.Machine.execShr o s
  | .sar o => Sys2Proof.Machine.execSar o s
  | .fshl o => Sys2Proof.Machine.execFshl o s
  | .fshr o => Sys2Proof.Machine.execFshr o s
  | .popc o => Sys2Proof.Machine.execPopc o s
  | .clz o => Sys2Proof.Machine.execClz o s
  | .brev o => Sys2Proof.Machine.execBrev o s
  | .bfx o => Sys2Proof.Machine.execBfx o s
  | .bfi o => Sys2Proof.Machine.execBfi o s
  | .isetp o => Sys2Proof.Machine.execIsetp o s
  | .sel o => Sys2Proof.Machine.execSel o s
  | .mov o => Sys2Proof.Machine.execMov o s
  | .movImm32 o => Sys2Proof.Machine.execMovImm32 o s
  | .movImm32B64 o => Sys2Proof.Machine.execMovImm32B64 o s
  | .lea o => Sys2Proof.Machine.execLea o s
  | .s2v o => Sys2Proof.Machine.execS2v o s
  | .v2s o => Sys2Proof.Machine.execV2s o s
  -- scalar integer
  | .iaddScalar o => Sys2Proof.Machine.execIaddScalar o s
  | .isubScalar o => Sys2Proof.Machine.execIsubScalar o s
  | .imulScalar o => Sys2Proof.Machine.execImulScalar o s
  | .imadScalar o => Sys2Proof.Machine.execImadScalar o s
  | .imulhiScalar o => Sys2Proof.Machine.execImulhiScalar o s
  | .iminScalar o => Sys2Proof.Machine.execIminScalar o s
  | .imaxScalar o => Sys2Proof.Machine.execImaxScalar o s
  | .lop3Scalar o => Sys2Proof.Machine.execLop3Scalar o s
  | .shlScalar o => Sys2Proof.Machine.execShlScalar o s
  | .shrScalar o => Sys2Proof.Machine.execShrScalar o s
  | .sarScalar o => Sys2Proof.Machine.execSarScalar o s
  | .isetpScalar o => Sys2Proof.Machine.execIsetpScalar o s
  | .selScalar o => Sys2Proof.Machine.execSelScalar o s
  | .movScalar o => Sys2Proof.Machine.execMovScalar o s
  | .movImm32Scalar o => Sys2Proof.Machine.execMovImm32Scalar o s
  | .movImm32B64Scalar o => Sys2Proof.Machine.execMovImm32B64Scalar o s
  | .movHiScalar o => Sys2Proof.Machine.execMovHiScalar o s
  | .leaScalar o => Sys2Proof.Machine.execLeaScalar o s
  -- floating point, tables, conversion, cross-lane
  | .fadd o => Sys2Proof.Machine.execFadd o s
  | .fmul o => Sys2Proof.Machine.execFmul o s
  | .ffma o => Sys2Proof.Machine.execFfma o s
  | .fmin o => Sys2Proof.Machine.execFmin o s
  | .fmax o => Sys2Proof.Machine.execFmax o s
  | .fsetp o => Sys2Proof.Machine.execFsetp o s
  | .hfma2 o => Sys2Proof.Machine.execHfma2 o s
  | .hadd2 o => Sys2Proof.Machine.execHadd2 o s
  | .hmul2 o => Sys2Proof.Machine.execHmul2 o s
  | .frcp o => Sys2Proof.Machine.execFrcp o s
  | .frsq o => Sys2Proof.Machine.execFrsq o s
  | .fsqrt o => Sys2Proof.Machine.execFsqrt o s
  | .fexp2 o => Sys2Proof.Machine.execFexp2 o s
  | .flog2 o => Sys2Proof.Machine.execFlog2 o s
  | .fsin o => Sys2Proof.Machine.execFsin o s
  | .fcos o => Sys2Proof.Machine.execFcos o s
  | .ftanh o => Sys2Proof.Machine.execFtanh o s
  | .atab o => Sys2Proof.Machine.execAtab o s
  | .atload o => Sys2Proof.Machine.execAtload o s
  | .atloadCtl o => Sys2Proof.Machine.execAtloadCtl o s
  | .atswap o => Sys2Proof.Machine.execAtswap o s
  | .cvt o => Sys2Proof.Machine.execCvt o s
  | .cvtp2 o => Sys2Proof.Machine.execCvtp2 o s
  | .cvtp4 o => Sys2Proof.Machine.execCvtp4 o s
  | .cvtds o => Sys2Proof.Machine.execCvtds o s
  | .unpk o => Sys2Proof.Machine.execUnpk o s
  | .shfl o => Sys2Proof.Machine.execShfl o s
  | .vote o => Sys2Proof.Machine.execVote o s
  | .redux o => Sys2Proof.Machine.execRedux o s
  | .scan o => Sys2Proof.Machine.execScan o s
  | .matchLanes o => Sys2Proof.Machine.execMatchLanes o s
  -- compact halves of pair words
  | .faddCompact o => Sys2Proof.Machine.execFaddCompact o s
  | .fmulCompact o => Sys2Proof.Machine.execFmulCompact o s
  | .ffmaCompact o => Sys2Proof.Machine.execFfmaCompact o s
  | .fminCompact o => Sys2Proof.Machine.execFminCompact o s
  | .fmaxCompact o => Sys2Proof.Machine.execFmaxCompact o s
  | .iaddCompact o => Sys2Proof.Machine.execIaddCompact o s
  | .isubCompact o => Sys2Proof.Machine.execIsubCompact o s
  | .iminCompact o => Sys2Proof.Machine.execIminCompact o s
  | .imaxCompact o => Sys2Proof.Machine.execImaxCompact o s
  | .shlCompact o => Sys2Proof.Machine.execShlCompact o s
  | .shrCompact o => Sys2Proof.Machine.execShrCompact o s
  | .sarCompact o => Sys2Proof.Machine.execSarCompact o s
  | .movCompact o => Sys2Proof.Machine.execMovCompact o s
  | .imulCompact o => Sys2Proof.Machine.execImulCompact o s
  | .hadd2F16Compact o => Sys2Proof.Machine.execHadd2F16Compact o s
  | .hmul2F16Compact o => Sys2Proof.Machine.execHmul2F16Compact o s
  | .hfma2F16Compact o => Sys2Proof.Machine.execHfma2F16Compact o s
  | .hadd2Bf16Compact o => Sys2Proof.Machine.execHadd2Bf16Compact o s
  | .hmul2Bf16Compact o => Sys2Proof.Machine.execHmul2Bf16Compact o s
  | .hfma2Bf16Compact o => Sys2Proof.Machine.execHfma2Bf16Compact o s
  -- memory
  | .ld o => Sys2Proof.Machine.execLd o s
  | .st o => Sys2Proof.Machine.execSt o s
  | .stBnd o => Sys2Proof.Machine.execStBnd o s
  | .ldnt o => Sys2Proof.Machine.execLdnt o s
  | .pref o => Sys2Proof.Machine.execPref o s
  | .atomAdd o => Sys2Proof.Machine.execAtomAdd o s
  | .atomMin o => Sys2Proof.Machine.execAtomMin o s
  | .atomMax o => Sys2Proof.Machine.execAtomMax o s
  | .atomAnd o => Sys2Proof.Machine.execAtomAnd o s
  | .atomOr o => Sys2Proof.Machine.execAtomOr o s
  | .atomXor o => Sys2Proof.Machine.execAtomXor o s
  | .atomExch o => Sys2Proof.Machine.execAtomExch o s
  | .atomInc o => Sys2Proof.Machine.execAtomInc o s
  | .atomDec o => Sys2Proof.Machine.execAtomDec o s
  | .atomFadd o => Sys2Proof.Machine.execAtomFadd o s
  | .atomFmin o => Sys2Proof.Machine.execAtomFmin o s
  | .atomFmax o => Sys2Proof.Machine.execAtomFmax o s
  | .atomCas o => Sys2Proof.Machine.execAtomCas o s
  | .fence o => Sys2Proof.Machine.execFence o s
  | .fenceLinkTimeout k gio => Sys2Proof.Machine.execFenceLinkTimeout k gio s
  | .fenceEng o => Sys2Proof.Machine.execFenceEng o s
  | .waitv o => Sys2Proof.Machine.execWaitv o s
  | .waitvTimeout die order => Sys2Proof.Machine.execWaitvTimeout die order s
  | .wake o => Sys2Proof.Machine.execWake o s
  | .linkq o => Sys2Proof.Machine.execLinkq o s
  | .condq o => Sys2Proof.Machine.execCondq o s
  | .alloc o => Sys2Proof.Machine.execAlloc o s
  | .free o => Sys2Proof.Machine.execFree o s
  | .accld o => Sys2Proof.Machine.execAccld o s
  -- copy engine
  | .kick o => Sys2Proof.Machine.execKick o s
  | .pieceArrive req piece => Sys2Proof.Machine.execPieceArrive req piece s
  | .bobjInit o => Sys2Proof.Machine.execBobjInit o s
  | .bobjExpect o => Sys2Proof.Machine.execBobjExpect o s
  | .bobjArrive o => Sys2Proof.Machine.execBobjArrive o s
  | .bobjWait o => Sys2Proof.Machine.execBobjWait o s
  | .tdset o => Sys2Proof.Machine.execTdset o s
  | .tdinv o => Sys2Proof.Machine.execTdinv o s
  -- bundles
  | .bopen o => Sys2Proof.Machine.execBopen o s
  | .bopenJoin o => Sys2Proof.Machine.execBopenJoin o s
  | .bcommit o => Sys2Proof.Machine.execBcommit o s
  | .babort o => Sys2Proof.Machine.execBabort o s
  | .bstat o => Sys2Proof.Machine.execBstat o s
  -- nodes and rays
  | .spawn o => Sys2Proof.Machine.execSpawn o s
  | .recld o => Sys2Proof.Machine.execRecld o s
  | .nodeid o => Sys2Proof.Machine.execNodeid o s
  | .qstat o => Sys2Proof.Machine.execQstat o s
  | .trace o => Sys2Proof.Machine.execTrace o s
  | .cont o => Sys2Proof.Machine.execCont o s
  | .contEnd o => Sys2Proof.Machine.execContEnd o s
  | .rayld o => Sys2Proof.Machine.execRayld o s
  | .geostat o => Sys2Proof.Machine.execGeostat o s
  -- matrix stream
  | .mld o => Sys2Proof.Machine.execMld o s
  | .mma o => Sys2Proof.Machine.execMma o s
  | .mmas o => Sys2Proof.Machine.execMmas o s
  | .mzero o => Sys2Proof.Machine.execMzero o s
  | .mst o => Sys2Proof.Machine.execMst o s
  | .marr o => Sys2Proof.Machine.execMarr o s
  | .mwait n => Sys2Proof.Machine.execMwait n s
  | .iaddQ o => Sys2Proof.Machine.execIaddQ o s
  | .isubQ o => Sys2Proof.Machine.execIsubQ o s
  | .movQ o => Sys2Proof.Machine.execMovQ o s
  | .movQImm32 o => Sys2Proof.Machine.execMovQImm32 o s
  | .movQHi o => Sys2Proof.Machine.execMovQHi o s
  | .shlQ o => Sys2Proof.Machine.execShlQ o s
  | .braQ o => Sys2Proof.Machine.execBraQ o s
  -- service-core extension
  | .xWaitv o => Sys2Proof.Machine.execXWaitv o s
  | .xWake o => Sys2Proof.Machine.execXWake o s
  | .xLinkq o => Sys2Proof.Machine.execXLinkq o s
  | .xCondq o => Sys2Proof.Machine.execXCondq o s
  | .xBopen o => Sys2Proof.Machine.execXBopen o s
  | .xBcommit o => Sys2Proof.Machine.execXBcommit o s
  | .xStrm o => Sys2Proof.Machine.execXStrm o s
  -- translation, homes, coherence
  | .scratchRefill team page => Sys2Proof.Machine.execScratchRefill team page s
  | .peerTimeAdvance t drain => Sys2Proof.Machine.execPeerTimeAdvance t drain s
  -- bundle machinery
  | .bundlePrepare slot home => Sys2Proof.Machine.execBundlePrepare slot home s
  | .bundleInstall slot home => Sys2Proof.Machine.execBundleInstall slot home s
  | .bundleDrop slot home => Sys2Proof.Machine.execBundleDrop slot home s
  -- launcher
  | .doorbellWrite n tail => Sys2Proof.Machine.execDoorbellWrite n tail s
  | .pendmapClear off n v => Sys2Proof.Machine.execPendmapClear off n v s
  | .qsEnable slot cfg => Sys2Proof.Machine.execQsEnable slot cfg s
  | .qsDisable slot cfg => Sys2Proof.Machine.execQsDisable slot cfg s
  -- pre-emption, faults, debug window
  | .preOut die v => Sys2Proof.Machine.execPreOut die v s
  | .preIn die v => Sys2Proof.Machine.execPreIn die v s
  | .mbReply die v => Sys2Proof.Machine.execMbReply die v s
  | .mbResolve die v => Sys2Proof.Machine.execMbResolve die v s
  | .mbDecline die v => Sys2Proof.Machine.execMbDecline die v s
  | .dwDataWrite die v => Sys2Proof.Machine.execDwDataWrite die v s
  | .evqBaseWrite die v => Sys2Proof.Machine.execEvqBaseWrite die v s
  | .evqTailwWrite die v => Sys2Proof.Machine.execEvqTailwWrite die v s
  | .evqHeadWrite die v => Sys2Proof.Machine.execEvqHeadWrite die v s
  | .fwsw die v => Sys2Proof.Machine.execFwsw die v s
  -- links and host
  | .nmArm v => Sys2Proof.Machine.execNmArm v s
  | .nmEntryWrite n word v => Sys2Proof.Machine.execNmEntryWrite n word v s
  | .networkPieceArrive p => Sys2Proof.Machine.execNetworkPieceArrive p s
  | .hostWrite w => Sys2Proof.Machine.execHostWrite w s
  | .hostRead fn off n => Sys2Proof.Machine.execHostRead fn off n s
  | .portStateChange port st reach => Sys2Proof.Machine.execPortStateChange port st reach s
  | .eccCorrected key => Sys2Proof.Machine.execEccCorrected key s
  | .eccUncorrectable t => Sys2Proof.Machine.execEccUncorrectable t s
  -- boot, attestation, checkpoint, power
  | .moduleReset b => Sys2Proof.Machine.execModuleReset b s
  | .negotiateAlgorithms ecdsaP384 sha384 => Sys2Proof.Machine.execNegotiateAlgorithms ecdsaP384 sha384 s
  | .getCertificate slot off len => Sys2Proof.Machine.execGetCertificate slot off len s
  | .challenge slot nonce => Sys2Proof.Machine.execChallenge slot nonce s
  | .getMeasurements index sign nonce => Sys2Proof.Machine.execGetMeasurements index sign nonce s
  | .ckptSave v => Sys2Proof.Machine.execCkptSave v s
  | .ckptRestore v => Sys2Proof.Machine.execCkptRestore v s
  | .powerCapThrottle on => Sys2Proof.Machine.execPowerCapThrottle on s
  | .registerWrite pa n v => Sys2Proof.Machine.execRegisterWrite pa n v s
  | .hartInstruction w => Sys2Proof.Machine.execHartInstruction w s
  | .interruptPending h cause => Sys2Proof.Machine.execInterruptPending h cause s
  -- clauses and control, no operand
  | .join => Sys2Proof.Machine.execJoin s
  | .yield => Sys2Proof.Machine.execYield s
  | .registerGrant => Sys2Proof.Machine.execRegisterGrant s
  | .trapSave => Sys2Proof.Machine.execTrapSave s
  | .trapResume => Sys2Proof.Machine.execTrapResume s
  -- floating point, tables, conversion, cross-lane, no operand
  | .atloadPerform => Sys2Proof.Machine.execAtloadPerform s
  | .atswapPerform => Sys2Proof.Machine.execAtswapPerform s
  -- compact halves of pair words, no operand
  | .filler => Sys2Proof.Machine.execFiller s
  -- memory, no operand
  | .freeExchangePush => Sys2Proof.Machine.execFreeExchangePush s
  -- copy engine, no operand
  | .requestFetch => Sys2Proof.Machine.execRequestFetch s
  | .requestStart => Sys2Proof.Machine.execRequestStart s
  -- nodes and rays, no operand
  | .contRequest => Sys2Proof.Machine.execContRequest s
  | .rayGranulesReserved => Sys2Proof.Machine.execRayGranulesReserved s
  | .geodePass => Sys2Proof.Machine.execGeodePass s
  -- matrix stream, no operand
  | .exitQ => Sys2Proof.Machine.execExitQ s
  -- translation, homes, coherence, no operand
  | .pageWalk => Sys2Proof.Machine.execPageWalk s
  | .homeReadLease => Sys2Proof.Machine.execHomeReadLease s
  | .homeWrite => Sys2Proof.Machine.execHomeWrite s
  | .l1FillReturn => Sys2Proof.Machine.execL1FillReturn s
  | .ptsTick => Sys2Proof.Machine.execPtsTick s
  | .gets => Sys2Proof.Machine.execGets s
  | .getm => Sys2Proof.Machine.execGetm s
  | .upgrade => Sys2Proof.Machine.execUpgrade s
  | .puts => Sys2Proof.Machine.execPuts s
  | .pute => Sys2Proof.Machine.execPute s
  | .putm => Sys2Proof.Machine.execPutm s
  | .puto => Sys2Proof.Machine.execPuto s
  | .inv => Sys2Proof.Machine.execInv s
  | .fwdgets => Sys2Proof.Machine.execFwdgets s
  | .fwdgetm => Sys2Proof.Machine.execFwdgetm s
  | .putack => Sys2Proof.Machine.execPutack s
  | .datas => Sys2Proof.Machine.execDatas s
  | .datae => Sys2Proof.Machine.execDatae s
  | .datam => Sys2Proof.Machine.execDatam s
  | .upgack => Sys2Proof.Machine.execUpgack s
  | .invack => Sys2Proof.Machine.execInvack s
  | .fwdack => Sys2Proof.Machine.execFwdack s
  | .bisnp => Sys2Proof.Machine.execBisnp s
  | .bisnpAnswer => Sys2Proof.Machine.execBisnpAnswer s
  | .xlatInvalidate => Sys2Proof.Machine.execXlatInvalidate s
  | .xlatInvalidateAll => Sys2Proof.Machine.execXlatInvalidateAll s
  | .xlatExtentDrop => Sys2Proof.Machine.execXlatExtentDrop s
  | .xlatDrain => Sys2Proof.Machine.execXlatDrain s
  | .xlatPeerAdvance => Sys2Proof.Machine.execXlatPeerAdvance s
  | .xlatCommandDone => Sys2Proof.Machine.execXlatCommandDone s
  | .xlatPeerTimeout => Sys2Proof.Machine.execXlatPeerTimeout s
  -- bundle machinery, no operand
  | .bundleStoreArrive => Sys2Proof.Machine.execBundleStoreArrive s
  | .bundleCommitPoint => Sys2Proof.Machine.execBundleCommitPoint s
  | .bundleDone => Sys2Proof.Machine.execBundleDone s
  | .bundleCompletionNotice => Sys2Proof.Machine.execBundleCompletionNotice s
  | .bundlePrepareTimeout => Sys2Proof.Machine.execBundlePrepareTimeout s
  | .bundleInstallTimeout => Sys2Proof.Machine.execBundleInstallTimeout s
  | .horizonQuery => Sys2Proof.Machine.execHorizonQuery s
  | .horizonQueryAnswer => Sys2Proof.Machine.execHorizonQueryAnswer s
  -- launcher, no operand
  | .recordArrive => Sys2Proof.Machine.execRecordArrive s
  | .binTimer => Sys2Proof.Machine.execBinTimer s
  | .teamStart => Sys2Proof.Machine.execTeamStart s
  | .groupRetire => Sys2Proof.Machine.execGroupRetire s
  | .commandFetch => Sys2Proof.Machine.execCommandFetch s
  | .nop => Sys2Proof.Machine.execNop s
  | .dispatch => Sys2Proof.Machine.execDispatch s
  | .record => Sys2Proof.Machine.execRecord s
  | .quiesce => Sys2Proof.Machine.execQuiesce s
  | .poolgrow => Sys2Proof.Machine.execPoolgrow s
  | .ctxdown => Sys2Proof.Machine.execCtxdown s
  -- pre-emption, faults, debug window, no operand
  | .groupParked => Sys2Proof.Machine.execGroupParked s
  | .parkBudgetExpire => Sys2Proof.Machine.execParkBudgetExpire s
  | .routineBudgetExpire => Sys2Proof.Machine.execRoutineBudgetExpire s
  | .splitRotation => Sys2Proof.Machine.execSplitRotation s
  | .dwResume => Sys2Proof.Machine.execDwResume s
  | .dwSkip => Sys2Proof.Machine.execDwSkip s
  | .dwKill => Sys2Proof.Machine.execDwKill s
  | .dwDataRead => Sys2Proof.Machine.execDwDataRead s
  -- links and host, no operand
  | .functionLevelReset => Sys2Proof.Machine.execFunctionLevelReset s
  | .tier5ReadTimeout => Sys2Proof.Machine.execTier5ReadTimeout s
  | .peerReadTimeout => Sys2Proof.Machine.execPeerReadTimeout s
  | .poolReadTimeout => Sys2Proof.Machine.execPoolReadTimeout s
  | .poolWriteCompletion => Sys2Proof.Machine.execPoolWriteCompletion s
  -- boot, attestation, checkpoint, power, no operand
  | .computeReset => Sys2Proof.Machine.execComputeReset s
  | .powerLoss => Sys2Proof.Machine.execPowerLoss s
  | .getVersion => Sys2Proof.Machine.execGetVersion s
  | .getCapabilities => Sys2Proof.Machine.execGetCapabilities s
  | .getDigests => Sys2Proof.Machine.execGetDigests s
  | .ckptDone => Sys2Proof.Machine.execCkptDone s
  | .powerShift => Sys2Proof.Machine.execPowerShift s
  | .matrixCommandPerformed => Sys2Proof.Machine.execMatrixCommandPerformed s

end Sys2Proof.Machine
end

