-- ==== Sys2Proof/Machine/Sched.lean ====
section
/-! DEFINITION. The default schedule (DESIGN CHOICE, log 2): what an empty list of turns stands for. The manual orders agents and events only
by its memory model and its rules; here the pending ones are listed and one of them is taken in rotation, or a cycle passes. -/

namespace Sys2Proof.Machine

/-- An event with the pending item it takes up. -/
def ev (i : Instr) (n : Nat) : Turn := .event i n
def keysOf {α : Type} (t : Tab α) : List Nat := t.map (·.1)
def msgInstr : MsgKind → Instr
  | .gets => .gets
  | .getm => .getm
  | .upgrade => .upgrade
  | .puts => .puts
  | .pute => .pute
  | .putm => .putm
  | .puto => .puto
  | .inv => .inv
  | .fwdgets => .fwdgets
  | .fwdgetm => .fwdgetm
  | .putack => .putack
  | .datas => .datas
  | .datae => .datae
  | .datam => .datam
  | .upgack => .upgack
  | .invack => .invack
  | .fwdack => .fwdack
/-- What a request to a home waits for next. -/
def reqTurns (e : Nat × HomeReq) : List Turn :=
  if e.2.answer.isSome then [ev .l1FillReturn e.1]
  else match e.2.kind with
    | .write _ _ | .rmw => [ev .homeWrite e.1, ev .peerReadTimeout e.1]
    | .bundled _ _ _ _ => [ev .bundleStoreArrive e.1]
    | _ => [ev .homeReadLease e.1, ev .peerReadTimeout e.1]
/-- Memory: messages, requests, walks, the exchange, the pool, and the translation command. -/
def State.memTurns (s : State) : List Turn :=
  (s.msgs.map fun e => ev (msgInstr e.2.kind) e.1) ++ (s.reqs.map reqTurns).flatten ++ (keysOf s.walks).map (ev .pageWalk)
    ++ (keysOf s.exchange).map (ev .freeExchangePush) ++ (keysOf s.links.poolOut).map (ev .poolWriteCompletion)
    ++ (keysOf s.links.bisnp).map (ev .bisnpAnswer)
    ++ (if s.xlat.status = 1 then [ev .xlatInvalidate 0, ev .xlatInvalidateAll 0, ev .xlatExtentDrop 0, ev .xlatDrain 0, ev .xlatPeerAdvance 0,
                                   ev .xlatPeerTimeout 0, ev .xlatCommandDone 0] else [])
    ++ (s.waits.filter fun w => w.cycles != 0 && decide (w.since + w.cycles ≤ s.cycle)).map fun w => ev (.waitvTimeout w.die w.order) 0
/-- A group's splits, its instructions in flight, its retirement and its parking. -/
def groupTurns (e : Nat × Group) : List Turn :=
  (e.2.splits.filter fun x => x.st == .ready).map (fun x => Turn.group e.1 (lowest x.mask))
    ++ e.2.ops.map (fun o => ev (.instructionComplete e.1 o.gio) 0)
    ++ (e.2.ops.filter fun o => match o.instr with
      | .fence _ => true
      | _ => false).map (fun o => ev (.fenceLinkTimeout e.1 o.gio) 0)
    ++ [ev .groupRetire e.1, ev .groupParked e.1, ev .splitRotation e.1, ev .registerGrant (coreOf e.1), ev .atloadPerform (coreOf e.1),
        ev .atswapPerform (coreOf e.1), ev .ptsTick (coreOf e.1)]
/-- A team's queues, guards and scratchpad. -/
def teamTurns (e : Nat × Team) : List Turn :=
  (e.2.queue.map fun q => ev .requestFetch (256 * e.1 + q.id)) ++ [ev .requestStart e.1, ev (.guardedCommandRelease (.copy e.1)) 0,
    ev (.guardedCommandRelease (.geode e.1)) 0, ev .groupRetire (teamHand + e.1)]
    ++ (e.2.asked.filter fun p => !e.2.pageWait.contains p).map fun p => ev (.scratchRefill e.1 p) 0
def seqTurns (e : Nat × Seq) : List Turn :=
  [.seq e.1, ev .matrixCommandPerformed e.1, ev (.guardedCommandRelease (.seq e.1)) 0]
def copyTurns (e : Nat × Req) : List Turn := (List.range e.2.pieces.length).map fun i => ev (.pieceArrive e.1 i) 0
/-- A bundle's steps at its homes and at its coordinator. -/
def bundleTurns (e : Nat × Bundle) : List Turn :=
  (e.2.homes.map fun h => [ev (.bundlePrepare e.1 h) 0, ev (.bundleInstall e.1 h) 0, ev (.bundleDrop e.1 h) 0]).flatten
    ++ match e.2.st with
      | .closing => [ev .bundleCommitPoint e.1, ev .bundlePrepareTimeout e.1]
      | .committed => [ev .bundleDone e.1, ev .bundleInstallTimeout e.1]
      | _ => []
def cmdTurn (e : Nat × Cmd) : Turn :=
  ev (match cmdOp e.2.raw.toNat with
    | 1 => .dispatch
    | 2 => .record
    | 3 => .quiesce
    | 4 => .poolgrow
    | 5 => .ctxdown
    | _ => .nop) e.1
/-- The launcher: rings, commands, records and bins, and the cores that could take a team. -/
def State.launchTurns (s : State) : List Turn :=
  ((s.slots.filter fun e => cfgEn e.2.cfg).map fun e => ev .commandFetch e.1) ++ s.cmds.map cmdTurn
    ++ (keysOf s.inflight).map (ev .recordArrive) ++ (keysOf s.bins).map (ev .binTimer)
    ++ if s.cmds.isEmpty && s.bins.isEmpty then [] else (List.range Config.cores).map (ev .teamStart)
def State.rayTurns (s : State) : List Turn :=
  (((s.rays.map fun e => e.2.cluster).dedup).map (ev .geodePass)) ++ (keysOf s.contReqs).map (ev .contRequest)
    ++ (keysOf s.rays).map (ev .rayGranulesReserved)
def State.dieTurns (s : State) : List Turn :=
  ((s.dies.filter fun e => e.2.pre.isSome).map fun e =>
    [ev .groupParked (dieHand + e.1), ev .parkBudgetExpire e.1, ev .routineBudgetExpire e.1]).flatten
    ++ if s.plat.ckpt.isSome then [ev .ckptDone 0] else []
/-- Every turn that something pending asks for. -/
def State.pendingTurns (s : State) : List Turn :=
  s.memTurns ++ (s.groups.map groupTurns).flatten ++ (s.teams.map teamTurns).flatten ++ (s.seqs.map seqTurns).flatten
    ++ (s.copies.map copyTurns).flatten ++ (s.bundles.map bundleTurns).flatten
    ++ (keysOf s.notices).map (ev .bundleCompletionNotice) ++ (keysOf s.queries).map (ev .horizonQuery)
    ++ (keysOf s.answers).map (ev .horizonQueryAnswer) ++ s.launchTurns ++ s.rayTurns ++ s.dieTurns
    ++ (s.harts.filter fun e => e.2.running && e.2.wait == .no).map fun e => Turn.hart e.1
/-- The turn taken, and the list that is left: the list's first turn, or a pending one in rotation, or a cycle. -/
def State.pickTurn (s : State) : Turn × List Turn :=
  match s.turns with
  | t :: r => (t, r)
  | [] => ((s.pendingTurns[s.fresh % (s.pendingTurns.length + 1)]?).getD (.elapse 1), [])

end Sys2Proof.Machine
end

