-- ==== Sys2Proof/Machine/Run.lean ====
section
/-! DEFINITION. One turn of an agent: where its next instruction comes from, and how it passes to the one after (02 R35, R36, R52, R54; 10
R217 to R219; 15 R393; 16 R344). -/

namespace Sys2Proof.Machine

/-- What an outcome's next state becomes. -/
def andThen (o : Out) (f : State → Out) : Out :=
  match o with
  | .next s => f s
  | .fault e => .fault e
  | .refused r => .refused r

/-! ### Groups -/

/-- A word has issued: the group's order goes on and the split passes to its next word. A word that left its split elsewhere, or that has
    not issued, has cleared `cur`. -/
def State.advanceGroup (s : State) (k lane : Nat) (pair : Bool) : State :=
  if s.cur = .grp k lane then
    s.updGroup k fun g =>
      let g := if pair then { g with pmc := g.pmc.put 1 (g.pmc.getD 1 0 + 1) } else g
      { g.updSplit lane Split.moveNext with gio := g.gio + 1 }
  else s
/-- One word of a clause: its instruction, or the two operations of a pair, each reading the registers from before the word (02 R52). -/
def State.runWord (s : State) (k lane : Nat) (g : Group) (x : Split) (r : Run) (w : Word) : Out :=
  let s := { s with cur := .grp k lane }
  let bad := s.trapHeader k x .illegalOp x.mask (some r.idx)
  if hdrClass r.hdr = 1 then
    match okPair w with
    | some (a, b) =>
      andThen (exec a { s with pairV := some g.v }) fun s => andThen (exec b s) fun s => .next (s.advanceGroup k lane true)
    | none => .next bad
  else match okInstr w with
    | some i => andThen (exec i s) fun s => .next (s.advanceGroup k lane false)
    | none => .next bad
/-- A group's turn: a word of the clause in progress, or the start of the next clause. A split that is not ready, a stopped group and a
    group at the limit of R344 issue nothing. -/
def State.runGroup (s : State) (k lane : Nat) : Out :=
  match (s.group? k).bind fun g => (g.split? lane).map fun x => (g, x) with
  | none => .next s
  | some (g, x) =>
    match x.run with
    | none => exec (.clauseStart k lane) s
    | some r =>
      if x.st ≠ .ready ∨ g.stop.isSome ∨ g.atLimit ∨ (r.back ∧ s.slotTaken (coreOf k) g.part) then .next s
      else match r.words[r.idx]? with
        | some w => (s.setGroup k (g.updSplit lane fun y => { y with run := some { r with back := false } })).runWord k lane g x r w
        | none => .next (s.setGroup k (g.updSplit lane fun y => y.moveTo (afterClause y.pc r.hdr)))

/-! ### Sequencers -/

/-- What a stream fetch meets. -/
inductive StreamWord where
  | word (w : Word)
  | stop (kind : Nat)
  | fault (kind : Nat)
  | poison
  | wait
  deriving DecidableEq, Repr
/-- The word at a sequencer's PC, with the translation of its team (10 R217). -/
def State.streamWord (s : State) (q : Nat) (x : Seq) (t : Team) : State × StreamWord :=
  let core := q / 4
  let fetched := fun (s : State) (key : Nat) =>
    match s.peerRead (dieOfCore core) t.asid x.pc.toNat key with
    | (s, .error f) => (s, StreamWord.fault f)
    | (s, .ok _) =>
      if s.poisoned key 8 then (s, .poison)
      else match s.teamRead x.team (dieOfCore core) key 8 with
        | some (s, bs) => (s, .word (BitVec.ofNat 64 (ofBytes bs)))
        | none => (s, .wait)
  if inWindow x.pc 8 then
    let off := x.pc.toNat - scratchBase
    if t.kern.hdr.scratch < off + 8 ∨ x.pc.toNat < scratchBase then (s, .stop fkNotPresent)
    else if !s.scrPinned x.team off 8 then (s.askPage x.team off 8, .wait)
    else if s.scrPoisoned x.team off 8 then (s, .poison)
    else (s, .word (BitVec.ofNat 64 (ofBytes (s.scrBytes x.team off 8))))
  else match s.lookup core t.extents t.asid x.pc 8 .fetch with
    | .range => (s, .stop fkRange)
    | .hit h => fetched s h.key
    | .miss => match s.engineXlate (dieOfCore core) t.asid x.pc 8 .fetch false t.near with
      | (s, .ok key) => fetched s key
      | (s, .error f) => (s, if f = fkExec then .stop f else .fault f)
/-- An accumulator that the kernel has not (10 R219). -/
def badAcc (i : Instr) (acct : Nat) : Bool :=
  match i with
  | .mma o | .mmas o => decide (acct ≤ o.d.toNat)
  | .mzero o => decide (acct ≤ o.d.toNat)
  | .mst o => decide (acct ≤ o.d.toNat)
  | _ => false
/-- The sequencer takes a word: only a stream word that decodes has its effect (10 R219). -/
def State.runStream (s : State) (q : Nat) (t : Team) (w : Word) : Out :=
  match Illegal.toOption (decodeStream w) with
  | some i =>
    if badAcc i t.kern.hdr.acct then .next (s.stopSeq q .illegalOp 0)
    else andThen (exec i { s with cur := .seq q }) fun s =>
      .next (if s.cur = .seq q then s.updSeq q fun y => { y with pc := y.pc + 8 } else s)
  | none => .next (s.stopSeq q .illegalOp 0)
/-- It takes no word after EXIT, while it is stopped, asleep or held, while its fetch fault stands, while an earlier command is not performed,
    or while its team is switched out (10 R217, R218, R230, R231, R235). -/
def Seq.still (x : Seq) : Bool :=
  x.exited || x.stop.isSome || x.waiting.isSome || x.held.isSome || !x.cmds.isEmpty || x.fetchFault.isSome
/-- A sequencer's turn. A fetch that faults is held in a fault record (10 R217; 16 R390), unless its kind is none that a service core resolves:
    RANGE, EXEC and a scratch window address out of range stop the sequencer at once (16 R336, R343). -/
def State.runSeq (s : State) (q : Nat) : Out :=
  match (s.seq? q).bind fun x => (s.team? x.team).map fun t => (x, t) with
  | none => .next s
  | some (x, t) =>
    if x.still || s.switchedOut t.asid t.cluster then .next s
    else match s.streamWord q x t with
      | (s, .word w) => (s.dropRec (.seqFetch q)).runStream q t w
      | (s, .poison) => .next ((s.dropRec (.seqFetch q)).stopSeq q .dataPoison 0)
      | (s, .stop f) => .next ((s.dropRec (.seqFetch q)).stopSeq q .pageFault f 0 x.pc)
      | (s, .wait) => .next s
      | (s, .fault f) => .next (match s.raiseRec (dieOfCore (q / 4)) (q / 4) (.seqFetch q) (f, x.pc) t.asid (s.someGroup x.team) with
        | some s => s.updSeq q fun y => { y with fetchFault := some f }
        | none => s)

/-! ### Service cores -/

/-- A hart's word: a 16-bit instruction belongs to an extension that the manual does not describe; the word of zeros is none at all. -/
def State.runHartWord (s : State) (h : Nat) (w : BitVec 32) : Out :=
  if w.extractLsb' 0 2 ≠ 3 then (if w = 0 then .next (s.hartIllegal h w) else foreign w)
  else match Illegal.toOption (decodeHart w) with
    | some i => andThen (exec i { s with cur := .hart h }) fun s =>
      .next (if s.cur = .hart h then s.updHart h fun x => x.retire (x.pc + 4) else s)
    | none => .next (s.hartIllegal h w)
/-- A hart's turn: an interrupt that it may take, or the word at its pc. A hart that sleeps or stalls does nothing. -/
def State.runHart (s : State) (h : Nat) : Out :=
  let x := s.hart h
  if Config.harts ≤ h ∨ !x.running ∨ x.wait ≠ .no then .next s
  else match x.irq with
    | some c => .next (s.hartIrq h c)
    | none => match s.hartFetch h with
      | (s, .ok w) => s.runHartWord h w
      | (s, .trap c v) => .next (s.hartTrap h c v)
      | (s, .wait) => .next s

/-! ### Turns -/

/-- What a turn does; only the passing of cycles moves the clock. -/
def State.runTurn (s : State) (t : Turn) : Out :=
  match t with
  | .group k lane => s.runGroup k lane
  | .seq q => s.runSeq q
  | .hart h => s.runHart h
  | .event i n => exec i { s with hand := n }
  | .elapse n => .next (s.passCycles n)
/-- The register writes that engines and device agents made in this step are performed; one of a size that R391 does not admit has no effect
    (15 R391). -/
def State.performRegs (s : State) : State :=
  s.regOut.foldl (fun s w => (s.mmioWrite w.1 w.2.length (ofBytes w.2)).getD s) { s with regOut := [] }
/-- The bytes at the top of a group's private region that its spill stack takes hold no known value (12 R261); where they cannot be reached they are
    as they were (log 31). -/
def State.performSpill (s : State) (k n : Nat) : State :=
  match s.group? k with
  | none => s
  | some g =>
    let c := coreOf k
    let top := g.width * ((s.teamOf g).map (·.kern.hdr.priv)).getD 0
    match s.enginePieces (n / 65536 + 2) (dieOfCore c) (s.asidOf g) (g.priv + BitVec.ofNat 64 (top - n)) n .write false (s.nearOf g.team) with
    | (_, .error _) => s
    | (s, .ok l) =>
      (l.foldl (fun (a : State × List Byte) p =>
        let ls := linesOf p.1 p.2
        let s := ls.foldl (fun s line => s.writeBack c line) a.1
        let s := s.deviceWrite p.1 (a.2.take p.2)
        (ls.foldl (fun s line => s.l1Drop c line 0 128) s, a.2.drop p.2)) (s, toBytes n (Config.free s.fresh (2 ^ 46 + k)))).1
def State.performSpills (s : State) : State := s.spillOut.foldl (fun s e => s.performSpill e.1 e.2) { s with spillOut := [] }
/-- The parts of a context's record pool, granule by granule, as the launcher's accesses translate: keys and lengths. They are not subject to PRIV
    (03 R72; 13 R277; log 73). -/
def State.poolParts (s : State) (c : Ctx) : List (Nat × Nat) :=
  let lo := c.pool.toNat
  let hi := lo + 4096 * c.poolsz
  (List.range ((hi + 65535) / 65536 - lo / 65536)).filterMap fun i =>
    let va := max lo ((lo / 65536 + i) * 65536)
    let r := s.walk 0 c.asid c.root va .read true
    if r.fault.isSome then none else some (((r.entry c.asid va r.pte).hit va).key, min hi ((lo / 65536 + i + 1) * 65536) - va)
/-- A record of such a context keeps its size, and no byte of it a known value. -/
def State.spoilRecord (s : State) (l : List (BitVec 16)) (i : Nat) (m : RecMsg) : RecMsg :=
  if l.contains m.asid then { m with data := toBytes m.data.length (Config.free s.fresh (2 ^ 44 + i)) } else m
/-- The stores of this step into record pools leave the waiting records of their contexts unpredictable, and every other context's alone (13
    R278). -/
def State.performStores (s : State) : State :=
  if s.storeOut = [] then s
  else
    let hit := fun (c : Ctx) => (s.poolParts c).any fun p => s.storeOut.any fun w => decide (w.1 < p.1 + p.2) && decide (p.1 < w.1 + w.2)
    let l := ((s.ctxs.map (·.2)).filter hit).map (·.asid)
    { s with
      storeOut := []
      bins := if l = [] then s.bins else s.bins.map fun e => (e.1, { e.2 with recs := (enum 0 e.2.recs).map fun r => s.spoilRecord l (2 ^ 32 * (e.1 + 1) + r.1) r.2 })
      inflight := if l = [] then s.inflight else s.inflight.map fun e => (e.1, s.spoilRecord l e.1 e.2) }
/-- The model's own fields between steps: nobody's turn, nothing in hand, the next draw of free values. -/
def State.settled (s : State) (fresh : Nat) : State := { s with cur := .none, hand := 0, pairV := none, fresh := fresh }

/-! ### Placing one instruction (log 5) -/

/-- A group of 32 lanes in slot 0 of core 0, whose one split runs a clause of one word. -/
def State.placeGroup (s : State) (hdr w : Word) : State :=
  let t := s.teams.next
  let x : Split := { mask := allLanes 32, pc := 0x10000, last := 1, coreLast := 1, run := some { hdr := hdr, words := [w], idx := 0, clause := 0 } }
  let root : JoinRec := { jmask := allLanes 32, parent := 0 }
  let long := ((okInstr w).map writesRegister).getD false
  let g : Group := { team := t, gidx := 0, role := 0, width := 32, bornAt := 0, born := 0, blocks := 32, vmax := 32, live := allLanes 32,
                     splits := [x], recs := [(0, root)], clauses := 1, cf := if long then [(0, 1)] else [], att := if long then [(0, 0, 1)] else [] }
  let tm : Team := { asid := 0, cluster := 0, core := 0, slot := 0, num := 0, kern := { hdr := {}, roles := [], safe := [] }, hdrVa := 0,
                     cmd := none, groups := [0] }
  { s with groups := s.groups.put 0 g, teams := s.teams.put t tm, turns := [.group 0 0] }
/-- The header of a clause of one word: its class, and flag 0 in SETA for a long-latency class. -/
def oneWordHeader (w : Word) : Word :=
  let c := match classOf (opcOf w) with
    | some c => classCode c
    | none => 0
  BitVec.ofNat 64 (c * 2 ^ 60 + if c = 2 ∨ c = 3 then 2 ^ 43 else 0)
/-- Service core 0 at the word, in M mode and running, with no interrupt to take. -/
def State.placeHart (s : State) (w : Nat) : State :=
  let x := s.hart 0
  let pc := if x.pc.toNat < Config.tier0Bytes ∧ x.pc.toNat % 4 = 0 then x.pc else 0
  let s := s.recallNow (lineOf pc.toNat)
  let s := { s with mem := putBytes s.mem pc.toNat (toBytes 4 w), poison := s.poison.filter fun e => e.1 != pc.toNat / 32 }
  { s.updHart 0 fun x => { x with pc := pc, mode := .m, mstatus := setBit x.mstatus 3 false, wait := .no, running := true } with turns := [.hart 0] }
/-- A sequencer of core 0, whose team has the one word in an extent from 0x10000 on. -/
def State.placeStream (s : State) (w : Nat) : State :=
  let t := s.teams.next
  let tm : Team := { asid := 0, cluster := 0, core := 0, slot := 0, num := 0,
                     kern := { hdr := { seq := true, acct := 32, scratch := 2 ^ 21 }, roles := [], safe := [] }, hdrVa := 0, cmd := none, groups := [],
                     seq := some 0, extents := [{ vbase := 0x10000, vend := 0x20000, tier := 0, peer := 0, paddr := 0, spec := false, x := true, w := false, r := true }] }
  let s := s.recallNow 0
  let s := { s with mem := putBytes s.mem 0 (toBytes 8 w), poison := s.poison.filter fun e => e.1 != 0 }
  { s with teams := s.teams.put t tm, seqs := s.seqs.put 0 { team := t, pc := 0x10000 }, turns := [.seq 0] }
/-- The instruction of a row where the next step takes it: a compact half beside the filler, a hart's word, a stream word, a group's word. -/
def State.place (s : State) (nbits w : Nat) : State :=
  if nbits = 64 then
    (if isStreamWord (BitVec.ofNat 64 w) then s.placeStream w else s.placeGroup (oneWordHeader (BitVec.ofNat 64 w)) (BitVec.ofNat 64 w))
  else if w.testBit 0 then s.placeHart w
  else s.placeGroup (BitVec.ofNat 64 (2 ^ 60)) (0x3C00000E#32 ++ BitVec.ofNat 32 w)

end Sys2Proof.Machine
end

