-- ==== Sys2Proof/Machine/Step.lean ====
section
/-! DEFINITION. The step: one turn of the schedule. -/

namespace Sys2Proof.Machine

/-- One step: the turn at hand is taken, the register writes of engines are performed, and the model's own fields are settled. -/
def step (s : State) : Host.Outcome State Fault Refusal :=
  andThen (({ s with turns := s.pickTurn.2 } : State).runTurn s.pickTurn.1) fun t => .next (t.performRegs.performSpills.performStores.settled (s.fresh + 1))

/-- A state whose next step runs the instruction of a row of the opcode table. -/
def State.withFetchWord (s : State) (nbits w : Nat) : State := s.place nbits w

end Sys2Proof.Machine
end

