-- ==== Sys2Proof/Safety.lean ====
section
/-! DEFINITION. The terms in which claims speak: a safe state, and what an instruction changes and leaves. -/

namespace Sys2Proof.Claim

open Sys2Proof Sys2Proof.Machine

/-! ### Safe states -/

/-- Memory is in its canonical form. -/
def Inv (s : State) : Prop := Memory.wf s.mem = true
/-- A step that goes on. -/
def Goes (s t : State) : Prop := step s = .next t

/-! ### Frames -/

/-- A group without what register writes may change: its registers, its sticky flags, and the marks that a write leaves on instructions in
flight that write the same register (02 R38). -/
def rest (g : Group) : Group :=
  { g with v := [], s := [], p := [], flags := 0, ops := g.ops.map fun o => { o with spoiltV := [], spoiltS := [], spoiltP := [] } }
/-- No byte of memory differs. -/
def SameMem (s t : State) : Prop := ∀ a, t.byte a = s.byte a

/-- The outcome of a vector form in the active lanes `act`: V[d][l], or the pair from V[d], takes `f l`; v255 discards; every other
register and lane, the scalars, the predicates, memory, the rest of the group and of the state are as before; the sticky flags gain `fl`. -/
def VecResult (s : State) (k : Nat) (g : Group) (act : LaneMask) (b64 : Bool) (d : BitVec 8) (f : Nat → BitVec 64) (fl : BitVec 5)
    (out : Out) : Prop :=
  ∃ g' : Group, out = .next (s.setGroup k g') ∧ g'.flags = g.flags ||| fl ∧ g'.s = g.s ∧ g'.p = g.p ∧ rest g' = rest g ∧
    (∀ r l, l < 64 → g'.v.getD (64 * r + l) 0 =
      if d ≠ 255 ∧ r = d.toNat ∧ act.getLsbD l = true then (f l).setWidth 32
      else if b64 = true ∧ d ≠ 255 ∧ d ≠ 254 ∧ r = d.toNat + 1 ∧ act.getLsbD l = true then (f l).extractLsb' 32 32
      else g.v.getD (64 * r + l) 0) ∧
    SameMem s (s.setGroup k g')
/-- The outcome of a scalar form: with an active lane S[d] takes `x`, with none nothing happens; all else is as before. -/
def SclResult (s : State) (k : Nat) (g : Group) (act : LaneMask) (d : BitVec 6) (x : BitVec 64) (out : Out) : Prop :=
  (act = 0 → out = .next s) ∧
  (act ≠ 0 → ∃ g' : Group, out = .next (s.setGroup k g') ∧ g'.flags = g.flags ∧ g'.v = g.v ∧ g'.p = g.p ∧ rest g' = rest g ∧
    (∀ r, g'.s.getD r 0 = if r = d.toNat then x else g.s.getD r 0) ∧ SameMem s (s.setGroup k g'))
/-- The outcome of a form that writes a predicate in the active lanes; p7 discards; all else is as before. -/
def PredResult (s : State) (k : Nat) (g : Group) (act : LaneMask) (d : BitVec 3) (f : Nat → Bool) (out : Out) : Prop :=
  ∃ g' : Group, out = .next (s.setGroup k g') ∧ g'.flags = g.flags ∧ g'.v = g.v ∧ g'.s = g.s ∧ rest g' = rest g ∧
    (∀ r l, l < 64 → (g'.p.getD r 0).getLsbD l =
      if d ≠ 7 ∧ r = d.toNat ∧ act.getLsbD l = true then f l else (g.p.getD r 0).getLsbD l) ∧
    SameMem s (s.setGroup k g')

/-! ### Integer results, as the manual writes them (08 R184 to R189) -/

/-- The operation width. -/
def wd (b64 : Bool) : Nat := if b64 then 64 else 32
/-- A w-bit source as a signed or unsigned number. -/
def rd (uns : Bool) (w : Nat) (a : BitVec 64) : Int := if uns then ((a.toNat % 2 ^ w : Nat) : Int) else Int.bmod a.toNat (2 ^ w)
/-- A number modulo 2^w, in a 64-bit container. -/
def wr (w : Nat) (x : Int) : BitVec 64 := BitVec.ofInt 64 (x % 2 ^ w)
/-- An exact result, clamped under .sat, else modulo 2^w. -/
def arithRes (sat uns : Bool) (w : Nat) (x : Int) : BitVec 64 :=
  if sat then wr w (if uns then max 0 (min x (2 ^ w - 1)) else max (-2 ^ (w - 1)) (min x (2 ^ (w - 1) - 1))) else wr w x
/-- Bit i of a w-bit result. -/
def bitsRes (w : Nat) (p : Nat → Bool) : BitVec 64 := (BitVec.ofFnLE fun i : Fin w => p i).setWidth 64
def cmpRes (c : Cmp) (x y : Int) : Bool :=
  match c with
  | .eq => decide (x = y)
  | .ne => decide (x ≠ y)
  | .lt => decide (x < y)
  | .le => decide (x ≤ y)
  | .gt => decide (y < x)
  | .ge => decide (y ≤ x)
def bopRes (b : Bop) (t q : Bool) : Bool :=
  match b with
  | .and => t && q
  | .or => t || q
  | .xor => xor t q
def bfxRes (uns : Bool) (w : Nat) (a b : BitVec 64) : BitVec 64 :=
  let pos := min (b.toNat % 256) w
  let len := min (b.toNat / 256 % 256) w
  let y := rd uns w a / 2 ^ pos
  if len = 0 then 0 else wr w (if uns then y % 2 ^ len else Int.bmod y (2 ^ len))
def bfiRes (w : Nat) (a b c : BitVec 64) : BitVec 64 :=
  let pos := b.toNat % 256
  let len := min (b.toNat / 256 % 256) w
  let m := (2 ^ len - 1) * 2 ^ pos % 2 ^ w
  BitVec.ofNat 64 ((c.toNat % 2 ^ w &&& (2 ^ w - 1 - m)) ||| (a.toNat * 2 ^ pos % 2 ^ w &&& m))
/-- LEA's b': the immediate, or b extended from 32 bits under .b64. -/
def leaB (isImm sx b64 : Bool) (b : BitVec 64) : Int :=
  if isImm || !b64 then (b.toNat : Int) else if sx then Int.bmod b.toNat (2 ^ 32) else ((b.toNat % 2 ^ 32 : Nat) : Int)

/-! ### Floating point and cross-lane results (01 R24 to R30, 09 R193 to R214) -/

/-- The flags of every active lane together, as the group status holds them. -/
def anyFlags (act : LaneMask) (f : Nat → Flags) : BitVec 5 := (flagsOver act f).bits
/-- The number a dyadic stands for. -/
def value (d : Machine.Dyadic) : ℚ := (if d.neg then -1 else 1) * d.m * (2 : ℚ) ^ d.e
/-- An FP32 source as the floating forms read it: FtzIn, then negated. -/
def fsrcNum (s : State) (g : Group) (neg : Bool) (l : Nat) (y : Src) : Machine.Num :=
  let c := ftzIn g.ftz (s.src32 g .float l y)
  fp32.decode (if neg then c ^^^ 0x80000000 else c).toNat
/-- An FP32 result: FtzOut of a rounded code. -/
def fres (g : Group) (r : Nat × Flags) : LaneWord × Flags := ftzOut g.ftz (BitVec.ofNat 32 r.1, r.2)
/-- A mode, RNE unless the word selects one. -/
def rne (r : Rnd) : Mode5 := modeOf r .rne
/-- Element i of a packed source, negated under its N bit. -/
def half (bf neg : Bool) (w : LaneWord) (i : Nat) : Machine.Num :=
  (if bf then bf16 else fp16).decode (w.toNat / 2 ^ (16 * i) % 2 ^ 16 ^^^ if neg then 0x8000 else 0)
/-- Two packed results and their flags. -/
def halves (r : Nat → Nat × Flags) : LaneWord × Flags :=
  (BitVec.ofNat 32 ((r 0).1 % 2 ^ 16 + 2 ^ 16 * ((r 1).1 % 2 ^ 16)), (r 0).2.or (r 1).2)

/-- Lanes of a tile, and the first lane of lane l's (09 R210). -/
def tileLanes (g : Group) : Nat := if 1 ≤ g.tw.toNat ∧ 2 ^ g.tw.toNat < g.width then 2 ^ g.tw.toNat else g.width
def tb (g : Group) (l : Nat) : Nat := tileLanes g * (l / tileLanes g)
/-- The mask over a tile's positions. -/
def tileBits (g : Group) (l : Nat) (p : Nat → Bool) : BitVec 64 :=
  (BitVec.ofFnLE fun i : Fin 64 => decide (i.val < tileLanes g) && p (tb g l + i))
/-- `op` of REDUX and SCAN on two values (09 R213). -/
def redOp (op : RedOp) (a b : BitVec 64) : BitVec 64 :=
  match op with
  | .add b64 => wr (wd b64) (a.toNat + b.toNat)
  | .min b64 u => wr (wd b64) (min (rd u (wd b64) a) (rd u (wd b64) b))
  | .max b64 u => wr (wd b64) (max (rd u (wd b64) a) (rd u (wd b64) b))
  | .and b64 => wr (wd b64) (a &&& b).toNat
  | .or b64 => wr (wd b64) (a ||| b).toNat
  | .xor b64 => wr (wd b64) (a ^^^ b).toNat
  | .fadd => BitVec.ofNat 64 (fp32.sum .rne (fp32.decode (a.toNat % 2 ^ 32)) (fp32.decode (b.toNat % 2 ^ 32))).1
  | .fmin => (fMinMax false (a.setWidth 32) (b.setWidth 32)).setWidth 64
  | .fmax => (fMinMax true (a.setWidth 32) (b.setWidth 32)).setWidth 64
def redFloat : RedOp → Bool
  | .fadd | .fmin | .fmax => true
  | _ => false
/-- Identities of 09 R213. -/
def redZero : RedOp → BitVec 64
  | .add _ | .or _ | .xor _ => 0
  | .and b64 => wr (wd b64) (-1)
  | .min b64 u => wr (wd b64) (if u then -1 else 2 ^ (wd b64 - 1) - 1)
  | .max b64 u => wr (wd b64) (if u then 0 else -2 ^ (wd b64 - 1))
  | .fadd => 0x80000000
  | .fmin => 0x7F800000
  | .fmax => 0xFF800000
/-- x(k) of 09 R213 at position k of lane l's tile. -/
def redIn (s : State) (g : Group) (op : RedOp) (a : BitVec 8) (act : LaneMask) (l i : Nat) : BitVec 64 :=
  if act.getLsbD (tb g l + i) then
    (if redFloat op then (ftzIn g.ftz (s.readV g a.toNat (tb g l + i))).setWidth 64 else s.src g .zero op.b64 (tb g l + i) (.v a))
  else redZero op
/-- The fixed tree: value i of level n. -/
def redTreeAt (op : RedOp) (y : Nat → BitVec 64) : Nat → Nat → BitVec 64
  | 0, i => y i
  | n + 1, i => redOp op (redTreeAt op y n (2 * i)) (redTreeAt op y n (2 * i + 1))
/-- y before position n of SCAN. -/
def scanAt (op : RedOp) (y : Nat → BitVec 64) : Nat → BitVec 64
  | 0 => redZero op
  | n + 1 => redOp op (scanAt op y n) (y n)
/-- A written result: FtzOut and the canonical NaN for .f32. -/
def redRes (g : Group) (op : RedOp) (x : BitVec 64) : BitVec 64 :=
  if redFloat op then
    (ftzOut g.ftz ((if (fp32.decode (x.toNat % 2 ^ 32)).isNan then 0x7FC00000 else x.setWidth 32), {})).1.setWidth 64
  else x

/-! ### Control flow (12 R259 to R273) -/

/-- F of 12 R267: the fall-through of the clause that a split runs. -/
def fallOf (x : Split) : Addr :=
  match x.run with
  | some r => x.pc + BitVec.ofNat 64 (8 * (r.hdr.toNat / 2 ^ 56 % 16 + 2))
  | none => x.pc
/-- A split at a clause header. -/
def at_ (a : Addr) (y : Split) : Split := { y with pc := a, run := none, skip := 0 }
/-- The state in which the issuing split has left its clause: it is changed by `f`, the group's order has gone on by one, and nothing else
differs. -/
def leave (s : State) (k : Nat) (g : Group) (x : Split) (f : Split → Split) : State :=
  { s.setGroup k { g with gio := g.gio + 1, splits := g.splits.map fun y => if y.mask.getLsbD (lowest x.mask) then f y else y } with
    cur := .none }
/-- The outcome in which group k is `g'`, the word has ended its clause, and no other group, register file or byte of memory differs. -/
def ends (s : State) (k : Nat) (g' : Group) (out : Out) : Prop := out = .next { s.setGroup k g' with cur := .none }
/-- The outcome in which group k stops: its first cause, its resume point, every split of its table STOPPED; its registers and its other
state are as before, and other groups change in their instructions in flight and a broken link at most. -/
def Stops (s : State) (k : Nat) (g : Group) (st : Stop) (out : Out) : Prop :=
  ∃ t g', out = .next t ∧ t.cur = .none ∧ t.group? k = some g' ∧ g'.stop = some st ∧ (∀ y ∈ g'.splits, y.st = .stopped) ∧
    g'.splits.map (·.mask) = g.splits.map (·.mask) ∧ g'.v = g.v ∧ g'.s = g.s ∧ g'.p = g.p ∧ g'.flags = g.flags ∧ g'.live = g.live ∧
    ∀ j, j ≠ k → (t.group? j).map (fun y => (y.stop, y.splits, y.v, y.s, y.p)) = (s.group? j).map fun y => (y.stop, y.splits, y.v, y.s, y.p)

/-! ### Instructions in flight and memory (02 R38, R48; 06 R132 to R138) -/

/-- Nothing of the group is in flight, every module answers, no write waits for a route, and what the L1s hold dirty may be written back at
once. -/
def idle (s : State) (g : Group) : Prop :=
  g.ops = [] ∧ s.links.out = [] ∧ (∀ m, s.reachable m = true) ∧ (∀ r ∈ s.reqs, r.2.isSpan = false) ∧
  ∀ c, ∀ e ∈ (s.core c).l1, e.2.dirty = 0 ∨ s.spanWaits e.1 = false
/-- No L1 holds a word that its home has not. -/
def clean (s : State) : Prop := ∀ c, ∀ e ∈ (s.core c).l1, e.2.dirty = 0
/-- The outcome in which the group has `i` in flight as `o`, with what `p` says of it; the registers, the flags and the splits of the group
are as before, and the word passes to the next. -/
def Flies (s : State) (k : Nat) (g : Group) (i : Instr) (act : LaneMask) (p : State → Op → Prop) (out : Out) : Prop :=
  ∃ t g' o, out = .next t ∧ t.cur = s.cur ∧ t.group? k = some g' ∧ g'.op? g.gio = some o ∧ o.gio = g.gio ∧ o.instr = i ∧ o.mask = act ∧
    g'.ops.length = g.ops.length + 1 ∧ g'.v = g.v ∧ g'.s = g.s ∧ g'.p = g.p ∧ g'.flags = g.flags ∧ g'.live = g.live ∧
    g'.splits.map (fun y => { y with xfaults := [] }) = g.splits.map (fun y => { y with xfaults := [] }) ∧
    (clean s → SameMem s t) ∧ p t o
/-- The active lanes' accesses of n bytes lie aligned in the team's scratchpad, on pinned pages and outside poisoned sectors. -/
def InScratch (s : State) (g : Group) (act : LaneMask) (ea : Nat → Addr) (n : Nat) (off : Nat → Nat) : Prop :=
  ∀ l, act.getLsbD l = true → ea l = BitVec.ofNat 64 (0x000FFFFFFFE00000 + off l) ∧ off l % n = 0 ∧ off l + n ≤ 2 ^ 21 ∧
    (∃ tm, s.team? g.team = some tm ∧ off l + n ≤ tm.kern.hdr.scratch) ∧ s.scrPinned g.team (off l) n = true ∧
    s.scrPoisoned g.team (off l) n = false
/-- The address of a memory operand in a lane. -/
def eaOf (s : State) (g : Group) (m : MemOpd) (l : Nat) : Addr := s.effAddr g m.base m.idx m.scale m.off l
/-- Bytes of an access of a type, and word i that a load of it writes. -/
def tyLen : MemTy → Nat
  | .b32 => 4
  | .b64 => 8
  | .b128 => 16
  | .s8 | .z8 => 1
  | .s16 | .z16 => 2
def tyWord (ty : MemTy) (x i : Nat) : LaneWord :=
  match ty with
  | .s8 => (BitVec.ofNat 8 x).signExtend 32
  | .s16 => (BitVec.ofNat 16 x).signExtend 32
  | .z8 => BitVec.ofNat 32 (x % 256)
  | .z16 => BitVec.ofNat 32 (x % 65536)
  | _ => BitVec.ofNat 32 (x / 2 ^ (32 * i))
/-- Byte i of the data that a store takes from the registers from vd on. -/
def dataByte (s : State) (g : Group) (d : BitVec 8) (l i : Nat) : Byte :=
  (s.readV g (if d = 255 then 255 else d.toNat + i / 4) l).extractLsb' (8 * (i % 4)) 8
/-- n bytes at an offset, as a number. -/
def cell (m : Nat → Byte) (off n : Nat) : Nat := ((List.range n).map fun i => (m (off + i)).toNat * 256 ^ i).sum

/-- The operands of an atomic form: guard, width, destination, data, address. -/
structure AtomForm where
  g : Guard
  b64 : Bool
  d : BitVec 8
  c : BitVec 8
  base : Option (BitVec 6)
  idx : BitVec 8
  scale : BitVec 2
  deriving DecidableEq, Repr
def atomOf : Instr → Option AtomForm
  | .atomAdd o | .atomAnd o | .atomOr o | .atomXor o | .atomExch o | .atomInc o | .atomDec o | .atomCas o =>
    some ⟨o.g, o.b64, o.d, o.c, o.base, o.idx, o.scale⟩
  | .atomMin o | .atomMax o => some ⟨o.g, o.b64, o.d, o.c, o.base, o.idx, o.scale⟩
  | .atomFadd o | .atomFmin o | .atomFmax o => some ⟨o.g, false, o.d, o.c, o.base, o.idx, o.scale⟩
  | _ => none
/-- Bytes of an atomic's access. -/
def AtomForm.n (f : AtomForm) : Nat := if f.b64 then 8 else 4
def AtomForm.ea (f : AtomForm) (s : State) (g : Group) (l : Nat) : Addr := s.effAddr g f.base f.idx f.scale 0 l
/-- The w-bit data of a lane, from register vc + j words on. -/
def AtomForm.arg (f : AtomForm) (s : State) (g : Group) (j l : Nat) : Nat :=
  (s.readV g (if f.c = 255 then 255 else f.c.toNat + j) l).toNat
    + if f.b64 then 2 ^ 32 * (s.readV g (if f.c = 255 then 255 else f.c.toNat + j + 1) l).toNat else 0
/-- The value that an atomic stores over `a`, with its operand `b` (and, for CAS, the new value `b'`), w bits wide; none: it stores nothing. -/
def atomNew (i : Instr) (w a b b' : Nat) : Option Nat :=
  match i with
  | .atomAdd _ => some ((a + b) % 2 ^ w)
  | .atomMin o => some (if (if o.uns then decide (a ≤ b) else decide (Int.bmod a (2 ^ w) ≤ Int.bmod b (2 ^ w))) then a else b)
  | .atomMax o => some (if (if o.uns then decide (b ≤ a) else decide (Int.bmod b (2 ^ w) ≤ Int.bmod a (2 ^ w))) then a else b)
  | .atomAnd _ => some (a &&& b)
  | .atomOr _ => some (a ||| b)
  | .atomXor _ => some (a ^^^ b)
  | .atomExch _ => some b
  | .atomInc _ => some (if b ≤ a then 0 else a + 1)
  | .atomDec _ => some (if a = 0 ∨ b < a then b else a - 1)
  | .atomFadd _ => some ((fp32.sum .rne (fp32.decode a) (fp32.decode b)).1 % 2 ^ 32)
  | .atomFmin _ => some (fMinMax false (BitVec.ofNat 32 a) (BitVec.ofNat 32 b)).toNat
  | .atomFmax _ => some (fMinMax true (BitVec.ofNat 32 a) (BitVec.ofNat 32 b)).toNat
  | .atomCas _ => if a = b then some b' else none
  | _ => none
/-- One lane's read-modify-write of n bytes at an offset. -/
def rmwAt (f : Nat → Option Nat) (n off : Nat) (m : Nat → Byte) : Nat → Byte :=
  match f (cell m off n) with
  | some y => fun a => if off ≤ a ∧ a < off + n then BitVec.ofNat 8 (y / 256 ^ (a - off)) else m a
  | none => m
/-- The lanes of a list, one after another. -/
def rmwAll (f : Nat → Nat → Option Nat) (n : Nat) (off : Nat → Nat) : List Nat → (Nat → Byte) → Nat → Byte
  | [], m => m
  | l :: t, m => rmwAll f n off t (rmwAt (f l) n (off l) m)
/-- The lanes of a set in increasing order. -/
def lanes (m : LaneMask) : List Nat := (List.range 64).filter fun l => m.getLsbD l

/-- A cached line of this module whose home holds it at rest: no copy, no message, no reference, no earlier write of the core, no checkpoint, no
poison. -/
def Quiet (s : State) (core line : Nat) : Prop :=
  keyMod (line * 128) = Config.selfModule ∧ uncached (line * 128) = false ∧ isPool line = false ∧ (s.homes.get? line).isSome = true ∧
  (s.home line).dir = {} ∧ (s.home line).ref = none ∧ (∀ m ∈ s.msgs, m.2.line ≠ line) ∧ s.behindWrite s.reqs.next core line = false ∧
  s.ckptHolds (line * 128) = false ∧ s.poisoned (line * 128) 128 = false
/-- The once-only forms fly under the mask of their split's lowest active lane. -/
def once (act : LaneMask) : LaneMask := maskOf [lowest act]

/-! ### Service cores (15 R393; 06 R152) -/

/-- The outcome in which register `rd` of hart h takes `v`; x0 discards; no other register of the hart, no other hart and no byte differs. -/
def HartSets (s : State) (h rd : Nat) (v : BitVec 64) (out : Out) : Prop :=
  ∃ x', out = .next (s.setHart h x') ∧ (∀ r, x'.reg r = if r ≠ 0 ∧ r = rd then v else (s.hart h).reg r) ∧
    ({ x' with x := (s.hart h).x } : Hart) = s.hart h
/-- The outcome in which hart h takes a trap: delegated to S mode or taken in M mode, with the pc, the cause, the value and the mode before
saved, interrupts of that mode off, its link and reservation ended; its other registers, the other harts and memory are as before. -/
def HartTraps (s : State) (h cause : Nat) (tval : BitVec 64) (irq : Bool) (out : Out) : Prop :=
  let x := s.hart h
  let lower := x.mode ≠ .m ∧ (if irq then x.mideleg else x.medeleg).getLsbD cause = true
  let word := fun (w : BitVec 64) => w.extractLsb' 0 63 = BitVec.ofNat 63 cause ∧ w.getLsbD 63 = irq
  let goes := fun (tvec pc : BitVec 64) =>
    pc = (tvec &&& ~~~3#64) + if irq = true ∧ tvec.getLsbD 0 = true then BitVec.ofNat 64 (4 * cause) else 0
  ∃ x', out = .next { s.setHart h x' with cur := .none } ∧ x'.link = none ∧ x'.resv = none ∧ x'.x = x.x ∧ x'.cache = x.cache ∧ x'.satp = x.satp ∧
    x'.horizon = x.horizon ∧ x'.mie = x.mie ∧ x'.mip = x.mip ∧ x'.wait = .no ∧
    (lower → x'.mode = .s ∧ x'.sepc = x.pc ∧ word x'.scause ∧ x'.stval = tval ∧ goes x.stvec x'.pc ∧ x'.mepc = x.mepc ∧ x'.mcause = x.mcause ∧
      x'.mtval = x.mtval ∧ ∀ i < 64, x'.mstatus.getLsbD i =
        if i = 1 then false else if i = 5 then x.mstatus.getLsbD 1 else if i = 8 then decide (x.mode = .s) else x.mstatus.getLsbD i) ∧
    (¬ lower → x'.mode = .m ∧ x'.mepc = x.pc ∧ word x'.mcause ∧ x'.mtval = tval ∧ goes x.mtvec x'.pc ∧ x'.sepc = x.sepc ∧ x'.scause = x.scause ∧
      x'.stval = x.stval ∧ ∀ i < 64, x'.mstatus.getLsbD i =
        if i = 3 then false else if i = 7 then x.mstatus.getLsbD 3
        else if i = 11 then decide (x.mode ≠ .u) else if i = 12 then decide (x.mode = .m) else x.mstatus.getLsbD i)
/-- n aligned bytes at an address that hart h may reach at key k, in a line of memory that a cache may hold: its module answers, none of the
hart's stream stores to it is on its way, no bundle orders the read, and no byte is poisoned. -/
def HartMay (s : State) (h : Nat) (va : BitVec 64) (n k : Nat) : Prop :=
  va.toNat % n = 0 ∧ (∀ kind f, s.hartXlate h va kind f = (s, .ok k)) ∧ k % 128 + n ≤ 128 ∧ keyTier k ≤ 4 ∧
  s.reachable (keyMod (k / 128 * 128)) = true ∧ s.strmPending h (k / 128) = false ∧ (s.hart h).horizon = [] ∧
  ((s.homes.get? (k / 128)).bind fun r => r.ref) = none ∧ s.poisoned k n = false
/-- The number in n bytes of a line. -/
def lineNum (data : List Byte) (off n : Nat) : Nat := cell (fun i => (data[i]?).getD 0) off n
/-- Line bytes with n bytes of a number from `off` on. -/
def lineWith (data : List Byte) (off n x : Nat) : List Byte :=
  (enum 0 data).map fun e => if off ≤ e.1 ∧ e.1 < off + n then BitVec.ofNat 8 (x / 256 ^ (e.1 - off)) else e.2
/-- Fields of a RISC-V word of the register and the immediate forms. -/
def wordR (op f3 f7 : Nat) (rd rs1 rs2 : BitVec 5) : BitVec 32 := BitVec.ofNat 7 f7 ++ rs2 ++ rs1 ++ BitVec.ofNat 3 f3 ++ rd ++ BitVec.ofNat 7 op
def wordI (op f3 : Nat) (rd rs1 : BitVec 5) (imm : BitVec 12) : BitVec 32 := imm ++ rs1 ++ BitVec.ofNat 3 f3 ++ rd ++ BitVec.ofNat 7 op
def wordS (op f3 : Nat) (rs1 rs2 : BitVec 5) (imm : BitVec 12) : BitVec 32 :=
  imm.extractLsb' 5 7 ++ rs2 ++ rs1 ++ BitVec.ofNat 3 f3 ++ imm.extractLsb' 0 5 ++ BitVec.ofNat 7 op

/-- RISC-V register operations by funct3 and funct7 (log 7). -/
def rvRes {w : Nat} (f3 f7 : Nat) (a b : BitVec w) : Option (BitVec w) :=
  match f7, f3 with
  | 0, 0 => some (a + b)
  | 32, 0 => some (a - b)
  | 0, 1 => some (BitVec.ofNat w (a.toNat * 2 ^ (b.toNat % w)))
  | 0, 2 => some (if a.toInt < b.toInt then 1 else 0)
  | 0, 3 => some (if a.toNat < b.toNat then 1 else 0)
  | 0, 4 => some (a ^^^ b)
  | 0, 5 => some (BitVec.ofNat w (a.toNat / 2 ^ (b.toNat % w)))
  | 32, 5 => some (BitVec.ofInt w (a.toInt / 2 ^ (b.toNat % w)))
  | 0, 6 => some (a ||| b)
  | 0, 7 => some (a &&& b)
  | 1, 0 => some (BitVec.ofInt w (a.toInt * b.toInt))
  | 1, 1 => some (BitVec.ofInt w (a.toInt * b.toInt / 2 ^ w))
  | 1, 2 => some (BitVec.ofInt w (a.toInt * b.toNat / 2 ^ w))
  | 1, 3 => some (BitVec.ofNat w (a.toNat * b.toNat / 2 ^ w))
  | 1, 4 => some (if b = 0 then -1 else BitVec.ofInt w (a.toInt.tdiv b.toInt))
  | 1, 5 => some (if b = 0 then -1 else BitVec.ofNat w (a.toNat / b.toNat))
  | 1, 6 => some (if b = 0 then a else BitVec.ofInt w (a.toInt.tmod b.toInt))
  | 1, 7 => some (if b = 0 then a else BitVec.ofNat w (a.toNat % b.toNat))
  | _, _ => none
/-- What an AMO stores, by funct5. -/
def amoRes {w : Nat} (f5 : Nat) (a b : BitVec w) : Option (BitVec w) :=
  match f5 with
  | 0 => some (a + b)
  | 1 => some b
  | 4 => some (a ^^^ b)
  | 8 => some (a ||| b)
  | 12 => some (a &&& b)
  | 16 => some (if a.toInt ≤ b.toInt then a else b)
  | 20 => some (if b.toInt ≤ a.toInt then a else b)
  | 24 => some (if a.toNat ≤ b.toNat then a else b)
  | 28 => some (if b.toNat ≤ a.toNat then a else b)
  | _ => none
def rvBranch (f3 : Nat) (a b : BitVec 64) : Option Bool :=
  match f3 with
  | 0 => some (decide (a = b))
  | 1 => some (decide (a ≠ b))
  | 4 => some (decide (a.toInt < b.toInt))
  | 5 => some (decide (b.toInt ≤ a.toInt))
  | 6 => some (decide (a.toNat < b.toNat))
  | 7 => some (decide (b.toNat ≤ a.toNat))
  | _ => none
/-- The outcome of a jump: the hart stands at `pc`, register `rd` holds `v`, one more instruction has retired. -/
def HartGoes (s : State) (h rd : Nat) (v pc : BitVec 64) (out : Out) : Prop :=
  let x := s.hart h
  ∃ x', out = .next { s.setHart h x' with cur := .none } ∧ (∀ r, x'.reg r = if r ≠ 0 ∧ r = rd then v else x.reg r) ∧ x'.pc = pc ∧
    x'.instret = (x.instret + 1) % 2 ^ 64 ∧
    ({ x' with x := x.x, pc := x.pc, instret := x.instret, xfault := x.xfault, answer := x.answer, due := x.due } : Hart) = x

end Sys2Proof.Claim
end

