-- ==== Sys2Proof/Certificates/Slice0/Obligations.lean ====
section
/-! DEFINITION. The statements for the provers. Each docstring names the rules of the manual that the statement formalises; the log entries
named are the model's own choices. -/

section

open Sys2Proof Sys2Proof.Machine Sys2Proof.Claim

/-! ### Integer forms (08 R181 to R190) -/

/-- 08 R184: IADD, ISUB, IMUL, IMAD, IMULHI, IMIN and IMAX, vector and scalar: each answers a next state with the exact result, clamped under
.sat, in every active lane; a scalar form runs once when a lane is active; no sticky flag, no other register, no memory changes. -/
def Sys2Proof.Claim.IntegerArithmetic : Prop :=
  ∀ (s : State) (k : Nat) (g : Group) (x : Split), s.issuer? = some (k, g, x) →
    (∀ o : IntBin,
      let act := s.active g x o.g
      let w := wd o.b64
      let a := fun l => rd o.uns w (s.src g .sign o.b64 l o.a)
      let b := fun l => rd o.uns w (s.src g .sign o.b64 l o.b)
      let R := fun f out => VecResult s k g act o.b64 o.d f 0 out
      R (fun l => arithRes o.sat o.uns w (a l + b l)) (exec (.iadd o) s) ∧
      R (fun l => arithRes o.sat o.uns w (a l - b l)) (exec (.isub o) s) ∧
      R (fun l => arithRes o.sat o.uns w (a l * b l)) (exec (.imul o) s) ∧
      R (fun l => wr w (a l * b l / 2 ^ w)) (exec (.imulhi o) s) ∧
      R (fun l => wr w (if a l < b l then a l else b l)) (exec (.imin o) s) ∧
      R (fun l => wr w (if a l > b l then a l else b l)) (exec (.imax o) s)) ∧
    (∀ o : IntTer,
      let r := fun l y => rd o.uns (wd o.b64) (s.src g .sign o.b64 l y)
      VecResult s k g (s.active g x o.g) o.b64 o.d
        (fun l => arithRes o.sat o.uns (wd o.b64) (r l o.a * r l o.b + r l o.c)) 0 (exec (.imad o) s)) ∧
    (∀ o : SIntBin,
      let act := s.active g x o.g
      let w := wd o.b64
      let a := rd o.uns w (s.ssrc g .sign o.b64 o.a)
      let b := rd o.uns w (s.ssrc g .sign o.b64 o.b)
      SclResult s k g act o.d (arithRes o.sat o.uns w (a + b)) (exec (.iaddScalar o) s) ∧
      SclResult s k g act o.d (arithRes o.sat o.uns w (a - b)) (exec (.isubScalar o) s) ∧
      SclResult s k g act o.d (arithRes o.sat o.uns w (a * b)) (exec (.imulScalar o) s) ∧
      SclResult s k g act o.d (wr w (a * b / 2 ^ w)) (exec (.imulhiScalar o) s) ∧
      SclResult s k g act o.d (wr w (if a < b then a else b)) (exec (.iminScalar o) s) ∧
      SclResult s k g act o.d (wr w (if a > b then a else b)) (exec (.imaxScalar o) s)) ∧
    (∀ o : SIntTer,
      let r := fun y => rd o.uns (wd o.b64) (s.ssrc g .sign o.b64 y)
      SclResult s k g (s.active g x o.g) o.d (arithRes o.sat o.uns (wd o.b64) (r o.a * r o.b + r o.c)) (exec (.imadScalar o) s))

/-- 08 R185: the shifts, funnel shifts, counts, BREV, BFX and BFI, with the scalar shifts: results and frame. -/
def Obligations.ShiftsAndBitFields : Prop :=
  ∀ (s : State) (k : Nat) (g : Group) (x : Split), s.issuer? = some (k, g, x) →
    (∀ o : IntBin,
      let act := s.active g x o.g
      let w := wd o.b64
      let a := fun l => s.src g .zero o.b64 l o.a
      let n := fun l => (s.src g .zero false l o.b).toNat % 256
      let R := fun f out => VecResult s k g act o.b64 o.d f 0 out
      R (fun l => wr w (if n l ≥ w then 0 else rd true w (a l) * 2 ^ n l)) (exec (.shl o) s) ∧
      R (fun l => wr w (if n l ≥ w then 0 else rd true w (a l) / 2 ^ n l)) (exec (.shr o) s) ∧
      R (fun l => wr w (if n l ≥ w then (if rd false w (a l) < 0 then -1 else 0) else rd false w (a l) / 2 ^ n l)) (exec (.sar o) s) ∧
      R (fun l => bfxRes o.uns w (a l) (s.src g .zero false l o.b)) (exec (.bfx o) s)) ∧
    (∀ o : IntTer,
      let act := s.active g x o.g
      let r := fun l y => (s.src32 g .sign l y).toNat
      VecResult s k g act false o.d
        (fun l => BitVec.ofNat 64 ((r l o.a * 2 ^ 32 + r l o.c) * 2 ^ (r l o.b % 32) % 2 ^ 64 / 2 ^ 32)) 0 (exec (.fshl o) s) ∧
      VecResult s k g act false o.d
        (fun l => BitVec.ofNat 64 ((r l o.a * 2 ^ 32 + r l o.c) / 2 ^ (r l o.b % 32) % 2 ^ 32)) 0 (exec (.fshr o) s) ∧
      VecResult s k g act o.b64 o.d
        (fun l => bfiRes (wd o.b64) (s.src g .sign o.b64 l o.a) (s.src g .sign false l o.b) (s.src g .sign o.b64 l o.c)) 0
        (exec (.bfi o) s)) ∧
    (∀ o : IntUn,
      let act := s.active g x o.g
      let w := wd o.b64
      let a := fun l => (s.src g .sign o.b64 l o.a).setWidth w
      VecResult s k g act o.b64 o.d (fun l => (a l).cpop.setWidth 64) 0 (exec (.popc o) s) ∧
      VecResult s k g act o.b64 o.d (fun l => (a l).clz.setWidth 64) 0 (exec (.clz o) s) ∧
      VecResult s k g act o.b64 o.d (fun l => (a l).reverse.setWidth 64) 0 (exec (.brev o) s)) ∧
    (∀ o : SIntBin,
      let act := s.active g x o.g
      let w := wd o.b64
      let a := s.ssrc g .zero o.b64 o.a
      let n := (s.ssrc g .zero o.b64 o.b).toNat % 256
      SclResult s k g act o.d (wr w (if n ≥ w then 0 else rd true w a * 2 ^ n)) (exec (.shlScalar o) s) ∧
      SclResult s k g act o.d (wr w (if n ≥ w then 0 else rd true w a / 2 ^ n)) (exec (.shrScalar o) s) ∧
      SclResult s k g act o.d (wr w (if n ≥ w then (if rd false w a < 0 then -1 else 0) else rd false w a / 2 ^ n))
        (exec (.sarScalar o) s))

/-- 08 R186: each bit of LOP3 is the table's entry 4 a + 2 b + c, vector and scalar. -/
def Obligations.LogicByTable : Prop :=
  ∀ (s : State) (k : Nat) (g : Group) (x : Split), s.issuer? = some (k, g, x) →
    (∀ o : Lop3V,
      let r := fun l y i => (s.src g .zero o.b64 l y).toNat.testBit i
      VecResult s k g (s.active g x o.g) o.b64 o.d
        (fun l => bitsRes (wd o.b64) fun i =>
          o.lut.getLsbD (4 * (r l o.a i).toNat + 2 * (r l o.b i).toNat + (r l o.c i).toNat)) 0 (exec (.lop3 o) s)) ∧
    (∀ o : Lop3S,
      let r := fun y i => (s.ssrc g .zero o.b64 y).toNat.testBit i
      SclResult s k g (s.active g x o.g) o.d
        (bitsRes (wd o.b64) fun i => o.lut.getLsbD (4 * (r o.a i).toNat + 2 * (r o.b i).toNat + (r o.c i).toNat))
        (exec (.lop3Scalar o) s))

/-- 08 R187: ISETP and SEL, vector and scalar: the comparison joined with the predicate; the choice by the predicate, which the scalar SEL
reads in the lowest active lane. -/
def Obligations.CompareAndSelect : Prop :=
  ∀ (s : State) (k : Nat) (g : Group) (x : Split), s.issuer? = some (k, g, x) →
    (∀ o : IsetpV,
      let r := fun l y => rd o.uns (wd o.b64) (s.src g .sign o.b64 l y)
      PredResult s k g (s.active g x o.g) o.d
        (fun l => bopRes o.bop (cmpRes o.cmp (r l o.a) (r l o.b)) (xor ((s.readP g o.pc.toNat).getLsbD l) o.pcn)) (exec (.isetp o) s)) ∧
    (∀ o : IsetpS,
      let r := fun y => rd o.uns (wd o.b64) (s.ssrc g .sign o.b64 y)
      PredResult s k g (s.active g x o.g) o.d
        (fun l => bopRes o.bop (cmpRes o.cmp (r o.a) (r o.b)) (xor ((s.readP g o.pc.toNat).getLsbD l) o.pcn)) (exec (.isetpScalar o) s)) ∧
    (∀ o : SelV,
      VecResult s k g (s.active g x o.g) o.b64 o.d
        (fun l => s.src g .sign o.b64 l (if xor ((s.readP g o.pc.toNat).getLsbD l) o.pcn then o.a else o.b)) 0 (exec (.sel o) s)) ∧
    (∀ (o : SelS) (j : Nat),
      let act := s.active g x o.g
      (act ≠ 0 → act.getLsbD j = true ∧ ∀ i < j, act.getLsbD i = false) →
      SclResult s k g act o.d
        (wr (wd o.b64) (s.ssrc g .sign o.b64 (if xor ((s.readP g o.pc.toNat).getLsbD j) o.pcn then o.a else o.b)).toNat)
        (exec (.selScalar o) s))

/-- 08 R188 to R190: the MOV forms, LEA, S2V and V2S. -/
def Obligations.Moves : Prop :=
  ∀ (s : State) (k : Nat) (g : Group) (x : Split), s.issuer? = some (k, g, x) →
    (∀ o : IntUn, VecResult s k g (s.active g x o.g) o.b64 o.d (fun l => s.src g .sign o.b64 l o.a) 0 (exec (.mov o) s)) ∧
    (∀ o : MovImmV,
      VecResult s k g (s.active g x o.g) false o.d (fun _ => o.imm.setWidth 64) 0 (exec (.movImm32 o) s) ∧
      VecResult s k g (s.active g x o.g) true o.d (fun _ => o.imm.signExtend 64) 0 (exec (.movImm32B64 o) s)) ∧
    (∀ o : SIntUn, SclResult s k g (s.active g x o.g) o.d (wr (wd o.b64) (s.ssrc g .sign o.b64 o.a).toNat) (exec (.movScalar o) s)) ∧
    (∀ o : MovImmS,
      let act := s.active g x o.g
      SclResult s k g act o.d (BitVec.ofNat 64 o.imm.toNat) (exec (.movImm32Scalar o) s) ∧
      SclResult s k g act o.d (BitVec.ofInt 64 o.imm.toInt) (exec (.movImm32B64Scalar o) s) ∧
      SclResult s k g act o.d (BitVec.ofNat 64 (o.imm.toNat * 2 ^ 32 + (s.readS g o.d.toNat).toNat % 2 ^ 32)) (exec (.movHiScalar o) s)) ∧
    (∀ o : LeaV,
      VecResult s k g (s.active g x o.g) o.b64 o.d
        (fun l => wr (wd o.b64) ((s.src g .sign o.b64 l o.a).toNat + leaB o.b.isImm o.sx o.b64 (s.src g .sign false l o.b) * 2 ^ o.sh.toNat))
        0 (exec (.lea o) s)) ∧
    (∀ o : LeaS,
      SclResult s k g (s.active g x o.g) o.d
        (wr (wd o.b64) ((s.ssrc g .sign o.b64 o.a).toNat + leaB o.b.isImm o.sx o.b64 (s.ssrc g .sign o.b64 o.b) * 2 ^ o.sh.toNat))
        (exec (.leaScalar o) s)) ∧
    (∀ (o : S2vOp) (n : BitVec 6), o.sel = .lane n →
      VecResult s k g (s.active g x o.g &&& BitVec.twoPow 64 (n.toNat % g.width)) o.b64 o.d (fun _ => s.readS g o.a.toNat) 0
        (exec (.s2v o) s)) ∧
    (∀ o : S2vOp, o.sel = .all →
      VecResult s k g (s.active g x o.g) false o.d (fun l => if (s.readS g o.a.toNat).getLsbD l then 1 else 0) 0 (exec (.s2v o) s)) ∧
    (∀ (o : V2sOp) (j : Nat),
      let act := s.active g x o.g
      (∀ n, o.sel = .lane n → j = n.toNat % g.width) →
      (o.sel = .all → act ≠ 0 → act.getLsbD j = true ∧ ∀ i < j, act.getLsbD i = false) →
      SclResult s k g act o.d (if o.b64 then s.readV64 g o.a.toNat j else (s.readV g o.a.toNat j).setWidth 64) (exec (.v2s o) s))

/-- 02 R50: a compact integer half acts as the full form on v0 to v127 and s0 to s63, without modifiers; the filler does nothing. -/
def Sys2Proof.Claim.CompactIntegers : Prop :=
  (∀ s : State, exec .filler s = .next s) ∧
  ∀ (s : State) (o : Compact),
    let f : IntBin := { g := { neg := o.gn, p := if o.gp = 3 then 7 else o.gp.setWidth 3 }, b64 := false, sat := false, uns := false,
                        d := o.d.setWidth 8, a := .v (o.a.setWidth 8), b := match o.b with
                          | .v n => .v (n.setWidth 8)
                          | .s n => .s n }
    let same := fun c i => ∃ t, exec c s = .next t ∧ exec i s = .next t
    same (.iaddCompact o) (.iadd f) ∧ same (.isubCompact o) (.isub f) ∧ same (.iminCompact o) (.imin f) ∧
    same (.imaxCompact o) (.imax f) ∧ same (.shlCompact o) (.shl f) ∧ same (.shrCompact o) (.shr f) ∧
    same (.sarCompact o) (.sar f) ∧ same (.imulCompact o) (.imul f) ∧
    ∀ m : CompactMov, same (.movCompact m)
      (.mov { g := { neg := m.gn, p := if m.gp = 3 then 7 else m.gp.setWidth 3 }, b64 := false, d := m.d.setWidth 8,
              a := .v (m.a.setWidth 8) })

/-- Integer arithmetic, full and compact: the two parts stated as IntegerArithmetic, CompactIntegers. -/
def Obligations.IntegerForms : Prop :=
  Sys2Proof.Claim.IntegerArithmetic ∧ Sys2Proof.Claim.CompactIntegers

/-! ### Floating point, tables, conversions, cross-lane (09) -/

/-- 09 R193, R194: FADD, FMUL, FFMA, FMIN and FMAX: the one rounding of the exact result, with FtzIn and FtzOut, in every active lane; the
flags that the lanes raise become sticky; nothing else changes. -/
def Sys2Proof.Claim.FloatArithmetic : Prop :=
  ∀ (s : State) (k : Nat) (g : Group) (x : Split), s.issuer? = some (k, g, x) →
    (∀ o : FBin,
      let act := s.active g x o.g
      let a := fun l => fsrcNum s g o.na l o.a
      let b := fun l => fsrcNum s g o.nb l o.b
      let R := fun (f : Nat → Nat × Flags) out =>
        VecResult s k g act false o.d (fun l => (fres g (f l)).1.setWidth 64) (anyFlags act fun l => (fres g (f l)).2) out
      R (fun l => fp32.sum (rne o.rnd) (a l) (b l)) (exec (.fadd o) s) ∧
      R (fun l => fp32.fma (rne o.rnd) false (a l) (b l) .nan) (exec (.fmul o) s)) ∧
    (∀ o : FTer,
      let act := s.active g x o.g
      let r := fun l => fres g (fp32.fma (rne o.rnd) true (fsrcNum s g o.na l o.a) (fsrcNum s g o.nb l o.b) (fsrcNum s g o.nc l o.c))
      VecResult s k g act false o.d (fun l => (r l).1.setWidth 64) (anyFlags act fun l => (r l).2) (exec (.ffma o) s)) ∧
    (∀ o : FSel,
      let act := s.active g x o.g
      let a := fun l => ftzIn g.ftz (s.src32 g .float l o.a)
      let b := fun l => ftzIn g.ftz (s.src32 g .float l o.b)
      VecResult s k g act false o.d (fun l => (fMinMax false (a l) (b l)).setWidth 64) 0 (exec (.fmin o) s) ∧
      VecResult s k g act false o.d (fun l => (fMinMax true (a l) (b l)).setWidth 64) 0 (exec (.fmax o) s))

/-- 09 R193, the invalid operations of FP32: infinities of opposite sign summed, zero times infinity even under a NaN addend: NaN and NV
alone; a NaN source: NaN and no flag. -/
def Sys2Proof.Claim.FloatInvalid : Prop :=
  ∀ (mode : Mode5) (a b c : Machine.Num),
    let nan := (0x7FC00000, ({} : Flags))
    let bad := (0x7FC00000, ({ nv := true } : Flags))
    (∀ n, fp32.sum mode (.inf n) (.inf !n) = bad) ∧
    ((a.isZero = true ∧ b.isInf = true ∨ a.isInf = true ∧ b.isZero = true) → ∀ h, fp32.fma mode h a b c = bad) ∧
    (∀ n, a.isNan = false → b.isNan = false → a.isZero = false → b.isZero = false → (a.isInf = true ∨ b.isInf = true) →
      n = (a.isNeg != b.isNeg) → fp32.fma mode true a b (.inf !n) = bad) ∧
    ((a.isNan = true ∨ b.isNan = true) → fp32.sum mode a b = nan) ∧
    (a.isNan = true ∨ b.isNan = true →
      ¬(a.isZero = true ∧ b.isInf = true ∨ a.isInf = true ∧ b.isZero = true) → ∀ h, fp32.fma mode h a b c = nan)

/-- 01 R25 under RNE, for FP32: a finite number within range goes to a code whose value no other finite code's value is nearer to; and a
number that a code holds is kept, without flags. -/
def Sys2Proof.Claim.RoundToNearest : Prop :=
  ∀ x : Machine.Dyadic, |value x| ≤ (2 ^ 24 - 1) * 2 ^ 104 →
    ∃ y : Machine.Dyadic, fp32.decode (fp32.round .rne x).1 = .fin y ∧
      (∀ (w : Nat) (z : Machine.Dyadic), fp32.decode w = .fin z → |value y - value x| ≤ |value z - value x|) ∧
      ((∃ (w : Nat) (z : Machine.Dyadic), fp32.decode w = .fin z ∧ value z = value x) → value y = value x ∧ (fp32.round .rne x).2 = {})

/-- FADD, FMUL, FFMA: one rounding, invalid operations, nearest: the three parts stated as FloatArithmetic, FloatInvalid, RoundToNearest. -/
def Obligations.FloatingForms : Prop :=
  Sys2Proof.Claim.FloatArithmetic ∧ Sys2Proof.Claim.FloatInvalid ∧ Sys2Proof.Claim.RoundToNearest

/-- 09 R195, R187: FSETP compares as the table of codes says (a NaN makes every comparison false but .ne and .nan), joins the predicate and
raises no flag. -/
def Sys2Proof.Claim.FloatCompare : Prop :=
  (∀ (c : FCmp) (a b : Machine.Num), (a.isNan = true ∨ b.isNan = true) → fCompare c a b = (c == .ne || c == .nan)) ∧
  (∀ a b : Machine.Dyadic,
    fCompare .eq (.fin a) (.fin b) = decide (value a = value b) ∧ fCompare .ne (.fin a) (.fin b) = decide (value a ≠ value b) ∧
    fCompare .lt (.fin a) (.fin b) = decide (value a < value b) ∧ fCompare .le (.fin a) (.fin b) = decide (value a ≤ value b) ∧
    fCompare .gt (.fin a) (.fin b) = decide (value b < value a) ∧ fCompare .ge (.fin a) (.fin b) = decide (value b ≤ value a) ∧
    fCompare .num (.fin a) (.fin b) = true ∧ fCompare .nan (.fin a) (.fin b) = false) ∧
  ∀ (s : State) (k : Nat) (g : Group) (x : Split), s.issuer? = some (k, g, x) → ∀ o : FsetpOp,
    PredResult s k g (s.active g x o.g) o.d
      (fun l => bopRes o.bop (fCompare o.cmp (fsrcNum s g false l o.a) (fsrcNum s g false l o.b))
        (xor ((s.readP g o.pc.toNat).getLsbD l) o.pcn)) (exec (.fsetp o) s)

/-- 09 R196: HADD2, HMUL2 and HFMA2 act on two FP16 or BF16 elements, each with one rounding. -/
def Sys2Proof.Claim.PackedArithmetic : Prop :=
  ∀ (s : State) (k : Nat) (g : Group) (x : Split), s.issuer? = some (k, g, x) →
    (∀ o : HBin,
      let act := s.active g x o.g
      let fm := if o.bf then bf16 else fp16
      let a := fun l => half o.bf o.na (s.src32 g .float l o.a)
      let b := fun l => half o.bf o.nb (s.src32 g .float l o.b)
      let R := fun (f : Nat → LaneWord × Flags) out =>
        VecResult s k g act false o.d (fun l => (f l).1.setWidth 64) (anyFlags act fun l => (f l).2) out
      R (fun l => halves fun i => fm.sum (rne o.rnd) (a l i) (b l i)) (exec (.hadd2 o) s) ∧
      R (fun l => halves fun i => fm.fma (rne o.rnd) false (a l i) (b l i) .nan) (exec (.hmul2 o) s)) ∧
    (∀ o : HTer,
      let act := s.active g x o.g
      let fm := if o.bf then bf16 else fp16
      let f := fun l => halves fun i => fm.fma (rne o.rnd) true (half o.bf o.na (s.src32 g .float l o.a) i)
        (half o.bf o.nb (s.src32 g .float l o.b) i) (half o.bf o.nc (s.src32 g .float l o.c) i)
      VecResult s k g act false o.d (fun l => (f l).1.setWidth 64) (anyFlags act fun l => (f l).2) (exec (.hfma2 o) s))

/-- 02 R50: a compact floating half acts as its full form with default rounding, C equal to D. -/
def Sys2Proof.Claim.CompactFloats : Prop :=
  ∀ (s : State) (o : Compact),
    let g : Guard := { neg := o.gn, p := if o.gp = 3 then 7 else o.gp.setWidth 3 }
    let a : Src := .v (o.a.setWidth 8)
    let c : Src := .v (o.d.setWidth 8)
    let b : Src := match o.b with
      | .v n => .v (n.setWidth 8)
      | .s n => .s n
    let d : BitVec 8 := o.d.setWidth 8
    let f2 : FBin := { g := g, rnd := .dflt, na := false, nb := false, d := d, a := a, b := b }
    let h2 := fun bf => ({ g := g, rnd := .dflt, bf := bf, na := false, nb := false, d := d, a := a, b := b } : HBin)
    let h3 := fun bf => ({ g := g, rnd := .dflt, bf := bf, na := false, nb := false, nc := false, d := d, a := a, b := b, c := c } : HTer)
    let same := fun c i => ∃ t, exec c s = .next t ∧ exec i s = .next t
    same (.faddCompact o) (.fadd f2) ∧ same (.fmulCompact o) (.fmul f2) ∧
    same (.ffmaCompact o) (.ffma { g := g, rnd := .dflt, na := false, nb := false, nc := false, d := d, a := a, b := b, c := c }) ∧
    same (.fminCompact o) (.fmin { g := g, d := d, a := a, b := b }) ∧ same (.fmaxCompact o) (.fmax { g := g, d := d, a := a, b := b }) ∧
    same (.hadd2F16Compact o) (.hadd2 (h2 false)) ∧ same (.hmul2F16Compact o) (.hmul2 (h2 false)) ∧
    same (.hfma2F16Compact o) (.hfma2 (h3 false)) ∧ same (.hadd2Bf16Compact o) (.hadd2 (h2 true)) ∧
    same (.hmul2Bf16Compact o) (.hmul2 (h2 true)) ∧ same (.hfma2Bf16Compact o) (.hfma2 (h3 true))

/-- Packed FP16 and BF16 forms, and the compact floating halves: the two parts stated as PackedArithmetic, CompactFloats. -/
def Obligations.PackedAndCompactFloats : Prop :=
  Sys2Proof.Claim.PackedArithmetic ∧ Sys2Proof.Claim.CompactFloats

/-- 09 R198, R199: the eight special functions: each writes FtzOut of its result and raises the flags of its lanes, and the special sources
give the values and flags of the table (FSIN of a whole number keeps the sign of x, FCOS of a half-odd number is +0). For other sources
of FRSQ, FEXP2, FLOG2, FSIN, FCOS and FTANH the result is a free value within the bound (log 10). -/
def Sys2Proof.Claim.SpecialFunctions : Prop :=
  (∀ (s : State) (k : Nat) (g : Group) (x : Split), s.issuer? = some (k, g, x) → ∀ o : VUn,
    let act := s.active g x o.g
    let r := fun f l => ftzOut g.ftz (sfuLane f (ftzIn g.ftz (s.readV g o.a.toNat l)))
    let R := fun f out => VecResult s k g act false o.d (fun l => (r f l).1.setWidth 64) (anyFlags act fun l => (r f l).2) out
    R .rcp (exec (.frcp o) s) ∧ R .rsq (exec (.frsq o) s) ∧ R .sqrt (exec (.fsqrt o) s) ∧ R .exp2 (exec (.fexp2 o) s) ∧
    R .log2 (exec (.flog2 o) s) ∧ R .sin (exec (.fsin o) s) ∧ R .cos (exec (.fcos o) s) ∧ R .tanh (exec (.ftanh o) s)) ∧
  (let nan : LaneWord := 0x7FC00000
   let val := fun (f : SfuFn) (w r : LaneWord) => sfuLane f w = (r, {})
   let bad := fun (f : SfuFn) (w : LaneWord) => sfuLane f w = (nan, { nv := true })
   let div := fun (f : SfuFn) (w r : LaneWord) => sfuLane f w = (r, { dz := true })
   let mz : LaneWord := 0x80000000
   let pi : LaneWord := 0x7F800000
   let mi : LaneWord := 0xFF800000
   (val .rcp mi mz ∧ div .rcp mz mi ∧ div .rcp 0 pi ∧ val .rcp pi 0) ∧
   (bad .rsq mi ∧ div .rsq mz mi ∧ div .rsq 0 pi ∧ val .rsq pi 0) ∧
   (bad .sqrt mi ∧ val .sqrt mz mz ∧ val .sqrt 0 0 ∧ val .sqrt pi pi) ∧
   (val .exp2 mi 0 ∧ val .exp2 mz 0x3F800000 ∧ val .exp2 0 0x3F800000 ∧ val .exp2 pi pi) ∧
   (bad .log2 mi ∧ div .log2 mz mi ∧ div .log2 0 mi ∧ val .log2 pi pi) ∧
   (bad .sin mi ∧ val .sin mz mz ∧ val .sin 0 0 ∧ bad .sin pi) ∧
   (bad .cos mi ∧ val .cos mz 0x3F800000 ∧ val .cos 0 0x3F800000 ∧ bad .cos pi) ∧
   (val .tanh mi 0xBF800000 ∧ val .tanh mz mz ∧ val .tanh 0 0 ∧ val .tanh pi 0x3F800000)) ∧
  (∀ (f : SfuFn) (w : LaneWord), (fp32.decode w.toNat).isNan = true → sfuLane f w = (0x7FC00000, {})) ∧
  (∀ (w : LaneWord) (d : Machine.Dyadic), fp32.decode w.toNat = .fin d → d.m ≠ 0 → d.neg = true →
    sfuLane .rsq w = (0x7FC00000, { nv := true }) ∧ sfuLane .sqrt w = (0x7FC00000, { nv := true }) ∧
    sfuLane .log2 w = (0x7FC00000, { nv := true })) ∧
  (∀ (w : LaneWord) (d : Machine.Dyadic), fp32.decode w.toNat = .fin d → d.m ≠ 0 →
    ((∃ n : ℤ, value d = n) → sfuLane .sin w = (if d.neg then 0x80000000 else 0, {})) ∧
    ((∃ n : ℤ, value d + 1 / 2 = n) → sfuLane .cos w = (0, {})) ∧
    (10 ≤ |value d| → sfuLane .tanh w = (if d.neg then 0xBF800000 else 0x3F800000, {})))

/-- FSETP and the special functions: the two parts stated as FloatCompare, SpecialFunctions. -/
def Obligations.FloatCompareAndSpecial : Prop :=
  Sys2Proof.Claim.FloatCompare ∧ Sys2Proof.Claim.SpecialFunctions

/-- 09 R205 to R208: the conversions. Between integers a value is clamped under .sat and else taken modulo 2^w; every other pair rounds the
source's value once, with RNA by default for a target narrower than 16 bits; the flags of the lanes become sticky. -/
def Obligations.Conversions : Prop :=
  ∀ (s : State) (k : Nat) (g : Group) (x : Split), s.issuer? = some (k, g, x) →
    let R := fun (act : LaneMask) (b64 : Bool) (d : BitVec 8) (f : Nat → BitVec 64 × Flags) out =>
      VecResult s k g act b64 d (fun l => (f l).1) (anyFlags act fun l => (f l).2) out
    (∀ (o : CvtOp) (w v : Nat) (sg sv : Bool), cvtTarget o.uns o.dt = .int w sg → cvtTarget o.uns o.st = .int v sv →
      R (s.active g x o.g) (o.dt == .b64) o.d (fun l =>
        let y := rd (!sv) v (if o.st = .b64 then s.readV64 g o.a.toNat l else (s.readV g o.a.toNat l).setWidth 64)
        let lo : Int := if sg then -2 ^ (w - 1) else 0
        let hi : Int := if sg then 2 ^ (w - 1) - 1 else 2 ^ w - 1
        let z := if o.sat then max lo (min y hi) else y
        (BitVec.ofInt 64 (if sg then Int.bmod z (2 ^ w) % 2 ^ (max w 32) else z % 2 ^ w), {})) (exec (.cvt o) s)) ∧
    (∀ o : CvtOp, (o.dt.isInt && o.st.isInt) = false →
      R (s.active g x o.g) (o.dt == .b64) o.d (fun l =>
        let t := cvtTarget o.uns o.dt
        cvtResult t g.ftz (t.convert (modeOf o.rnd (if t.bits < 16 then .rna else .rne))
          (cvtSource (cvtTarget o.uns o.st) g.ftz
            (if o.st = .b64 then s.readV64 g o.a.toNat l else (s.readV g o.a.toNat l).setWidth 64)))) (exec (.cvt o) s)) ∧
    (∀ o : Cvtp2Op,
      let c := fun l (n : BitVec 8) =>
        (Target.flt (if o.bf then bf16 else fp16)).convert (rne o.rnd) (fp32.decode (ftzIn g.ftz (s.readV g n.toNat l)).toNat)
      R (s.active g x o.g) false o.d
        (fun l => let h := halves fun i => c l (if i = 0 then o.a else o.b); (h.1.setWidth 64, h.2)) (exec (.cvtp2 o) s)) ∧
    (∀ o : Cvtp4Op,
      R (s.active g x o.g) false o.d
        (fun l => let p := packAll (packTarget o.dt) (modeOf o.rnd .rna) (s.packSource g o.a o.scale l) o.dt.count; (p.1.setWidth 64, p.2))
        (exec (.cvtp4 o) s)) ∧
    (∀ o : CvtdsOp,
      R (s.active g x o.g) false o.d
        (fun l => let p := packAll .ds8 (modeOf o.rnd .rna) (s.packSource g o.a o.scale l) 4; (p.1.setWidth 64, p.2)) (exec (.cvtds o) s)) ∧
    (∀ o : UnpkOp, o.st.isInt = true →
      let b := if o.st = .s16 ∨ o.st = .z16 then 16 else 8
      R (s.active g x o.g) false o.d (fun l =>
        let e := (s.readV g o.a.toNat l).toNat / 2 ^ (b * o.i.toNat) % 2 ^ b
        (wr 32 (if o.st = .s8 ∨ o.st = .s16 then Int.bmod e (2 ^ b) else e), {})) (exec (.unpk o) s)) ∧
    (∀ o : UnpkOp, o.st.isInt = false →
      R (s.active g x o.g) false o.d (fun l =>
        let v := unpkValue o.st (s.readV g o.a.toNat l) o.i.toNat
        let r := match o.scale with
          | none => fres g ((Target.flt fp32).convert .rne v)
          | some n =>
            let e := (s.readV g n.toNat l).toNat % 256
            if e = 255 then (0x7FC00000, {}) else fres g ((Target.flt fp32).convert .rne (v.scale ((e : Int) - 127)))
        (r.1.setWidth 64, r.2)) (exec (.unpk o) s))

/-- 09 R210 to R212, R214: SHFL, VOTE and MATCH within the tiles of the partition register: only active lanes give values and take results. -/
def Sys2Proof.Claim.CrossLane : Prop :=
  ∀ (s : State) (k : Nat) (g : Group) (x : Split), s.issuer? = some (k, g, x) → (g.width = 16 ∨ g.width = 32 ∨ g.width = 64) →
    (∀ o : ShflOp,
      let act := s.active g x o.g
      let T := tileLanes g
      let b := fun l => (s.src32 g .zero l o.b).toNat
      let j := fun l => match o.mode with
        | .idx => tb g l + b l % T
        | .up => if b l ≤ l - tb g l then l - b l else l
        | .down => if l + b l < tb g l + T then l + b l else l
        | .xor => l ^^^ (b l % T)
      VecResult s k g act o.b64 o.d (fun l => s.src g .zero o.b64 (if act.getLsbD (j l) then j l else l) (.v o.a)) 0 (exec (.shfl o) s)) ∧
    (∀ o : VoteOp,
      let act := s.active g x o.g
      let q := fun l => xor ((s.readP g o.pa.toNat).getLsbD l) o.pan
      let ls := fun l => (List.range (tileLanes g)).filter fun i => act.getLsbD (tb g l + i)
      let all := fun v l => (ls l).all fun i => q (tb g l + i) == v
      (∀ d, o.dst = .all d → PredResult s k g act d (all true) (exec (.vote o) s)) ∧
      (∀ d, o.dst = .any d → PredResult s k g act d (fun l => !all false l) (exec (.vote o) s)) ∧
      (∀ d, o.dst = .uni d → PredResult s k g act d (fun l => all true l || all false l) (exec (.vote o) s)) ∧
      (∀ d, o.dst = .ballot d →
        VecResult s k g act true d (fun l => tileBits g l fun j => act.getLsbD j && q j) 0 (exec (.vote o) s))) ∧
    (∀ o : MatchOp,
      let act := s.active g x o.g
      let v := fun l => s.src g .zero o.b64 l (.v o.a)
      VecResult s k g act true o.d (fun l => tileBits g l fun j => act.getLsbD j && v j == v l) 0 (exec (.matchLanes o) s))

/-- 09 R213: REDUX gives every active lane the fixed tree of its tile, SCAN the running value before or after its position, with the
identity for inactive positions; REDUX.add is the sum of the active lanes' values. -/
def Sys2Proof.Claim.Reductions : Prop :=
  ∀ (s : State) (k : Nat) (g : Group) (x : Split), s.issuer? = some (k, g, x) → (g.width = 16 ∨ g.width = 32 ∨ g.width = 64) →
    (∀ o : ReduxOp,
      let act := s.active g x o.g
      ∃ fl, VecResult s k g act o.op.b64 o.d
        (fun l => redRes g o.op (redTreeAt o.op (redIn s g o.op o.a act l) (Nat.log2 (tileLanes g)) 0)) fl (exec (.redux o) s) ∧
        (redFloat o.op = false → fl = 0)) ∧
    (∀ (o : ReduxOp) (b64 : Bool), o.op = .add b64 →
      let act := s.active g x o.g
      VecResult s k g act b64 o.d
        (fun l => BitVec.ofNat 64 (((List.range (tileLanes g)).filter fun i => act.getLsbD (tb g l + i)).map fun i =>
          (s.src g .zero b64 (tb g l + i) (.v o.a)).toNat).sum) 0 (exec (.redux o) s)) ∧
    (∀ o : ScanOp,
      let act := s.active g x o.g
      ∃ fl, VecResult s k g act o.op.b64 o.d
        (fun l => redRes g o.op (scanAt o.op (redIn s g o.op o.a act l) (l - tb g l + if o.excl then 0 else 1))) fl (exec (.scan o) s) ∧
        (redFloat o.op = false → fl = 0))

/-- Cross-lane forms and reductions stay in their tile: the two parts stated as CrossLane, Reductions. -/
def Obligations.LanesOfATile : Prop :=
  Sys2Proof.Claim.CrossLane ∧ Sys2Proof.Claim.Reductions

/-- 09 R200 to R203, R209: the activation table. ATAB writes and raises in the active lanes what bank ATB gives; ATLOAD, ATLOAD.ctl and
ATSWAP join the table's one order; with no active lane nothing happens; the table of another context traps ATAB_CONFLICT. SETMODE clears
the flags and writes FTZ, PARTSET the tile width, and nothing else. -/
def Sys2Proof.Claim.TableForms : Prop :=
  ∀ (s : State) (k : Nat) (g : Group) (x : Split), s.issuer? = some (k, g, x) →
    let c := coreOf k
    let mine := (s.core c).owner = .none ∨ (s.core c).owner = some (s.asidOf g)
    let s1 := s.updCore c fun y => { y with owner := some (s.asidOf g) }
    let join := fun (ops : List (Nat × AtOp)) (out : Out) => ∃ t, out = .next t ∧
      t = { s with cores := t.cores } ∧ (t.core c).atops = (s.core c).atops ++ ops ∧ (t.core c).owner = some (s.asidOf g) ∧
      (t.core c).atab = (s.core c).atab ∧ (t.core c).atctl = (s.core c).atctl ∧ (t.core c).act = (s.core c).act ∧
      ∀ c', c' ≠ c → t.core c' = s.core c'
    (mine →
      (∀ o : VUn, s.active g x o.g ≠ 0 →
        let act := s.active g x o.g
        let b := if g.atb then 1 else 0
        let r := fun l => f32Out g.ftz (atabLane (fun i => (s.core c).atab.getD (256 * b + i) 0) ((s.core c).atctl.getD b 0)
          (ftzIn g.ftz (s.readV g o.a.toNat l)))
        ∃ t, exec (.atab o) s = .next t ∧ t.cores = (if (s.core c).owner = .none then s1.cores else s.cores) ∧
          VecResult { s with cores := t.cores } k g act false o.d (fun l => (r l).1.setWidth 64) (anyFlags act fun l => (r l).2)
            (exec (.atab o) s)) ∧
      (∀ o : AtloadOp, s.active g x o.g ≠ 0 →
        let act := s.active g x o.g
        let b := (s.readS g o.b.toNat).toNat
        join (((List.range 64).filter fun l => act.getLsbD l && decide (b + l ≤ 255)).map fun l =>
          (k, AtOp.entry (g.born, g.gidx) (b + l) (s.readV64 g o.a.toNat l))) (exec (.atload o) s)) ∧
      (∀ o : SAddr, s.active g x o.g ≠ 0 → join [(k, .ctl (s.readS g o.a.toNat))] (exec (.atloadCtl o) s)) ∧
      (∀ o : GuardOnly, s.active g x o.g ≠ 0 → join [(k, .swap)] (exec (.atswap o) s))) ∧
    (let none := fun (gd : Guard) (i : Instr) =>
       (s.active g x gd = 0 → exec i s = .next s) ∧
       (s.active g x gd ≠ 0 → ¬mine → exec i s = .next (s.trapAt k x .atabConflict (s.active g x gd)))
     (∀ o : VUn, none o.g (.atab o)) ∧ (∀ o : AtloadOp, none o.g (.atload o)) ∧ (∀ o : SAddr, none o.g (.atloadCtl o)) ∧
     (∀ o : GuardOnly, none o.g (.atswap o))) ∧
    (∀ o : SetmodeOp, exec (.setmode o) s =
      .next (s.setGroup k { g with flags := if o.clr then 0 else g.flags, ftz := match o.ftz with
        | some b => b
        | .none => g.ftz })) ∧
    (∀ tw, exec (.partset tw) s = .next (s.setGroup k { g with tw := tw }))

/-- 09 R201, R202: the oldest operation at a core's table, once no clause that has not ended reads the inactive bank: a load writes one entry
or the control word of the inactive bank alone, an entry that other groups have written since the last swap taking one of the values
written; a swap makes the bank the active one. The core is the one in hand. -/
def Sys2Proof.Claim.TableOrder : Prop :=
  ∀ (s : State) (k : Nat) (rest : List (Nat × AtOp)),
    let c := s.hand
    let z := s.core c
    let bank := if z.act then 0 else 1
    let after := fun (i : Instr) (z' : Core) => exec i s = .next { s with cores := s.cores.put c z' }
    (∀ who i v, z.atops = (k, .entry who i v) :: rest → s.bankLatched c (!z.act) = false →
      ∃ tab w u, after .atloadPerform { z with atops := rest, atab := tab, atwritten := w } ∧
        (u = v ∨ ∃ e ∈ z.atwritten.getD i [], e.1 ≠ who ∧ e.2 = u) ∧
        ∀ j, tab.getD j 0 = if j = 256 * bank + i then u else z.atab.getD j 0) ∧
    (∀ v, z.atops = (k, .ctl v) :: rest → s.bankLatched c (!z.act) = false →
      ∃ ctl, after .atloadPerform { z with atops := rest, atctl := ctl } ∧
        ∀ j, ctl.getD j 0 = if j = bank then v else z.atctl.getD j 0) ∧
    (s.bankLatched c (!z.act) = true → exec .atloadPerform s = .next s) ∧
    (z.atops = (k, .swap) :: rest → after .atswapPerform { z with atops := rest, act := !z.act, atwritten := [] })

/-- The activation table, SETMODE and PARTSET: the two parts stated as TableForms, TableOrder. -/
def Obligations.ActivationTable : Prop :=
  Sys2Proof.Claim.TableForms ∧ Sys2Proof.Claim.TableOrder

/-! ### Control flow, joins, exits (12 R259 to R271) -/

/-- 12 R262, R267 to R270: BRA, BRX, CALL and RET of a split whose lanes all go one way: the split stands at the target, or at the
fall-through when no lane passes the guard; CALL writes the fall-through to the pair vD and raises the depth, RET lowers it. -/
def Sys2Proof.Claim.UniformTransfers : Prop :=
  ∀ (s : State) (k : Nat) (g : Group) (x : Split), s.issuer? = some (k, g, x) →
    let goes := fun (a : Addr) (d : Nat) out => out = Host.Outcome.next (leave s k g x fun y => { at_ a y with depth := d })
    (∀ o : BraOp,
      (s.active g x o.g = x.mask → goes (x.pc + o.off.signExtend 64) x.depth (exec (.bra o) s)) ∧
      (s.active g x o.g = 0 → goes (fallOf x) x.depth (exec (.bra o) s))) ∧
    (∀ (o : BrxOp) (a : Addr), (∀ l, x.mask.getLsbD l = true → s.target g o.t l = a) → a.toNat % 8 = 0 →
      (s.active g x o.g = x.mask → goes a x.depth (exec (.brx o) s)) ∧
      (s.active g x o.g = x.mask → x.depth ≠ 0 → goes a (x.depth - 1) (exec (.ret o) s)) ∧
      (s.active g x o.g = 0 → goes (fallOf x) x.depth (exec (.brx o) s) ∧ goes (fallOf x) x.depth (exec (.ret o) s))) ∧
    (∀ o : CallOp,
      (s.active g x o.g = x.mask → x.depth ≠ 255 →
        ∃ t, exec (.call o) s = .next t ∧ ∃ g1 : Group, t = leave s k g1 x (fun y => { at_ (x.pc + o.off.signExtend 64) y with depth := x.depth + 1 }) ∧
          VecResult s k g x.mask true o.d (fun _ => fallOf x) 0 (.next (s.setGroup k g1))) ∧
      (s.active g x o.g = 0 → goes (fallOf x) x.depth (exec (.call o) s)))

/-- 12 R268 to R270, R267: where a transfer traps: a target that is not 8-byte aligned is ILLEGAL_CLAUSE, a CALL at depth 255
SPLIT_OVERFLOW, a RET at depth 0 CALL_DEPTH; the group stops at the clause header, and every split of its table is STOPPED. -/
def Sys2Proof.Claim.TransferTraps : Prop :=
  ∀ (s : State) (k : Nat) (g : Group) (x : Split), s.issuer? = some (k, g, x) → g.stop = none →
    let stop := fun (c act : Nat) (m : LaneMask) (out : Out) => ∃ d, Stops s k g
      { cause := BitVec.ofNat 8 c, detail := d, pc := x.pc, idx := act, lanes := m } out
    (∀ o : BrxOp, s.active g x o.g ≠ 0 → (∃ l, (s.active g x o.g).getLsbD l = true ∧ (s.target g o.t l).toNat % 8 ≠ 0) →
      stop 0x01 0 (s.active g x o.g) (exec (.brx o) s) ∧ (x.depth ≠ 0 → stop 0x01 0 (s.active g x o.g) (exec (.ret o) s))) ∧
    (∀ o : BrxOp, s.active g x o.g ≠ 0 → x.depth = 0 → stop 0x0C 0 (s.active g x o.g) (exec (.ret o) s)) ∧
    (∀ o : CallOp, s.active g x o.g ≠ 0 → x.depth = 255 → stop 0x0B 0 (s.active g x o.g) (exec (.call o) s))

/-- BRA, BRX, CALL and RET, and where they trap: the two parts stated as UniformTransfers, TransferTraps. -/
def Obligations.Transfers : Prop :=
  Sys2Proof.Claim.UniformTransfers ∧ Sys2Proof.Claim.TransferTraps

/-- 12 R262, R260: a BRA whose guard passes in some lanes of its split and not in others divides it: a new record of the split's lanes,
parented at its own, and two READY splits of it, the one with the lowest lane in the split's place, the other in a FREE entry of the table
(which one is log 50). -/
def Sys2Proof.Claim.Division : Prop :=
  ∀ (s : State) (k : Nat) (g : Group) (x : Split), s.issuer? = some (k, g, x) → ∀ o : BraOp,
    let act := s.active g x o.g
    let tgt := x.pc + o.off.signExtend 64
    let j := g.recs.fresh 4096 1
    act ≠ 0 → act ≠ x.mask → tgt ≠ fallOf x → g.splits.length ≤ 3 → g.spilled = [] → j ≤ 4095 →
    (∀ e ∈ g.recs, e.2.chip = true) → g.onChip.length < 4 →
      let part := fun (m : LaneMask) (a : Addr) =>
        { at_ a x with mask := m, jid := j, st := SplitState.ready, last := g.clauses }
      let taken := part act tgt
      let fell := part (x.mask &&& ~~~act) (fallOf x)
      let first := if act.getLsbD (lowest x.mask) then taken else fell
      let other := if act.getLsbD (lowest x.mask) then fell else taken
      ∃ i, i < 4 ∧ x.place ≠ i ∧ (∀ y ∈ g.splits, y.mask ≠ x.mask → y.place ≠ i) ∧ ends s k { g with
        gio := g.gio + 1, splits := (g.splits.map fun y => if y.mask = x.mask then first else y) ++ [{ other with place := i }],
        freeEntries := g.freeEntries.del i, recs := g.recs.put j { jmask := x.mask, parent := x.jid } } (exec (.bra o) s)

/-- 12 R263: JOIN: a split that completes its record's lanes goes on at once at the fall-through under the parent record; with a split of the
record that has not arrived it waits in JOINW at its header; with the others already waiting there they become one READY split. -/
def Sys2Proof.Claim.Joins : Prop :=
  ∀ (s : State) (k : Nat) (g : Group) (x : Split), s.issuer? = some (k, g, x) → x.st = .ready → g.spilled = [] →
    let need := g.jmaskOf x.jid &&& g.live
    let done := fun (m : LaneMask) => { at_ (fallOf x) x with mask := m, jid := g.parentOf x.jid, st := SplitState.ready, wait := WaitFor.nothing }
    let result := fun (l : List Split) => ∃ g', ends s k g' (exec .join s) ∧ g'.splits = l ∧ g'.spilled = [] ∧
      g'.gio = g.gio + 1 ∧ rest { g' with gio := g.gio, splits := g.splits, recs := g.recs } = rest g ∧ g'.v = g.v ∧ g'.s = g.s ∧ g'.p = g.p
    (g.splits = [x] → need &&& ~~~x.mask = 0 → result [done x.mask]) ∧
    (∀ y : Split, g.splits = [x, y] → y.mask &&& x.mask = 0 → y.st = .ready → need &&& ~~~x.mask ≠ 0 →
      result [{ at_ x.pc x with st := .joinw, wait := .join (fallOf x) }, y]) ∧
    (∀ y : Split, g.splits = [x, y] → y.mask &&& x.mask = 0 → y.st = .joinw → y.jid = x.jid → y.pc = x.pc → y.depth = x.depth →
      y.wait = .join (fallOf x) → need &&& ~~~(x.mask ||| y.mask) = 0 → result [done (x.mask ||| y.mask)])

/-- 12 R265, R271: EXIT takes the lanes that pass its guard out of the split and of the group; an empty split is freed and the rest go on at
the fall-through. YIELD and a REGGROW that must wait leave the split at the fall-through. -/
def Sys2Proof.Claim.ExitAndYield : Prop :=
  ∀ (s : State) (k : Nat) (g : Group) (x : Split), s.issuer? = some (k, g, x) →
    (∀ (o : GuardOnly) (root : JoinRec), g.splits = [x] → g.spilled = [] → g.recs = [(0, root)] → root.chip = true → x.st = .ready →
      let act := s.active g x o.g
      ends s k { g with gio := g.gio + 1, live := g.live &&& ~~~act,
                        splits := if x.mask &&& ~~~act = 0 then [] else [{ at_ (fallOf x) x with mask := x.mask &&& ~~~act }] } (exec (.exit o) s)) ∧
    exec .yield s = .next (leave s k g x fun y =>
      { at_ (fallOf x) y with yielded := some ((s.core (coreOf k)).issued.getD g.part 0, s.cycle) })

/-- Division, JOIN, EXIT and YIELD: the three parts stated as Division, Joins, ExitAndYield. -/
def Obligations.Divergence : Prop :=
  Sys2Proof.Claim.Division ∧ Sys2Proof.Claim.Joins ∧ Sys2Proof.Claim.ExitAndYield

/-! ### Registers of the group's allocation (08 R176 to R179) -/

/-- 08 R178, R179: REGGROW within the allocation does nothing, above VMAX raises REG_RANGE at its header, and otherwise sleeps until the
grant; REGSHRINK frees the registers from v8n on, which are lost, once no access of the group is logged or held (16 R344); a group alone on
its core under the whole quota is granted the blocks that are free, their registers zero, and its waiting splits go on. -/
def Sys2Proof.Claim.RegisterAllocation : Prop :=
  (∀ (s : State) (k : Nat) (g : Group) (x : Split), s.issuer? = some (k, g, x) → ∀ n : BitVec 6,
    (n.toNat ≤ g.vmax → n.toNat ≤ g.blocks → exec (.reggrow n) s = .next s) ∧
    (n.toNat ≤ g.vmax → g.blocks < n.toNat → exec (.reggrow n) s =
      .next (leave s k g x fun y => { at_ (fallOf x) y with st := .sleep, wait := .grow n.toNat })) ∧
    (g.vmax < n.toNat → g.stop = none → ∃ d, Stops s k g { cause := 0x03, detail := d, pc := x.pc, idx := 0, lanes := x.mask }
      (exec (.reggrow n) s)) ∧
    (g.blocks ≤ n.toNat → exec (.regshrink n) s = .next s) ∧
    (n.toNat < g.blocks → (∀ o ∈ g.ops, o.place = .free ∧ ∀ r ∈ o.vd, r < 8 * n.toNat ∨ r = 255) →
      ∃ v, exec (.regshrink n) s = .next (s.setGroup k { g with blocks := n.toNat, v := v }) ∧
        ∀ r l, l < 64 → v.getD (64 * r + l) 0 = if r < 8 * n.toNat then g.v.getD (64 * r + l) 0 else 0)) ∧
  ∀ (s : State) (k : Nat) (g : Group) (x : Split) (n : Nat),
    s.groupsOn s.hand = [(k, g)] → g.splits = [x] → g.spilled = [] → x.st = .sleep → x.wait = .grow n →
    g.blocks ≤ n → n ≤ g.vmax → n * (g.width / 16) ≤ 1024 → fld (s.quota (s.partitionOf g)).toNat 10 11 = 1024 →
    ∃ v, exec .registerGrant s = .next (s.setGroup k { g with blocks := max g.blocks n, v := v, splits := [{ x with st := .ready, wait := .nothing }] }) ∧
      ∀ r l, l < 64 → v.getD (64 * r + l) 0 = if r < 8 * g.blocks then g.v.getD (64 * r + l) 0 else 0

/-! ### Barriers (06 R142, R143; 10 R230) -/

/-- 06 R143, 10 R230: Arrive. The first arrival of a phase opens it and fixes its count (the groups not retired for COUNT 0); REM falls; at
zero PH rises and the phase is closed. The arriving group, or the sequencer, keeps PH in LPH and sets ARR. -/
def Sys2Proof.Claim.BarrierArrival : Prop :=
  ∀ (s : State) (o : BarOp),
    let n := o.n.toNat
    let after := fun (s0 t : State) (team groups : Nat) =>
      let b := s0.barOf team n
      let rem := if b.isOpen then b.rem else if o.count = 0 then groups else o.count.toNat
      (t.barOf team n).ph = (if rem ≤ 1 then b.ph + 1 else b.ph) ∧ (t.barOf team n).isOpen = decide (1 < rem) ∧
      (t.barOf team n).rem = rem - 1 ∧ ∀ m, m ≠ n → t.barOf team m = s0.barOf team m
    (∀ (k : Nat) (g : Group) (x : Split) (tm : Team), s.issuer? = some (k, g, x) → s.team? g.team = some tm → g.allPerformed = true →
      s.reaches k .team = true →
      ∃ t, exec (.barArrive o) s = .next t ∧ after s t g.team (s.unretired tm) ∧ (clean s → SameMem s t) ∧
        ∃ g', t.group? k = some g' ∧ g'.lph.getD n 0 = (s.barOf g.team n).ph ∧ g'.v = g.v ∧ g'.s = g.s ∧ g'.p = g.p) ∧
    (∀ (q : Nat) (x : Seq) (tm : Team), s.cur = .seq q → s.seq? q = some x → s.team? x.team = some tm →
      ∃ t, exec (.marr o) s = .next t ∧ after s t x.team (s.unretired tm) ∧ (clean s → SameMem s t) ∧
        ∃ x', t.seq? q = some x' ∧ x'.lph.getD n 0 = (s.barOf x.team n).ph ∧ x'.q = x.q ∧ x'.t = x.t)

/-- 06 R143, 10 R230: Wait. The party waits for the phase after its last arrival, or after PH; where that phase is over it goes on with ARR
clear, and otherwise it sleeps. BAR.SYNC arrives and then waits. -/
def Sys2Proof.Claim.BarrierWait : Prop :=
  (∀ (s : State) (k : Nat) (g : Group) (x : Split), s.issuer? = some (k, g, x) → ∀ n : BitVec 4,
    let ph := (s.barOf g.team n.toNat).ph
    let tgt := if g.arr.getLsbD n.toNat then g.lph.getD n.toNat 0 else ph
    (ph = tgt → exec (.barWait n) s = .next (leave s k g x fun y => { at_ (fallOf x) y with st := .sleep, wait := .barrier n tgt })) ∧
    (ph ≠ tgt → ∃ t g', exec (.barWait n) s = .next t ∧ t.cur = .none ∧ t.group? k = some g' ∧ g'.arr.getLsbD n.toNat = false ∧
      g'.gio = g.gio + 1 ∧ g'.splits = (g.splits.map fun y => if y.mask.getLsbD (lowest x.mask) then at_ (fallOf x) y else y) ∧
      g'.v = g.v ∧ g'.s = g.s ∧ g'.p = g.p ∧ (clean s → SameMem s t))) ∧
  (∀ (s : State) (k : Nat) (g : Group) (x : Split) (tm : Team) (o : BarOp), s.issuer? = some (k, g, x) → s.team? g.team = some tm →
    g.allPerformed = true → s.reaches k .team = true →
    let b := s.barOf g.team o.n.toNat
    let rem := if b.isOpen then b.rem else if o.count = 0 then s.unretired tm else o.count.toNat
    2 ≤ rem → ∃ t g', exec (.barSync o) s = .next t ∧ t.cur = .none ∧ t.group? k = some g' ∧
      (t.barOf g.team o.n.toNat).rem = rem - 1 ∧ (t.barOf g.team o.n.toNat).ph = b.ph ∧
      g'.splits = g.splits.map fun y => if y.mask.getLsbD (lowest x.mask) then
        { at_ (fallOf x) y with st := .sleep, wait := .barrier o.n b.ph } else y) ∧
  (∀ (s : State) (q : Nat) (x : Seq), s.cur = .seq q → s.seq? q = some x → ∀ n : BitVec 4,
    let ph := (s.barOf x.team n.toNat).ph
    let tgt := if x.arr.getLsbD n.toNat then x.lph.getD n.toNat 0 else ph
    exec (.mwait n) s = .next (s.updSeq q fun y =>
      if ph = tgt then { y with waiting := some (n, tgt) } else { y with arr := y.arr &&& ~~~(BitVec.twoPow 16 n.toNat) }))

/-- Team barriers: arrival and wait: the two parts stated as BarrierArrival, BarrierWait. -/
def Obligations.TeamBarriers : Prop :=
  Sys2Proof.Claim.BarrierArrival ∧ Sys2Proof.Claim.BarrierWait

/-! ### Guard slots, traps by program, status reads (12 R272, R273; 07 R169, R170; 16 R348, R354, R358, R359) -/

/-- 12 R273, 07 R169, R170: GSET with an active lane resolves an UNRESOLVED slot to its value, and binds the team's queued commands under
that slot; a resolved slot keeps its value; GCLR makes a slot UNRESOLVED again. The command at a queue's head, once bound, proceeds under
TRUE and is discarded under FALSE. -/
def Obligations.GuardSlots : Prop :=
  (∀ (s : State) (k : Nat) (g : Group) (x : Split) (tm : Team), s.issuer? = some (k, g, x) → s.team? g.team = some tm →
    (∀ o : GsetOp, s.active g x o.g ≠ 0 → tm.guards.get? o.n.toNat = none →
      ∃ t tm', exec (.gset o) s = .next t ∧ t.team? g.team = some tm' ∧
        (∀ v, o.val = .imm v → tm'.guards.get? o.n.toNat = some v) ∧
        (∀ p neg j, o.val = .pred p neg → (s.active g x o.g).getLsbD j = true → (∀ i < j, (s.active g x o.g).getLsbD i = false) →
          tm'.guards.get? o.n.toNat = some (xor ((s.readP g p.toNat).getLsbD j) neg)) ∧
        (∀ m, m ≠ o.n.toNat → tm'.guards.get? m = tm.guards.get? m) ∧
        tm'.queue = tm.queue.map (fun (e : QueueEntry) =>
          if e.slot = some o.n ∧ e.bound = none then { e with bound := tm'.guards.get? o.n.toNat } else e) ∧ SameMem s t) ∧
    (∀ o : GsetOp, (s.active g x o.g = 0 ∨ tm.guards.get? o.n.toNat ≠ none) → exec (.gset o) s = .next s) ∧
    (∀ o : GclrOp, s.active g x o.g ≠ 0 →
      ∃ gs, exec (.gclr o) s = .next (s.updTeam g.team fun t => { t with guards := gs }) ∧
        ∀ m, Tab.get? gs m = if m = o.n.toNat then none else tm.guards.get? m)) ∧
  (∀ (s : State) (t : Nat) (tm : Team) (e : QueueEntry), s.team? t = some tm → (tm.queue.find? fun e => e.slot.isSome) = some e →
    (e.bound = some true → exec (.guardedCommandRelease (.copy t)) s = .next (s.updEntry t e.id fun e => { e with slot := none })) ∧
    (e.bound = some false → exec (.guardedCommandRelease (.copy t)) s = .next (s.dropEntry t e.id)) ∧
    (e.bound = none → exec (.guardedCommandRelease (.copy t)) s = .next s)) ∧
  (∀ (s : State) (t : Nat) (tm : Team) (c : RayCmd) (l : List RayCmd), s.team? t = some tm → tm.rays = c :: l → c.slot ≠ none →
    (c.bound = some true → exec (.guardedCommandRelease (.geode t)) s =
      .next (s.updTeam t fun x => { x with rays := { c with slot := none } :: l })) ∧
    (c.bound = some false → ∃ u, exec (.guardedCommandRelease (.geode t)) s = .next u ∧
      (u.team? t).map (·.rays) = some l) ∧
    (c.bound = none → exec (.guardedCommandRelease (.geode t)) s = .next s)) ∧
  (∀ (s : State) (q : Nat) (x : Seq) (c : SeqCmd) (n : BitVec 4), s.seq? q = some x →
    (x.held = some (c, n, some true) → c.check (s.seqScratch x) = none → exec (.guardedCommandRelease (.seq q)) s =
      .next (s.updSeq q fun x => { x with held := none, cmds := x.cmds ++ [c] })) ∧
    (x.held = some (c, n, some false) → exec (.guardedCommandRelease (.seq q)) s = .next (s.updSeq q fun x => { x with held := none })) ∧
    (x.held = some (c, n, none) → exec (.guardedCommandRelease (.seq q)) s = .next s))

/-- 16 R358, R336: a user TRAP or BKPT with an active lane stops the group with its code in DETAIL, its active lanes, and the clause header
as the resume point; with none it only ends the clause. TRAP.save outside a save routine and TRAP.resume outside a restore routine raise
ILLEGAL_OP; inside, the split goes back to its safe point, and the group is parked, or goes on with S62 and S63 restored, after its last
routine (R354). -/
def Sys2Proof.Claim.ProgramTraps : Prop :=
  ∀ (s : State) (k : Nat) (g : Group) (x : Split), s.issuer? = some (k, g, x) → g.stop = none →
    (∀ o : CodeOp, s.active g x o.g ≠ 0 →
      let st := fun (c : BitVec 8) => ({ cause := c, detail := o.code, pc := x.pc, idx := 0, lanes := s.active g x o.g,
                                         fall := some (fallOf x) } : Stop)
      Stops s k g (st 0x14) (exec (.trap o) s) ∧ Stops s k g (st 0x15) (exec (.bkpt o) s)) ∧
    (∀ o : CodeOp, s.active g x o.g = 0 →
      exec (.trap o) s = .next (leave s k g x (at_ (fallOf x))) ∧ exec (.bkpt o) s = .next (leave s k g x (at_ (fallOf x)))) ∧
    (x.routine ≠ .save → ∃ d, Stops s k g { cause := 0x02, detail := d, pc := x.pc, idx := 0, lanes := x.mask } (exec .trapSave s)) ∧
    (x.routine ≠ .restore → ∃ d, Stops s k g { cause := 0x02, detail := d, pc := x.pc, idx := 0, lanes := x.mask } (exec .trapResume s)) ∧
    (x.routine = .save → g.splits = [x] → g.spilled = [] → g.park = .saving [] →
      ends s k { g with gio := g.gio + 1, park := .parked, splits := [{ at_ x.safePc x with routine := .none }] } (exec .trapSave s)) ∧
    (x.routine = .restore → g.splits = [x] → g.spilled = [] → g.park = .restoring [] →
      ∃ g', ends s k g' (exec .trapResume s) ∧ g'.park = .no ∧ g'.splits = [{ at_ x.safePc x with routine := .none }] ∧
        g'.s.getD 62 0 = g.saved62 ∧ g'.s.getD 63 0 = g.saved63 ∧ (∀ r, r < 62 → g'.s.getD r 0 = g.s.getD r 0) ∧ g'.v = g.v ∧ g'.p = g.p)

/-- 16 R348, R340: UPCALL with an active lane takes a free tag of its die, posts an event that carries S[A] to S[A+3], and its split sleeps
at the fall-through until the reply; with none it only ends the clause. -/
def Sys2Proof.Claim.Upcalls : Prop :=
  ∀ (s : State) (k : Nat) (g : Group) (x : Split), s.issuer? = some (k, g, x) → ∀ o : UpcallOp,
    let die := coreOf k / 72
    (s.active g x o.g = 0 → exec (.upcall o) s = .next (leave s k g x (at_ (fallOf x)))) ∧
    (s.active g x o.g ≠ 0 → (∃ j < 65536, s.upcalls.get? (65536 * die + j) = none) →
      ∃ t g' tag, exec (.upcall o) s = .next t ∧ t.cur = .none ∧ tag < 65536 ∧ s.upcalls.get? (65536 * die + tag) = none ∧
      t.upcalls.get? (65536 * die + tag) = some { core := coreOf k, group := k, gio := g.gio, lane := lowest x.mask, code := o.code, d := o.d } ∧
      t.group? k = some g' ∧ g'.splits = (g.splits.map fun y => if y.mask.getLsbD (lowest x.mask) then
        { at_ (fallOf x) y with st := .sleep, wait := .upcall tag o.d } else y) ∧
      g'.gio = g.gio + 1 ∧ g'.v = g.v ∧ g'.s = g.s ∧ g'.p = g.p ∧
      ((s.die die).evqBase = 0 → t.evWait = s.evWait ++ [Ev.mk die
        ({ die := die, kind := 2, source := coreOf k, core := coreOf k, gslot := k % 64, cause := o.code.toNat, tag := tag, asid := s.asidOf g,
           lanes := s.active g x o.g, pc := s.readS g (o.a.toNat + 3), vaddr := s.readS g (o.a.toNat + 2), arg0 := s.readS g o.a.toNat,
           arg1 := s.readS g (o.a.toNat + 1) : Event }.raw (s.evSeq.getD (coreOf k) 0))]))

/-- TRAP, BKPT and UPCALL: the two parts stated as ProgramTraps, Upcalls. -/
def Obligations.TrapsAndUpcalls : Prop :=
  Sys2Proof.Claim.ProgramTraps ∧ Sys2Proof.Claim.Upcalls

/-- 16 R359, 12 R258, 04 R95: CLOCK reads the cycle count, CLOCK.PTS the core's logical time, PMC a counter (those of timing are free, log
12), GSTAT the status, mode, partition and BCUR registers, the status with its fields where 12 R258 puts them. -/
def Sys2Proof.Claim.StatusReads : Prop :=
  ∀ (s : State) (k : Nat) (g : Group) (x : Split), s.issuer? = some (k, g, x) →
    (∀ o : SDst, SclResult s k g (s.active g x o.g) o.d (BitVec.ofNat 64 s.cycle) (exec (.clock o) s) ∧
      SclResult s k g (s.active g x o.g) o.d (BitVec.ofNat 64 (s.pts (coreOf k))) (exec (.clockPts o) s)) ∧
    (∀ o : PmcOp, ∃ v, SclResult s k g (s.active g x o.g) o.d v (exec (.pmc o) s) ∧ (o.n = 0 → v = BitVec.ofNat 64 g.clauses) ∧
      (1 ≤ o.n.toNat → o.n.toNat ≤ 5 → v = BitVec.ofNat 64 (g.pmc.getD o.n.toNat 0))) ∧
    (∀ o : GstatOp, (o.sel = 3 → ∀ e ∈ g.ops, isBundleForm e.instr = false) →
      ∃ v, SclResult s k g (s.active g x o.g) o.d v (exec (.gstat o) s) ∧
      (o.sel = 0 → v.extractLsb' 0 5 = g.flags ∧ v.getLsbD 5 = g.jrel ∧ v.getLsbD 6 = g.ferr ∧
        v.extractLsb' 18 2 = (if g.width = 16 then 0 else if g.width = 32 then 1 else 2) ∧ v.extractLsb' 20 5 = BitVec.ofNat 5 g.gidx ∧
        v.extractLsb' 25 3 = BitVec.ofNat 3 g.role ∧ v.extractLsb' 30 3 = BitVec.ofNat 3 g.splits.length ∧
        v.extractLsb' 33 7 = BitVec.ofNat 7 ((List.range 64).countP fun l => g.live.getLsbD l) ∧
        v.extractLsb' 40 16 = BitVec.ofNat 16 g.spilled.length) ∧
      (o.sel = 1 → v = BitVec.ofNat 64 (g.ftz.toNat + 2 * g.atb.toNat)) ∧ (o.sel = 2 → v = g.tw.setWidth 64) ∧
      (o.sel = 3 → v = g.bcur.setWidth 64))

/-- REGGROW, REGSHRINK, CLOCK, PMC and GSTAT: the two parts stated as RegisterAllocation, StatusReads. -/
def Obligations.RegistersAndStatus : Prop :=
  Sys2Proof.Claim.RegisterAllocation ∧ Sys2Proof.Claim.StatusReads

/-! ### Clauses (02 R35 to R42, R392; 16 R343 to R347) -/

/-- 02 R38 to R42, R392, 08 R177, 09 R201: CLAUSE_START of a READY split that may fetch, with no busy slot. A header that is not 8-byte
aligned raises ILLEGAL_CLAUSE, as does a clause that fails the header checks; a bad word raises ILLEGAL_OP; the group stops at the header.
Where the clause passes its checks, with its flags clear, no swap outstanding and no earlier eligible split, it runs from the split's word
on, ATB takes ACT, and each of its flags counts one more. -/
def Sys2Proof.Claim.ClauseStart : Prop :=
  ∀ (s : State) (k lane : Nat) (g : Group) (x : Split), s.group? k = some g → g.split? lane = some x →
    g.mayFetch x = true → s.slotBusy (coreOf k) g.part = false →
    let stops := fun (p : Stop → Prop) => ∃ u g' st, exec (.clauseStart k lane) s = .next u ∧ u.group? k = some g' ∧
      g'.stop = some st ∧ p st ∧ ∀ y ∈ g'.splits, y.st = .stopped
    let clauseStop := fun (st : Stop) => st = { cause := 0x01, detail := st.detail, pc := x.pc, idx := 0, lanes := x.mask }
    (x.pc.toNat % 8 ≠ 0 → stops clauseStop) ∧
    ∀ (t : State) (hdr : Word) (ws : List Word), x.pc.toNat % 8 = 0 → x.fetchFault = false → (∀ y ∈ g.splits, y.mask = x.mask → y = x) →
      s.fetchClause k g x = (t, .clause hdr ws) → t.group? k = some g →
      let verdict := clauseVerdict hdr ws (((t.teamOf g).map (·.kern.hdr)).getD {})
      (verdict = .ok → g.flagsClear hdr = true → g.park = .no → t.passedOver k g x = false → t.chosen k g x = true →
        (∀ a ∈ (t.core (coreOf k)).atops, a.1 = k → a.2 ≠ .swap) → (∀ w ∈ ws, ∀ i ∈ wordInstrs hdr w, inAllocation (8 * g.blocks) i = true) →
        x.skip < ws.length → (∀ f ∈ clauseFlags hdr ws x.skip, g.cf.getD f.1 0 < 63) →
        ∃ u g', exec (.clauseStart k lane) s = .next u ∧ u.group? k = some g' ∧ g'.clauses = g.clauses + 1 ∧ g'.atb = (t.core (coreOf k)).act ∧
          (∃ y, g'.split? lane = some y ∧ y.mask = x.mask ∧ y.pc = x.pc ∧
            y.run = some { hdr := hdr, words := ws, idx := x.skip, clause := g.clauses, atb := (t.core (coreOf k)).act }) ∧
          (∀ f, g'.cf.getD f 0 = g.cf.getD f 0 + if f ∈ (clauseFlags hdr ws x.skip).map (·.1) then 1 else 0) ∧
          g'.v = g.v ∧ g'.s = g.s ∧ g'.p = g.p ∧ g'.flags = g.flags ∧ SameMem t u) ∧
      (verdict = .illegalClause → stops clauseStop) ∧
      (∀ i, verdict = .illegalOp i → stops fun st => st = { cause := 0x02, detail := BitVec.ofNat 8 i, pc := x.pc, idx := 0, lanes := x.mask })

/-- 02 R38, 16 R343: INSTRUCTION_COMPLETE of a performed instruction: it leaves flight, its scalar results are written (a free value where
another instruction wrote the register meanwhile), and its flag's count falls with the last attached instruction of its clause. -/
def Sys2Proof.Claim.InstructionCompletes : Prop :=
  ∀ (s : State) (k gio d : Nat) (v : BitVec 64) (g : Group) (o : Op), s.group? k = some g → g.op? gio = some o → o.performed = true →
    g.declined = none → o.accs = [] → o.vOut = [] → o.pOut = [] → o.sOut = [(d, v)] → o.place = .free →
    ∃ t g', exec (.instructionComplete k gio) s = .next t ∧ t.group? k = some g' ∧
      (∀ p ∈ g'.ops, p.gio ≠ gio) ∧ (∀ p ∈ g.ops, p.gio ≠ gio → ∃ p' ∈ g'.ops, p'.gio = p.gio ∧ p'.instr = p.instr ∧ p'.accs = p.accs) ∧
      (o.spoiltS.contains d = false → g'.s.getD d 0 = v) ∧ (∀ r, r ≠ d → g'.s.getD r 0 = g.s.getD r 0) ∧
      g'.v = g.v ∧ g'.p = g.p ∧ g'.flags = g.flags ∧
      (∀ f, o.flag = some f → (g.att.find? fun a => a.1 == o.clause && a.2.1 == f) = some (o.clause, f, 1) →
        g'.cf.getD f 0 = g.cf.getD f 0 - 1) ∧ SameMem s t

/-- A clause starts, and an instruction in flight completes: the two parts stated as ClauseStart, InstructionCompletes. -/
def Obligations.ClauseIssue : Prop :=
  Sys2Proof.Claim.ClauseStart ∧ Sys2Proof.Claim.InstructionCompletes


/-! ### Loads, stores and atomics (06 R131 to R138; 02 R48; 04 R93, R107) -/

/-- 06 R135, 04 R107: LD and LDNT in the scratchpad: every active lane has read its bytes, in memory's order of the bytes, and no lane has
changed anything. A performed LD or LDNT completes by writing those words, sign- or zero-extended as its type says (02 R48). -/
def Sys2Proof.Claim.ScratchLoads : Prop :=
  (∀ (s : State) (k : Nat) (g : Group) (x : Split) (off : Nat → Nat), s.issuer? = some (k, g, x) → idle s g →
    let read := fun (i : Instr) (gd : Guard) (ty : MemTy) (d : BitVec 8) (m : MemOpd) out =>
      let act := s.active g x gd
      InScratch s g act (eaOf s g m) (tyLen ty) off → Flies s k g i act (fun t o => t.teams = s.teams ∧ o.performed = true ∧ o.vd = Machine.vRange d.toNat (tyRegs ty) ∧
        o.accs.map (·.lane) = lanes act ∧
        ∀ a ∈ o.accs, a.ea = eaOf s g m a.lane ∧ a.phase = .done (cell (fun b => s.scrByte g.team b) (off a.lane) (tyLen ty))) out
    (∀ o : LdOp, read (.ld o) o.g o.ty o.d o.m (exec (.ld o) s)) ∧ (∀ o : LdntOp, read (.ldnt o) o.g o.ty o.d o.m (exec (.ldnt o) s))) ∧
  (∀ (s : State) (k gio : Nat) (g : Group) (o : Op) (ty : MemTy) (d : BitVec 8), s.group? k = some g → g.op? gio = some o →
    ((∃ f : LdOp, o.instr = .ld f ∧ ty = f.ty ∧ d = f.d) ∨ (∃ f : LdntOp, o.instr = .ldnt f ∧ ty = f.ty ∧ d = f.d)) →
    o.performed = true → g.declined = none → o.vOut = [] → o.sOut = [] → o.pOut = [] → o.place = .free → o.spoiltV = [] →
    (o.accs.map (·.lane)).Nodup → (∀ a ∈ o.accs, a.lane < 64 ∧ g.live.getLsbD a.lane = true ∧ ∃ v, a.phase = .done v) → (d = 255 ∨ d.toNat + tyRegs ty ≤ 255) →
    ∃ t g', exec (.instructionComplete k gio) s = .next t ∧ t.group? k = some g' ∧ (∀ p ∈ g'.ops, p.gio ≠ gio) ∧ g'.s = g.s ∧ g'.p = g.p ∧
      SameMem s t ∧
      (d ≠ 255 → ∀ a ∈ o.accs, ∀ v, a.phase = .done v → ∀ j < tyRegs ty, g'.v.getD (64 * (d.toNat + j) + a.lane) 0 = tyWord ty v j) ∧
      (∀ r l, l < 64 → (d = 255 ∨ l ∉ o.accs.map (·.lane) ∨ r < d.toNat ∨ d.toNat + tyRegs ty ≤ r) → g'.v.getD (64 * r + l) 0 = g.v.getD (64 * r + l) 0))

/-- 06 R135, 04 R107: ST in the scratchpad: the bytes of every active lane's access take the low bytes of its registers from vD on, the
highest lane's where accesses meet, no barrier object in use being touched (07 R167 leaves such an object open); every other byte of the
scratchpad, and every byte of memory, is as before. -/
def Sys2Proof.Claim.ScratchStores : Prop :=
  ∀ (s : State) (k : Nat) (g : Group) (x : Split) (off : Nat → Nat), s.issuer? = some (k, g, x) → idle s g → ∀ o : LdOp,
    let act := s.active g x o.g
    let n := tyLen o.ty
    let hits := fun (l a : Nat) => act.getLsbD l = true ∧ off l ≤ a ∧ a < off l + n
    InScratch s g act (eaOf s g o.m) n off → (∀ l a, hits l a → s.objUsed g.team (8 * (a / 8)) = false) →
      Flies s k g (.st o) act (fun t p => p.performed = true ∧ p.vd = [] ∧
        (∀ a l, hits l a → (∀ j, l < j → ¬ hits j a) → t.scrByte g.team a = dataByte s g o.d l (a - off l)) ∧
        (∀ a, (∀ l, ¬ hits l a) → t.scrByte g.team a = s.scrByte g.team a) ∧
        ∀ c, c ≠ g.team → t.team? c = s.team? c) (exec (.st o) s)

/-- 06 R134, R137, R138: the thirteen atomics in the scratchpad, lane after lane in increasing order: each active lane reads its cell and
stores the new value at once, and its destination gets the old one. -/
def Sys2Proof.Claim.ScratchAtomics : Prop :=
  ∀ (s : State) (k : Nat) (g : Group) (x : Split) (off : Nat → Nat), s.issuer? = some (k, g, x) → idle s g → ∀ (i : Instr) (f : AtomForm), atomOf i = some f →
    let act := s.active g x f.g
    let new := fun l old => atomNew i (8 * f.n) old (f.arg s g 0 l) (f.arg s g (f.n / 4) l)
    InScratch s g act (f.ea s g) f.n off →
      Flies s k g i act (fun t p => p.performed = true ∧ p.vd = Machine.vRange f.d.toNat (f.n / 4) ∧ p.accs.map (·.lane) = lanes act ∧
        (∀ a ∈ p.accs, a.phase = .done (cell (rmwAll new f.n off ((lanes act).filter (· < a.lane)) fun b => s.scrByte g.team b) (off a.lane) f.n)) ∧
        (∀ b, t.scrByte g.team b = rmwAll new f.n off (lanes act) (fun b => s.scrByte g.team b) b) ∧
        ∀ c, c ≠ g.team → t.team? c = s.team? c) (exec i s)

/-- 06 R132 steps 1 and 2, 11 R242: an active lane's address that is not a multiple of the size raises MISALIGNED, and one outside the
52-bit range a PAGE_FAULT, before any lane is performed; ST.bnd with BCUR 0 raises BUNDLE_NONE. -/
def Sys2Proof.Claim.AccessTraps : Prop :=
  ∀ (s : State) (k : Nat) (g : Group) (x : Split), s.issuer? = some (k, g, x) → g.stop = none →
    let bad := fun (gd : Guard) (n : Nat) (ea : Nat → Addr) (out : Out) =>
      let act := s.active g x gd
      (∀ l, act.getLsbD l = true → (ea l).toNat % n ≠ 0 → (∀ j < l, act.getLsbD j = true → (ea j).toNat % n = 0) →
        Stops s k g { cause := 0x05, detail := BitVec.ofNat 8 x.idx, pc := x.pc, idx := x.idx, lanes := act, vaddr := ea l } out) ∧
      ((∀ l, act.getLsbD l = true → (ea l).toNat % n = 0) →
        ∀ l, act.getLsbD l = true → 2 ^ 52 ≤ (ea l).toNat → (∀ j < l, act.getLsbD j = true → (ea j).toNat + n ≤ 0x000FFFFFFFE00000) →
          (∀ j, l < j → act.getLsbD j = true → (ea j).toNat + n ≤ 0x000FFFFFFFE00000) →
          Stops s k g { cause := 0x04, detail := 6, pc := x.pc, idx := x.idx, lanes := maskOf [l], vaddr := ea l } out)
    (∀ o : LdOp, bad o.g (tyLen o.ty) (eaOf s g o.m) (exec (.ld o) s) ∧ bad o.g (tyLen o.ty) (eaOf s g o.m) (exec (.st o) s)) ∧
    (∀ o : LdntOp, bad o.g (tyLen o.ty) (eaOf s g o.m) (exec (.ldnt o) s)) ∧
    (∀ o : StBndOp, (∀ e ∈ g.ops, isBundleForm e.instr = false) → g.bndMayHold = true → (g.bcur ≠ 0 → bad o.g (tyLen o.ty) (eaOf s g o.m) (exec (.stBnd o) s)) ∧
      (g.bcur = 0 → s.active g x o.g ≠ 0 → Stops s k g { cause := 0x0D, detail := BitVec.ofNat 8 x.idx, pc := x.pc, idx := x.idx, lanes := s.active g x o.g }
        (exec (.stBnd o) s))) ∧
    (∀ (i : Instr) (f : AtomForm), atomOf i = some f → bad f.g f.n (f.ea s g) (exec i s))

/-- Loads, stores and atomics in the scratchpad, and the traps of an access: the four parts stated as ScratchLoads, ScratchStores, ScratchAtomics, AccessTraps. -/
def Obligations.Scratchpad : Prop :=
  Sys2Proof.Claim.ScratchLoads ∧ Sys2Proof.Claim.ScratchStores ∧ Sys2Proof.Claim.ScratchAtomics ∧ Sys2Proof.Claim.AccessTraps

/-! ### Requests to the homes (04 R87 to R97, R103; 06 R133 to R137; 11 R240) -/

/-- 04 R93, 06 R133, R135, R137, 11 R240: an access that the L1 does not perform — a load, store or atomic of wider scope, a sub-word store, an
access to uncached memory, ST.bnd — leaves for the home of its line, lane by lane, with the issuing core's PTS; a release first writes the L1
back. A store or an atomic into the spill stack of a group, which 12 R261 leaves open, is apart. -/
def Sys2Proof.Claim.FarAccesses : Prop :=
  ∀ (s : State) (k : Nat) (g : Group) (x : Split) (h : Nat → Hit), s.issuer? = some (k, g, x) → idle s g →
    let asks := fun (i : Instr) (act : LaneMask) (ea : Nat → Addr) (n : Nat) (a : AccKind) (far : Nat → Bool) (kind : Nat → ReqKind → Prop) (out : Out) =>
      (∀ l, act.getLsbD l = true → (ea l).toNat % n = 0 ∧ s.locate k g x.xfaults (ea l) n a = .at (h l) ∧ keyTier (h l).key ≠ 6 ∧ far (h l).key = true ∧
        (a ≠ .read → s.spillHolder (s.asidOf g) (ea l) n = none)) →
      Flies s k g i act (fun t o => o.accs.map (·.lane) = lanes act ∧ (o.performed = true ↔ act = 0) ∧ (∀ r q, s.reqs.get? r = some q → t.reqs.get? r = some q) ∧
        (∀ e ∈ o.accs, ∃ r q, e.phase = .atHome r ∧ s.reqs.get? r = none ∧ t.reqs.get? r = some q ∧ q.core = coreOf k ∧ q.pts = t.pts (coreOf k) ∧
          q.line = (h e.lane).key / 128 ∧ kind e.lane q.kind ∧ q.who = .op k g.gio e.lane ∧ q.answer = none) ∧
        (o.accs.map (·.phase)).Nodup) out
    let wide := fun (sc : Scope) key => !s.reaches k sc || uncached key
    (∀ o : LdOp, asks (.ld o) (s.active g x o.g) (eaOf s g o.m) (tyLen o.ty) .read (wide o.scope)
      (fun l q => q = .load ((h l).key % 128) (tyLen o.ty)) (exec (.ld o) s)) ∧
    (∀ o : LdntOp, asks (.ldnt o) (s.active g x o.g) (eaOf s g o.m) (tyLen o.ty) .read (wide o.scope)
      (fun l q => q = .load ((h l).key % 128) (tyLen o.ty)) (exec (.ldnt o) s)) ∧
    (∀ o : LdOp, asks (.st o) (s.active g x o.g) (eaOf s g o.m) (tyLen o.ty) .write (fun key => wide o.scope key || decide (tyLen o.ty < 4))
      (fun l q => q = .write ((h l).key % 128) ((List.range (tyLen o.ty)).map (dataByte s g o.d l))) (exec (.st o) s)) ∧
    (∀ o : StBndOp, g.bcur ≠ 0 → asks (.stBnd o) (s.active g x o.g) (eaOf s g o.m) (tyLen o.ty) .write
      (fun key => keyTier key != 2 && keyTier key != 5)
      (fun l q => q = .bundled ((h l).key % 128) ((List.range (tyLen o.ty)).map (dataByte s g o.d l)) Config.selfModule g.bcur) (exec (.stBnd o) s)) ∧
    (∀ (i : Instr) (f : AtomForm), atomOf i = some f →
      asks i (s.active g x f.g) (f.ea s g) f.n .rmw (fun _ => true) (fun _ q => q = .rmw) (exec i s))

/-- 04 R96, R97, R93, R100, R103, 06 R135, R137: what becomes of a request. The proxy of a peer line grants no lease past its own from the
peer's home. A read is granted a lease past the reader's time and takes the line's
bytes with it; its answer fills the L1 and gives each waiting lane its value, and its stamp raises PTS. A write or an atomic at the home is
stamped past every lease given on the line; an atomic answers the old value. -/
def Obligations.HomeAnswers : Prop :=
  ∀ (s : State) (r : HomeReq), s.reqs.get? s.hand = some r → s.reachable (keyMod (r.line * 128)) = true →
    s.behindWrite s.hand r.core r.line = false → (s.homes.get? r.line).isSome = true → (s.home r.line).dir = {} → clean s →
    s.poisoned (r.line * 128) 128 = false → r.horizon = [] → (s.home r.line).ref = none →
    (∀ m ∈ s.msgs, m.2.line ≠ r.line) →
    let hl := s.home r.line
    (∀ fw cnt, r.kind = .fill fw cnt → r.answer = none → keyMod (r.line * 128) ≠ Config.selfModule → s.links.bisnp.get? r.line = none →
      isPool r.line = false → hl.cap = none →
      ∃ t a p, exec .homeReadLease s = .next t ∧ SameMem s t ∧ (t.reqs.get? s.hand).map (·.answer) = some (some a) ∧
        t.proxies.get? r.line = some p ∧ a.2.1 = p.wts ∧ a.2.2.1 ≤ p.rts ∧
        (s.proxies.get? r.line = none → p.wts = hl.wts ∧ p.rts = max hl.wts r.pts + hl.lease ∧ (t.home r.line).rts = max hl.rts p.rts)) ∧
    (∀ fw cnt, r.kind = .fill fw cnt → r.answer = none → keyMod (r.line * 128) = Config.selfModule → s.links.bisnp.get? r.line = none →
      isPool r.line = false → hl.cap = none → fw + cnt ≤ 32 →
      ∃ t a, exec .homeReadLease s = .next t ∧ SameMem s t ∧ (t.reqs.get? s.hand).map (·.answer) = some (some a) ∧ a.2.1 = hl.wts ∧
        a.2.2.1 = max hl.wts r.pts + hl.lease ∧ a.2.2.2 = false ∧ (t.home r.line).rts = max hl.rts (max hl.wts r.pts + hl.lease) ∧ (t.home r.line).wts = hl.wts ∧
        ∀ i < cnt, (fw + i, BitVec.ofNat 32 (cell s.byte (r.line * 128 + 4 * (fw + i)) 4)) ∈ a.1) ∧
    (∀ (k gio lane : Nat) (g : Group) (o : Op) (a : LaneAcc), r.who = .op k gio lane → s.group? k = some g → g.op? gio = some o → o.accs = [a] → a.lane = lane →
      let off := a.ea.toNat % 128
      let done := fun (t : State) (v : Nat) => ∃ g' o', t.group? k = some g' ∧ g'.op? gio = some o' ∧ o'.performed = true ∧
        o'.accs = [{ a with phase := .done v }] ∧ g'.v = g.v ∧ g'.s = g.s ∧ g'.p = g.p ∧ t.reqs.get? s.hand = none
      (∀ n, r.kind = .load off n → r.answer = none → off + n ≤ 128 → uncached (r.line * 128) = false → isPool r.line = false →
        s.links.bisnp.get? r.line = none →
        ∃ t, exec .homeReadLease s = .next t ∧ SameMem s t ∧ done t (cell s.byte (r.line * 128 + off) n)) ∧
      (∀ bs, r.kind = .write off bs → s.ckptHolds (r.line * 128 + off) = false → s.ckptHolds (r.line * 128) = false → s.behindStrm s.hand r = false →
        s.liveHeader (r.line * 128 + off) bs.length = none → uncached (r.line * 128) = false → off + bs.length ≤ 128 →
        ∃ t, exec .homeWrite s = .next t ∧ done t 0 ∧ hl.rts < (t.home r.line).wts ∧ s.pts r.core ≤ (t.home r.line).wts ∧
          ∀ b, t.byte b = if r.line * 128 + off ≤ b ∧ b < r.line * 128 + off + bs.length then (bs[b - (r.line * 128 + off)]?).getD 0 else s.byte b) ∧
      (∀ f, atomOf o.instr = some f → r.kind = .rmw → s.ckptHolds (r.line * 128 + off) = false → s.ckptHolds (r.line * 128) = false →
        s.behindStrm s.hand r = false → s.liveHeader (r.line * 128 + off) f.n = none → uncached (r.line * 128) = false → off + f.n ≤ 128 →
        let key := r.line * 128 + off
        let old := cell s.byte key f.n
        ∃ t, exec .homeWrite s = .next t ∧ done t old ∧
          ∀ b, t.byte b = rmwAt (fun v => atomNew o.instr (8 * f.n) v (a.data % 2 ^ (8 * f.n)) (a.data / 2 ^ (8 * f.n))) f.n key s.byte b) ∧
      (∀ ws wts grant, r.answer = some (ws, wts, grant, false) → grant ≠ 0 → a.phase = .atHome s.hand → r.poisoned = false → r.ref = none →
        (∃ f, o.instr = .ld f ∧ ∀ w ∈ Machine.spanWords off (tyLen f.ty), w ∈ ws.map (·.1)) → (ws.map (·.1)).Nodup → (∀ w ∈ ws, w.1 < 32) →
        s.l1Line? r.core r.line = none →
        ∃ t, exec .l1FillReturn s = .next t ∧ SameMem s t ∧ wts ≤ t.pts r.core ∧
          (∃ y, t.l1Line? r.core r.line = some y ∧ y.wts = wts ∧ y.rts = grant ∧ y.dirty = 0 ∧
            ∀ w ∈ ws, y.valid.getLsbD w.1 = true ∧ y.data.getD w.1 0 = w.2) ∧
          done t (spanNum (fun w => ((ws.find? fun e => e.1 == w).map (·.2)).getD 0) off (accBytes o.instr))))

/-- 06 R136: PREF changes no register and no byte, whatever its address; with the translation it uses, PTS reaches that entry's stamp (03 R71). 04 R95: each 16 cycles raise a core's PTS by one. -/
def Sys2Proof.Claim.PrefetchAndTicks : Prop :=
  (∀ (s : State) (k : Nat) (g : Group) (x : Split) (o : PrefOp), s.issuer? = some (k, g, x) →
    clean s →
    ∃ t, exec (.pref o) s = .next t ∧ SameMem s t ∧ t.groups = s.groups ∧ t.teams = s.teams ∧ t.cur = s.cur ∧ (∀ c, s.pts c ≤ t.pts c) ∧
      ((s.active g x o.g = 0 ∨ ∀ l, (s.active g x o.g).getLsbD l = true → (eaOf s g o.m l).toNat % 4 ≠ 0) → t = s) ∧
      (o.die = false → ∀ l hit, l < 64 → (s.active g x o.g) = BitVec.twoPow 64 l → (eaOf s g o.m l).toNat % 4 = 0 →
        s.locate k g [] (eaOf s g o.m l) 4 .read = .at hit → uncached hit.key = false → s.l1Serves (coreOf k) (hit.key / 128) (List.range 32) = false →
        s.reqs = [] → (t.reqs.map fun e => (e.2.core, e.2.line, e.2.kind, e.2.who)) = [(coreOf k, hit.key / 128, ReqKind.fill 0 32, Waiter.nobody)])) ∧
  (∀ s : State, let c := s.ptsCore s.hand
    ((s.core c).ticks < s.cycle / 16 → clean s → ∃ t, exec .ptsTick s = .next t ∧ (t.core c).pts = (s.core c).pts + 1 ∧ (t.core c).ticks = (s.core c).ticks + 1 ∧
      t.groups = s.groups ∧ SameMem s t) ∧
    (s.cycle / 16 ≤ (s.core c).ticks → exec .ptsTick s = .next s))

/-- Accesses that leave for their home, PREF and PTS: the two parts stated as FarAccesses, PrefetchAndTicks. -/
def Obligations.FarAccesses : Prop :=
  Sys2Proof.Claim.FarAccesses ∧ Sys2Proof.Claim.PrefetchAndTicks

/-! ### Fences, waiting and waking, links (06 R139 to R148) -/

/-- 06 R139 to R141: FENCE and FENCE.ENG of a group with nothing outstanding are performed, FENCE setting pD in its active lanes; behind an
unperformed store a FENCE that releases stays; when LINK_WAIT ends with writes unacknowledged it ends with pD clear and FERR, and reports
each module. -/
def Obligations.Fences : Prop :=
  (∀ (s : State) (k : Nat) (g : Group) (x : Split), s.issuer? = some (k, g, x) → idle s g → clean s → (∀ e ∈ s.links.poolOut, e.2.group ≠ k) →
    (∀ o : FenceOp, Flies s k g (.fence o) (s.active g x o.g) (fun _ p => p.performed = true ∧
      p.pOut = o.pd.toList.map fun n => (n.toNat, s.active g x o.g)) (exec (.fence o) s)) ∧
    (∀ o : GuardOnly, Flies s k g (.fenceEng o) (s.active g x o.g) (fun _ p => p.performed = true) (exec (.fenceEng o) s))) ∧
  (∀ (s : State) (k : Nat) (g : Group) (x : Split) (o : FenceOp) (e : Op) (f : LdOp), s.issuer? = some (k, g, x) → g.ops = [e] → e.gio < g.gio →
    e.instr = .st f → e.performed = false → o.ord ≠ .acq →
    Flies s k g (.fence o) (s.active g x o.g) (fun _ p => p.performed = false) (exec (.fence o) s)) ∧
  (∀ (s : State) (k gio : Nat) (g : Group) (p : Op) (o : FenceOp), s.group? k = some g → g.op? gio = some p → p.instr = .fence o →
    (o.scope = .peer ∨ o.scope = .sys) → o.ord ≠ .acq → p.performed = false → s.unacked k ≠ [] →
    (s.cycle < p.aux → exec (.fenceLinkTimeout k gio) s = .next s) ∧
    (p.aux ≤ s.cycle → (s.die 0).evqBase = 0 → clean s → (∀ e ∈ g.ops, e.gio < gio → e.performed = true ∨ s.onlyUnacked e = true) →
      (∀ r ∈ s.reqs, r.2.isSpan = true → s.reachable (keyMod (r.2.line * 128)) = false) →
      ∃ t g' p', exec (.fenceLinkTimeout k gio) s = .next t ∧ t.group? k = some g' ∧ g'.ferr = true ∧ g'.op? gio = some p' ∧ p'.performed = true ∧
        p'.pOut = (p.pd.toList.map fun n => (n, 0)) ∧ g'.v = g.v ∧ g'.s = g.s ∧ g'.p = g.p ∧ SameMem s t ∧
        t.evWait.length = s.evWait.length + (s.unacked k).dedup.length))

/-- 06 R145: WAITV: S[D] is 1 where the bytes at S[A] differ from S[B], 3 where the die's table of 4,096 is full; else an entry is installed
and the split sleeps past the word, until a WAKE (0) or its timeout (2). -/
def Sys2Proof.Claim.WaitForValue : Prop :=
  (∀ (s : State) (k : Nat) (g : Group) (x : Split) (h : Hit), s.issuer? = some (k, g, x) → idle s g → clean s → s.horizonOf k = [] → ∀ o : WaitvOp,
    let act := s.active g x o.g
    let va := s.readS g o.a.toNat
    let n := if o.b64 then 8 else 4
    let differs := cell s.byte h.key n ≠ (s.readS g o.b.toNat).toNat % 2 ^ (8 * n)
    let full := 4096 ≤ (s.waits.filter fun w => w.die == homeDie h.key).length
    act ≠ 0 → va.toNat % n = 0 → s.locate k g x.xfaults va n .read = .at h → h.key % 128 + n ≤ 128 → Quiet s (coreOf k) (h.key / 128) →
      (differs → Flies s k g (.waitv o) act (fun t p => p.performed = true ∧ p.sOut = [(o.d.toNat, 1)] ∧ t.waits = s.waits) (exec (.waitv o) s)) ∧
      (¬ differs → full → Flies s k g (.waitv o) act (fun t p => p.performed = true ∧ p.sOut = [(o.d.toNat, 3)] ∧ t.waits = s.waits) (exec (.waitv o) s)) ∧
      (¬ differs → ¬ full → g.park = .no → s.switchedOut (s.asidOf g) (clusterOf (coreOf k)) = false →
        ∃ t g' p, exec (.waitv o) s = .next t ∧ t.cur = .none ∧ SameMem s t ∧ t.group? k = some g' ∧ g'.op? g.gio = some p ∧ p.performed = false ∧
          t.waits = s.waits ++ [{ die := homeDie h.key, va := va, key := h.key, size := n, who := .op k g.gio (lowest act), order := s.waitOrder,
                                  since := s.cycle, cycles := (s.readS g o.c.toNat).toNat }] ∧
          (∃ y, g'.split? (lowest x.mask) = some y ∧ y.st = .sleep ∧ y.wait = .op g.gio) ∧ g'.gio = g.gio + 1 ∧ g'.v = g.v ∧ g'.s = g.s ∧ g'.p = g.p)) ∧
  (∀ (s : State) (w : WaitEntry), (s.waits.find? fun e => e.die == w.die && e.order == w.order) = some w →
    ((w.cycles = 0 ∨ s.cycle < w.since + w.cycles) → exec (.waitvTimeout w.die w.order) s = .next s) ∧
    (w.cycles ≠ 0 → w.since + w.cycles ≤ s.cycle →
      (∀ (k gio lane : Nat) (g : Group) (p : Op), w.who = .op k gio lane → s.group? k = some g → g.op? gio = some p →
        ∃ t g' p', exec (.waitvTimeout w.die w.order) s = .next t ∧ t.group? k = some g' ∧ g'.op? gio = some p' ∧ p'.performed = true ∧
          p'.sOut = (p.sd.map fun d => (d, 2)) ∧ g'.s = g.s ∧ t.waits = (s.waits.filter fun e => !(e.die == w.die && e.order == w.order)) ∧ SameMem s t) ∧
      (∀ (h : Nat) (rd : BitVec 5), w.who = .hart h → (s.hart h).wait = .waitv rd →
        ∃ t, exec (.waitvTimeout w.die w.order) s = .next t ∧ (t.hart h).wait = .no ∧
          ∀ r, (t.hart h).x.getD r 0 = if r = rd.toNat ∧ rd ≠ 0 then 2 else (s.hart h).x.getD r 0)))

/-- 06 R146: WAKE wakes the entries whose virtual and physical addresses are its own, oldest first, up to S[B] of them and all for 0, and S[D]
takes their number. No other waiter is woken and no byte changes. -/
def Sys2Proof.Claim.Wakes : Prop :=
  ∀ (s : State) (k : Nat) (g : Group) (x : Split) (h : Hit), s.issuer? = some (k, g, x) → idle s g → clean s → ∀ o : SyncOp,
    let act := s.active g x o.g
    let va := s.readS g o.a.toNat
    let hits := s.waits.filter fun w => decide (w.va = va ∧ w.key = h.key)
    let limit := (s.readS g o.b.toNat).toNat
    let woken := if limit = 0 then hits else hits.take limit
    (act = 0 → Flies s k g (.wake o) 0 (fun t p => p.performed = true ∧ t.waits = s.waits) (exec (.wake o) s)) ∧
    (act ≠ 0 → va.toNat % 4 = 0 → s.locate k g x.xfaults va 4 .read = .at h → keyTier h.key ≠ 6 → keyMod h.key = Config.selfModule →
      s.behindWrite s.reqs.next (coreOf k) (h.key / 128) = false → (s.waits.map fun w => (w.die, w.order)).Nodup →
      Flies s k g (.wake o) act (fun t p => p.performed = true ∧ p.sOut = [(o.d.toNat, BitVec.ofNat 64 woken.length)] ∧
        (∀ w, w ∈ t.waits ↔ w ∈ s.waits ∧ w ∉ woken) ∧
        (∀ w ∈ woken, ∀ c, w.who = .hart c → (t.hart c).wait = .no ∨ (t.hart c).wait = (s.hart c).wait) ∧
        (∀ w ∈ woken, ∀ c rd, w.who = .hart c → (s.hart c).wait = .waitv rd → (t.hart c).wait = .no)) (exec (.wake o) s))

/-- WAITV and WAKE: the two parts stated as WaitForValue, Wakes. -/
def Obligations.WaitAndWake : Prop :=
  Sys2Proof.Claim.WaitForValue ∧ Sys2Proof.Claim.Wakes

/-- 06 R147, R148: LINKQ copies the lines that its descriptor and mask name to the buffer and keeps their stamps; CONDQ stores the buffer to the
lines, all under one stamp, when no line has been written since (0), and otherwise stores nothing: 1 after a write, 2 without such a link,
3 for a bad descriptor. Either way the link is gone. The buffer lies in the scratchpad here. -/
def Obligations.Links : Prop :=
  ∀ (s : State) (k : Nat) (g : Group) (x : Split) (hd : Hit) (hl : Nat → Hit) (b : Nat) (tm : Team), s.issuer? = some (k, g, x) → idle s g → clean s →
    s.horizonOf k = [] → s.team? g.team = some tm → ∀ o : SyncOp,
    let act := s.active g x o.g
    let va := s.readS g o.a.toNat
    let mask := (s.readS g o.b.toNat).toNat
    let d := cell s.byte hd.key 32
    let sl := (List.range 4).filter fun i => mask.testBit i
    let line := fun i => (hl i).key / 128
    act ≠ 0 → va.toNat % 32 = 0 → s.locate k g x.xfaults va 32 .read = .at hd → hd.key % 128 + 32 ≤ 128 → Quiet s (coreOf k) (hd.key / 128) →
    let status := fun (i : Instr) (v : BitVec 64) (p : State → Prop) out =>
      Flies s k g i act (fun t q => q.performed = true ∧ q.sOut = [(o.d.toNat, v)] ∧ p t) out
    let unlinked := fun (t : State) => (t.group? k).map (·.link) = some none
    (descBad d mask = true → status (.linkq o) 3 unlinked (exec (.linkq o) s) ∧ status (.condq o) 3 unlinked (exec (.condq o) s)) ∧
    (descBad d mask = false → noLink g.link d mask = true → status (.condq o) 2 unlinked (exec (.condq o) s)) ∧
    (descBad d mask = false → descBuf d = BitVec.ofNat 64 (0x000FFFFFFFE00000 + b) → b + 512 ≤ tm.kern.hdr.scratch → b + 512 ≤ 2 ^ 21 →
      s.scrPinned g.team b 512 = true → (∀ i ∈ sl, Quiet s (coreOf k) (line i)) → (sl.map line).Nodup →
      (∀ i ∈ sl, s.spillHolder (s.asidOf g) (bufVa d i) 128 = none) → (∀ a, b ≤ a → a < b + 512 → s.objUsed g.team (8 * (a / 8)) = false) →
      ((∀ i ∈ sl, s.locate k g [] (lineVa d i) 128 .read = .at (hl i)) →
        status (.linkq o) 0 (fun t =>
          (t.group? k).map (·.link) = some (some { region := descRegion d, mask := BitVec.ofNat 4 mask, lines := sl.map fun i => (i, line i, (s.home (line i)).wts) }) ∧
          ∀ i ∈ sl, ∀ j < 128, t.scrByte g.team (b + 128 * i + j) = s.byte (line i * 128 + j)) (exec (.linkq o) s)) ∧
      (∀ lk, g.link = some lk → noLink g.link d mask = false → (∀ i ∈ sl, s.locate k g [] (lineVa d i) 128 .write = .at (hl i)) →
        (∀ e ∈ lk.lines, Quiet s (coreOf k) e.2.1) → s.scrPoisoned g.team b 512 = false → (∀ i ∈ sl, s.liveHeader (line i * 128) 128 = none) →
        let held := lk.broken = false ∧ ∀ e ∈ lk.lines, (s.home e.2.1).wts = e.2.2 ∧ (s.home e.2.1).pend = []
        (¬ held → status (.condq o) 1 unlinked (exec (.condq o) s)) ∧
        (held → ∃ t g' q, exec (.condq o) s = .next t ∧ t.cur = s.cur ∧ t.group? k = some g' ∧ g'.link = none ∧ g'.op? g.gio = some q ∧
            q.performed = true ∧ q.sOut = [(o.d.toNat, 0)] ∧ g'.v = g.v ∧ g'.s = g.s ∧ g'.p = g.p ∧
          (∃ T, ∀ i ∈ sl, (t.home (line i)).wts = T ∧ (s.home (line i)).rts < T) ∧
          (∀ i ∈ sl, ∀ j < 128, t.byte (line i * 128 + j) = s.scrByte g.team (b + 128 * i + j)) ∧
          ∀ a, a / 128 ∉ sl.map line → t.byte a = s.byte a)))

/-! ### Allocation (06 R149 to R151; 16 R349) -/

/-- 06 R150, 16 R349: ALLOC answers 0 for 0 bytes; the lanes of one class take the blocks of their cluster's list in order; a lane whose list
is empty, or that asks for more than 65,536 bytes, waits on an upcall. -/
def Sys2Proof.Claim.Allocation : Prop :=
  ∀ (s : State) (k : Nat) (g : Group) (x : Split), s.issuer? = some (k, g, x) → idle s g → clean s → ∀ o : VUn,
    let act := s.active g x o.g
    let need := fun l => (s.readV g o.a.toNat l).toNat
    let key := fun j => Machine.heapKey (clusterOf (coreOf k)) (s.asidOf g) j
    ((∀ l, act.getLsbD l = true → need l = 0) → Flies s k g (.alloc o) act (fun t p => p.performed = true ∧ t.heap = s.heap ∧
      p.vd = Machine.vRange o.d.toNat 2 ∧ ∀ a ∈ p.accs, a.phase = .done 0) (exec (.alloc o) s)) ∧
    (∀ j blocks, j ≤ 12 → s.heap.getD (key j) [] = blocks → (lanes act).length ≤ blocks.length →
      (∀ l, act.getLsbD l = true → 1 ≤ need l ∧ need l ≤ 2 ^ (j + 4) ∧ (j ≠ 0 → 2 ^ (j + 3) < need l)) →
      Flies s k g (.alloc o) act (fun t p => p.performed = true ∧ p.accs.map (fun a => (a.lane, a.phase)) =
          ((lanes act).zip blocks).map (fun e => (e.1, LanePhase.done e.2)) ∧
        t.heap.getD (key j) [] = blocks.drop (lanes act).length ∧ ∀ i, i ≠ key j → t.heap.getD i [] = s.heap.getD i []) (exec (.alloc o) s)) ∧
    (∀ l j, l < 64 → act = BitVec.twoPow 64 l → j ≤ 12 → (s.die (coreOf k / 72)).evqBase = 0 →
      ((1 ≤ need l ∧ need l ≤ 2 ^ (j + 4) ∧ (j ≠ 0 → 2 ^ (j + 3) < need l) ∧ s.heap.getD (key j) [] = []) ∨ 65536 < need l) →
      Flies s k g (.alloc o) act (fun t p => p.performed = false ∧ (∀ a ∈ p.accs, a.phase = .atHome 0) ∧ t.heap = s.heap ∧
        ∃ i u, t.upcalls.get? i = some u ∧ u.group = k ∧ u.gio = g.gio ∧ u.lane = l ∧ u.code = (if 65536 < need l then 0xF1 else 0xF0)) (exec (.alloc o) s))

/-- 06 R151: FREE of a block of its own cluster puts it first on its list, of another's on its way there, and FREE_EXCHANGE_PUSH puts it
there; the block's first 8 bytes alone are free. Address 0 has no effect, one outside the window is an upcall, a bad block raises BAD_FREE. -/
def Sys2Proof.Claim.Freeing : Prop :=
  (∀ (s : State) (k : Nat) (g : Group) (x : Split) (l : Nat) (c : Ctx), s.issuer? = some (k, g, x) → idle s g → clean s → l < 64 →
    s.ctx (s.asidOf g) = some c → ∀ o : FreeOp, s.active g x o.g = BitVec.twoPow 64 l →
    let addr := (s.readV64 g o.a.toNat l).toNat
    let off := addr - c.heapb.toNat
    let cls := fld off 30 4
    let owner := fld off 34 6
    let inside := c.heapb.toNat ≤ addr ∧ addr < c.heapb.toNat + 2 ^ 40
    let okBlock := owner ≤ 35 ∧ cls ≤ 12 ∧ fld off 0 30 % 2 ^ (cls + 4) = 0
    let key := Machine.heapKey owner (s.asidOf g) cls
    (addr = 0 → Flies s k g (.free o) (BitVec.twoPow 64 l) (fun t p => p.performed = true ∧ t.heap = s.heap ∧ t.exchange = s.exchange) (exec (.free o) s)) ∧
    (addr ≠ 0 → ¬ inside → (s.die (coreOf k / 72)).evqBase = 0 →
      Flies s k g (.free o) (BitVec.twoPow 64 l) (fun t p => p.performed = true ∧ t.heap = s.heap ∧ ∃ i u, t.upcalls.get? i = some u ∧ u.code = 0xF2 ∧ u.lane = l)
        (exec (.free o) s)) ∧
    (addr ≠ 0 → inside → ¬ okBlock → g.stop = none →
      Stops s k g { cause := 0x07, detail := BitVec.ofNat 8 x.idx, pc := x.pc, idx := x.idx, lanes := BitVec.twoPow 64 l, vaddr := BitVec.ofNat 64 addr }
        (exec (.free o) s)) ∧
    (∀ h, addr ≠ 0 → inside → okBlock → addr + 8 ≤ 2 ^ 52 →
      (Near.hit s (s.nearOf g.team) (s.asidOf g) addr 8 .write false).or (findTlb (s.tlbDie.getD (coreOf k / 72) []) (s.asidOf g) addr .write false) = some h →
      let p := h.key
      p % 128 + 8 ≤ 128 → Quiet s (coreOf k) (p / 128) → s.liveHeader p 8 = none →
      ∃ t g' q, exec (.free o) s = .next t ∧ t.cur = s.cur ∧ t.group? k = some g' ∧ g'.op? g.gio = some q ∧ q.performed = true ∧ g'.v = g.v ∧ g'.s = g.s ∧ g'.p = g.p ∧
        (∀ a, (a < p ∨ p + 8 ≤ a) → t.byte a = s.byte a) ∧
        (if owner = clusterOf (coreOf k) then t.heap.getD key [] = addr :: s.heap.getD key [] ∧ t.exchange = s.exchange
         else t.heap = s.heap ∧ t.exchange = s.exchange.put s.exchange.next (key, addr)) ∧
        ∀ i, i ≠ key → t.heap.getD i [] = s.heap.getD i [])) ∧
  (∀ (s : State) (key b : Nat), s.exchange.get? s.hand = some (key, b) →
    ∃ t, exec .freeExchangePush s = .next t ∧ t.exchange.get? s.hand = none ∧ t.heap.getD key [] = b :: s.heap.getD key [] ∧
      (∀ i, i ≠ key → t.heap.getD i [] = s.heap.getD i []) ∧ t.groups = s.groups ∧ SameMem s t)

/-- ALLOC and FREE: the two parts stated as Allocation, Freeing. -/
def Obligations.Heap : Prop :=
  Sys2Proof.Claim.Allocation ∧ Sys2Proof.Claim.Freeing

/-! ### Copies, barrier objects, tensor descriptors (07 R153 to R171) -/

/-- 07 R162, R169: KICK of up to 64 requests with room in its team's queue: they enter it in order of address, with the guard slot and its
value; of none it is performed at once. More than 64 raise BAD_KICK, a base off 64 bytes MISALIGNED; with no active lane nothing enters. -/
def Sys2Proof.Claim.Kicks : Prop :=
  ∀ (s : State) (k : Nat) (g : Group) (x : Split) (tm : Team), s.issuer? = some (k, g, x) → s.team? g.team = some tm → ∀ o : KickOp,
    let act := s.active g x o.g
    let n := (s.readS g o.b.toNat).toNat
    let a := s.readS g o.a.toNat
    (act ≠ 0 → g.stop = none → 64 < n → Stops s k g { cause := 0x08, detail := BitVec.ofNat 8 x.idx, pc := x.pc, idx := x.idx, lanes := act } (exec (.kick o) s)) ∧
    (act ≠ 0 → g.stop = none → n ≤ 64 → a.toNat % 64 ≠ 0 →
      Stops s k g { cause := 0x05, detail := BitVec.ofNat 8 x.idx, pc := x.pc, idx := x.idx, lanes := act, vaddr := a } (exec (.kick o) s)) ∧
    (idle s g → clean s → (act = 0 ∨ n = 0) → (act = 0 ∨ a.toNat % 64 = 0) →
      Flies s k g (.kick o) act (fun t p => p.performed = true ∧ t.teams = s.teams) (exec (.kick o) s)) ∧
    (idle s g → clean s → act ≠ 0 → 1 ≤ n → n ≤ 64 → a.toNat % 64 = 0 → tm.queue.length + n ≤ 256 →
      let bound := match o.slot with
        | none => some true
        | some m => tm.guards.get? m.toNat
      Flies s k g (.kick o) act (fun t p => p.performed = false ∧ ∃ tm', t.team? g.team = some tm' ∧
        tm'.queue.map (fun e => (e.va, e.group, e.gio, e.slot, e.bound, e.read)) = tm.queue.map (fun e => (e.va, e.group, e.gio, e.slot, e.bound, e.read)) ++
          ((List.range n).map fun i => (a + BitVec.ofNat 64 (64 * i), k, g.gio, (if bound = some true then none else o.slot), bound, (none : Option (BitVec 512)))))
        (exec (.kick o) s))

/-- 07 R157, R160, R163, R165, R167: a queued request in the scratchpad whose descriptor is cached is read and checked (REQUEST_FETCH); at the
head of the queue, passed, it starts in pieces (REQUEST_START); each piece (PIECE_ARRIVE) of a LOAD moves its bytes into the scratchpad, of a
STORE its bytes to memory, and is counted against the request's object. -/
def Sys2Proof.Claim.CopyRequests : Prop :=
  (∀ (s : State) (team : Nat) (tm : Team) (e : QueueEntry) (b : Nat) (d : BitVec 512), s.hand = 256 * team + e.id → e.id < 256 → s.team? team = some tm →
    tm.queue = [e] → e.waiting = false → e.read = none → e.desc = none → e.bound ≠ some false → e.slot = none →
    e.va = BitVec.ofNat 64 (0x000FFFFFFFE00000 + b) → b + 64 ≤ tm.kern.hdr.scratch → b + 64 ≤ 2 ^ 21 → s.scrPinned team b 64 = true →
    let raw := cell (fun a => s.scrByte team a) b 64
    (parseReq raw).recd = false → (s.tdCache.getD tm.cluster []).get? (4096 * tm.asid.toNat + (parseReq raw).tid) = some d →
    s.reqStatus tm raw d.toNat false = 0 →
    ∃ t tm', exec .requestFetch s = .next t ∧ t.team? team = some tm' ∧ SameMem s t ∧
      tm'.queue = [{ e with read := some (BitVec.ofNat 512 raw), desc := some d, status := 0, nodeOk := nodeTakesOne 0 }]) ∧
  (∀ (s : State) (tm : Team) (e : QueueEntry) (raw d : BitVec 512), s.team? s.hand = some tm → tm.queue = [e] → e.slot = none → e.waiting = false →
    tm.slot < 256 → (∀ j ∈ s.teams, j.2.cluster = tm.cluster → j = (s.hand, tm) ∨ (j.2.slot ≠ tm.slot ∧ j.2.queue = [])) →
    e.status = 0 → e.read = some raw → e.desc = some d → (parseReq raw.toNat).recd = false → s.switchedOut tm.asid tm.cluster = false →
    ∃ t tm' r, exec .requestStart s = .next t ∧ t.team? s.hand = some tm' ∧ tm'.queue = [] ∧ SameMem s t ∧
      t.copies.get? s.copies.next = some r ∧ r.raw = raw ∧ r.desc = d ∧ r.va = e.va ∧ r.load = decide ((parseReq raw.toNat).op = 0) ∧
      r.pieces = piecesOf (parseTensor d.toNat) (parseReq raw.toNat)) ∧
  (∀ (s : State) (req i : Nat) (r : Req) (p : Piece) (tm : Team) (h : Hit), s.copies.get? req = some r → r.pieces[i]? = some p → s.team? r.team = some tm →
    p.done = false → p.waiting = false → tm.horizon = [] → clean s → (∃ j q, r.pieces[j]? = some q ∧ j ≠ i ∧ q.done = false) →
    let f := parseReq r.raw.toNat
    let n := p.offs.length
    f.obj = noObj → p.fills = [] → 1 ≤ n → p.va.toNat % 128 + n ≤ 128 → p.va.toNat + n ≤ 0x000FFFFFFFE00000 → (p.offs.map (·.1)).Nodup →
    (∀ e ∈ p.offs, s.scrPinned r.team e.1 1 = true ∧ s.scrPoisoned r.team e.1 1 = false) → h.key % 128 + n ≤ 128 → Quiet s 0 (h.key / 128) →
    let found := fun kind => (Near.hit s tm.near tm.asid p.va.toNat n kind false).or (findTlb (s.tlbDie.getD (tm.cluster / 18) []) tm.asid p.va.toNat kind false)
    (r.load = true → found .read = some h →
      ∃ t r', exec (.pieceArrive req i) s = .next t ∧ SameMem s t ∧ t.copies.get? req = some r' ∧
        r' = { r with pieces := listSet r.pieces i { p with done := true, waiting := false } } ∧
        (∀ j a m, p.offs[j]? = some (a, m) → t.scrByte r.team a = (s.byte (h.key + j) &&& m)) ∧
        ∀ a, a ∉ p.offs.map (·.1) → t.scrByte r.team a = s.scrByte r.team a) ∧
    (r.load = false → f.bnd = false → r.aborted = false → found .write = some h → s.liveHeader h.key n = none →
      ∃ t r', exec (.pieceArrive req i) s = .next t ∧ t.copies.get? req = some r' ∧
        r' = { r with pieces := listSet r.pieces i { p with done := true, waiting := false } } ∧ t.teams = s.teams ∧
        (∀ j a m, p.offs[j]? = some (a, m) → t.byte (h.key + j) = ((s.byte (h.key + j) &&& ~~~m) ||| (s.scrByte r.team a &&& m))) ∧
        ∀ a, (a < h.key ∨ h.key + n ≤ a) → t.byte a = s.byte a))

/-- KICK and the requests of the copy engine: the two parts stated as Kicks, CopyRequests. -/
def Obligations.CopyEngine : Prop :=
  Sys2Proof.Claim.Kicks ∧ Sys2Proof.Claim.CopyRequests

/-- 07 R168, R167: the BOBJ forms on an object of the scratchpad. INIT sets N pending arrivals in phase 0; EXPECT adds bytes, with an arrival
for .arrive; ARRIVE takes one; a phase with neither arrivals nor bytes left completes. WAIT answers LERR once the phase of S[B] has passed,
and sleeps until then. -/
def Sys2Proof.Claim.BarrierObjects : Prop :=
  ∀ (s : State) (k : Nat) (g : Group) (x : Split) (tm : Team) (b : Nat), s.issuer? = some (k, g, x) → idle s g → clean s → s.team? g.team = some tm →
    let at1 := fun (gd : Guard) (a : BitVec 6) => s.active g x gd ≠ 0 ∧ s.readS g a.toNat = BitVec.ofNat 64 (0x000FFFFFFFE00000 + b) ∧ b % 8 = 0 ∧
      b + 8 ≤ tm.kern.hdr.scratch ∧ b + 8 ≤ 2 ^ 21 ∧ s.scrPinned g.team b 8 = true
    let obj := cell (fun a => s.scrByte g.team a) b 8
    let sets := fun (i : Instr) (gd : Guard) (v : Nat) out => Flies s k g i (s.active g x gd) (fun t p => p.performed = true ∧
      (∀ j < 8, t.scrByte g.team (b + j) = BitVec.ofNat 8 (v / 256 ^ j)) ∧
      ∀ a, (a < b ∨ b + 8 ≤ a) → t.scrByte g.team a = s.scrByte g.team a) out
    (∀ o : BobjInitOp, at1 o.g o.a → sets (.bobjInit o) o.g (o.n.toNat * 2 ^ 41 + o.n.toNat * 2 ^ 34) (exec (.bobjInit o) s)) ∧
    (∀ o : BobjExpectOp, at1 o.g o.a →
      let p := (parseObj obj).addPend (s.readS g o.b.toNat).toNat
      sets (.bobjExpect o) o.g (if o.arrive then p.arrive else p).complete.pack (exec (.bobjExpect o) s)) ∧
    (∀ o : SAddr, at1 o.g o.a → sets (.bobjArrive o) o.g (parseObj obj).arrive.complete.pack (exec (.bobjArrive o) s)) ∧
    (∀ o : SThree, at1 o.g o.a →
      let ph := fld obj 48 14
      let want := (s.readS g o.b.toNat).toNat % 2 ^ 14
      (ph ≠ want → Flies s k g (.bobjWait o) (s.active g x o.g) (fun t p => p.performed = true ∧ t.teams = s.teams ∧
        p.sOut = [(o.d.toNat, if obj.testBit 62 then 1 else 0)]) (exec (.bobjWait o) s)) ∧
      (ph = want → ∃ t g' p, exec (.bobjWait o) s = .next t ∧ t.cur = .none ∧ t.group? k = some g' ∧ g'.op? g.gio = some p ∧ p.performed = false ∧ SameMem s t ∧
        t.teams = s.teams ∧ g'.gio = g.gio + 1 ∧ g'.v = g.v ∧ g'.s = g.s ∧ g'.p = g.p ∧
        ∃ y, g'.split? (lowest x.mask) = some y ∧ y.st = .sleep ∧ y.wait = .op g.gio))

/-- 07 R156, R157, R153: TDSET of a valid image at S[A] writes it to entry S[B] of the table and answers 0, of another image or index it
answers 1 and writes nothing; TDINV clears the V bit of its entries. Every cached copy of the entry goes. -/
def Sys2Proof.Claim.TensorDescriptors : Prop :=
  ∀ (s : State) (k : Nat) (g : Group) (x : Split) (tm : Team) (b : Nat) (h : Hit), s.issuer? = some (k, g, x) → idle s g → clean s → s.team? g.team = some tm →
    (∀ e ∈ tm.queue, e.group ≠ k) → h.key % 128 + 64 ≤ 128 → Quiet s 0 (h.key / 128) → s.liveHeader h.key 64 = none →
    let found := fun (i n : Nat) => (Near.hit s tm.near tm.asid (s.entryVa tm.asid i).toNat n .write true).or
      (findTlb (s.tlbDie.getD (tm.cluster / 18) []) tm.asid (s.entryVa tm.asid i).toNat .write true)
    (∀ o : SThree, s.active g x o.g ≠ 0 → s.readS g o.a.toNat = BitVec.ofNat 64 (0x000FFFFFFFE00000 + b) → b % 64 = 0 → b + 64 ≤ tm.kern.hdr.scratch →
      b + 64 ≤ 2 ^ 21 → s.scrPinned g.team b 64 = true → s.scrPoisoned g.team b 64 = false →
      let i := (s.readS g o.b.toNat).toNat
      let img := cell (fun a => s.scrByte g.team a) b 64
      ((4095 < i ∨ descValid img = false) → Flies s k g (.tdset o) (s.active g x o.g) (fun t p => p.performed = true ∧ p.sOut = [(o.d.toNat, 1)] ∧
        t.tdCache = s.tdCache) (exec (.tdset o) s)) ∧
      (i ≤ 4095 → descValid img = true → (s.entryVa tm.asid i).toNat + 64 ≤ 2 ^ 52 →
        found i 64 = some h →
        ∃ t g' p, exec (.tdset o) s = .next t ∧ t.cur = s.cur ∧ t.group? k = some g' ∧ g'.op? g.gio = some p ∧ p.performed = true ∧ p.sOut = [(o.d.toNat, 0)] ∧
          g'.v = g.v ∧ g'.s = g.s ∧ g'.p = g.p ∧ (∀ j < 64, t.byte (h.key + j) = BitVec.ofNat 8 (img / 256 ^ j)) ∧
          (∀ a, (a < h.key ∨ h.key + 64 ≤ a) → t.byte a = s.byte a) ∧ ∀ e ∈ t.tdCache, e.2.get? (4096 * tm.asid.toNat + i) = none)) ∧
    (∀ o : STwo, s.active g x o.g ≠ 0 →
      let i := (s.readS g o.a.toNat).toNat
      s.readS g o.b.toNat = 1 → i ≤ 4095 → (s.entryVa tm.asid i).toNat + 64 ≤ 2 ^ 52 →
      found i 1 = some h →
      ∃ t g' p, exec (.tdinv o) s = .next t ∧ t.cur = s.cur ∧ t.group? k = some g' ∧ g'.op? g.gio = some p ∧ p.performed = true ∧ g'.v = g.v ∧ g'.s = g.s ∧
        g'.p = g.p ∧ (∀ a, t.byte a = if a = h.key then s.byte a &&& 0xFE else s.byte a) ∧
        ∀ e ∈ t.tdCache, e.2.get? (4096 * tm.asid.toNat + i) = none)

/-- Barrier objects and the tensor descriptor table: the two parts stated as BarrierObjects, TensorDescriptors. -/
def Obligations.CopyObjects : Prop :=
  Sys2Proof.Claim.BarrierObjects ∧ Sys2Proof.Claim.TensorDescriptors

/-! ### The matrix engine and the team sequencer (10 R215 to R235; 01 R32 to R34) -/

/-- IADD, ISUB, SHL, MOV, MOV #imm32, MOV.hi (the q forms), BRA and EXIT of a stream complete: for every state in which a sequencer has the turn, and
for every operand, exec answers the next state stated. 10 R218, R220: the q forms write one q register and nothing else; MOV.hi its upper half; SHL
takes the low 8 bits of its count; BRA stands at its target when its condition holds; EXIT ends the stream. -/
def Sys2Proof.Claim.StreamRegisters : Prop :=
  ∀ (s : State) (q : Nat) (x : Seq), s.cur = .seq q → s.seq? q = some x →
    let r := fun (n : BitVec 5) => x.q.getD n.toNat 0
    let b := fun (signed : Bool) y => match y with
      | QSrc.q n => r n
      | QSrc.imm i => if signed then i.signExtend 64 else i.setWidth 64
    let writes := fun (i : Instr) (d : BitVec 5) (v : BitVec 64) => ∃ t, exec i s = .next (s.updSeq q fun y => { y with q := t }) ∧
      ∀ n, Tab.getD t n 0 = if n = d.toNat then v else x.q.getD n 0
    (∀ o : QBin, writes (.iaddQ o) o.d (r o.a + b true o.b) ∧ writes (.isubQ o) o.d (r o.a - b true o.b) ∧
      writes (.shlQ o) o.d (if 64 ≤ (b false o.b).toNat % 256 then 0 else BitVec.ofNat 64 ((r o.a).toNat * 2 ^ ((b false o.b).toNat % 256)))) ∧
    (∀ o : QMov, writes (.movQ o) o.d (r o.a)) ∧
    (∀ o : QImm, writes (.movQImm32 o) o.d (o.imm.signExtend 64) ∧
      writes (.movQHi o) o.d (BitVec.ofNat 64 (o.imm.toNat * 2 ^ 32 + (r o.d).toNat % 2 ^ 32))) ∧
    (∀ o : QBra,
      let take := match o.cond with
        | .always => True
        | .z a => r a = 0
        | .nz a => r a ≠ 0
      (take → exec (.braQ o) s = .next { s.updSeq q (fun y => { y with pc := y.pc + o.off.signExtend 64 }) with cur := .none }) ∧
      (¬ take → exec (.braQ o) s = .next s)) ∧
    exec .exitQ s = .next { s.updSeq q (fun y => { y with exited := true }) with cur := .none }

/-- MLD, MMA, MMAS, MZERO and MST complete: for every state in which a sequencer that has not stopped has the turn, and for operands that pass R223
under a guard that is absent or TRUE, exec answers the next state in which the command is taken. 10 R217, R223, R231: a matrix command is taken with its q operands as they stand; under an unresolved guard it is held, under FALSE
discarded; an operand that breaks R223 stops the sequencer at it. -/
def Sys2Proof.Claim.MatrixCommandsTaken : Prop :=
  ∀ (s : State) (q : Nat) (x : Seq) (tm : Team), s.cur = .seq q → s.seq? q = some x → s.team? x.team = some tm → x.stop = none →
    let r := fun (n : BitVec 5) => x.q.getD n.toNat 0
    let opd := fun (m : MOpd) => match m with
      | .tile _ => [0, 0]
      | .scr n => [r n, r (n + 1)]
    let taken := fun (i : Instr) (args : List (BitVec 64)) (slot : Option (BitVec 4)) =>
      let c : SeqCmd := { instr := i, args := args, pc := x.pc }
      let passes := match slot with
        | none => some true
        | some n => tm.guards.get? n.toNat
      (passes = some true → c.check tm.kern.hdr.scratch = none → exec i s = .next (s.updSeq q fun y => { y with cmds := y.cmds ++ [c] })) ∧
      (passes = some true → ∀ e, c.check tm.kern.hdr.scratch = some e → ∃ t x', exec i s = .next t ∧ t.cur = .none ∧ t.seq? q = some x' ∧
        x'.stop.map (·.cause) = some e.1.code ∧ x'.pc = x.pc ∧ x'.cmds = [] ∧ x'.q = x.q ∧ x'.t = x.t) ∧
      (passes = some false → exec i s = .next s) ∧
      (passes = none → ∀ n, slot = some n → exec i s = .next (s.updSeq q fun y => { y with held := some (c, n, none) }))
    (∀ o : MldOp, taken (.mld o) [r o.a, r (o.a + 1)] o.slot) ∧
    (∀ o : MmaOp, taken (.mma o) (opd o.a ++ opd o.b) o.slot ∧ taken (.mmas o) (opd o.a ++ opd o.b) o.slot) ∧
    (∀ o : MzeroOp, taken (.mzero o) [] o.slot) ∧
    (∀ o : MstOp, taken (.mst o) [r o.a, r (o.a + 1)] o.slot)

/-- The stream forms, and how a matrix command is taken: the two parts stated as StreamRegisters, MatrixCommandsTaken. -/
def Obligations.StreamForms : Prop :=
  Sys2Proof.Claim.StreamRegisters ∧ Sys2Proof.Claim.MatrixCommandsTaken

/-- 10 R226 to R229, 01 R33: MATRIX_COMMAND_PERFORMED of the engine's next sequencer: MZERO clears its tile, MLD copies 64 rows to a tile
register, MMA and MMAS add the chunks' sums, in chunk order, to every element (for the integer format the exact sum modulo 2^32), MST.b32
stores the tile. Only that tile, that register, or those bytes change. -/
def Sys2Proof.Claim.MatrixCommandsPerformed : Prop :=
  ∀ (s : State) (x : Seq) (tm : Team) (c : SeqCmd) (l : List SeqCmd), s.seq? s.hand = some x → s.team? x.team = some tm → x.cmds = c :: l →
    s.engineNext (s.hand / 4) = some s.hand → tm.unpinned = [] → tm.scrPoison = [] →
    let scr := fun (b : Nat) => s.scrByte x.team b
    let runs := fun (p : State → Seq → Team → Prop) => ∃ t x' tm', exec .matrixCommandPerformed s = .next t ∧ SameMem s t ∧ t.seq? s.hand = some x' ∧
      t.team? x.team = some tm' ∧ x'.cmds = l ∧ x'.count = x.count + 1 ∧ x'.q = x.q ∧ x'.pc = x.pc ∧ x'.stop = x.stop ∧ p t x' tm'
    let tile := fun (d : BitVec 5) (f : Nat → LaneWord) => runs fun _ x' tm' => x'.t = x.t ∧ tm'.scr = tm.scr ∧
      (∀ e < 4096, tm'.acc.getD (4096 * d.toNat + e) 0 = f e) ∧
      ∀ i, (i < 4096 * d.toNat ∨ 4096 * d.toNat + 4096 ≤ i) → tm'.acc.getD i 0 = tm.acc.getD i 0
    let old := fun (o : MmaOp) e => if o.z then 0 else tm.acc.getD (4096 * o.d.toNat + e) 0
    let byte := fun (m : MOpd) (v : List (BitVec 64)) (r b : Nat) => match m with
      | .tile t => (x.t.getD (8704 * t.toNat + 136 * r + b) 0).toNat
      | .scr _ => (scr (tileOffset (v.headD 0).toNat (16 * fld ((v[1]?).getD 0).toNat 0 16) (fld ((v[1]?).getD 0).toNat 16 3) r b)).toNat
    let small := fun (m : MOpd) (v : List (BitVec 64)) => match m with
      | .tile _ => True
      | .scr _ => v.length = 2 ∧ (v.headD 0).toNat < 2 ^ 21
    (∀ o, c.instr = .mzero o → tile o.d fun _ => 0) ∧
    (∀ o, c.instr = .mma o → small o.a (c.args.take 2) → small o.b (c.args.drop 2) → o.fa = 7 → o.fb = 7 → tile o.d fun e =>
      BitVec.ofInt 32 ((old o e).toInt + ((List.range (32 * (o.nch.toNat + 1))).map fun j =>
        (BitVec.ofNat 8 (byte o.a (c.args.take 2) (e / 64) j)).toInt * (BitVec.ofNat 8 (byte o.b (c.args.drop 2) (e % 64) j)).toInt).sum)) ∧
    (∀ o, c.instr = .mma o → small o.a (c.args.take 2) → small o.b (c.args.drop 2) → o.fa ≠ 7 → tile o.d fun e =>
      (List.range (o.nch.toNat + 1)).foldl (fun acc j => fp32Add acc (chunkT (((List.range 32).map (32 * j + ·)).map fun i =>
        (elemNum o.fa.toNat (elemCode o.fa.toNat (byte o.a (c.args.take 2) (e / 64)) i), elemNum o.fb.toNat (elemCode o.fb.toNat (byte o.b (c.args.drop 2) (e % 64)) i)))
        0x7F 0x7F)) (old o e)) ∧
    (∀ o a b, c.instr = .mmas o → o.a = .tile a → o.b = .tile b → o.fa ≠ 7 → tile o.d fun e =>
      (List.range (o.nch.toNat + 1)).foldl (fun acc j => fp32Add acc (chunkT (((List.range 32).map (32 * j + ·)).map fun i =>
        (elemNum o.fa.toNat (elemCode o.fa.toNat (byte o.a [] (e / 64)) i), elemNum o.fb.toNat (elemCode o.fb.toNat (byte o.b [] (e % 64)) i)))
        (byte o.a [] (e / 64) (128 + j)) (byte o.b [] (e % 64) (128 + j)))) (old o e)) ∧
    (∀ o v, c.instr = .mld o → c.args = v → v.length = 2 → (v.headD 0).toNat < 2 ^ 21 → o.sc = false → runs fun t x' _ => t.teams = s.teams ∧
      (∀ r b, r < 64 → b < 16 * (o.len.toNat + 1) → (x'.t.getD (8704 * o.d.toNat + 136 * r + b) 0).toNat = byte (.scr 0) v r b) ∧
      (∀ r j, r < 64 → j < 8 → x'.t.getD (8704 * o.d.toNat + 136 * r + 128 + j) 0 = 0x7F) ∧
      ∀ i, (i < 8704 * o.d.toNat ∨ 8704 * o.d.toNat + 8704 ≤ i) → x'.t.getD i 0 = x.t.getD i 0) ∧
    (∀ o v, c.instr = .mst o → o.fmt = .b32 → c.args = v → v.length = 2 → (v.headD 0).toNat < 2 ^ 21 →
      let off := tileOffset (v.headD 0).toNat (16 * fld ((v[1]?).getD 0).toNat 0 16) (fld ((v[1]?).getD 0).toNat 16 3)
      (∀ r b r' b', r < 64 → r' < 64 → b < 64 → b' < 64 → (r ≠ r' ∨ b ≠ b') → off r (4 * b) + 4 ≤ off r' (4 * b') ∨ off r' (4 * b') + 4 ≤ off r (4 * b)) →
      runs fun t x' _ => x'.t = x.t ∧ (∀ e < 4096, ∀ j < 4, t.scrByte x.team (off (e / 64) (4 * (e % 64)) + j) =
        BitVec.ofNat 8 ((tm.acc.getD (4096 * o.d.toNat + e) 0).toNat / 256 ^ j)) ∧
        ∀ a, (∀ e < 4096, a < off (e / 64) (4 * (e % 64)) ∨ off (e / 64) (4 * (e % 64)) + 4 ≤ a) → t.scrByte x.team a = scr a)

/-- 10 R232, 05 R125: ACCLD reads 2^CNT elements from its index on in each active lane, of a tile that no command the group has not met has
written, and an index that is not a multiple of 2^CNT raises MISALIGNED. -/
def Sys2Proof.Claim.AccumulatorLoads : Prop :=
  ∀ (s : State) (k : Nat) (g : Group) (x : Split) (tm : Team), s.issuer? = some (k, g, x) → s.team? g.team = some tm → ∀ o : AccldOp,
    let act := s.active g x o.g
    let n := 2 ^ o.cnt.toNat
    let e := fun l => (match o.b with
      | .v r => (s.readV g r.toNat l).toNat
      | .s r => (s.readS g r.toNat).toNat) % 4096
    (g.ops = [] → (∀ l, act.getLsbD l = true → e l % n = 0) → tm.accWritten.getD o.acc.toNat 0 ≤ g.seqSeen →
      Flies s k g (.accld o) act (fun t p => t.teams = s.teams ∧ p.performed = true ∧ p.vd = Machine.vRange o.d.toNat n ∧
        p.vOut = if o.d = 255 then [] else (lanes act).flatMap fun l => (List.range n).map fun i =>
          (64 * (o.d.toNat + i) + l, tm.acc.getD (4096 * o.acc.toNat + (e l + i)) 0)) (exec (.accld o) s)) ∧
    (g.stop = none → (∃ l, act.getLsbD l = true ∧ e l % n ≠ 0) →
      Stops s k g { cause := 0x05, detail := BitVec.ofNat 8 x.idx, pc := x.pc, idx := x.idx, lanes := act } (exec (.accld o) s))

/-- MLD, MMA, MMAS, MZERO, MST and ACCLD: the two parts stated as MatrixCommandsPerformed, AccumulatorLoads. -/
def Obligations.MatrixEngine : Prop :=
  Sys2Proof.Claim.MatrixCommandsPerformed ∧ Sys2Proof.Claim.AccumulatorLoads

/-! ### Store bundles (11 R236 to R255) -/

/-- 11 R242, R249 to R253: BOPEN of a good record takes the next slot and BCUR names the bundle; BOPEN.join of an open one makes BCUR name it;
BCOMMIT closes the bundle for its commit, with its pending lines counted, and BABORT begins its end, at once where no line is pending;
both clear BCUR when they end. BSTAT reads the state. The codes of R248 answer the other cases. -/
def Obligations.BundleInstructions : Prop :=
  ∀ (s : State) (k : Nat) (g : Group) (x : Split), s.issuer? = some (k, g, x) → idle s g → clean s →
    let asid := s.asidOf g
    let answers := fun (i : Instr) (act : LaneMask) (d : BitVec 6) (v : BitVec 64) (bcur : BitVec 16) (p : State → Prop) out =>
      Flies s k g i act (fun t o => o.performed = true ∧ o.sOut = [(d.toNat, v)] ∧ (t.group? k).map (·.bcur) = some bcur ∧ p t) out
    (∀ (o : BopenOp) (h : Hit), s.horizonOf k = [] → s.active g x o.g ≠ 0 → (s.readS g o.a.toNat).toNat % 512 = 0 →
      s.locate k g x.xfaults (s.readS g o.a.toNat) 512 .read = .at h → h.key % 512 = 0 → (∀ i < 4, Quiet s (coreOf k) (h.key / 128 + i)) →
      keyTier h.key = 0 ∨ keyTier h.key = 1 →
      let raw := cell s.byte h.key 512
      (recordOk raw = false → answers (.bopen o) (s.active g x o.g) o.d (9 * 2 ^ 16) g.bcur (fun t => t.bundles = s.bundles) (exec (.bopen o) s)) ∧
      (recordOk raw = true → 4096 ≤ s.bunNew → s.bunFreed = [] →
        answers (.bopen o) (s.active g x o.g) o.d (10 * 2 ^ 16) g.bcur (fun t => t.bundles = s.bundles) (exec (.bopen o) s)) ∧
      (recordOk raw = true → s.bunNew < 4096 → s.bundles.get? s.bunNew = none →
        let hnd := 4096 + s.bunNew
        ∃ t g' p age, exec (.bopen o) s = .next t ∧ t.cur = s.cur ∧ t.group? k = some g' ∧ g'.op? g.gio = some p ∧ p.performed = true ∧ s.pts (coreOf k) ≤ age ∧
          p.sOut = [(o.d.toNat, BitVec.ofNat 64 hnd)] ∧ g'.bcur = BitVec.ofNat 16 hnd ∧ g'.v = g.v ∧ g'.s = g.s ∧ g'.p = g.p ∧
          t.bundles = s.bundles.put s.bunNew
            { gen := 1, st := .opened, asid := asid, die := coreOf k / 72, age := age, scope := o.scope, recKey := h.key,
              ranges := (List.range (raw % 32)).map fun i => (fld raw (512 + 128 * i) 64, fld raw (576 + 128 * i) 64) } ∧
          (∀ a, t.byte a = if h.key + 48 ≤ a ∧ a < h.key + 64 then BitVec.ofNat 8 ((1 + 2 ^ 16 * hnd) / 256 ^ (a - (h.key + 48))) else s.byte a))) ∧
    (∀ o : SPair, s.active g x o.g ≠ 0 →
      let h := (s.readS g o.a.toNat).setWidth 16
      let joins := ∃ b, s.bundleIn asid h = some b ∧ b.st = .opened ∧ b.aborting = false
      (joins → answers (.bopenJoin o) (s.active g x o.g) o.d (h.setWidth 64) h (fun t => t.bundles = s.bundles) (exec (.bopenJoin o) s)) ∧
      (¬ joins → answers (.bopenJoin o) (s.active g x o.g) o.d (6 * 2 ^ 16) g.bcur (fun t => t.bundles = s.bundles) (exec (.bopenJoin o) s))) ∧
    (∀ o : SDst, s.active g x o.g ≠ 0 →
      (s.bundleIn asid g.bcur = none → answers (.bcommit o) (s.active g x o.g) o.d 6 0 (fun t => t.bundles = s.bundles) (exec (.bcommit o) s) ∧
        answers (.babort o) (s.active g x o.g) o.d 6 0 (fun t => t.bundles = s.bundles) (exec (.babort o) s)) ∧
      (∀ b, s.bundleIn asid g.bcur = some b → b.aborting = false →
        let slot := g.bcur.toNat % 4096
        (b.st = .opened → ∃ t g' p b', exec (.bcommit o) s = .next t ∧ t.group? k = some g' ∧ g'.op? g.gio = some p ∧ p.performed = false ∧ p.aux = 1 ∧
          g'.bcur = g.bcur ∧ g'.v = g.v ∧ g'.s = g.s ∧ g'.p = g.p ∧ t.bundles.get? slot = some b' ∧ b'.st = .closing ∧ b'.committer = s.pts (coreOf k) ∧
          b'.waits = b.waits ++ [.commit k g.gio] ∧ b'.homes = s.pendingHomes g.bcur ∧ b'.held = b'.homes ∧ b'.nlines = (s.pendingOf g.bcur).length) ∧
        (b.st = .opened → s.pendingOf g.bcur = [] → b.waits = [] → ∃ t g' p b', exec (.babort o) s = .next t ∧ t.group? k = some g' ∧ g'.op? g.gio = some p ∧
          p.performed = true ∧ p.sOut = [(o.d.toNat, 7)] ∧ g'.bcur = 0 ∧ g'.v = g.v ∧ g'.s = g.s ∧ g'.p = g.p ∧ t.bundles.get? slot = some b' ∧
          b'.st = .aborted ∧ b'.reason = 7 ∧ t.bunFreed = s.bunFreed ++ [slot]) ∧
        (b.st = .opened → s.pendingOf g.bcur ≠ [] → ∃ t g' p b', exec (.babort o) s = .next t ∧ t.group? k = some g' ∧ g'.op? g.gio = some p ∧ p.performed = false ∧
          t.bundles.get? slot = some b' ∧ b'.aborting = true ∧ b'.homes = s.pendingHomes g.bcur ∧ b'.waits = b.waits ++ [.abort k g.gio] ∧ SameMem s t) ∧
        ((b.st = .closing ∨ b.st = .committed ∨ b.st = .done ∨ b.st = .aborted) →
          answers (.babort o) (s.active g x o.g) o.d 8 0 (fun t => t.bundles = s.bundles) (exec (.babort o) s)) ∧
        ((b.st = .done ∨ b.st = .aborted) →
          answers (.bcommit o) (s.active g x o.g) o.d (BitVec.ofNat 64 b.reason) 0 (fun t => t.bundles = s.bundles) (exec (.bcommit o) s)))) ∧
    (∀ o : BstatOp, s.active g x o.g ≠ 0 →
      let h := match o.a with
        | some a => (s.readS g a.toNat).setWidth 16
        | none => g.bcur
      answers (.bstat o) (s.active g x o.g) o.d (match s.bundleIn asid h with
        | none => 0
        | some b => BitVec.ofNat 64 (b.st.code + (if b.st = .doomed ∨ b.st = .done ∨ b.st = .aborted then 2 ^ 8 * b.reason else 0) + (if b.late then 2 ^ 16 else 0) +
            2 ^ 32 * ((if b.st = .opened then (s.pendingOf h).length else b.nlines) % 2 ^ 32))) g.bcur (fun t => t.bundles = s.bundles) (exec (.bstat o) s))

/-- 11 R240 to R247: a bundled store becomes a pending version at its home and no committed byte changes; a closing bundle prepares home by
home, has its commit point past every prepared lease, installs home by home the bytes it holds, and is DONE; an aborted one drops them;
references end with the notices; the two timeouts abort it or let its BCOMMITs end lagging. -/
def Obligations.BundleLife : Prop :=
  (∀ (s : State) (r : HomeReq) (k gio lane off : Nat) (bs : List Byte) (h : BitVec 16) (g : Group) (o : Op) (a : LaneAcc) (b : Bundle),
    s.reqs.get? s.hand = some r → r.kind = .bundled off bs Config.selfModule h → r.who = .op k gio lane → s.group? k = some g → g.op? gio = some o →
    o.accs = [a] → a.lane = lane → (s.homes.get? r.line).isSome = true → s.reachable (keyMod (r.line * 128)) = true → s.ckptHolds (r.line * 128) = false →
    s.bundleIn (s.asidOf g) h = some b → s.behindBundled s.hand r = false → r.behind.filter s.stillBehind = none →
    let stored := fun (t : State) => exec .bundleStoreArrive s = .next t ∧ SameMem s t ∧ t.reqs.get? s.hand = none ∧
      ∃ g' o', t.group? k = some g' ∧ g'.op? gio = some o' ∧ o'.performed = true ∧ g'.v = g.v ∧ g'.s = g.s ∧ g'.p = g.p
    (b.st = .opened → b.aborting = false → (s.home r.line).pend = [] → s.pendingLines (sliceOf r.line) < Config.pendingPerSlice →
      ∃ t p, stored t ∧ (t.home r.line).pend = [p] ∧ p.modu = Config.selfModule ∧ p.handle = h ∧ p.scope = b.scope ∧
        (∀ i, p.bytes.get? i = if off ≤ i ∧ i < off + bs.length then bs[i - off]? else none) ∧
        p.companion = b.ranges.any (fun e => decide (e.1 ≤ a.ea.toNat) && decide (a.ea.toNat < e.2)) ∧ t.bundles = s.bundles) ∧
    (b.st = .closing → ∃ t b', stored t ∧ t.homes = s.homes ∧ t.bundles.get? (h.toNat % 4096) = some b' ∧ b' = { b with late := true })) ∧
  (∀ (s : State) (slot home : Nat) (b : Bundle), s.bundles.get? slot = some b → homeReachable s home = true → home ∈ b.homes →
    let h := handleOf slot b.gen
    (b.st = .closing → b.aborting = false →
      (∀ e ∈ s.homes, sliceOf e.1 = home → e.2.dir = {} ∧ ∀ p ∈ e.2.pend, p.names Config.selfModule h = true → p.poison = []) →
      ∃ t b', exec (.bundlePrepare slot home) s = .next t ∧ SameMem s t ∧ t.groups = s.groups ∧ t.bundles.get? slot = some b' ∧ b'.homes = b.homes.erase home ∧
        b'.st = .closing ∧ b.reply ≤ b'.reply ∧ ∀ line, (s.homes.get? line).isSome = true → sliceOf line = home →
          (∃ p ∈ (s.home line).pend, p.names Config.selfModule h = true ∧ p.companion = true) →
          (t.home line).cap = some (s.home line).rts ∧ (s.home line).rts < b'.reply) ∧
    (b.st = .committed → ∀ (line : Nat) (p : Pending), (s.homes.filter fun e => sliceOf e.1 == home && e.2.pend.any fun p => p.names Config.selfModule h).map (·.1) = [line] →
      (s.home line).pend = [p] → p.names Config.selfModule h = true → Tab.rises p.bytes = true → (s.home line).dir = {} → (∀ i b, p.bytes.get? i = some b → i < 128) →
      ∃ t b', exec (.bundleInstall slot home) s = .next t ∧ t.groups = s.groups ∧ t.bundles.get? slot = some b' ∧ b'.homes = b.homes.erase home ∧
        (t.home line).pend = [] ∧ b.t ≤ (t.home line).wts ∧ (s.home line).rts < (t.home line).wts ∧
        (p.companion = true → (t.home line).ref = some { modu := Config.selfModule, handle := h, scope := p.scope, t := b.t }) ∧
        (∀ i v, p.bytes.get? i = some v → t.byte (line * 128 + i) = v) ∧
        ∀ a, (∀ i v, p.bytes.get? i = some v → a ≠ line * 128 + i) → t.byte a = s.byte a) ∧
    (b.aborting = true → b.homes = [home] → b.waits = [] → uncached (b.recKey + 48) = false →
      ∃ t b', exec (.bundleDrop slot home) s = .next t ∧ t.groups = s.groups ∧ t.bundles.get? slot = some b' ∧ b'.st = .aborted ∧ b'.homes = [] ∧
        t.bunFreed = s.bunFreed ++ [slot]) ∧
    (b.aborting = true → 2 ≤ b.homes.length → b.homes.Nodup →
      ∃ t b', exec (.bundleDrop slot home) s = .next t ∧ SameMem s t ∧ t.groups = s.groups ∧ t.bundles.get? slot = some b' ∧ b'.st = b.st ∧
        b'.homes = b.homes.erase home ∧ ∀ line, (s.homes.get? line).isSome = true → sliceOf line = home → ∀ p ∈ (t.home line).pend, p.names Config.selfModule h = false)) ∧
  (∀ (s : State) (b : Bundle), s.bundles.get? s.hand = some b →
    let h := handleOf s.hand b.gen
    (b.st = .closing → b.aborting = false → b.homes = [] → uncached (b.recKey + 48) = false →
      ∃ t b', exec .bundleCommitPoint s = .next t ∧ t.groups = s.groups ∧ t.bundles.get? s.hand = some b' ∧ b'.st = .committed ∧
        b.reply ≤ b'.t ∧ b.committer < b'.t ∧ b'.homes = b.held ∧ b'.nlines = b.nlines ∧ b'.waits = b.waits ∧
        ∀ k gio w, b.waits = .commit k gio :: w → b'.t = max b.reply (max b.committer (s.pts (coreOf k)) + 1)) ∧
    (b.st = .committed → b.homes = [] → b.waits = [] → uncached (b.recKey + 48) = false →
      ∃ t b', exec .bundleDone s = .next t ∧ t.groups = s.groups ∧ t.bundles.get? s.hand = some b' ∧ b'.st = .done ∧ t.bunFreed = s.bunFreed ++ [s.hand] ∧
        ∀ d ∈ b.noticeDies, ∃ i, t.notices.get? i = some (d, Config.selfModule, h)) ∧
    (∀ (k gio : Nat) (g : Group) (o : Op), b.st = .committed → b.homes = [] → b.waits = [.commit k gio] → s.group? k = some g → g.op? gio = some o →
      ∃ t g' o', exec .bundleDone s = .next t ∧ t.group? k = some g' ∧ g'.op? gio = some o' ∧ o'.performed = true ∧ o'.sOut = (o.sd.map fun d => (d, 0)) ∧
        g'.bcur = 0 ∧ g'.ferr = g.ferr) ∧
    (b.st = .closing → b.aborting = false → (∃ e ∈ b.homes, homeReachable s e = false) → b.due ≤ s.cycle → s.pendingHomes h ≠ [] →
      ∃ t b', exec .bundlePrepareTimeout s = .next t ∧ SameMem s t ∧ t.groups = s.groups ∧ t.bundles.get? s.hand = some b' ∧ b'.aborting = true ∧ b'.reason = 4 ∧
        b'.homes = s.pendingHomes h) ∧
    (∀ (k gio : Nat) (g : Group) (o : Op), b.st = .committed → b.lagging = false → b.homes ≠ [] → b.due ≤ s.cycle → b.waits = [.commit k gio] → (s.die 0).evqBase = 0 →
      s.group? k = some g → g.op? gio = some o → (s.home ((b.recKey + 48) / 128)).dir.st = .i →
      ∃ t g' o' b', exec .bundleInstallTimeout s = .next t ∧ (∀ a, (a < b.recKey + 48 ∨ b.recKey + 64 ≤ a) → t.byte a = s.byte a) ∧ t.group? k = some g' ∧ g'.op? gio = some o' ∧ o'.performed = true ∧
        o'.sOut = (o.sd.map fun d => (d, 5)) ∧ g'.ferr = true ∧ g'.bcur = 0 ∧ t.bundles.get? s.hand = some b' ∧ b'.lagging = true ∧ b'.reason = 5 ∧ b'.st = .committed ∧
        t.evWait.length = s.evWait.length + (b.homes.map (· / 64)).dedup.length)) ∧
  (∀ (s : State) (d m : Nat) (h : BitVec 16),
    let retired := fun (l : List Horizon) => l.filter fun e => !(e.modu == m && e.handle == h)
    let retires := fun (t : State) => ∀ i tm, s.team? i = some tm → ∃ tm', t.team? i = some tm' ∧
      tm'.horizon = if tm.cluster / 18 = d then retired tm.horizon else tm.horizon
    (s.notices.get? s.hand = some (d, m, h) → d < 16 → ∃ t, exec .bundleCompletionNotice s = .next t ∧ t.notices.get? s.hand = none ∧ retires t ∧ SameMem s t) ∧
    (s.notices.get? s.hand = some (16 + d, m, h) → homeReachable s d = true → ∃ t, exec .bundleCompletionNotice s = .next t ∧ t.notices.get? s.hand = none ∧
      SameMem s t ∧ ∀ line, (s.homes.get? line).isSome = true → (t.home line).ref =
        if sliceOf line = d ∧ ∃ r, (s.home line).ref = some r ∧ r.modu = m ∧ r.handle = h then none else (s.home line).ref) ∧
    (s.queries.get? s.hand = some (d, m, h) → s.reachable m = true → ∃ t, exec .horizonQuery s = .next t ∧ t.queries.get? s.hand = none ∧
      t.answers.get? s.answers.next = some (d, m, h) ∧ SameMem s t) ∧
    (s.answers.get? s.hand = some (d, m, h) → (∀ b, s.bundleOf h = some b → b.st ≠ .committed) →
      ∃ t, exec .horizonQueryAnswer s = .next t ∧ t.answers.get? s.hand = none ∧ retires t ∧ SameMem s t))

/-! ### Stage nodes (13 R274 to R291) -/

/-- SPAWN completes: for every state and operands that meet the hypotheses, exec (.spawn o) s answers a next state, the one that Flies describes
(Safety.lean: there is t with exec … = next t). 13 R288: SPAWN to a KIND 1 header of its record size, below its fan-out and the node's depth: it completes its push, in which one record leaves
for the node's bin from each active lane, in order of lane, holding the lane's registers, and the lane counts it; it is in flight until they are placed.
With no active lane it is performed. A bad header raises NODE_TARGET, the
first lane past its fan-out or its depth NODE_FANOUT or NODE_DEPTH, and then no lane pushes. -/
def Sys2Proof.Claim.Spawning : Prop :=
  ∀ (s : State) (k : Nat) (g : Group) (x : Split) (tm : Team) (hd : Hit), s.issuer? = some (k, g, x) → idle s g → clean s → s.team? g.team = some tm →
    tm.horizon = [] → ∀ o : SpawnOp,
    let act := s.active g x o.g
    let h := s.readS g o.a.toNat
    let sz := o.sz.toNat + 1
    let raw := cell s.byte hd.key 64
    let depth := fun l => ((tm.recs.get? (64 * g.gidx + l)).map (·.depth)).getD 0
    let sound := nodeHeaderOk raw = true ∧ (parseHeader raw).recsz = sz
    let room := fun l => g.sent.getD l 0 + 1 ≤ tm.kern.hdr.fanout
    let shallow := fun l => depth l + 1 ≤ (parseHeader raw).maxdepth
    let first := fun l => act.getLsbD l = true ∧ ∀ j < l, act.getLsbD j = true → room j ∧ shallow j
    let traps := fun (c : BitVec 8) => Stops s k g { cause := c, detail := BitVec.ofNat 8 x.idx, pc := x.pc, idx := x.idx, lanes := act } (exec (.spawn o) s)
    (act = 0 → Flies s k g (.spawn o) 0 (fun t p => p.performed = true ∧ t.inflight = s.inflight) (exec (.spawn o) s)) ∧
    (act ≠ 0 → h.toNat % 64 = 0 → s.locate k g x.xfaults h 64 .read = .at hd → hd.key % 128 + 64 ≤ 128 → Quiet s (coreOf k) (hd.key / 128) →
    (g.stop = none → ¬ sound → traps 0x0E) ∧
    (∀ l, g.stop = none → sound → first l → ¬ room l → traps 0x0F) ∧
    (∀ l, g.stop = none → sound → first l → room l → ¬ shallow l → traps 0x10) ∧
    (sound → (∀ l, act.getLsbD l = true → room l ∧ shallow l) → o.b ≠ 255 →
      Flies s k g (.spawn o) act (fun t p => p.performed = false ∧ p.aux = Machine.spawnPushed ∧ p.vd = [] ∧
        (∃ f : Nat → Nat, (∀ l l', act.getLsbD l = true → act.getLsbD l' = true → l < l' → f l < f l') ∧
          ∀ l, act.getLsbD l = true → s.inflight.get? (f l) = none ∧ t.inflight.get? (f l) = some
            { die := coreOf k / 72, asid := tm.asid, node := h, data := (List.range (16 * sz)).map (dataByte s g o.b l), depth := depth l + 1, src := 0, gran := sz,
              spawn := some (g.team, g.gidx, g.gio) }) ∧
        (∀ i m, s.inflight.get? i = some m → t.inflight.get? i = some m) ∧
        (∃ tm', t.team? g.team = some tm' ∧ tm'.reserve = tm.reserve - sz * (lanes act).length ∧ tm'.scr = tm.scr ∧ tm'.recs = tm.recs) ∧
        ∃ g', t.group? k = some g' ∧ ∀ l, l < 64 → g'.sent.getD l 0 = g.sent.getD l 0 + if act.getLsbD l = true then 1 else 0) (exec (.spawn o) s)))

/-- RECLD, NODEID and QSTAT complete: for every state and operands that meet the hypotheses, exec (.recld o) s, exec (.nodeid o) s and
exec (.qstat o) s answer a next state, the one stated. 13 R275, R276, R289 to R291: RECLD reads its own lane's record, zero past its end; NODEID gives the depth, the source, the lane's place and
the team's count; QSTAT answers the launcher's account of a node, and bit 42 where its address names no KIND 1 header. -/
def Sys2Proof.Claim.NodeReads : Prop :=
  ∀ (s : State) (k : Nat) (g : Group) (x : Split) (tm : Team), s.issuer? = some (k, g, x) → s.team? g.team = some tm →
    let rec? := fun l => tm.recs.get? (64 * g.gidx + l)
    (∀ o : RecldOp,
      let act := s.active g x o.g
      let n := tyLen o.ty
      let off := fun l => ((s.readV g o.b.toNat l).toNat + o.off.toNat) % 2 ^ 32
      let byte := fun l i => ((((rec? l).map (·.data)).getD [])[i]?).getD 0
      (g.ops = [] → (∀ l, act.getLsbD l = true → off l % n = 0) → Flies s k g (.recld o) act (fun t p => t.teams = s.teams ∧ p.performed = true ∧
        p.vd = Machine.vRange o.d.toNat (tyRegs o.ty) ∧
        p.vOut = if o.d = 255 then [] else (lanes act).flatMap fun l => (List.range (tyRegs o.ty)).map fun i =>
          (64 * (o.d.toNat + i) + l, tyWord o.ty (cell (byte l) (off l) n) i)) (exec (.recld o) s)) ∧
      (g.stop = none → (∃ l, act.getLsbD l = true ∧ off l % n ≠ 0) →
        Stops s k g { cause := 0x05, detail := BitVec.ofNat 8 x.idx, pc := x.pc, idx := x.idx, lanes := act } (exec (.recld o) s))) ∧
    (∀ o : NodeidOp, VecResult s k g (s.active g x o.g) false o.d (fun l => BitVec.ofNat 64 (match o.field with
      | .depth => ((rec? l).map (·.depth)).getD 0
      | .src => ((rec? l).map (·.src)).getD 0
      | .slot => g.gidx * g.width + l
      | .count => tm.count)) 0 (exec (.nodeid o) s)) ∧
    (∀ o : SPair, g.ops = [] →
      let act := s.active g x o.g
      let h := s.readS g o.a.toNat
      let die := coreOf k / 72
      let answers := fun (q : BitVec 64 → Prop) => Flies s k g (.qstat o) act (fun _ p => p.performed = true ∧ ∃ v : BitVec 64, p.sOut = [(o.d.toNat, v)] ∧ q v) (exec (.qstat o) s)
      (act = 0 → Flies s k g (.qstat o) 0 (fun _ p => p.performed = true ∧ p.sOut = []) (exec (.qstat o) s)) ∧
      (act ≠ 0 → h.toNat % 64 ≠ 0 → answers fun v => v = BitVec.ofNat 64 (2 ^ 42)) ∧
      (act ≠ 0 → h.toNat % 64 = 0 → (∀ f, s.engineRead die tm.asid h 64 .read false = (s, .error f) → f.1 ≠ fkWait → answers fun v => v = BitVec.ofNat 64 (2 ^ 42)) ∧
        ∀ hd, findTlb (s.tlbDie.getD die []) tm.asid h.toNat .read false = some hd → h.toNat + 64 ≤ 2 ^ 52 → hd.key % 128 + 64 ≤ 128 → Quiet s (coreOf k) (hd.key / 128) →
        let raw := cell s.byte hd.key 64
        (nodeHeaderOk raw = false → answers fun v => v = BitVec.ofNat 64 (2 ^ 42)) ∧
        (nodeHeaderOk raw = true → ∀ i b c, s.bin? die tm.asid h = some (i, b) → s.ctx tm.asid = some c → answers fun v =>
          v.extractLsb' 0 32 = BitVec.ofNat 32 (min b.recs.length (2 ^ 32 - 1)) ∧ v.extractLsb' 32 8 = BitVec.ofNat 8 (min (s.nodeTeams die tm.asid h).length 255) ∧
          v.getLsbD 40 = (b.timed || s.timerDue b) ∧ v.getLsbD 41 = decide (b.sram < b.recs.length) ∧ v.getLsbD 42 = false ∧
          v.extractLsb' 44 20 = BitVec.ofNat 20 (min (c.freeGranules / 256) (2 ^ 20 - 1)))))

/-- RECORD_ARRIVE and BIN_TIMER complete: for every state with such a record or bin in hand, exec answers the next state stated. 13 R278 to R280,
R284: a record reaches its node's bin in the order of its pushes, or is dropped where it does not fit the node: its granules
return and an event names it. The first record of a node brings its header. A bin whose oldest record has waited its timer is ready. -/
def Sys2Proof.Claim.RecordsAndBins : Prop :=
  (∀ (s : State) (m : RecMsg), s.inflight.get? s.hand = some m → m.waiting = false →
    (∀ e ∈ s.inflight, e.1 < s.hand → e.2.die = m.die → e.2.asid = m.asid → e.2.node ≠ m.node) →
    let marks := fun (t : State) (how : Nat) => ∀ c y, m.cmd = some c → s.cmds.get? c = some y → t.cmds.get? c = some { y with retired := how }
    (∀ i b, s.bin? m.die m.asid m.node = some (i, b) → recordFits b.kern.hdr m = true →
      ∃ t b', exec .recordArrive s = .next t ∧ SameMem s t ∧ t.groups = s.groups ∧ t.inflight.get? s.hand = none ∧ t.bins.get? i = some b' ∧
        b'.recs = b.recs ++ [{ m with arrived := s.cycle }] ∧ b'.node = b.node ∧ b'.asid = b.asid ∧ marks t 1) ∧
    (∀ i b c, s.bin? m.die m.asid m.node = some (i, b) → recordFits b.kern.hdr m = false → s.ctx m.asid = some c → (s.die m.die).evqBase = 0 →
      ∃ t c', exec .recordArrive s = .next t ∧ SameMem s t ∧ t.groups = s.groups ∧ t.inflight.get? s.hand = none ∧ t.bins = s.bins ∧
        t.ctx m.asid = some c' ∧ c'.used = c.used - m.gran ∧ t.evWait.length = s.evWait.length + 1 ∧ marks t 2) ∧
    (∀ raw safe, s.bin? m.die m.asid m.node = none → s.readNode m.die m.asid m.node = (s, .ok (raw, safe)) → nodeHeaderOk raw = true →
      recordFits (parseHeader raw) m = true →
      ∃ t b, exec .recordArrive s = .next t ∧ SameMem s t ∧ t.inflight.get? s.hand = none ∧ t.bins.get? s.bins.next = some b ∧ b.die = m.die ∧
        b.asid = m.asid ∧ b.node = m.node ∧ b.kern.hdr = parseHeader raw ∧ b.kern.safe = safe ∧ b.recs = [{ m with arrived := s.cycle }] ∧ b.timed = false ∧ marks t 1)) ∧
  (∀ (s : State) (b : Bin) (m : RecMsg) (l : List RecMsg), s.bins.get? s.hand = some b → b.recs = m :: l →
    exec .binTimer s = .next { s with bins := s.bins.put s.hand { b with
      timed := b.timed || decide (m.arrived + (if b.kern.hdr.timer = 0 then 4096 else 64 * b.kern.hdr.timer) ≤ s.cycle) } })

/-- SPAWN, RECLD, NODEID, QSTAT, and records in bins: the three parts stated as Spawning, NodeReads, RecordsAndBins. -/
def Obligations.StageNodes : Prop :=
  Sys2Proof.Claim.Spawning ∧ Sys2Proof.Claim.NodeReads ∧ Sys2Proof.Claim.RecordsAndBins

/-! ### Service cores (15 R393; 06 R152; 11 R254) -/

/-- HART_INSTRUCTION, register forms (PRESUMED, log 7): the operations on registers and immediates, jumps and branches. x0 reads 0 and discards. -/
def Sys2Proof.Claim.HartRegisters : Prop :=
  ∀ (s : State) (h : Nat), s.cur = .hart h →
    let x := s.hart h
    let run := fun w => exec (.hartInstruction w) s
    (∀ (rd rs1 rs2 : BitVec 5) (f3 f7 : Nat), f3 < 8 →
      (∀ v, rvRes f3 f7 (x.reg rs1.toNat) (x.reg rs2.toNat) = some v → HartSets s h rd.toNat v (run (wordR 0x33 f3 f7 rd rs1 rs2))) ∧
      (∀ v, (f7 = 1 → f3 = 0 ∨ 4 ≤ f3) → (f7 = 0 → f3 = 0 ∨ f3 = 1 ∨ f3 = 5) →
        rvRes f3 f7 ((x.reg rs1.toNat).setWidth 32) ((x.reg rs2.toNat).setWidth 32) = some v →
        HartSets s h rd.toNat (v.signExtend 64) (run (wordR 0x3B f3 f7 rd rs1 rs2)))) ∧
    (∀ (rd rs1 : BitVec 5) (imm : BitVec 12) (sh6 : BitVec 6) (sh5 : BitVec 5) (f3 : Nat),
      (∀ v, f3 ∈ [0, 2, 3, 4, 6, 7] → rvRes f3 0 (x.reg rs1.toNat) (imm.signExtend 64) = some v →
        HartSets s h rd.toNat v (run (wordI 0x13 f3 rd rs1 imm))) ∧
      (∀ a v, (f3, a) ∈ [(1, 0), (5, 0), (5, 16)] → rvRes f3 (2 * a) (x.reg rs1.toNat) (sh6.setWidth 64) = some v →
        HartSets s h rd.toNat v (run (wordI 0x13 f3 rd rs1 (BitVec.ofNat 6 a ++ sh6)))) ∧
      HartSets s h rd.toNat (((x.reg rs1.toNat).setWidth 32 + imm.signExtend 32).signExtend 64) (run (wordI 0x1B 0 rd rs1 imm)) ∧
      (∀ a v, (f3, a) ∈ [(1, 0), (5, 0), (5, 32)] → rvRes f3 a ((x.reg rs1.toNat).setWidth 32) (sh5.setWidth 32) = some v →
        HartSets s h rd.toNat (v.signExtend 64) (run (wordI 0x1B f3 rd rs1 (BitVec.ofNat 7 a ++ sh5))))) ∧
    (∀ (rd : BitVec 5) (imm : BitVec 20),
      HartSets s h rd.toNat ((imm ++ 0#12).signExtend 64) (run (imm ++ rd ++ 0x37#7)) ∧
      HartSets s h rd.toNat (x.pc + (imm ++ 0#12).signExtend 64) (run (imm ++ rd ++ 0x17#7)) ∧
      HartGoes s h rd.toNat (x.pc + 4) (x.pc + (imm ++ 0#1).signExtend 64)
        (run (imm.extractLsb' 19 1 ++ imm.extractLsb' 0 10 ++ imm.extractLsb' 10 1 ++ imm.extractLsb' 11 8 ++ rd ++ 0x6F#7))) ∧
    (∀ (rd rs1 : BitVec 5) (imm : BitVec 12),
      HartGoes s h rd.toNat (x.pc + 4) ((x.reg rs1.toNat + imm.signExtend 64) &&& ~~~1#64) (run (wordI 0x67 0 rd rs1 imm))) ∧
    (∀ (rs1 rs2 : BitVec 5) (imm : BitVec 12) (f3 : Nat),
      let w := imm.extractLsb' 11 1 ++ imm.extractLsb' 4 6 ++ rs2 ++ rs1 ++ BitVec.ofNat 3 f3 ++ imm.extractLsb' 0 4 ++ imm.extractLsb' 10 1 ++ 0x63#7
      (rvBranch f3 (x.reg rs1.toNat) (x.reg rs2.toNat) = some true → HartGoes s h 0 0 (x.pc + (imm ++ 0#1).signExtend 64) (run w)) ∧
      (rvBranch f3 (x.reg rs1.toNat) (x.reg rs2.toNat) = some false → run w = .next s))

/-- HART_INSTRUCTION, memory forms (PRESUMED, log 7), of aligned bytes in a line that the hart's cache holds: loads, stores, LR, SC and the
AMOs; a reservation on the same bytes is needed by SC, and an AMO's misaligned address traps with cause 6, LR's with 4. -/
def Sys2Proof.Claim.HartMemory : Prop :=
  ∀ (s : State) (h : Nat) (rd rs1 rs2 : BitVec 5), s.cur = .hart h →
    let x := s.hart h
    let run := fun w => exec (.hartInstruction w) s
    let stores := fun (k n v : Nat) (c : CacheLine) (t : State) =>
      ∃ c', (t.hart h).cache.get? (k / 128) = some c' ∧ c'.st = .m ∧ c'.data = lineWith c.data (k % 128) n v ∧ SameMem s t ∧
        (∀ l, l ≠ k / 128 → (t.hart h).cache.get? l = x.cache.get? l) ∧ (∀ i, i ≠ h → t.hart i = s.hart i) ∧ (t.hart h).pc = x.pc
    (∀ (f3 k : Nat) (imm : BitVec 12) (c : CacheLine), f3 < 7 → HartMay s h (x.reg rs1.toNat + imm.signExtend 64) (2 ^ (f3 % 4)) k →
      x.cache.get? (k / 128) = some c →
      HartSets s h rd.toNat (if f3 < 4 then (BitVec.ofNat (8 * 2 ^ (f3 % 4)) (lineNum c.data (k % 128) (2 ^ (f3 % 4)))).signExtend 64
        else BitVec.ofNat 64 (lineNum c.data (k % 128) (2 ^ (f3 % 4)))) (run (wordI 0x03 f3 rd rs1 imm))) ∧
    (∀ (f3 k : Nat) (imm : BitVec 12) (c : CacheLine), f3 < 4 → HartMay s h (x.reg rs1.toNat + imm.signExtend 64) (2 ^ f3) k →
      x.cache.get? (k / 128) = some c → (c.st = .m ∨ c.st = .e) → s.ckptHolds k = false → c.data.length = 128 → s.liveHeader k (2 ^ f3) = none →
      ∃ t, run (wordS 0x23 f3 rs1 rs2 imm) = .next t ∧ stores k (2 ^ f3) (x.reg rs2.toNat).toNat c t ∧ ∀ r, (t.hart h).reg r = x.reg r) ∧
    (∀ (f3 f5 k : Nat) (aqrl : BitVec 2) (c : CacheLine), f3 = 2 ∨ f3 = 3 → HartMay s h (x.reg rs1.toNat) (2 ^ f3) k →
      x.cache.get? (k / 128) = some c → (c.st = .m ∨ c.st = .e) → s.ckptHolds k = false → c.data.length = 128 → s.liveHeader k (2 ^ f3) = none →
      (aqrl.getLsbD 0 = true → s.strmAny h = false) →
      let old := lineNum c.data (k % 128) (2 ^ f3)
      let w := fun (f5 : Nat) => wordR 0x2F f3 (4 * f5 + aqrl.toNat) rd rs1 rs2
      (∀ new, amoRes f5 (BitVec.ofNat (8 * 2 ^ f3) old) ((x.reg rs2.toNat).setWidth (8 * 2 ^ f3)) = some new →
        ∃ t, run (w f5) = .next t ∧ stores k (2 ^ f3) new.toNat c t ∧
          ∀ r, (t.hart h).reg r = if r ≠ 0 ∧ r = rd.toNat then (BitVec.ofNat (8 * 2 ^ f3) old).signExtend 64 else x.reg r) ∧
      (rs2 = 0 → ∃ t, run (w 2) = .next t ∧ (t.hart h).resv = some (k / 128, k) ∧ (t.hart h).cache = x.cache ∧ SameMem s t ∧
        ∀ r, (t.hart h).reg r = if r ≠ 0 ∧ r = rd.toNat then (BitVec.ofNat (8 * 2 ^ f3) old).signExtend 64 else x.reg r) ∧
      (x.resv = some (k / 128, k) → ∃ t, run (w 3) = .next t ∧ stores k (2 ^ f3) (x.reg rs2.toNat).toNat c t ∧ (t.hart h).resv = none ∧
        ∀ r, (t.hart h).reg r = if r ≠ 0 ∧ r = rd.toNat then 0 else x.reg r) ∧
      (x.resv ≠ some (k / 128, k) → ∃ t, run (w 3) = .next t ∧ (t.hart h).cache = x.cache ∧ SameMem s t ∧ (t.hart h).resv = none ∧
        ∀ r, (t.hart h).reg r = if r ≠ 0 ∧ r = rd.toNat then 1 else x.reg r)) ∧
    (∀ (f3 f5 : Nat) (aqrl : BitVec 2), f3 = 2 ∨ f3 = 3 → (x.reg rs1.toNat).toNat % 2 ^ f3 ≠ 0 → rs2 = 0 → (aqrl.getLsbD 0 = true → s.strmAny h = false) →
      HartTraps s h 4 (x.reg rs1.toNat) false (run (wordR 0x2F f3 (8 + aqrl.toNat) rd rs1 0)) ∧
      ((amoRes f5 0#64 0#64).isSome = true ∨ f5 = 3 → HartTraps s h 6 (x.reg rs1.toNat) false (run (wordR 0x2F f3 (4 * f5 + aqrl.toNat) rd rs1 rs2))))

/-- Service cores: register and memory forms (the RISC-V base, log 7): the two parts stated as HartRegisters, HartMemory. -/
def Obligations.HartForms : Prop :=
  Sys2Proof.Claim.HartRegisters ∧ Sys2Proof.Claim.HartMemory

/-- 15 R393 (PRESUMED in detail, log 7): ECALL, EBREAK, MRET, SRET, WFI, FENCE, the CSR instructions, a privileged form in a lower mode, and
INTERRUPT_PENDING. A word of an extension that the manual does not describe is refused by name. -/
def Obligations.HartPrivilege : Prop :=
  (∀ (s : State) (h : Nat), s.cur = .hart h →
    let x := s.hart h
    let run := fun w => exec (.hartInstruction w) s
    HartTraps s h (match x.mode with
      | .u => 8
      | .s => 9
      | .m => 11) 0 false (run 0x00000073) ∧
    HartTraps s h 3 x.pc false (run 0x00100073) ∧
    (x.mode = .m → ∃ x', run 0x30200073 = .next { s.setHart h x' with cur := .none } ∧ x'.pc = x.mepc ∧ x'.x = x.x ∧ x'.mepc = x.mepc ∧
      x'.mode = (if fld x.mstatus.toNat 11 2 = 0 then .u else if fld x.mstatus.toNat 11 2 = 1 then .s else .m) ∧
      x'.mstatus.getLsbD 3 = x.mstatus.getLsbD 7 ∧ x'.mstatus.getLsbD 7 = true ∧ fld x'.mstatus.toNat 11 2 = 0) ∧
    (x.mode = .m ∨ (x.mode = .s ∧ x.mstatus.getLsbD 22 = false) →
      ∃ x', run 0x10200073 = .next { s.setHart h x' with cur := .none } ∧ x'.pc = x.sepc ∧ x'.x = x.x ∧ x'.sepc = x.sepc ∧
        x'.mode = (if x.mstatus.getLsbD 8 = true then .s else .u) ∧ x'.mstatus.getLsbD 1 = x.mstatus.getLsbD 5 ∧ x'.mstatus.getLsbD 5 = true ∧
        x'.mstatus.getLsbD 8 = false) ∧
    (x.mode ≠ .m → HartTraps s h 2 0x30200073 false (run 0x30200073)) ∧
    (x.mode = .u → HartTraps s h 2 0x10200073 false (run 0x10200073) ∧ HartTraps s h 2 0x10500073 false (run 0x10500073)) ∧
    (x.mode = .m → (x.mip &&& x.mie = 0 → run 0x10500073 = .next (s.setHart h { x with wait := .wfi })) ∧
      (x.mip &&& x.mie ≠ 0 → run 0x10500073 = .next s)) ∧
    (s.strmAny h = false → run 0x0FF0000F = .next s) ∧ (s.strmAny h = true → run 0x0FF0000F = .next { s with cur := .none }) ∧
    (∀ (rd rs1 : BitVec 5) (a : Nat), x.mode = .m → a ∈ [0x140, 0x142, 0x143, 0x340, 0x342, 0x343] →
      ∃ t old, s.csrGet h x a = some old ∧ run (wordI 0x73 1 rd rs1 (BitVec.ofNat 12 a)) = .next t ∧ t.csrGet h (t.hart h) a = some (x.reg rs1.toNat) ∧
        (∀ r, (t.hart h).reg r = if r ≠ 0 ∧ r = rd.toNat then old else x.reg r) ∧ (t.hart h).pc = x.pc ∧ (t.hart h).mode = x.mode ∧
        ∀ b ∈ [0x140, 0x142, 0x143, 0x340, 0x342, 0x343, 0x300, 0x305, 0x105, 0x180], b ≠ a → t.csrGet h (t.hart h) b = s.csrGet h x b) ∧
    (∀ w : BitVec 32, fld w.toNat 0 7 ∈ [0x07, 0x27, 0x43, 0x47, 0x4B, 0x4F, 0x53, 0x57] → run w = .refused (.riscvExtension w))) ∧
  (∀ (s : State) (h cause : Nat), h < 24 → (s.hart h).running = true → cause ∈ [1, 3, 5, 7, 9, 11, 13] →
    let x := s.hart h
    let pend := x.mip ||| BitVec.ofNat 64 (2 ^ cause)
    let s1 := s.setHart h { x with mip := pend }
    (pend &&& x.mie = 0 → exec (.interruptPending h cause) s = .next s1) ∧
    (x.wait = .no → x.mip = 0 → x.mie.getLsbD cause = true → x.mideleg.getLsbD cause = false → (x.mode ≠ .m ∨ x.mstatus.getLsbD 3 = true) →
      HartTraps s1 h cause 0 true (exec (.interruptPending h cause) s)) ∧
    (x.wait = .no → x.mode = .m → x.mstatus.getLsbD 3 = false → exec (.interruptPending h cause) s = .next s1) ∧
    (∀ rd : BitVec 5, x.wait = .waitv rd → x.mie.getLsbD cause = true → x.mode = .m → x.mstatus.getLsbD 3 = false →
      ∃ t, exec (.interruptPending h cause) s = .next t ∧ (t.hart h).wait = .no ∧ (∀ w ∈ t.waits, w.who ≠ .hart h) ∧
        (∀ r, (t.hart h).reg r = if r ≠ 0 ∧ r = rd.toNat then 2 else x.reg r) ∧ (t.hart h).pc = x.pc))

/-- 06 R152, 11 R254: the Fintas extension. x.waitv answers 1 where the word differs, 3 where the die's table is full, and else installs an entry
and sleeps; x.wake wakes as WAKE does; a bad descriptor answers 3 and a missing link 2; x.bopen's scope code outside 2 to 5 answers
BAD_RECORD; x.bcommit of no bundle answers NO_BUNDLE; x.strm sends its store to the home. Misaligned addresses trap: cause 4 for x.waitv, 6 for
the others. -/
def Obligations.HartExtension : Prop :=
  ∀ (s : State) (h : Nat), s.cur = .hart h →
    let x := s.hart h
    let atHome := fun (va : BitVec 64) (n k : Nat) => HartMay s h va n k ∧ keyMod k = Config.selfModule ∧ (s.home (k / 128)).dir = {} ∧
      ∀ m ∈ s.msgs, m.2.line ≠ k / 128
    let sets := fun (rd : BitVec 5) (v : BitVec 64) (p : State → Prop) (out : Out) => ∃ t, out = .next t ∧ p t ∧ t.cur = s.cur ∧
      (∀ r, (t.hart h).reg r = if r ≠ 0 ∧ r = rd.toNat then v else x.reg r) ∧ (t.hart h).pc = x.pc ∧ (t.hart h).mode = x.mode
    (∀ o : XWaitvOp,
      let va := x.reg o.rs1.toNat
      let n := if o.w32 then 4 else 8
      (va.toNat % n ≠ 0 → HartTraps s h 4 va false (exec (.xWaitv o) s)) ∧
      (∀ k, atHome va n k →
        let differs := cell s.byte k n ≠ (x.reg o.rs2.toNat).toNat % 2 ^ (8 * n)
        let full := 4096 ≤ (s.waits.filter fun w => w.die == homeDie k).length
        (differs → sets o.rd 1 (fun t => SameMem s t ∧ t.waits = s.waits ∧ (t.hart h).wait = x.wait) (exec (.xWaitv o) s)) ∧
        (¬ differs → full → sets o.rd 3 (fun t => SameMem s t ∧ t.waits = s.waits ∧ (t.hart h).wait = x.wait) (exec (.xWaitv o) s)) ∧
        (¬ differs → ¬ full → x.mip &&& x.mie = 0 → sets 0 0 (fun t => SameMem s t ∧ (t.hart h).wait = .waitv o.rd ∧
          t.waits = s.waits ++ [{ die := homeDie k, va := va, key := k, size := n, who := .hart h, order := s.waitOrder, since := s.cycle, cycles := 0 }])
          (exec (.xWaitv o) s)))) ∧
    (∀ o : XWakeOp, (o.rl = true → s.strmAny h = false) →
      let va := x.reg o.rs1.toNat
      (va.toNat % 4 ≠ 0 → HartTraps s h 6 va false (exec (.xWake o) s)) ∧
      (∀ k, atHome va 4 k → (s.waits.map fun w => (w.die, w.order)).Nodup → (∀ w ∈ s.waits, w.who ≠ .hart h) →
        let hits := s.waits.filter fun w => decide (w.va = va ∧ w.key = k)
        let limit := (x.reg o.rs2.toNat).toNat
        let woken := if limit = 0 then hits else hits.take limit
        sets o.rd (BitVec.ofNat 64 woken.length) (fun t => SameMem s t ∧ ∀ w, w ∈ t.waits ↔ w ∈ s.waits ∧ w ∉ woken) (exec (.xWake o) s))) ∧
    (∀ (o : XLinkqOp) (k : Nat), atHome (x.reg o.rs1.toNat) 32 k → descBad (cell s.byte k 32) (x.reg o.rs2.toNat).toNat = true →
      sets o.rd 3 (fun t => SameMem s t ∧ (t.hart h).link = none) (exec (.xLinkq o) s)) ∧
    (∀ (o : XCondqOp) (k : Nat), (o.rl = true → s.strmAny h = false) → atHome (x.reg o.rs1.toNat) 32 k →
      let d := cell s.byte k 32
      let mask := (x.reg o.rs2.toNat).toNat
      (descBad d mask = true → sets o.rd 3 (fun t => SameMem s t ∧ (t.hart h).link = none) (exec (.xCondq o) s)) ∧
      (descBad d mask = false → noLink x.link d mask = true → sets o.rd 2 (fun t => SameMem s t ∧ (t.hart h).link = none) (exec (.xCondq o) s)) ∧
      (∀ (i : Nat) (b : Nat → Nat) (lk : Link), i < 4 → mask = 2 ^ i → descBad d mask = false → x.link = some lk → noLink x.link d mask = false →
        lk.lines = [(i, b 0 / 128, (s.home (b 0 / 128)).wts)] → lk.broken = false → (s.home (b 0 / 128)).pend = [] →
        atHome (lineVa d i) 128 (b 0) → atHome (bufVa d i) 128 (b 1) → s.ckptHolds (b 0) = false → (s.homes.get? (b 0 / 128)).isSome = true →
        keyTier (b 0) ≠ 2 → s.liveHeader (b 0) 128 = none →
        ∃ t, exec (.xCondq o) s = .next t ∧ (∀ r, (t.hart h).reg r = if r ≠ 0 ∧ r = o.rd.toNat then 0 else x.reg r) ∧ (t.hart h).link = none ∧
          ∀ a, t.byte a = if a / 128 = b 0 / 128 then s.byte (b 1 / 128 * 128 + a % 128) else s.byte a)) ∧
    (∀ (o : XLinkqOp) (k i : Nat) (b : Nat → Nat), i < 4 → atHome (x.reg o.rs1.toNat) 32 k → x.reg o.rs2.toNat = BitVec.ofNat 64 (2 ^ i) →
      let d := cell s.byte k 32
      descBad d (2 ^ i) = false → atHome (lineVa d i) 128 (b 0) → atHome (bufVa d i) 128 (b 1) → b 0 / 128 ≠ b 1 / 128 → k / 128 ≠ b 1 / 128 →
      s.ckptHolds (b 1) = false → (∀ j < 2, (s.homes.get? (b j / 128)).isSome = true) → keyTier (b 1) ≠ 2 → isPool (b 0 / 128) = false → s.liveHeader (b 1) 128 = none →
      ∃ t, exec (.xLinkq o) s = .next t ∧ (t.hart h).reg o.rd.toNat = 0 ∧ (∀ r, r ≠ o.rd.toNat → (t.hart h).reg r = x.reg r) ∧
        (t.hart h).link = some { region := descRegion d, mask := BitVec.ofNat 4 (2 ^ i), lines := [(i, b 0 / 128, (s.home (b 0 / 128)).wts)] } ∧
        ∀ a, t.byte a = if a / 128 = b 1 / 128 then s.byte (b 0 / 128 * 128 + a % 128) else s.byte a) ∧
    (∀ o : XBopenOp,
      ((x.reg o.rs2.toNat).toNat < 2 ∨ 5 < (x.reg o.rs2.toNat).toNat → HartSets s h o.rd.toNat (9 * 2 ^ 16) (exec (.xBopen o) s)) ∧
      (∀ sc, scopeOf (x.reg o.rs2.toNat).toNat = some sc → (x.reg o.rs1.toNat).toNat % 512 ≠ 0 → HartTraps s h 6 (x.reg o.rs1.toNat) false (exec (.xBopen o) s)) ∧
      (∀ sc k, scopeOf (x.reg o.rs2.toNat).toNat = some sc → (x.reg o.rs1.toNat).toNat % 512 = 0 → k % 512 = 0 → (keyTier k = 0 ∨ keyTier k = 1) →
        (∀ kind f, s.hartXlate h (x.reg o.rs1.toNat) kind f = (s, .ok k)) →
        (∀ i < 4, (∃ va, atHome va 128 (k + 128 * i)) ∧ (s.homes.get? (k / 128 + i)).isSome = true) → s.ckptHolds k = false →
        recordOk (cell s.byte k 512) = true → s.bunNew < 4096 → s.bundles.get? s.bunNew = none →
        ∃ t b, exec (.xBopen o) s = .next t ∧ (∀ r, (t.hart h).reg r = if r ≠ 0 ∧ r = o.rd.toNat then BitVec.ofNat 64 (4096 + s.bunNew) else x.reg r) ∧
          t.bundles = s.bundles.put s.bunNew b ∧ b.st = .opened ∧ b.gen = 1 ∧ b.asid = x.asid ∧ b.die = h / 12 ∧ b.scope = sc ∧ b.recKey = k ∧
          ∀ a, a < k + 48 ∨ k + 64 ≤ a → t.byte a = s.byte a)) ∧
    (∀ o : XBcommitOp, s.strmAny h = false → s.bundleIn x.asid ((x.reg o.rs1.toNat).setWidth 16) = none →
      sets o.rd 6 (fun t => SameMem s t ∧ (t.hart h).wait = .no) (exec (.xBcommit o) s)) ∧
    (∀ (o : XBcommitOp) (b : Bundle), s.strmAny h = false → let hd := (x.reg o.rs1.toNat).setWidth 16
      s.bundleIn x.asid hd = some b → b.st = .opened → b.aborting = false →
      ∃ t b', exec (.xBcommit o) s = .next t ∧ (t.hart h).wait = .bcommit o.rd hd ∧ (t.hart h).x = x.x ∧ t.bundles.get? (hd.toNat % 4096) = some b' ∧
        b'.st = .closing ∧ b'.committer = x.pts ∧ b'.waits = b.waits ++ [.hart h] ∧ b'.homes = s.pendingHomes hd) ∧
    (∀ o : XStrmOp,
      let va := x.reg o.rs1.toNat
      (va.toNat % 8 ≠ 0 → HartTraps s h 6 va false (exec (.xStrm o) s)) ∧
      (∀ k, HartMay s h va 8 k → ∃ t r, exec (.xStrm o) s = .next t ∧ t.hart h = x ∧ SameMem s t ∧ s.reqs.get? s.reqs.next = none ∧
        t.reqs.get? s.reqs.next = some r ∧ r.line = k / 128 ∧ r.who = .hart h ∧
        r.kind = .write (k % 128) ((List.range 8).map fun i => (x.reg o.rs2.toNat).extractLsb' (8 * i) 8)))

/-! ### The service cores' caches and their directory (04 R99 to R104) -/

/-- 04 R101 to R103: a request at its home. GetS of a line without copies and GetM or Upgrade of one without other copies are granted with a
stamp of Write of R96; other sharers are first sent Inv; an owner is sent a forward that names the requester; in a transient state the request
queues. An eviction by the owner of record stores its data, a stale one does not, and either is answered PutAck. The last InvAck gives the winner its
grant; a FwdAck brings the owner's data home, and a writer whom the owner has supplied then gets the permission alone. Stamps from a core's answer
are the model's (log 69). -/
def Obligations.HomeOfCaches : Prop :=
  ∀ (s : State) (m : Msg), s.msgs.get? s.hand = some m → s.arrives s.hand m = true → s.reachable (keyMod (m.line * 128)) = true →
    (s.homes.get? m.line).isSome = true → isPool m.line = false → s.links.bisnp.get? m.line = none → s.ckptHolds (m.line * 128) = false → m.core < 24 →
    let hl := s.home m.line
    let d := hl.dir
    let data := some (s.bytes (m.line * 128) 128)
    let stamp := fun (pts : Nat) => max (hl.rts + 1) pts
    let bit := fun (c : Nat) => BitVec.ofNat 24 (2 ^ c)
    let others := fun c => (List.range 24).filter fun i => i ≠ c ∧ d.sharers.getLsbD i = true
    let sent := fun (t : State) (l : List Msg) => t.msgs.map (·.2) = (s.msgs.del s.hand).map (·.2) ++ l
    let owns := fun (t : State) (c : Nat) (w : Nat) => t.home m.line = { hl with wts := w, rts := w, lease := 16, dir :=
      { d with st := .em, owner := some c, sharers := 0, acks := 0, winner := none, given := false, fwdOut := false } }
    let keeps := fun (t : State) => SameMem s t ∧ t.harts = s.harts ∧ (∀ l, l ≠ m.line → t.home l = s.home l)
    let busy := d.stable = false
    let late := max hl.rts m.stamp
    Tab.rises s.msgs = true →
    (m.kind = .gets → d = {} → hl.noCache = false → ∃ t, exec .gets s = .next t ∧ keeps t ∧ owns t m.core (stamp m.pts) ∧
      sent t [{ kind := .datae, core := m.core, line := m.line, data := data, stamp := stamp m.pts }]) ∧
    (m.kind = .gets → d.st = .s → d.owner = none → d.queue = [] → hl.noCache = false → ∃ t, exec .gets s = .next t ∧ keeps t ∧
      t.home m.line = { hl with dir := { d with sharers := d.sharers ||| bit m.core, winner := none, given := false, fwdOut := false } } ∧
      sent t [{ kind := .datas, core := m.core, line := m.line, data := data, stamp := hl.wts }]) ∧
    (∀ o, m.kind = .gets → (d.st = .em ∨ d.st = .o) → d.owner = some o → d.queue = [] → ∃ t, exec .gets s = .next t ∧ keeps t ∧
      t.home m.line = { hl with dir := { d with st := .fwdWait, winner := some (.gets, m.core, m.pts), fwdOut := true } } ∧
      sent t [{ kind := .fwdgets, core := o, line := m.line, req := some m.core, own := hl.noCache }]) ∧
    (m.kind = .gets → busy → ∃ t, exec .gets s = .next t ∧ keeps t ∧ t.home m.line = { hl with dir := { d with queue := d.queue ++ [.msg m] } } ∧ sent t []) ∧
    (m.kind = .getm → d = {} → ∃ t, exec .getm s = .next t ∧ keeps t ∧ owns t m.core (stamp m.pts) ∧
      sent t [{ kind := .datam, core := m.core, line := m.line, data := data, stamp := stamp m.pts }]) ∧
    (m.kind = .getm → d.st = .s → d.owner = none → d.queue = [] → others m.core ≠ [] → ∃ t, exec .getm s = .next t ∧ keeps t ∧
      t.home m.line = { hl with dir := { d with st := .sInv, acks := d.sharers &&& ~~~bit m.core, winner := some (.getm, m.core, m.pts) } } ∧
      sent t ((others m.core).map fun c => { kind := .inv, core := c, line := m.line })) ∧
    (∀ o, m.kind = .getm → d.st = .em → d.owner = some o → o ≠ m.core → d.sharers = 0 → d.queue = [] → ∃ t, exec .getm s = .next t ∧ keeps t ∧
      t.home m.line = { hl with dir := { d with st := .fwdWait, acks := 0, winner := some (.getm, m.core, m.pts), fwdOut := true } } ∧
      sent t [{ kind := .fwdgetm, core := o, line := m.line, req := some m.core, own := hl.noCache }]) ∧
    (m.kind = .upgrade → d.st = .s → d.owner = none → d.acks = 0 → d.queue = [] → d.sharers = bit m.core → ∃ t, exec .upgrade s = .next t ∧ keeps t ∧
      owns t m.core (stamp m.pts) ∧ sent t [{ kind := .upgack, core := m.core, line := m.line, stamp := stamp m.pts }]) ∧
    (m.kind = .upgrade → busy → (d.acks.getLsbD m.core = true ∨ (d.sharers.getLsbD m.core = false ∧ d.owner ≠ some m.core)) → ∃ t, exec .upgrade s = .next t ∧
      keeps t ∧ t.home m.line = { hl with dir := { d with queue := d.queue ++ [.msg { m with kind := .getm }] } } ∧ sent t []) ∧
    (∀ e i, (m.kind, i) ∈ [(MsgKind.puts, Instr.puts), (.pute, .pute), (.putm, .putm), (.puto, .puto)] → e = decide (d.owner = some m.core) →
      ∃ t, exec i s = .next t ∧ t.harts = s.harts ∧ sent t [{ kind := .putack, core := m.core, line := m.line }] ∧
        (t.home m.line).dir.owner = (if e then none else d.owner) ∧
        (t.home m.line).dir.sharers = (if e then d.sharers else d.sharers &&& ~~~bit m.core) ∧ (t.home m.line).rts = late ∧
        (t.home m.line).wts = (if e = true ∧ m.data.isSome = true then max hl.wts m.stamp else hl.wts) ∧
        (busy → (t.home m.line).dir.st = d.st) ∧
        ((e = false ∨ m.data = none) → SameMem s t) ∧
        (∀ b, e = true → m.data = some b → b.length = 128 → ∀ a, t.byte a = if a / 128 = m.line then (b[a % 128]?).getD 0 else s.byte a)) ∧
    (m.kind = .invack → d.st = .sInv → d.acks = bit m.core → d.owner = none → d.queue = [] → d.fwdOut = false → d.given = false → ∀ w p, w ≠ m.core → w < 24 →
      d.winner = some (.getm, w, p) → d.sharers.getLsbD w = false → ∃ t, exec .invack s = .next t ∧ keeps t ∧ owns t w (max (late + 1) p) ∧
        sent t [{ kind := .datam, core := w, line := m.line, data := data, stamp := max (late + 1) p }]) ∧
    (m.kind = .invack → d.st = .sInv → d.acks &&& ~~~bit m.core ≠ 0 → ∃ t, exec .invack s = .next t ∧ keeps t ∧ sent t [] ∧
      t.home m.line = { hl with rts := late, dir := { d with acks := d.acks &&& ~~~bit m.core, sharers := d.sharers &&& ~~~bit m.core } }) ∧
    (∀ b c p, m.kind = .fwdack → m.data = some b → b.length = 128 → d.st = .fwdWait → d.winner = some (.gets, c, p) → c < 24 → d.owner = some m.core → d.queue = [] →
      ∃ t, exec .fwdack s = .next t ∧ t.harts = s.harts ∧ sent t [] ∧
        (∀ a, t.byte a = if a / 128 = m.line then (b[a % 128]?).getD 0 else s.byte a) ∧
        (t.home m.line).dir.owner = (if m.own = true then some m.core else none) ∧ (t.home m.line).dir.st = (if m.own = true then .o else .s) ∧
        (t.home m.line).dir.sharers = d.sharers ||| (if m.own = true then 0 else bit m.core) ||| bit c ∧ (t.home m.line).wts = max hl.wts m.stamp) ∧
    (∀ b c p, m.kind = .fwdack → m.data = some b → b.length = 128 → d.st = .fwdWait → d.winner = some (.getm, c, p) → d.acks = 0 → d.queue = [] →
      ∃ t, exec .fwdack s = .next t ∧ t.harts = s.harts ∧ sent t [{ kind := .datam, core := c, line := m.line, stamp := max (late + 1) p }] ∧
        (∀ a, t.byte a = if a / 128 = m.line then (b[a % 128]?).getD 0 else s.byte a) ∧
        (t.home m.line).dir.owner = some c ∧ (t.home m.line).dir.st = .em ∧ (t.home m.line).dir.sharers = 0 ∧ (t.home m.line).wts = max (late + 1) p)

/-- 04 R99, R102, R103: a message at a service core. Data installs with its permission and its stamp raises the core's PTS; Inv drops the copy
and is answered InvAck; a forward is answered with the line, from the cache or the write-back buffer, to the requester that it names and to the home,
and the copy stays in O or S, or goes. DataM installs when the owner's data and the home's permission are both there. -/
def Sys2Proof.Claim.CoreCaches : Prop :=
  ∀ (s : State) (m : Msg), s.msgs.get? s.hand = some m → s.arrives s.hand m = true → s.reachable (keyMod (m.line * 128)) = true → Tab.rises s.msgs = true →
    let x := s.hart m.core
    let sent := fun (t : State) (l : List Msg) => t.msgs.map (·.2) = (s.msgs.del s.hand).map (·.2) ++ l
    let hart := fun (t : State) (y : Hart) => SameMem s t ∧ t.homes = s.homes ∧ t.harts = (s.setHart m.core y).harts
    (∀ (kd : MsgKind) (i : Instr) (st : CopyState) (b : List Byte),
      (kd, i, st) ∈ [(MsgKind.datas, Instr.datas, CopyState.s), (.datae, .datae, .e), (.datam, .datam, .m)] → m.kind = kd → m.own = false → m.data = some b → m.src = none →
      x.cache.length < 1024 → ∃ t, exec i s = .next t ∧ sent t [] ∧ hart t { x with
        cache := x.cache.put m.line { st := st, data := b }, want := none, part := none, granted := none, stale := false, pts := max x.pts m.stamp }) ∧
    (∀ o b, m.kind = .datam → m.src = some o → m.data = some b → x.granted = none → ∃ t, exec .datam s = .next t ∧ sent t [] ∧
      hart t { x with part := some (m.line, b) }) ∧
    (∀ b, m.kind = .datam → m.src = none → m.data = none → x.part = some (m.line, b) → x.cache.length < 1024 → ∃ t, exec .datam s = .next t ∧ sent t [] ∧
      hart t { x with cache := x.cache.put m.line { st := .m, data := b }, want := none, part := none, granted := none, stale := false, pts := max x.pts m.stamp }) ∧
    (∀ b, m.kind = .datas → m.own = true → m.data = some b → ∃ t, exec .datas s = .next t ∧ sent t [] ∧
      hart t { x with want := none, stale := false, pts := max x.pts m.stamp, answer := some (m.line, b) }) ∧
    (∀ c, m.kind = .upgack → x.cache.get? m.line = some c → ∃ t, exec .upgack s = .next t ∧ sent t [] ∧
      hart t { x with cache := x.cache.put m.line { c with st := .m }, want := none, pts := max x.pts m.stamp }) ∧
    (m.kind = .putack → ∃ t, exec .putack s = .next t ∧ sent t [] ∧ hart t { x with wb := x.wb.del m.line }) ∧
    (m.kind = .inv → ∃ t y, exec .inv s = .next t ∧ sent t [{ kind := .invack, core := m.core, line := m.line, stamp := x.pts }] ∧ hart t y ∧ y.cache = x.cache.del m.line ∧
      y.want = x.want ∧ y.x = x.x ∧ y.pts = x.pts ∧ y.resv = if x.resv.map (·.1) = some m.line then none else x.resv) ∧
    (let answers := fun (kd : MsgKind) (b : List Byte) (stays : Bool) =>
      (m.req.toList.map fun r => ({ kind := kd, core := r, line := m.line, data := some b, stamp := x.pts, own := m.own, src := some m.core } : Msg)) ++
        [{ kind := .fwdack, core := m.core, line := m.line, data := some b, stamp := x.pts, own := stays }]
    (∀ c, m.kind = .fwdgets → x.cache.get? m.line = some c →
      let st : CopyState := if c.st = .e ∨ c.st = .s then .s else .o
      ∃ t, exec .fwdgets s = .next t ∧ sent t (answers .datas c.data (decide (st = .o))) ∧ hart t { x with cache := x.cache.put m.line { c with st := st } }) ∧
    (∀ c, m.kind = .fwdgetm → x.cache.get? m.line = some c → ∃ t y, exec .fwdgetm s = .next t ∧ sent t (answers .datam c.data false) ∧ hart t y ∧
      y.cache = x.cache.del m.line ∧ y.wb = x.wb ∧ y.x = x.x) ∧
    (∀ w i kd, (m.kind, i, kd) ∈ [(MsgKind.fwdgets, Instr.fwdgets, MsgKind.datas), (.fwdgetm, .fwdgetm, .datam)] → x.cache.get? m.line = none → x.wb.get? m.line = some w →
      ∃ t, exec i s = .next t ∧ sent t (answers kd w.2 false) ∧ SameMem s t ∧ t.homes = s.homes ∧ (t.hart m.core).wb = x.wb))

/-- 04 R104: a back-invalidate from the pool ends the leases on its line and recalls its copies; it is answered once no copy is left and 256
cycles have passed since the last lease. -/
def Sys2Proof.Claim.PoolSnoops : Prop :=
  ∀ s : State, isPool s.hand = true →
    (s.links.bisnp.get? s.hand = none → (s.home s.hand).dir = {} →
      ∃ t, exec .bisnp s = .next t ∧ SameMem s t ∧ t.homes = s.homes ∧ t.links.bisnp = s.links.bisnp.put s.hand s.cycle ∧
        ∀ k g lk, s.group? k = some g → g.link = some lk → ∃ g', t.group? k = some g' ∧
          g'.link = some { lk with broken := lk.broken || lk.lines.any fun e => e.2.1 == s.hand }) ∧
    (∀ o, s.links.bisnp.get? s.hand = none → (s.homes.get? s.hand).isSome = true → (s.home s.hand).dir = { st := .em, owner := some o } → s.msgs = [] →
      ∃ t, exec .bisnp s = .next t ∧ SameMem s t ∧ (t.home s.hand).dir = { st := .recall, owner := some o, fwdOut := true } ∧
        t.msgs = [(0, { kind := .fwdgetm, core := o, line := s.hand })]) ∧
    (∀ c, s.links.bisnp.get? s.hand = some c → s.cycle < s.links.poolLease.getD s.hand 0 + 256 → exec .bisnpAnswer s = .next s) ∧
    (∀ c, s.links.bisnp.get? s.hand = some c → (s.home s.hand).dir.st ≠ .i → exec .bisnpAnswer s = .next s) ∧
    (∀ c, s.links.bisnp.get? s.hand = some c → (s.home s.hand).dir.st = .i → (s.home s.hand).dir.queue = [] → s.links.poolLease.getD s.hand 0 + 256 ≤ s.cycle →
      ∃ t, exec .bisnpAnswer s = .next t ∧ SameMem s t ∧ t.homes = s.homes ∧ t.links.bisnp.get? s.hand = none ∧
        t.links.answered = (if s.links.evicting.contains s.hand then s.links.answered else s.links.answered ++ [s.hand]) ∧ t.links.filter = s.links.filter.erase s.hand ∧ t.groups = s.groups)

/-- Messages at a service core, and the pool's back-invalidates: the two parts stated as CoreCaches, PoolSnoops. -/
def Obligations.CachesAndPool : Prop :=
  Sys2Proof.Claim.CoreCaches ∧ Sys2Proof.Claim.PoolSnoops

/-! ### Translation (03 R69 to R82; 04 R106) -/

/-- 03 R71, R72, R76 to R78: PAGE_WALK of a service core's miss. Three non-leaf entries lead to a 64 KB leaf; the leaf's checks come in the
order of R71 and give their fault kinds; each load is an acquire, and the leaf carries the greatest stamp that the walk met; a good leaf enters the die's cache and the core's TLB, with A, and D for a write, set at its home. A
walk beyond the die's 32 walkers waits, and one that an invalidation met starts again. -/
def Sys2Proof.Claim.Walks : Prop :=
  ∀ (s : State) (w : Walk) (h : Nat) (kind : AccKind) (va : Addr), s.walks.get? s.hand = some w → w.waits = [(.hart h, kind, va)] →
    let first := (s.walks.filter fun e => e.1 < s.hand && e.2.die == w.die).length < 32
    let now := w.inval = (s.die w.die).inval
    let entry := fun (e : BitVec 64) (lvl : Nat) => physKey Config.selfModule (e.toNat / 2 ^ 61) (e.toNat / 2 ^ 12 % 2 ^ 40 * 4096 + 8 * (va.toNat / 2 ^ (16 + 9 * lvl) % 512))
    let table := fun (e : BitVec 64) => e.getLsbD 0 = true ∧ fld e.toNat 1 8 = 0 ∧ e.toNat / 2 ^ 61 ≤ 1 ∧ fld e.toNat 52 9 = 0 ∧ fld e.toNat 9 3 = 0
    let load := fun (e : BitVec 64) (lvl : Nat) => BitVec.ofNat 64 (s.deviceNum (entry e lvl) 8)
    let x3 := load w.root 3
    let x2 := load x3 2
    let x1 := load x2 1
    let x := load x1 0
    let met := fun (e : BitVec 64) (lvl : Nat) => s.lineStamp (entry e lvl / 128)
    let wts := max (max (max (max 0 (met w.root 3)) (met x3 2)) (met x2 1)) (met x1 0)
    let tier := x.toNat / 2 ^ 61
    let peer := fld x.toNat 55 6
    let addr := fld x.toNat 12 40 * 4096
    let write := kind = .write ∨ kind = .rmw
    let priv := (s.hart h).accMode kind ≠ .u
    let malformed := x.getLsbD 52 = true ∨ fld x.toNat 9 3 ≠ 0 ∨ x.getLsbD 1 = false ∨ addr % 65536 ≠ 0 ∨ tier = 7 ∨ s.tierLimit tier ≤ addr ∨
      (x.getLsbD 4 = true ∧ x.getLsbD 3 = false) ∨ (tier = 6 ∧ (x.getLsbD 54 = true ∨ mmioFrame addr = false)) ∨ (tier ≠ 3 ∧ tier ≠ 4 ∧ peer ≠ 0)
    let fault := fun (f : Option Nat) => f =
      open Classical in
      if x.getLsbD 0 = false then some 0
      else if malformed then some 5
      else if (tier = 3 ∨ tier = 4) ∧ s.member peer = false then some 8
      else if x.getLsbD 2 = true ∧ ¬ priv then some 4
      else if kind = .fetch ∧ x.getLsbD 5 = false then some 3
      else if kind = .read ∧ x.getLsbD 3 = false then some 1
      else if write ∧ x.getLsbD 4 = false then some 2
      else if x.getLsbD 53 = true then some 7
      else none
    let ready := first ∧ now ∧ va.toNat < 2 ^ 52 ∧ s.walkStart w.die w.asid w.root va.toNat = (3, w.root, 0) ∧ w.root.toNat / 2 ^ 61 ≤ 1 ∧ table x3 ∧ table x2 ∧ table x1
    let leaf := fun (p : BitVec 64) => ({ asid := w.asid, vbase := va.toNat / 65536 * 65536, size := 65536, pte := p, wts := wts } : TlbEntry)
    let installs := fun (t : State) (p : BitVec 64) => t.walks.get? s.hand = none ∧ t.tlbDie.getD w.die [] = leaf p :: s.tlbDie.getD w.die [] ∧
      (t.hart h).tlb = leaf p :: (s.hart h).tlb ∧ (t.hart h).xfault = (s.hart h).xfault ∧ (t.hart h).x = (s.hart h).x
    let setBits := x ||| (if write then 0x180 else 0x80)
    (¬ first → exec .pageWalk s = .next s) ∧
    (first → ¬ now → exec .pageWalk s = .next { s with walks := s.walks.put s.hand { w with inval := (s.die w.die).inval } }) ∧
    (first → now → 2 ^ 52 ≤ va.toNat → ∃ t, exec .pageWalk s = .next t ∧ SameMem s t ∧ (t.hart h).xfault = some (6, va) ∧ t.tlbDie = s.tlbDie) ∧
    (∀ f, ready → fault (some f) → ∃ t, exec .pageWalk s = .next t ∧ SameMem s t ∧ t.walks = s.walks.del s.hand ∧ t.tlbDie = s.tlbDie ∧
      t.hart h = { s.hart h with xfault := some (f, va) }) ∧
    (ready → fault none → setBits = x → ∃ t, exec .pageWalk s = .next t ∧ SameMem s t ∧ installs t x) ∧
    (ready → fault none → setBits ≠ x → (s.homes.get? (entry x1 0 / 128)).isSome = true → (s.home (entry x1 0 / 128)).dir = {} →
      s.ckptHolds (entry x1 0) = false → s.liveHeader (entry x1 0) 8 = none → (∀ m ∈ s.msgs, m.2.line ≠ entry x1 0 / 128) →
      ∃ t, exec .pageWalk s = .next t ∧ installs t setBits ∧
        ∀ a, t.byte a = if entry x1 0 ≤ a ∧ a < entry x1 0 + 8 then setBits.extractLsb' (8 * (a - entry x1 0)) 8 else s.byte a)

/-- 03 R79 to R82: the steps of the translation command: entries of its context (or of all) that its range meets are dropped from every cache,
walks start again, loaded extents go under XT, the drain ends in DRAIN_BUSY or past the largest lease of its range, and the peers answer or
time out. A command from another module advances the time of every core, of the 24 service cores too (04 R95). -/
def Sys2Proof.Claim.TranslationCommand : Prop :=
  (∀ s : State, s.xlat.status = 1 →
    let x := s.xlat
    let cmd := x.cmd
    let count := fld cmd.toNat 32 32
    let lo := fld x.inva.toNat 16 36 * 65536
    let dropped := fun (asid : BitVec 16) (a b : Nat) => (cmd.getLsbD 7 = true ∨ asid = cmd.extractLsb' 16 16) ∧ (count = 0 ∨ (a < lo + count * 65536 ∧ lo < b))
    let drops := fun (t : State) => SameMem s t ∧ t.groups = s.groups ∧ t.teams = s.teams ∧ t.xlat = { x with stage := if cmd.getLsbD 4 then 1 else 2 } ∧
      (∀ d < 2, (t.die d).inval = (s.die d).inval + 1) ∧
      (∀ c e, e ∈ t.tlbCore.getD c [] ↔ e ∈ s.tlbCore.getD c [] ∧ ¬ dropped e.asid e.vbase (e.vbase + e.size)) ∧
      (∀ c e, e ∈ t.tlbCluster.getD c [] ↔ e ∈ s.tlbCluster.getD c [] ∧ ¬ dropped e.asid e.vbase (e.vbase + e.size)) ∧
      (∀ c e, e ∈ t.tlbDie.getD c [] ↔ e ∈ s.tlbDie.getD c [] ∧ ¬ dropped e.asid e.vbase (e.vbase + e.size)) ∧
      (∀ c e, e ∈ t.walkDie.getD c [] ↔ e ∈ s.walkDie.getD c [] ∧ ¬ dropped e.asid e.vbase (e.vbase + e.size)) ∧
      (∀ h e, e ∈ (t.hart h).tlb ↔ e ∈ (s.hart h).tlb ∧ ¬ dropped e.asid e.vbase (e.vbase + e.size)) ∧ ∀ h, (t.hart h).x = (s.hart h).x
    let r := x.drainRange
    let inside := fun (line : Nat) => r.1 < line * 128 + 128 ∧ line * 128 < r.2
    (x.stage = 0 → count ≠ 0 → ∃ t, exec .xlatInvalidate s = .next t ∧ drops t) ∧
    (x.stage = 0 → count = 0 → ∃ t, exec .xlatInvalidateAll s = .next t ∧ drops t) ∧
    (x.stage = 1 → ∃ t, exec .xlatExtentDrop s = .next t ∧ SameMem s t ∧ t.groups = s.groups ∧ t.xlat = { x with stage := 2 } ∧
      ∀ k tm, s.team? k = some tm → ∃ tm', t.team? k = some tm' ∧ tm'.scr = tm.scr ∧ tm'.groups = tm.groups ∧
        ∀ e, e ∈ tm'.extents ↔ e ∈ tm.extents ∧ ¬ dropped tm.asid e.vbase.toNat e.vend) ∧
    (x.stage = 2 → s.accessesPending = false → cmd.getLsbD 5 = false →
      exec .xlatDrain s = .next { s with xlat := { x with stage := if cmd.getLsbD 6 then 3 else 4, since := s.cycle + s.linkWait } }) ∧
    (x.stage = 2 → s.accessesPending = true → exec .xlatDrain s = .next s) ∧
    (x.stage = 2 → s.accessesPending = false → cmd.getLsbD 5 = true → (∃ e ∈ s.homes, inside e.1 ∧ e.2.pend ≠ []) →
      exec .xlatDrain s = .next { s with xlat := { x with status := 2 } }) ∧
    (x.stage = 2 → s.accessesPending = false → cmd.getLsbD 5 = true → clean s → (∀ e ∈ s.homes, inside e.1 → e.2.pend = [] ∧ e.2.dir = {}) → Tab.rises s.homes = true →
      (∀ l ∈ s.links.filter, ¬ inside l) → (∀ o ∈ s.links.out, ¬ inside (o.key / 128)) → (∀ q ∈ s.reqs, q.2.isSpan = true → ¬ inside q.2.line) →
      ∃ t, exec .xlatDrain s = .next t ∧ SameMem s t ∧ t.teams = s.teams ∧ t.xlat.stage = (if cmd.getLsbD 6 then 3 else 4) ∧ t.xlat.status = 1 ∧
        ∀ e ∈ s.homes, inside e.1 → (∀ c < 144, e.2.rts < t.pts c) ∧ ∀ h < 24, e.2.rts < (t.hart h).pts) ∧
    (x.stage = 3 → s.allPeersUp = true → exec .xlatPeerAdvance s = .next { s with xlat := { x with stage := 4 } }) ∧
    (x.stage = 3 → s.allPeersUp = false → x.since ≤ s.cycle → exec .xlatPeerTimeout s = .next { s with xlat := { x with status := 3 } }) ∧
    (x.stage = 3 → s.allPeersUp = false → s.cycle < x.since → exec .xlatPeerTimeout s = .next s ∧ exec .xlatPeerAdvance s = .next s) ∧
    (x.stage = 4 → exec .xlatCommandDone s = .next { s with xlat := { x with status := 0 } })) ∧
  (∀ (s : State) (T : Nat) (d : Option (Nat × Nat)), clean s → ∃ t, exec (.peerTimeAdvance T d) s = .next t ∧ SameMem s t ∧ t.groups = s.groups ∧
    (∀ c < 144, T < t.pts c ∧ s.pts c ≤ t.pts c) ∧ ∀ h < 24, T < (t.hart h).pts ∧ (s.hart h).pts ≤ (t.hart h).pts)

/-- 04 R106: SCRATCH_REFILL fills a page of a restored team that an access has asked for from its backing page, after which the page is pinned;
no page is filled that no access has asked for. -/
def Sys2Proof.Claim.ScratchRefill : Prop :=
  ∀ (s : State) (team page : Nat) (tm : Team) (c : Ctx) (bs : List Byte), s.team? team = some tm → page ∈ tm.unpinned → page < 512 → s.ctx tm.asid = some c →
    page ∉ tm.pageWait → (page ∉ tm.asked → exec (.scratchRefill team page) s = .next s) ∧
    let va := c.scrb + BitVec.ofNat 64 (2 ^ 21 * (256 * tm.cluster + tm.slot) + 4096 * page)
    s.engineRead (tm.cluster / 18) tm.asid va 4096 .read false = (s, .ok bs) → bs.length = 4096 → s.poison = [] → tm.scrPoison = [] → page ∈ tm.asked →
    ∃ t tm', exec (.scratchRefill team page) s = .next t ∧ SameMem s t ∧ t.groups = s.groups ∧ t.team? team = some tm' ∧
      tm'.unpinned = tm.unpinned.erase page ∧ tm'.asked = tm.asked.erase page ∧ tm'.scrPoison = [] ∧
      ∀ i, t.scrByte team i = if 4096 * page ≤ i ∧ i < 4096 * page + 4096 then (bs[i - 4096 * page]?).getD 0 else s.scrByte team i

/-- Page walks, the translation command and scratchpad refills: the three parts stated as Walks, TranslationCommand, ScratchRefill. -/
def Obligations.Translation : Prop :=
  Sys2Proof.Claim.Walks ∧ Sys2Proof.Claim.TranslationCommand ∧ Sys2Proof.Claim.ScratchRefill

/-! ### The launcher (15 R320 to R333, R396; 12 R256 to R259, R265) -/

/-- 15 R322 to R324: a doorbell write stores TAIL; with no slot that names it, the first one also sets its pending bit and posts a DOORBELL
event; PENDMAP clears the bits written as ones; a slot is enabled unless its fields or another slot's doorbell forbid it; an enabled slot
fetches its ring in order. -/
def Sys2Proof.Claim.SlotsAndDoorbells : Prop :=
  ∀ s : State,
    (∀ (i : Nat) (v : BitVec 32), i < 4096 → s.slotOfDoorbell i = none →
      let bit := (s.pend.getD (i / 8) 0).getLsbD (i % 8)
      (bit = true → exec (.doorbellWrite i v) s = .next { s with tails := s.tails.put i v }) ∧
      (bit = false → (s.die 0).evqBase = 0 → ∃ t, exec (.doorbellWrite i v) s = .next t ∧ SameMem s t ∧ t.tails = s.tails.put i v ∧ t.groups = s.groups ∧
        t.evWait.length = s.evWait.length + 1 ∧
        ∀ j b, b < 8 → (t.pend.getD j 0).getLsbD b = ((s.pend.getD j 0).getLsbD b || decide (j = i / 8 ∧ b = i % 8)))) ∧
    (∀ (i n : Nat) (v : BitVec 32), i < 4096 → s.slotOfDoorbell i = some n → (s.slot n).stopping = false →
      let q := s.slot n
      ((v - q.head).toNat ≤ 2 ^ cfgLog q.cfg → exec (.doorbellWrite i v) s = .next { s with tails := s.tails.put i v }) ∧
      (2 ^ cfgLog q.cfg < (v - q.head).toNat → s.outstanding n ≠ 0 →
        exec (.doorbellWrite i v) s = .next ({ s with tails := s.tails.put i v }.setSlot n { q with ovr := true, stopping := true, ovrDue := some i }))) ∧
    (∀ (off n : Nat) (v : BitVec 64), off + n ≤ 512 → n ≤ 8 → ∃ t, exec (.pendmapClear off n v) s = .next t ∧ SameMem s t ∧ t.groups = s.groups ∧ t.tails = s.tails ∧
      ∀ j b, b < 8 → (t.pend.getD j 0).getLsbD b =
        ((s.pend.getD j 0).getLsbD b && !(decide (off ≤ j ∧ j < off + n) && v.getLsbD (8 * (j - off) + b)))) ∧
    (∀ (n : Nat) (v : BitVec 64), n < 32 → cfgEn v = true → cfgEn (s.slot n).cfg = false → (s.slot n).ovrDue = none →
      (s.enableBad n v = true → exec (.qsEnable n v) s = .next (s.setSlot n { s.slot n with ovr := false, flt := false, err := true })) ∧
      (s.enableBad n v = false → (s.tails.getD (cfgDb v) 0 - (s.slot n).head).toNat ≤ 2 ^ cfgLog v →
        exec (.qsEnable n v) s = .next (s.setSlot n { s.slot n with cfg := v, ovr := false, flt := false, err := false }))) ∧
    (∀ (n : Nat) (v : BitVec 64), n < 32 → cfgEn v = false →
      ∃ c, exec (.qsDisable n v) s = .next (s.setSlot n { s.slot n with cfg := c, stopping := false }) ∧ cfgEn c = false ∧
        (cfgEn (s.slot n).cfg = true → cfgDb c = cfgDb (s.slot n).cfg ∧ cfgLog c = cfgLog (s.slot n).cfg ∧ cfgKrn c = cfgKrn (s.slot n).cfg) ∧
        (cfgEn (s.slot n).cfg = false → c = v)) ∧
    (∀ q, q = s.slot s.hand → s.hand < 32 → cfgEn q.cfg = true → q.stopping = false → q.waiting = false →
      let tail := s.tails.getD (cfgDb q.cfg) 0
      (tail = q.head → exec .commandFetch s = .next s) ∧
      (∀ s1 c bs, (tail - q.head).toNat ≤ 2 ^ cfgLog q.cfg → tail ≠ q.head → s.openCtx q = (s1, c) →
        s1.engineRead 0 c.asid (q.base + BitVec.ofNat 64 (64 * (q.head.toNat % 2 ^ cfgLog q.cfg))) 64 .read false = (s1, .ok bs) →
        ∃ t, exec .commandFetch s = .next t ∧ SameMem s t ∧ t.groups = s.groups ∧ (t.slot s.hand).head = q.head + 1 ∧ (t.slot s.hand).cfg = q.cfg ∧
          t.cmds = s.cmds.put s.cmds.next { slot := s.hand, asid := c.asid, raw := BitVec.ofNat 512 (ofBytes bs), order := s.cmds.next, ready := s.cycle }))

/-- A command in hand, fetched and not yet started, whose turn it is. -/
def Sys2Proof.Claim.Fetched (s : State) (c : Cmd) (op : Nat) : Prop :=
  s.cmds.get? s.hand = some c ∧ fld c.raw.toNat 0 4 = op ∧ c.waiting = false ∧ c.done = false ∧ c.started = false ∧ s.mayStart c = true
/-- Its fields and its context admit it. -/
def Sys2Proof.Claim.Sound (s : State) (c : Cmd) : Prop :=
  cmdBad c.raw.toNat (cfgKrn (s.slot c.slot).cfg) (s.slotDesc (s.slot c.slot)) = false ∧ ((s.ctx c.asid).map (·.gone)).getD false = false
/-- Its completion address is 0, or reaches a line that its home holds at rest. -/
def Sys2Proof.Claim.Writable (s : State) (c : Cmd) (k : Nat) : Prop :=
  let va := cmdDonea c.raw.toNat
  (s.slot c.slot).stopping = false ∧ (s.slot c.slot).ovrDue = none ∧ s.links.out = [] ∧
  (va ≠ 0 → va.toNat % 16 = 0 ∧ va.toNat + 16 ≤ 2 ^ 52 ∧ keyMod k = Config.selfModule ∧ keyTier k ≤ 1 ∧ k % 128 + 16 ≤ 128 ∧
    (∀ d, d = 0 ∨ d = 8 → (findTlb (s.tlbDie.getD 0 []) c.asid (va.toNat + d) .write false).map (·.key) = some (k + d)) ∧
    (s.homes.get? (k / 128)).isSome = true ∧ (s.home (k / 128)).dir = {} ∧ s.ckptHolds k = false ∧ s.liveHeader k 16 = none)
/-- The command in hand has completed with a status: DONEV at DONEA, the status after it, no other byte changed, and it is gone. -/
def Sys2Proof.Claim.Completed (s : State) (c : Cmd) (k status : Nat) (t : State) : Prop :=
  t.cmds.get? s.hand = none ∧ (∀ n, n ≠ s.hand → t.cmds.get? n = s.cmds.get? n) ∧
  ∀ a, t.byte a = if cmdDonea c.raw.toNat ≠ 0 ∧ k ≤ a ∧ a < k + 16 then
    BitVec.ofNat 8 (((cmdDonev c.raw.toNat).toNat + 2 ^ 64 * status) / 256 ^ (a - k)) else s.byte a

/-- 15 R324 to R326, 13 R285: the commands. A bad one completes with BAD_CMD and one of a context that is gone with CTX_GONE; NOP and a
QUIESCE of a quiescent graph complete with OK; a DISPATCH reads its kernel and starts, or completes with BAD_HEADER or QUOTA; RECORD's record
leaves for its bin and the command completes when it is there; POOLGROW adds its blocks; CTXDOWN discards the context's teams, bins and
records. A command behind an earlier one of its ring waits. -/
def Sys2Proof.Claim.Commands : Prop :=
  ∀ (s : State) (c : Cmd) (k : Nat), Writable s c k → Tab.rises s.cmds = true →
    let ends := fun (i : Instr) (status : Nat) => ∃ t, exec i s = .next t ∧ t.groups = s.groups ∧ t.teams = s.teams ∧ Completed s c k status t
    let run := fun (i : Instr) (op : Nat) =>
      (Fetched s c op → (∃ desc, s.slotDesc (s.slot c.slot) = desc ∧ cmdBad c.raw.toNat (cfgKrn (s.slot c.slot).cfg) desc = true) → ends i 2) ∧
      (Fetched s c op → cmdBad c.raw.toNat (cfgKrn (s.slot c.slot).cfg) (s.slotDesc (s.slot c.slot)) = false → ((s.ctx c.asid).map (·.gone)) = some true → ends i 3) ∧
      (s.cmds.get? s.hand = some c → fld c.raw.toNat 0 4 = op → c.done = false → c.started = false → s.mayStart c = false → exec i s = .next s)
    run .nop 0 ∧ run .dispatch 1 ∧ run .record 2 ∧ run .quiesce 3 ∧ run .poolgrow 4 ∧ run .ctxdown 5 ∧
    (∀ op, 5 < op → Fetched s c op → ends .nop 2) ∧
    (Fetched s c 0 → Sound s c → ends .nop 0) ∧
    (Fetched s c 3 → Sound s c → s.quiescent c.asid = true → ends .quiesce 0) ∧
    (Fetched s c 3 → Sound s c → s.quiescent c.asid = false → exec .quiesce s = .next { s with cmds := s.cmds.put s.hand { c with started := true } }) ∧
    (Fetched s c 1 → Sound s c → s.readKernel c = (s, .ok none) → ends .dispatch 1) ∧
    (∀ kn ext, Fetched s c 1 → Sound s c → s.readKernel c = (s, .ok (some (kn, ext))) → ∀ x, s.ctx c.asid = some x →
      (s.neverFits x.part kn.hdr kn.plan = true → ends .dispatch 4) ∧
      (s.neverFits x.part kn.hdr kn.plan = false → frameShort x kn.hdr = none → ∃ t, exec .dispatch s = .next t ∧ SameMem s t ∧ t.groups = s.groups ∧ t.teams = s.teams ∧
        t.cmds = s.cmds.put s.hand { c with started := true, kern := some kn, extents := ext, ready := s.cycle })) ∧
    (∀ raw data x, Fetched s c 2 → Sound s c → s.ctx c.asid = some x →
      let x0 := c.raw.toNat
      let h := parseHeader (ofBytes raw)
      let die := fld x0 49 1
      (cmdHdr x0).toNat % 64 = 0 → s.engineRead die c.asid (cmdHdr x0) 64 .read false = (s, .ok raw) →
      (nodeHeaderOk (ofBytes raw) = false ∨ h.maxdepth < fld x0 50 6 → ends .record 1) ∧
      (nodeHeaderOk (ofBytes raw) = true → fld x0 50 6 ≤ h.maxdepth → s.engineRead die c.asid (BitVec.ofNat 64 (fld x0 256 64)) (16 * h.recsz) .read false = (s, .ok data) →
        x.used + h.recsz ≤ 256 * x.poolsz →
        ∃ t, exec .record s = .next t ∧ SameMem s t ∧ t.groups = s.groups ∧ t.cmds = s.cmds.put s.hand { c with started := true } ∧
          t.inflight = s.inflight.put s.inflight.next { die := die, asid := c.asid, node := cmdHdr x0, data := data, depth := fld x0 50 6, src := 4, gran := h.recsz, cmd := some s.hand } ∧
          ∃ x', t.ctx c.asid = some x' ∧ x'.used = x.used + h.recsz)) ∧
    (s.cmds.get? s.hand = some c → fld c.raw.toNat 0 4 = 2 → c.waiting = false → c.done = false → c.started = true →
      (c.retired = 0 → exec .record s = .next s) ∧ (c.retired = 1 → ends .record 0) ∧ (c.retired = 2 → ends .record 1)) ∧
    (∀ x, Fetched s c 4 → Sound s c → s.ctx c.asid = some x → cmdDonea c.raw.toNat = 0 → keyMod x.key = Config.selfModule → keyTier x.key ≤ 1 → x.key % 64 = 0 →
      (s.homes.get? (x.key / 128)).isSome = true → (s.home (x.key / 128)).dir = {} → s.ckptHolds x.key = false → s.liveHeader (x.key + 28) 4 = none →
      let sz := (x.poolsz + fld c.raw.toNat 256 64) % 2 ^ 32
      ∃ t x', exec .poolgrow s = .next t ∧ t.groups = s.groups ∧ t.teams = s.teams ∧ t.cmds.get? s.hand = none ∧ t.ctx c.asid = some x' ∧ x'.poolsz = sz ∧ x'.used = x.used ∧
        x'.exhausted = 0 ∧ ∀ a, t.byte a = if x.key + 28 ≤ a ∧ a < x.key + 32 then BitVec.ofNat 8 (sz / 256 ^ (a - (x.key + 28))) else s.byte a) ∧
    (∀ x, Fetched s c 5 → Sound s c → s.ctx c.asid = some x → (∀ e ∈ s.bundles, e.2.asid ≠ c.asid) → (∀ e ∈ s.cmds, e.1 ≠ s.hand → e.2.asid ≠ c.asid) →
      Tab.rises s.teams = true → cmdDonea c.raw.toNat = 0 →
      ∃ t x', exec .ctxdown s = .next t ∧ t.cmds.get? s.hand = none ∧ t.ctx c.asid = some x' ∧ x'.gone = true ∧ x'.used = 0 ∧
        (∀ n tm, t.team? n = some tm → s.team? n = some tm ∧ tm.asid ≠ c.asid) ∧ (∀ e ∈ t.bins, e.2.asid ≠ c.asid) ∧ (∀ e ∈ t.inflight, e.2.asid ≠ c.asid) ∧
        (∀ j g, t.group? j = some g → ∃ g0, s.group? j = some g0 ∧ g.v = g0.v ∧ g.s = g0.s ∧ g.p = g0.p) ∧ (∀ d e, e ∈ t.tlbDie.getD d [] → e.asid ≠ c.asid))

/-- Queue slots, doorbells and commands: the two parts stated as SlotsAndDoorbells, Commands. -/
def Obligations.SlotsAndCommands : Prop :=
  Sys2Proof.Claim.SlotsAndDoorbells ∧ Sys2Proof.Claim.Commands

/-- 15 R327, R332, 12 R256 to R259, 13 R286: TEAM_START gives a DISPATCH's next team all that it needs, or starts nothing. The team's group holds
every lane in one READY split at its entry, ARG, the team's number and its private region in s0 to s2 and each lane's index in v0 (08 R173), zeros elsewhere, and each lane's
synthesised record. -/
def Sys2Proof.Claim.TeamStart : Prop :=
  ∀ (s : State) (n i : Nat) (d : Cmd) (kn : Kernel) (c : Ctx) (pl : Plan), s.hand < 144 → s.candidates (s.hand / 72) = [.slot [n]] →
    s.cmds.get? n = some d → d.kern = some kn → s.ctx d.asid = some c → kn.plan = [pl] → kn.hdr.tpair = false → kn.hdr.seq = false →
    let core := s.hand
    let num := (s.die (core / 72)).teams
    let key := 2 * num + core / 72
    let k := 64 * core + i
    let w := kn.hdr.width
    let (nx, ny, _) := cmdDims d.raw.toNat
    let need := w * kn.hdr.fanout * 16
    (s.plat.simt = false → exec .teamStart s = .next s) ∧
    (s.plat.simt = true → s.mayUse d.asid (core / 4) = true → s.placeFits core c.part kn.hdr kn.plan = false → exec .teamStart s = .next s) ∧
    (s.plat.simt = true → s.mayUse d.asid (core / 4) = true → s.placeFits core c.part kn.hdr kn.plan = true → 256 * c.poolsz < c.used + need → 0 < need →
      exec .teamStart s = .next s) ∧
    (s.plat.simt = true → s.mayUse d.asid (core / 4) = true → s.placeFits core c.part kn.hdr kn.plan = true → c.used + need ≤ 256 * c.poolsz →
      clean s → s.fused.getLsbD (core / 4) = kn.hdr.fuse → i < 64 → s.group? k = none → (∀ j < i, (s.group? (64 * core + j)).isSome = true) →
      (∀ e ∈ s.groups, e.2.team ≠ key) → 0 < w → w ≤ 64 →
      ∃ t tm g d' c', exec .teamStart s = .next t ∧ SameMem s t ∧ t.team? key = some tm ∧ t.group? k = some g ∧ (∀ j, j ≠ k → t.group? j = s.group? j) ∧
        (∀ j, j ≠ key → t.team? j = s.team? j) ∧
        tm.asid = c.asid ∧ tm.cluster = core / 4 ∧ tm.core = core ∧ tm.kern = kn ∧ tm.cmd = some n ∧ tm.tIndex = d.nextTeam ∧ tm.groups = [k] ∧ tm.reserve = need ∧
        tm.extents = d.extents ∧ tm.scr = [] ∧ tm.acc = [] ∧ tm.bars = [] ∧ tm.guards = [] ∧ tm.queue = [] ∧
        (∀ l < w, ∃ r, tm.recs.get? l = some r ∧ r.depth = 0 ∧ r.src = 5 ∧ r.data =
          toBytes 4 (d.nextTeam % nx) ++ toBytes 4 (d.nextTeam / nx % ny) ++ toBytes 4 (d.nextTeam / (nx * ny)) ++ toBytes 4 l) ∧
        g.team = key ∧ g.gidx = 0 ∧ g.role = pl.role ∧ g.width = w ∧ g.blocks = pl.vinit ∧ g.vmax = pl.vmax ∧ g.live = allLanes w ∧ (∀ r l, l < w → g.v.getD (64 * r + l) 0 = if r = 0 then BitVec.ofNat 32 l else 0) ∧ g.p = [] ∧ g.ops = [] ∧
        (∃ x, g.splits = [x] ∧ x.mask = allLanes w ∧ x.pc = pl.entry ∧ x.jid = 0 ∧ x.depth = 0 ∧ x.st = .ready ∧ x.run = none) ∧
        (∀ r, g.s.getD r 0 = if r = 0 then BitVec.ofNat 64 (fld d.raw.toNat 192 64) else if r = 1 then BitVec.ofNat 64 d.nextTeam
          else if r = 2 then c.privb + BitVec.ofNat 64 (65536 * c.privstr * k) else 0) ∧
        t.cmds.get? n = some d' ∧ d' = { d with nextTeam := d.nextTeam + 1 } ∧ t.ctx d.asid = some c' ∧ c'.used = c.used + need)

/-- 12 R265, 13 R282, R285, 15 R324: a group whose lanes have exited and whose work is complete retires; the team ends with its last group: its
reservation and its input's granules return, and its command completes with its last team. A group with work left stays. -/
def Sys2Proof.Claim.Retirement : Prop :=
  ∀ (s : State) (g : Group) (tm : Team), s.group? s.hand = some g → s.hand < 2 ^ 20 → s.team? g.team = some tm → tm.bars = [] → tm.seq = none →
    (¬ (g.live = 0 ∧ g.ops = [] ∧ g.stop = none) → exec .groupRetire s = .next s) ∧
    (g.live = 0 → g.ops = [] → g.stop = none → g.park = .no →
      let others := ∃ k ∈ tm.groups, k ≠ s.hand ∧ (s.group? k).map (·.team) = some g.team
      (others → ∃ t, exec .groupRetire s = .next t ∧ SameMem s t ∧ t.groups = s.groups.del s.hand ∧ t.teams = s.teams ∧ t.ctxs = s.ctxs ∧ t.cmds = s.cmds) ∧
      (¬ others → clean s → tm.queue = [] → (∀ e ∈ s.copies, e.2.team ≠ g.team) → ∀ x, s.ctx tm.asid = some x →
        (tm.cmd = none → ∃ t x', exec .groupRetire s = .next t ∧ SameMem s t ∧ t.groups = s.groups.del s.hand ∧ t.teams = s.teams.del g.team ∧
          t.ctx tm.asid = some x' ∧ x'.used = x.used - (tm.reserve + tm.inGran) ∧ t.cmds = s.cmds) ∧
        (∀ n c, tm.cmd = some n → s.cmds.get? n = some c → c.done = false → (s.slot c.slot).stopping = false → (s.slot c.slot).ovrDue = none →
          (c.retired + 1 ≠ cmdTeams c.raw.toNat → ∃ t, exec .groupRetire s = .next t ∧ SameMem s t ∧ t.groups = s.groups.del s.hand ∧ t.teams = s.teams.del g.team ∧
            t.cmds.get? n = some { c with retired := c.retired + 1 }) ∧
          (c.retired + 1 = cmdTeams c.raw.toNat → cmdDonea c.raw.toNat = 0 → ∃ t, exec .groupRetire s = .next t ∧ SameMem s t ∧ t.groups = s.groups.del s.hand ∧
            t.teams = s.teams.del g.team ∧ t.cmds.get? n = none))))

/-- A team starts, and its groups retire: the two parts stated as TeamStart, Retirement. -/
def Obligations.TeamsStartAndEnd : Prop :=
  Sys2Proof.Claim.TeamStart ∧ Sys2Proof.Claim.Retirement

/-! ### Pre-emption (16 R351 to R355; 12 R261) -/

/-- 16 R351 to R353: PRE_CMD with OUT takes the context off the clusters and tells its groups to park, and is DONE once nothing of it is left
there; with IN it brings its teams back. While a command runs a further one is ignored. -/
def Sys2Proof.Claim.PreemptionCommands : Prop :=
  ∀ (s : State) (d : Nat) (v : BitVec 64), d < 2 →
    let asid := v.extractLsb' 48 16
    let cl := BitVec.ofNat 36 (fld v.toNat 12 18 * 2 ^ (18 * d))
    let mine := fun (tm : Team) => tm.asid = asid ∧ cl.getLsbD tm.cluster = true
    let here := fun (k : Nat) (g : Group) => s.asidOf g = asid ∧ cl.getLsbD (k / 256) = true
    let out := fun (t : State) => t.outOf.getD asid.toNat 0
    ((s.die d).preStatus = 1 → (fld v.toNat 0 2 = 1 → exec (.preOut d v) s = .next s) ∧ (fld v.toNat 0 2 = 2 → exec (.preIn d v) s = .next s)) ∧
    ((s.die d).preStatus ≠ 1 → fld v.toNat 0 2 = 1 →
      ((∀ e ∈ s.teams, ¬ mine e.2) → (∀ e ∈ s.groups, ¬ here e.1 e.2) → (∀ e ∈ s.rays, e.2.asid ≠ asid) → (∀ e ∈ s.scenes, e.2.asid ≠ asid) → (s.die d).evqBase = 0 →
        (∀ w ∈ s.waits, ∀ k i l, w.who ≠ .op k i l) →
        ∃ t, exec (.preOut d v) s = .next t ∧ SameMem s t ∧ t.groups = s.groups ∧ t.teams = s.teams ∧ out t = out s ||| cl ∧
          (t.die d).preStatus = 0 ∧ (t.die d).preSeq = v.extractLsb' 4 8 ∧ (t.die d).pre = none ∧ t.evWait.length = s.evWait.length + 1) ∧
      (∀ k g n tm, s.group? k = some g → here k g → s.teams.get? n = some tm → mine tm → g.team = n → k ∈ tm.groups → g.park = .no → Tab.rises s.groups = true →
        Tab.rises s.teams = true →
        ∃ t g', exec (.preOut d v) s = .next t ∧ SameMem s t ∧ out t = out s ||| cl ∧ (t.die d).preStatus = 1 ∧ t.group? k = some g' ∧ g'.park = .asked ∧
          g'.splits = g.splits ∧ g'.v = g.v ∧ g'.s = g.s ∧ g'.p = g.p ∧ t.teams = s.teams ∧
          (∀ j h, s.group? j = some h → ¬ here j h → ∃ h', t.group? j = some h' ∧ h'.park = h.park ∧ h'.splits = h.splits ∧ h'.v = h.v))) ∧
    ((s.die d).preStatus ≠ 1 → fld v.toNat 0 2 = 2 →
      ((∀ e ∈ s.outTeams, ¬ mine e.team) → (s.die d).evqBase = 0 →
        ∃ t, exec (.preIn d v) s = .next t ∧ SameMem s t ∧ t.groups = s.groups ∧ t.teams = s.teams ∧ out t = out s &&& ~~~cl ∧
          (t.die d).preStatus = 0 ∧ (t.die d).preSeq = v.extractLsb' 4 8 ∧ t.evWait.length = s.evWait.length + 1) ∧
      (∀ w k g, s.outTeams = [w] → mine w.team → w.groups = [(k, g)] → w.seq = none → g.ops = [] → g.swept = 0 → g.park = .no →
        ({ s with outOf := s.outOf.putD 0 asid.toNat (out s &&& ~~~cl) } : State).mayRestore w = true → clean s → s.bins = [] →
        s.fused.getLsbD w.team.cluster = w.team.kern.hdr.fuse → (s.die d).evqBase = 0 →
        ∃ t, exec (.preIn d v) s = .next t ∧ SameMem s t ∧ t.outTeams = [] ∧ t.team? w.key = some w.team ∧ t.group? k = some { g with dumped := false } ∧
          (∀ j, j ≠ k → t.group? j = s.group? j) ∧ (t.die d).preStatus = 0))

/-- 16 R352 to R355, 12 R261: a group at rest begins its save: S[62] and S[63] are kept and its lowest READY split runs the save routine of its
safe point; one that is not at rest waits. When the groups have parked, OUT saves and frees their team; its save frames are written, with bytes that nothing fixes (log 34). The two budgets turn those that are
late to the full dump, which is taken at the next clause boundary. After 256 clauses a spilled READY split takes the place of the table's split
with the smallest LAST, and the bytes of the spill stack hold no known value (log 31). -/
def Sys2Proof.Claim.Parking : Prop :=
  (∀ (s : State) (g : Group), s.group? s.hand = some g → s.hand < 2 ^ 20 → (s.core (coreOf s.hand)).atops = [] →
    (∀ (x : Split) (id : Nat), g.park = .asked → g.stop = none → g.splits = [x] → g.spilled = [] → g.ops = [] → x.run = none → x.skip = 0 → x.st = .ready → x.mask ≠ 0 →
      s.safePoint s.hand g x = some id →
      ∃ g', exec .groupParked s = .next (s.setGroup s.hand g') ∧ g'.park = .saving [] ∧ g'.link = none ∧ g'.saved62 = g.s.getD 62 0 ∧ g'.saved63 = g.s.getD 63 0 ∧
        (∀ r, g'.s.getD r 0 = if r = 62 then BitVec.ofNat 64 id else if r = 63 then g.priv else g.s.getD r 0) ∧ g'.v = g.v ∧ g'.p = g.p ∧
        g'.splits = [{ x with safePc := x.pc, spid := id, pc := (((s.safeTable g)[id]?).getD (x.pc, x.pc)).1, routine := .save }]) ∧
    (∀ x ∈ g.splits ++ g.spilled, g.park = .asked → g.stop = none → x.st = .ready → (x.run ≠ none ∨ s.safePoint s.hand g x = none) → exec .groupParked s = .next s) ∧
    (∀ x : Split, g.park = .asked → g.stop = none → g.splits = [x] → g.spilled = [] → g.ops = [] → x.run = none → x.st = .sleep → (∀ n t, x.wait = .barrier n t →
      ∃ g', exec .groupParked s = .next (s.setGroup s.hand g') ∧ g'.park = .parked ∧ g'.link = none ∧ g'.splits = g.splits ∧ g'.v = g.v ∧ g'.s = g.s ∧ g'.p = g.p)) ∧
    (∀ st, g.park = .asked → g.stop = some st →
      ∃ g', exec .groupParked s = .next (s.setGroup s.hand g') ∧ g'.park = .parked ∧ g'.stop = some st ∧ g'.splits = g.splits ∧ g'.v = g.v ∧ g'.s = g.s ∧ g'.p = g.p) ∧
    (g.park = .dumping → g.ops = [] → (∀ x ∈ g.splits ++ g.spilled, x.run = none ∧ x.routine = .none) →
      ∃ g', exec .groupParked s = .next (s.setGroup s.hand g') ∧ g'.park = .parked ∧ g'.dumped = true ∧ g'.splits = g.splits ∧ g'.v = g.v ∧ g'.s = g.s ∧ g'.p = g.p)) ∧
  (∀ (s : State) (d n k : Nat) (p : PreCmd) (tm : Team) (g : Group), s.hand = 2 ^ 20 + d → (s.die d).pre = some p → p.out = true → s.teams = [(n, tm)] →
    tm.asid = p.asid → p.clusters.getLsbD tm.cluster = true → tm.groups = [k] → tm.seq = none → tm.queue = [] → tm.kern.hdr.scratch = 0 → s.groups = [(k, g)] → g.team = n →
    s.copies = [] → s.rays = [] → s.scenes = [] → s.bins = [] → (s.die d).evqBase = 0 → clean s → tm.pageWait = [] → tm.pair = false →
    (g.park = .parked → ∃ t v, exec .groupParked s = .next t ∧ SameMem ((s.writeBackAll tm.core).writeFrames tm s.groups) t ∧ t.teams = [] ∧ t.groups = [] ∧ t.outTeams = s.outTeams ++ [v] ∧ v.key = n ∧
      v.groups = [(k, { g with park := .no })] ∧ v.seq = none ∧ v.team.groups = [k] ∧ v.team.acc = tm.acc ∧ v.team.bars = tm.bars ∧ v.team.guards = tm.guards ∧
      v.team.horizon = tm.horizon ∧ (t.die d).preStatus = 0 ∧ (t.die d).pre = none) ∧
    (g.park ≠ .parked → exec .groupParked s = .next s)) ∧
  (∀ (s : State) (p : PreCmd) (k : Nat) (g : Group), (s.die s.hand).pre = some p → p.out = true → s.groups = [(k, g)] → s.asidOf g = p.asid → p.clusters.getLsbD (k / 256) = true →
    let b := fun i => 1050 * fld (s.die s.hand).preBudget.toNat i 16
    let dumps := fun (t : State) => t.groups = [(k, { g with park := .dumping })] ∧ (t.die s.hand).dumped = true ∧ SameMem s t ∧ t.teams = s.teams
    (g.park = .asked → p.start + b 0 ≤ s.cycle → ∃ t, exec .parkBudgetExpire s = .next t ∧ dumps t) ∧
    (p.start + b 0 > s.cycle ∨ g.park ≠ .asked → exec .parkBudgetExpire s = .next s) ∧
    (∀ l, g.park = .saving l → g.savedAt + b 16 ≤ s.cycle → ∃ t, exec .routineBudgetExpire s = .next t ∧ dumps t) ∧
    ((∀ l, g.park ≠ .saving l) ∨ s.cycle < g.savedAt + b 16 → exec .routineBudgetExpire s = .next s)) ∧
  (∀ (s : State) (g : Group) (x v : Split), s.group? s.hand = some g → (g.spilled.find? fun y => y.st == .ready) = some x → v ∈ g.splits →
    (∀ y ∈ g.splits, y.run = none ∧ (y ≠ v → v.last < y.last ∧ y.mask ≠ v.mask)) → (g.spilled.map (·.mask)).Nodup →
    let rot := fun (p : Group → Prop) => ∃ g', exec .splitRotation s = .next ((s.setGroup s.hand g').noteSpill s.hand g.spillBytes g) ∧
      g'.splits = (g.splits.filter fun y => y.mask != v.mask) ++ [{ x with place := v.place }] ∧
      g'.spilled = (g.spilled.filter fun y => y.mask != x.mask) ++ [v] ∧ g'.v = g.v ∧ g'.s = g.s ∧ g'.p = g.p ∧ p g'
    ((∃ y ∈ g.splits, y.st = .ready) → g.clauses < g.rotated + 256 → exec .splitRotation s = .next s) ∧
    ((∀ y ∈ g.splits, y.st ≠ .ready) → rot fun _ => True) ∧
    ((∃ y ∈ g.splits, y.st = .ready) → g.rotated + 256 ≤ g.clauses → rot fun g' => g'.rotated = g.clauses))

/-- Pre-emption: commands, parking, save routines and budgets: the two parts stated as PreemptionCommands, Parking. -/
def Obligations.Preemption : Prop :=
  Sys2Proof.Claim.PreemptionCommands ∧ Sys2Proof.Claim.Parking

/-! ### Firmware's interface (16 R336 to R350, R390) -/

/-- A mailbox command of operation `op` (16 R342). -/
def Sys2Proof.Claim.mbWord (op core tag status : Nat) : BitVec 64 := BitVec.ofNat 64 (core * 2 ^ 56 + tag * 2 ^ 40 + status * 2 ^ 24 + op)

/-- 16 R342, R345, R348, R350, R390: REPLY writes S[D] and S[D+1] of the group whose split sleeps on the upcall, and the split goes on; RESOLVE
replays a logged instruction, or makes a fault record's work be tried again; DECLINE stops the group with PAGE_FAULT once its other
instructions are complete, logged or held. A command with another operation, an agent of another die, or a tag that nothing awaits has no
effect. -/
def Obligations.Mailbox : Prop :=
  (∀ (s : State) (d core tag status : Nat) (u : Upcall) (g : Group) (x : Split), d < 2 → core / 72 = d → tag < 2 ^ 16 → status < 2 ^ 16 →
    s.upcalls.get? (65536 * d + tag) = some u → u.core = core → u.code.toNat < 0xF0 → s.group? u.group = some g → x ∈ g.splits → x.wait = .upcall tag u.d →
    let ver := u.taken.getD (s.die d).fwver
    ∃ t g', exec (.mbReply d (mbWord 0 core tag status)) s = .next t ∧ SameMem s t ∧ t.upcalls.get? (65536 * d + tag) = none ∧ t.group? u.group = some g' ∧
      (∀ r, g'.s.getD r 0 = if r = u.d.toNat + 1 then BitVec.ofNat 64 (ver.toNat * 2 ^ 32 + status) else if r = u.d.toNat then (s.die d).mbVal else g.s.getD r 0) ∧
      g'.splits = (g.splits.map fun y => if y.wait = .upcall tag u.d then { y with wait := .nothing, st := if y.st = .sleep then .ready else y.st } else y) ∧
      g'.v = g.v ∧ g'.p = g.p ∧ g'.flags = g.flags ∧ ∀ j, j ≠ u.group → t.group? j = s.group? j) ∧
  (∀ (s : State) (d : Nat) (v : BitVec 64), d < 2 →
    ((mbOp v ≠ 0 ∨ (mbCore v < 144 ∧ mbCore v / 72 ≠ d) ∨ s.upcalls.get? (65536 * d + mbTag v) = none) → exec (.mbReply d v) s = .next s) ∧
    ((mbOp v ≠ 1 ∨ (mbCore v < 144 ∧ mbCore v / 72 ≠ d)) → exec (.mbResolve d v) s = .next s) ∧
    ((mbOp v ≠ 2 ∨ (mbCore v < 144 ∧ mbCore v / 72 ≠ d)) → exec (.mbDecline d v) s = .next s)) ∧
  (∀ (s : State) (d core tag k : Nat) (g : Group) (o : Op), d < 2 → core / 72 = d → tag < 2 ^ 16 → (s.core core).log.get? tag = some k → s.group? k = some g →
    (g.ops.find? fun o => o.place == .logged tag) = some o → g.op? o.gio = some o →
    (∃ t g', exec (.mbResolve d (mbWord 1 core tag 0)) s = .next t ∧ SameMem s t ∧ t.group? k = some g' ∧ g'.pmc.getD 4 0 = g.pmc.getD 4 0 + 1 ∧
      g'.op? o.gio = some { o with told := 0, accs := o.accs.map fun a => if a.phase.isFault = true then { a with phase := .todo } else a } ∧
      g'.splits = g.splits ∧ g'.v = g.v ∧ g'.s = g.s ∧ g'.p = g.p ∧ g'.stop = g.stop) ∧
    (g.stop = none → g.declined = none → ∀ a f, (o.accs.find? fun a => a.phase.isFault) = some a → a.phase = .faulted f →
      ((∀ e ∈ g.ops, e.isPlaced = true) → ∃ t g' st, exec (.mbDecline d (mbWord 2 core tag 0)) s = .next t ∧ t.group? k = some g' ∧ g'.stop = some st ∧
        st.cause = 0x04 ∧ st.detail = BitVec.ofNat 8 (faultKind f) ∧ st.pc = o.pc ∧ st.idx = o.idx ∧ st.lanes = o.faultLanes ∧ st.vaddr = a.ea ∧ st.gio = some o.gio ∧
        (∀ i < 64, st.done.getLsbD i = decide (o.gio + 1 + i < g.gio ∧ ∀ e ∈ g.ops, e.gio ≠ o.gio + 1 + i)) ∧ (∀ y ∈ g'.splits, y.st = .stopped) ∧
        g'.v = g.v ∧ g'.s = g.s ∧ g'.p = g.p) ∧
      (∀ e, g.ops = [o, e] → e.gio ≠ o.gio → e.isPlaced = false → o.waitsBehind e = false → ∃ t g', exec (.mbDecline d (mbWord 2 core tag 0)) s = .next t ∧ SameMem s t ∧
        t.group? k = some g' ∧ g'.stop = none ∧ g'.declined = some o.gio ∧ g'.splits = g.splits ∧ g'.ops = g.ops))) ∧
  (∀ (s : State) (d code tag q n : Nat) (x : Seq) (r : FaultRec), d < 2 → mbOnDie d code = true → code < 256 → tag < 2 ^ 16 → (s.core code).log.get? tag = none →
    s.faultRec d code tag = some r →
    (r.work = .seqFetch q → s.seq? q = some x →
      (∃ t, exec (.mbResolve d (mbWord 1 code tag 0)) s = .next t ∧ SameMem s t ∧ t.groups = s.groups ∧ t.seq? q = some { x with fetchFault := none }) ∧
      (∃ t x', exec (.mbDecline d (mbWord 2 code tag 0)) s = .next t ∧ ((s.die (q / 4 / 72)).evqBase = 0 → t.groups = s.groups ∧ SameMem s t) ∧ t.seq? q = some x' ∧ (∀ e ∈ t.frecs, e.work ≠ r.work) ∧
        x'.q = x.q ∧ x'.t = x.t ∧ x'.pc = x.pc ∧
        x'.stop = some { cause := 0x04, detail := BitVec.ofNat 8 (faultKind (x.fetchFault.getD 0)), pc := x.pc, idx := 0, lanes := 0 })) ∧
    (r.work = .ring n →
      (exec (.mbResolve d (mbWord 1 code tag 0)) s = .next (s.setSlot n { s.slot n with waiting := false })) ∧
      (s.outstanding n ≠ 0 → ∃ t, exec (.mbDecline d (mbWord 2 code tag 0)) s = .next t ∧ SameMem s t ∧ t.groups = s.groups ∧ (t.slot n).flt = true ∧
        (t.slot n).stopping = true ∧ (t.slot n).waiting = false ∧ (t.slot n).head = (s.slot n).head ∧ ∀ e ∈ t.frecs, e.work ≠ r.work)))

/-- 16 R338, R339, R350: EVQ_BASE, EVQ_TAILW and FWVER take what is written, a base or mirror address that breaks its layout is ignored, and a
base lets the oldest waiting event into the ring. A head write passes the entries up to it: an UPCALL event passed fixes the firmware version of
its reply. -/
def Sys2Proof.Claim.EventQueue : Prop :=
  ∀ (s : State) (d : Nat) (v : BitVec 64), d < 2 →
    let high := 1 < fld v.toNat 61 3 ∨ fld v.toNat 52 9 ≠ 0
    let quiet := ∀ e ∈ s.evWait, e.die ≠ d
    let next := fun (i : Instr) (f : Die → Die) => exec i s = .next (s.updDie d f)
    next (.fwsw d v) (fun x => { x with fwver := v.setWidth 16 }) ∧
    (high ∨ fld v.toNat 0 3 ≠ 0 → exec (.evqTailwWrite d v) s = .next s) ∧
    (¬ high → fld v.toNat 0 3 = 0 → next (.evqTailwWrite d v) fun x => { x with evqTailw := v }) ∧
    (high ∨ fld v.toNat 0 12 ≠ 0 → exec (.evqBaseWrite d v) s = .next s) ∧
    (¬ high → fld v.toNat 0 12 = 0 → quiet → next (.evqBaseWrite d v) fun x => { x with evqBase := v }) ∧
    (∀ e, ¬ high → fld v.toNat 0 12 = 0 → v ≠ 0 → s.evWait = [e] → e.die = d → (s.die d).evqHead = (s.die d).evqTail → (s.die d).evqTailw = 0 →
      let k := ringKey v + 64 * ((s.die d).evqTail.toNat % 2 ^ (fld (s.die d).evqCfg.toNat 0 4 + 6))
      keyMod k = Config.selfModule → keyTier k ≤ 1 → (s.homes.get? (k / 128)).isSome = true → (s.home (k / 128)).dir = {} → s.ckptHolds k = false → s.liveHeader k 64 = none →
      ∃ t, exec (.evqBaseWrite d v) s = .next t ∧ t.evWait = [] ∧ (t.die d).evqBase = v ∧ (t.die d).evqTail = (s.die d).evqTail + 1 ∧ t.groups = s.groups ∧
        ∀ a, t.byte a = if k ≤ a ∧ a < k + 64 then BitVec.ofNat 8 (e.raw.toNat / 256 ^ (a - k)) else s.byte a) ∧
    ((s.die d).evqBase = 0 ∨ (s.die d).evqHead = (s.die d).evqTail ∨ v = (s.die d).evqHead → quiet → next (.evqHeadWrite d v) fun x => { x with evqHead := v }) ∧
    (∀ raw u, v = (s.die d).evqHead + 1 → (s.die d).evqHead ≠ (s.die d).evqTail → (s.die d).evqBase ≠ 0 → quiet →
      s.deviceNum (ringKey (s.die d).evqBase + 64 * ((s.die d).evqHead.toNat % 2 ^ (fld (s.die d).evqCfg.toNat 0 4 + 6))) 64 = raw →
      (fld raw 0 4 ≠ 2 → next (.evqHeadWrite d v) fun x => { x with evqHead := v }) ∧
      (fld raw 0 4 = 2 → s.upcalls.get? (65536 * d + fld raw 96 16) = some u → u.taken = none → ∃ t, exec (.evqHeadWrite d v) s = .next t ∧ SameMem s t ∧
        t.groups = s.groups ∧ (t.die d).evqHead = v ∧ t.upcalls.get? (65536 * d + fld raw 96 16) = some { u with taken := some (s.die d).fwver }))

/-- A debug-window address (16 R346). -/
def Sys2Proof.Claim.dwAt (kind i l w : Nat) : BitVec 64 := BitVec.ofNat 64 (kind * 2 ^ 56 + i * 2 ^ 32 + l * 2 ^ 24 + w)

/-- 16 R346, R347: the debug window reads and writes the registers, the resume point, BCUR and the marked status bits of the stopped group that
DW_SEL names, and those of its team's stopped sequencer; without a stopped target an access or a command only sets ERR. RESUME goes on at the
resume point, SKIP past the instruction there, KILL ends the group's lanes. -/
def Obligations.DebugWindow : Prop :=
  ∀ (s : State) (c sl : Nat) (g : Group), s.hand < 2 → c / 72 = s.hand → sl < 64 → s.group? (64 * c + sl) = some g →
    let d := s.hand
    let k := 64 * c + sl
    let x := s.die d
    let err := fun (b : Bool) (s : State) => s.updDie d fun x => { x with dwErr := b }
    (∀ (v : BitVec 64), x.dwSel = BitVec.ofNat 64 (c + 256 * sl) → g.stop = none →
      exec (.dwDataWrite d v) s = .next (err true s) ∧ exec .dwDataRead s = .next { err true s with bus := 0 } ∧ exec .dwResume s = .next (err true s) ∧
      exec .dwSkip s = .next (err true s) ∧ exec .dwKill s = .next (err true s)) ∧
    (∀ (st : Stop) (v : BitVec 64) (kind i l w : Nat), x.dwSel = BitVec.ofNat 64 (c + 256 * sl) → g.stop = some st → x.dwAddr = dwAt kind i l w → kind < 256 → i < 2 ^ 16 →
      l < 256 → w < 2 ^ 16 →
      let reads := fun (y : BitVec 64) => exec .dwDataRead s = .next { err false s with bus := y }
      let writes := fun (p : Group → Prop) => ∃ g', exec (.dwDataWrite d v) s = .next (err false (s.setGroup k g')) ∧ p g' ∧ g'.splits = g.splits ∧ g'.live = g.live
      let same := fun (g' : Group) => g'.v = g.v ∧ g'.s = g.s ∧ g'.p = g.p ∧ g'.stop = g.stop
      (kind = 0 → l < g.width → i < 8 * g.blocks → i ≠ 255 → reads ((g.v.getD (64 * i + l) 0).setWidth 64) ∧
        writes fun g' => (∀ r m, m < 64 → g'.v.getD (64 * r + m) 0 = if r = i ∧ m = l ∧ l < 64 then v.setWidth 32 else g.v.getD (64 * r + m) 0) ∧ g'.s = g.s ∧ g'.p = g.p) ∧
      (kind = 1 → i < 64 → reads (g.s.getD i 0) ∧ writes fun g' => (∀ r, g'.s.getD r 0 = if r = i then v else g.s.getD r 0) ∧ g'.v = g.v ∧ g'.p = g.p) ∧
      (kind = 2 → i < 7 → reads (g.p.getD i 0) ∧
        (g.p.getD i 0 &&& ~~~(allLanes g.width) = 0 → writes fun g' => (∀ r, g'.p.getD r 0 = if r = i then v &&& allLanes g.width else g.p.getD r 0) ∧ g'.v = g.v ∧ g'.s = g.s)) ∧
      (kind = 2 → i = 7 → reads (allLanes g.width) ∧ writes same) ∧
      (kind = 3 → i < 12 → reads (BitVec.ofNat 64 (g.cf.getD i 0)) ∧ writes same) ∧
      (kind = 4 → reads g.mode ∧ writes same) ∧ (kind = 5 → reads g.part64 ∧ writes same) ∧
      (kind = 6 → reads g.status ∧ writes fun g' => g'.jrel = v.getLsbD 5 ∧ g'.ferr = v.getLsbD 6 ∧ g'.flags = g.flags ∧ same g') ∧
      (kind = 9 → w = 0 → reads st.pc ∧ writes fun g' => g'.stop = some { st with pc := v } ∧ g'.v = g.v) ∧
      (kind = 9 → w = 1 → reads (BitVec.ofNat 64 st.idx) ∧ writes fun g' => g'.stop = some { st with idx := v.toNat % 16 } ∧ g'.v = g.v) ∧
      (kind = 10 → reads (g.bcur.setWidth 64) ∧ writes fun g' => g'.bcur = v.setWidth 16 ∧ same g') ∧
      (11 < kind ∨ (kind = 1 ∧ 64 ≤ i) ∨ (kind = 2 ∧ 8 ≤ i) ∨ (kind = 3 ∧ 12 ≤ i) ∨ (kind = 0 ∧ (g.width ≤ l ∨ (8 * g.blocks ≤ i ∧ i ≠ 255))) →
        exec .dwDataRead s = .next { err true s with bus := 0 } ∧ exec (.dwDataWrite d v) s = .next (err true s))) ∧
    (∀ (st : Stop) (y : Split), x.dwSel = BitVec.ofNat 64 (c + 256 * sl) → g.stop = some st → g.splits = [y] → g.spilled = [] → y.st = .stopped → y.wait = .nothing →
      y.mask &&& st.lanes ≠ 0 → g.masksOk = true →
      let goes := fun (i : Instr) (n : Nat) (y' : Split) => ∃ t g', exec i s = .next t ∧ SameMem s t ∧ (t.die d).dwErr = false ∧ t.group? k = some g' ∧ g'.stop = none ∧
        g'.declined = none ∧ g'.splits = [y'] ∧ g'.gio = g.gio + n ∧ g'.v = g.v ∧ g'.s = g.s ∧ g'.p = g.p ∧ g'.live = g.live
      (∀ r, g.ops = [] → st.gio = none → st.fall = none → y.pc = st.pc → y.run = some r →
        goes .dwResume 0 { y with st := .ready, run := some { r with idx := st.idx } } ∧
        (st.idx + 1 < r.words.length → (∀ w, r.words[st.idx]? = some w → longWord r.hdr w = none) →
          goes .dwSkip 1 { y with st := .ready, run := some { r with idx := st.idx + 1 } })) ∧
      (g.ops = [] → st.gio = none → st.fall = none → y.run = none → st.pc = y.pc → goes .dwResume 0 { y with st := .ready, skip := st.idx }) ∧
      (∀ f, g.ops = [] → st.gio = none → st.fall = some f → y.run = none →
        goes .dwResume 0 { y with st := .ready, pc := f, skip := 0 } ∧ goes .dwSkip 0 { y with st := .ready, pc := f, skip := 0 }) ∧
      (∀ o e f, g.ops = [o] → st.gio = some o.gio → o.place = .logged e → o.flag = some f → g.att.find? (fun a => a.1 == o.clause && a.2.1 == f) = some (o.clause, f, 1) →
        goes .dwSkip 0 { y with st := .ready } ∧ (∀ t g', exec .dwSkip s = .next t → t.group? k = some g' → g'.ops = [] ∧ g'.cf.getD f 0 = g.cf.getD f 0 - 1 ∧
          (t.core (coreOf k)).log.get? e = none))) ∧
    (∀ st, x.dwSel = BitVec.ofNat 64 (c + 256 * sl) → g.stop = some st → g.spilled = [] → (∀ y ∈ g.splits, y.mask &&& ~~~g.live = 0) →
      ∃ t g', exec .dwKill s = .next t ∧ SameMem s t ∧ (t.die d).dwErr = false ∧ t.group? k = some g' ∧ g'.stop = none ∧ g'.live = 0 ∧ g'.splits = [] ∧ g'.spilled = [] ∧
        (∀ o ∈ g'.ops, o.isPlaced = false) ∧ g'.v = g.v ∧ g'.s = g.s ∧ g'.p = g.p) ∧
    (∀ tm q y st, x.dwSel = BitVec.ofNat 64 (2 ^ 63 + c + 256 * sl) → s.teamOf g = some tm → tm.seq = some q → s.seq? q = some y → y.stop = some st →
      let goes := fun (i : Instr) (pc : Addr) => ∃ t, exec i s = .next t ∧ SameMem s t ∧ t.groups = s.groups ∧ (t.die d).dwErr = false ∧
        t.seq? q = some { y with stop := none, fetchFault := none, pc := pc }
      goes .dwResume y.pc ∧ goes .dwSkip (y.pc + 8) ∧ exec .dwKill s = .next (err true s) ∧
      (∀ i, i < 32 → x.dwAddr = dwAt 12 i 0 0 → exec .dwDataRead s = .next { err false s with bus := y.q.getD i 0 } ∧
        ∀ v, ∃ t y', exec (.dwDataWrite d v) s = .next t ∧ SameMem s t ∧ t.groups = s.groups ∧ t.seq? q = some y' ∧ y'.t = y.t ∧ y'.pc = y.pc ∧
          ∀ r, y'.q.getD r 0 = if r = i then v else y.q.getD r 0))

/-- 15 R391, 03 R394: a register takes 8-byte accesses and, but for the commands, 4-byte ones; PENDMAP 1-byte and 2-byte ones too. A write of a
size or alignment that is not admitted has no effect here (its agent takes the exception), half a command is ignored, and half of another
register leaves its other half. A write to a command register does what the command's own row does. -/
def Sys2Proof.Claim.RegisterWrites : Prop :=
  ∀ (s : State) (v : BitVec 64),
    (∀ (pa : BitVec 52) (n : Nat), pa.toNat % n ≠ 0 ∨ (n ≠ 8 ∧ n ≠ 4 ∧ (n ≠ 2 ∧ n ≠ 1 ∨ 0x200 ≤ pa.toNat)) → exec (.registerWrite pa n v) s = .next s) ∧
    (∀ i, i < 16 → exec (.registerWrite (BitVec.ofNat 52 (0x2000 + 8 * i)) 8 v) s = .next { s with quotas := s.quotas.put i v } ∧
      (∃ q, exec (.registerWrite (BitVec.ofNat 52 (0x2000 + 8 * i)) 4 v) s = .next { s with quotas := s.quotas.put i q } ∧ q.extractLsb' 0 32 = v.extractLsb' 0 32 ∧
        q.extractLsb' 32 32 = (s.quota i).extractLsb' 32 32) ∧
      (∃ q, exec (.registerWrite (BitVec.ofNat 52 (0x2004 + 8 * i)) 4 v) s = .next { s with quotas := s.quotas.put i q } ∧ q.extractLsb' 32 32 = v.extractLsb' 0 32 ∧
        q.extractLsb' 0 32 = (s.quota i).extractLsb' 0 32)) ∧
    (∀ off n, n = 1 ∨ n = 2 ∨ n = 4 ∨ n = 8 → off % n = 0 → off < 0x200 → exec (.registerWrite (BitVec.ofNat 52 off) n v) s = exec (.pendmapClear off n v) s) ∧
    (∀ i, i < 4096 → let pa := 2 ^ 36 + 2 ^ 16 * i
      exec (.registerWrite (BitVec.ofNat 52 pa) 8 v) s = exec (.doorbellWrite i (v.setWidth 32)) s ∧
      exec (.registerWrite (BitVec.ofNat 52 pa) 4 v) s = exec (.doorbellWrite i (v.setWidth 32)) s ∧ exec (.registerWrite (BitVec.ofNat 52 (pa + 4)) 4 v) s = .next s) ∧
    (∀ n, n < 32 → exec (.registerWrite (BitVec.ofNat 52 (0x1008 + 64 * n)) 8 v) s = if cfgEn v = true then exec (.qsEnable n v) s else exec (.qsDisable n v) s) ∧
    (∀ d, d < 2 → let at' := fun (off : Nat) (n : Nat) => exec (.registerWrite (BitVec.ofNat 52 (2 ^ 20 * d + off)) n v) s
      (mbOp v = 0 → at' 0x6048 8 = exec (.mbReply d v) s) ∧ (mbOp v = 1 → at' 0x6048 8 = exec (.mbResolve d v) s) ∧ (mbOp v = 2 → at' 0x6048 8 = exec (.mbDecline d v) s) ∧
      (2 < mbOp v → at' 0x6048 8 = .next s) ∧ at' 0x6048 4 = .next s ∧ at' 0x6000 8 = exec (.evqBaseWrite d v) s ∧ at' 0x6010 8 = exec (.evqHeadWrite d v) s ∧
      at' 0x6020 8 = exec (.evqTailwWrite d v) s ∧ at' 0x6030 8 = exec (.fwsw d v) s ∧ at' 0x6030 4 = .next s ∧ at' 0x7010 8 = exec (.dwDataWrite d v) s ∧
      (fld v.toNat 0 2 = 1 → at' 0x4000 8 = exec (.preOut d v) s) ∧ (fld v.toNat 0 2 = 2 → at' 0x4000 8 = exec (.preIn d v) s) ∧
      at' 0x6040 8 = .next (s.updDie d fun x => { x with mbVal := v }) ∧ at' 0x7000 8 = .next (s.updDie d fun x => { x with dwSel := v }) ∧
      at' 0x7008 8 = .next (s.updDie d fun x => { x with dwAddr := v }))

/-- The event queue, and writes of registers: the two parts stated as EventQueue, RegisterWrites. -/
def Obligations.EventsAndRegisters : Prop :=
  Sys2Proof.Claim.EventQueue ∧ Sys2Proof.Claim.RegisterWrites


/-! ### The links and the host (17 R360 to R374; 16 R356, R357) -/

/-- n bytes of one line of memory of an answering module whose home holds it at rest. -/
def Sys2Proof.Claim.AtRest (s : State) (k n : Nat) : Prop :=
  keyTier k ≤ 1 ∧ k % 128 + n ≤ 128 ∧ (s.homes.get? (k / 128)).isSome = true ∧ (s.home (k / 128)).dir = {} ∧ s.ckptHolds k = false ∧
  s.liveHeader k n = none
/-- The bytes from k on have been written, and no other. -/
def Sys2Proof.Claim.Wrote (s t : State) (k : Nat) (bs : List Byte) : Prop :=
  ∀ a, t.byte a = if k ≤ a ∧ a < k + bs.length then (bs[a - k]?).getD 0 else s.byte a
/-- An entry of the matching table differs from another in STATE and ARRIVED alone. -/
def Sys2Proof.Claim.NmSame (e e' : BitVec 256) : Prop := ∀ i < 256, ¬(6 ≤ i ∧ i < 8) → ¬(32 ≤ i ∧ i < 64) → e'.getLsbD i = e.getLsbD i

/-- 17 R369, R370: a write of a word of an entry that is not ARMED leaves STATE and ARRIVED, and frees the entry when TAG becomes 0; one of an
ARMED entry is ignored. NM_ARM refuses an entry that breaks its layout, that conflicts with an armed one, or whose context has not 2 granules;
else it arms the entry, clears ARRIVED and reserves them. -/
def Sys2Proof.Claim.MatchingTable : Prop :=
  (∀ (s : State) (n w : Nat) (v : BitVec 64), n < 1024 → w < 4 →
    (nmArmed (s.nmEntry n) = true → exec (.nmEntryWrite n w v) s = .next s) ∧
    (nmArmed (s.nmEntry n) = false → ∃ e, exec (.nmEntryWrite n w v) s = .next (s.setNm n e) ∧ ∀ i < 256, e.getLsbD i =
      if 6 ≤ i ∧ i < 8 then (s.nmEntry n).getLsbD i && !decide (e.extractLsb' 64 32 = 0)
      else if 32 ≤ i ∧ i < 64 then (s.nmEntry n).getLsbD i
      else if 64 * w ≤ i ∧ i < 64 * w + 64 then v.getLsbD (i - 64 * w) else (s.nmEntry n).getLsbD i)) ∧
  (∀ (s : State) (v : BitVec 64) (raw : List Byte), let n := fld v.toNat 0 10
    let e := s.nmEntry n
    let free : State := { s with walks := s.walks.filter fun w => w.2.die != nmDie e }
    let read := (free.engineRead (nmDie e) (nmAsid e) (nmNode e) 64 .read false).2
    let node := (nmNode e).toNat % 64 = 0 ∧ read = .ok raw ∧ nodeHeaderOk (ofBytes raw) = true ∧
      (parseHeader (ofBytes raw)).recsz = 2
    let form := nmBuf e % 128 = 0 ∧ nmLen e ≠ 0 ∧ nmTag e ≠ 0 ∧ fld e.toNat 0 5 = 0
    let clash := fun (x : Nat × BitVec 256) => x.1 ≠ n ∧ nmArmed x.2 = true ∧ nmAsid x.2 = nmAsid e ∧ nmTag x.2 = nmTag e ∧
      (nmAny x.2 = true ∨ nmAny e = true ∨ nmSrc x.2 = nmSrc e)
    let answers := fun (r : BitVec 2) => exec (.nmArm v) s = .next (s.updLinks fun l => { l with nmStat := r })
    (¬ form ∨ (nmNode e).toNat % 64 ≠ 0 → answers 3) ∧
    (∀ f, read = .error f → answers 3) ∧
    (read = .ok raw → nodeHeaderOk (ofBytes raw) = false ∨ (parseHeader (ofBytes raw)).recsz ≠ 2 → answers 3) ∧
    (form → node → (∃ x ∈ s.links.nm, clash x) → answers 1) ∧
    (form → node → (∀ x ∈ s.links.nm, ¬ clash x) → nmArmed e = false → ∀ c, s.ctx (nmAsid e) = some c →
      (256 * c.poolsz < c.used + 2 → answers 2) ∧
      (c.used + 2 ≤ 256 * c.poolsz → ∃ t, exec (.nmArm v) s = .next t ∧ SameMem s t ∧ t.groups = s.groups ∧ NmSame e (t.nmEntry n) ∧ nmState (t.nmEntry n) = 1 ∧
        nmArrived (t.nmEntry n) = 0 ∧ t.links.nmStat = 0 ∧ (∀ m, m ≠ n → t.nmEntry m = s.nmEntry m) ∧ ∃ c', t.ctx (nmAsid e) = some c' ∧ c'.used = c.used + 2)))

/-- 17 R368, R371, R372: a piece is written at its home. Untagged, it is counted nowhere; one that no armed entry matches, or that lies outside the
buffer, adds to NM_MISS; else its entry's ARRIVED gains its length, and at LEN the record leaves and the entry becomes RELEASED, or reserves again
and goes on, or holds its later pieces until it can. An address that this module does not have is a fault. -/
def Sys2Proof.Claim.NetworkArrivals : Prop :=
  ∀ (s : State) (p : NetPiece),
    (keyMod p.key ≠ Config.selfModule ∨ 1 < keyTier p.key ∨ s.tierLimit (keyTier p.key) ≤ keyPa p.key →
      exec (.networkPieceArrive p) s = .fault (.noSuchAddress p.key)) ∧
    (AtRest s p.key p.bytes.length → s.ownMemory p.key = true → s.ownMemory (p.key + (p.bytes.length - 1)) = true → p.bytes ≠ [] →
      let len := p.bytes.length
      let arrives := fun (q : State → Prop) => ∃ t, exec (.networkPieceArrive p) s = .next t ∧ Wrote s t p.key p.bytes ∧ t.groups = s.groups ∧ q t
      let miss := fun (t : State) => t.links.nm = s.links.nm ∧ t.links.nmMiss = min (s.links.nmMiss + len) (2 ^ 64 - 1) ∧ t.inflight = s.inflight
      (s.links.nmHeld = [] → p.tag = 0 → arrives fun t => t.links = s.links ∧ t.inflight = s.inflight) ∧
      (s.links.nmHeld = [] → p.tag ≠ 0 → s.nmMatch p = none → arrives miss) ∧
      (∀ i, i < 1024 → s.nmMatch p = some i → p.tag ≠ 0 → nmArmed (s.nmEntry i) = true →
        let e := s.nmEntry i
        let inside := nmBuf e ≤ p.va.toNat ∧ p.va.toNat + len ≤ nmBuf e + nmLen e
        let a := nmArrived e + len
        let others := fun (t : State) => (∀ m, m ≠ i → t.nmEntry m = s.nmEntry m) ∧ NmSame e (t.nmEntry i)
        (s.links.nmHeld = [] → ¬ inside → arrives miss) ∧
        (s.links.nmHeld = [] → inside → a < nmLen e → arrives fun t => others t ∧ nmState (t.nmEntry i) = 1 ∧ nmArrived (t.nmEntry i) = a ∧ t.inflight = s.inflight) ∧
        (s.links.nmHeld = [] → inside → nmLen e ≤ a → ∀ c, s.ctx (nmAsid e) = some c →
          let sent := fun (t : State) => ∃ m, t.inflight = s.inflight.put s.inflight.next m ∧ m.die = nmDie e ∧ m.asid = nmAsid e ∧ m.node = nmNode e ∧ m.depth = 0 ∧
            m.src = 3 ∧ m.gran = 2 ∧ m.data.length = 32 ∧ ofBytes m.data = nmBuf e * 2 ^ 192 + nmLen e * 2 ^ 160 + a % 2 ^ 32 * 2 ^ 128 + (nmTag e).toNat * 2 ^ 96 + i * 2 ^ 86 +
              p.src.toNat * 2 ^ 80 + if nmLen e < a then 2 ^ 76 else 0
          (nmRearm e = false → arrives fun t => others t ∧ sent t ∧ nmState (t.nmEntry i) = 2 ∧ nmArrived (t.nmEntry i) = a % 2 ^ 32) ∧
          (nmRearm e = true → c.used + 2 ≤ 256 * c.poolsz → arrives fun t => others t ∧ sent t ∧ nmState (t.nmEntry i) = 1 ∧ nmArrived (t.nmEntry i) = 0 ∧
            t.links.nmHeld = [] ∧ ∃ c', t.ctx (nmAsid e) = some c' ∧ c'.used = c.used + 2) ∧
          (nmRearm e = true → 256 * c.poolsz < c.used + 2 → arrives fun t => others t ∧ sent t ∧ nmState (t.nmEntry i) = 1 ∧ nmArrived (t.nmEntry i) = 0 ∧ t.links.nmHeld = [i])) ∧
        (∀ c, i ∈ s.links.nmHeld → inside → s.ctx p.asid = some c → 256 * c.poolsz < c.used + 2 → exec (.networkPieceArrive p) s = .next s)))

/-- The matching table and arriving network pieces: the two parts stated as MatchingTable, NetworkArrivals. -/
def Obligations.NetworkMatching : Prop :=
  Sys2Proof.Claim.MatchingTable ∧ Sys2Proof.Claim.NetworkArrivals

/-- Function fn is bound, and n bytes at its offset translate to key k. -/
def Sys2Proof.Claim.HostAt (s : State) (fn : Nat) (off : BitVec 64) (n : Nat) (kind : AccKind) (k : Nat) : Prop :=
  let id := s.links.bindAsid.getD fn 0
  let va := s.links.bindBase.getD fn 0 + off
  fn ≤ 16 ∧ id.getLsbD 63 = true ∧ off.toNat + n ≤ 2 ^ 36 ∧ 0 < n ∧ va.toNat % 65536 + n ≤ 65536 ∧ va.toNat + n ≤ 2 ^ 52 ∧
  (findTlb (s.tlbDie.getD 1 []) (id.setWidth 16) va.toNat kind false).map (·.key) = some k ∧ keyMod k = Config.selfModule ∧ AtRest s k n

/-- 17 R361, R363, R391: a host write of no stream is performed as it comes; one of a stream is performed when its number is the stream's next, with
the held ones after it, held within the 32-write window, and dropped beyond it. A faulting write is dropped, with a FAULT event, and its stream
goes on. A read answers its bytes, or Unsupported Request. A function-level reset takes back the function's binding, streams and held writes. -/
def Obligations.HostPort : Prop :=
  (∀ (s : State) (fn k : Nat) (off : BitVec 64) (bs : List Byte), HostAt s fn off bs.length .write k →
    ∀ pfx, pfx = none ∨ (∃ q, pfx = some (0, q)) →
      ∃ t, exec (.hostWrite ⟨fn, pfx, off, bs⟩) s = .next t ∧ Wrote s t k bs ∧ t.links = s.links ∧ t.groups = s.groups) ∧
  (∀ (s : State) (fn : Nat) (S : BitVec 8) (q : BitVec 16) (off : BitVec 64) (bs : List Byte), fn ≤ 16 → S ≠ 0 →
    let key := 256 * fn + S.toNat
    let w : HeldWrite := { fn := fn, stream := S, seq := q, off := off, bytes := bs }
    (31 < (q - s.nextSeq key).toNat →
      exec (.hostWrite ⟨fn, some (S, q), off, bs⟩) s = .next (s.updLinks fun l => { l with hsDrop := min (l.hsDrop + 1) (2 ^ 64 - 1) })) ∧
    (s.links.held = [] → q ≠ s.nextSeq key → (q - s.nextSeq key).toNat ≤ 31 →
      exec (.hostWrite ⟨fn, some (S, q), off, bs⟩) s = .next (s.updLinks fun l => { l with held := [w] })) ∧
    (∀ k, s.links.held = [] → q = s.nextSeq key → HostAt s fn off bs.length .write k →
      ∃ t, exec (.hostWrite ⟨fn, some (S, q), off, bs⟩) s = .next t ∧ Wrote s t k bs ∧ t.links.held = [] ∧ t.nextSeq key = q + 1 ∧ t.groups = s.groups ∧
        ∀ j, j ≠ key → t.nextSeq j = s.nextSeq j) ∧
    (∀ k k2 w2, w2.fn = fn → w2.stream = S → w2.seq = q + 1 → s.links.held = [w2] → q = s.nextSeq key → HostAt s fn off bs.length .write k →
      HostAt s fn w2.off w2.bytes.length .write k2 →
      ∃ t u, exec (.hostWrite ⟨fn, some (S, q), off, bs⟩) s = .next t ∧ Wrote s u k bs ∧ Wrote u t k2 w2.bytes ∧ t.links.held = [] ∧ t.nextSeq key = q + 2) ∧
    ((s.links.bindAsid.getD fn 0).getLsbD 63 = false → s.links.held = [] → q = s.nextSeq key → (s.die 0).evqBase = 0 →
      ∃ t, exec (.hostWrite ⟨fn, some (S, q), off, bs⟩) s = .next t ∧ SameMem s t ∧ t.groups = s.groups ∧ t.nextSeq key = q + 1 ∧
        ∃ raw, t.evWait = s.evWait ++ [raw] ∧ raw.die = 0 ∧ fld raw.raw.toNat 0 4 = 1 ∧ fld raw.raw.toNat 24 8 = 0xFF ∧ fld raw.raw.toNat 72 8 = 4)) ∧
  (∀ (s : State) (fn k n : Nat) (off : BitVec 64), HostAt s fn off n .read k → (∀ m ∈ s.msgs, m.2.line ≠ k / 128) → s.poisoned k n = false →
    ∃ p, exec (.hostRead fn off n) s = .next (({ s with devPts := p } : State).updLinks fun l => { l with hostReads := l.hostReads ++ [(fn, some ((List.range n).map fun i => s.byte (k + i)))] })) ∧
  (∀ (s : State) (fn n : Nat) (off : BitVec 64), fn ≤ 16 → (s.links.bindAsid.getD fn 0).getLsbD 63 = false ∨ 2 ^ 36 < off.toNat + n →
    exec (.hostRead fn off n) s = .next (s.updLinks fun l => { l with hostReads := l.hostReads ++ [(fn, none)] })) ∧
  (∀ s : State, ∃ t, exec .functionLevelReset s = .next t ∧ SameMem s t ∧ t.groups = s.groups ∧ t.harts = s.harts ∧
    (∀ f, t.links.bindAsid.getD f 0 = if f = s.hand then 0 else s.links.bindAsid.getD f 0) ∧
    (∀ f, t.links.bindBase.getD f 0 = if f = s.hand then 0 else s.links.bindBase.getD f 0) ∧
    (∀ f S, S < 256 → t.nextSeq (256 * f + S) = if f = s.hand then 0 else s.nextSeq (256 * f + S)) ∧
    t.links.held = s.links.held.filter fun w => w.fn != s.hand)

/-- The request in hand waits for an answer that LINK_WAIT is over for, for one lane of an instruction in flight. -/
def Sys2Proof.Claim.Late (s : State) (r : HomeReq) (k gio lane : Nat) (g : Group) (o : Op) (a : LaneAcc) : Prop :=
  s.reqs.get? s.hand = some r ∧ r.answer = none ∧ r.who = .op k gio lane ∧ (∃ x y, r.kind = .load x y ∨ r.kind = .fill x y) ∧ r.due ≤ s.cycle ∧
  s.group? k = some g ∧ g.stop = none ∧ g.op? gio = some o ∧ o.accs = [a] ∧ a.phase = .atHome s.hand ∧ a.lane = lane ∧
  s.waits = []

/-- 17 R360, R362, R366, R374: a port's state changes the modules that answer, and the writes held for one that answers now are sent. A read of an
unreachable peer is logged as PEER_ABSENT, with its location, when LINK_WAIT is over, one of the pool or of host memory returns poisoned data; before then it waits. -/
def Sys2Proof.Claim.PortsAndTimeouts : Prop :=
  (∀ (s : State) (p : Nat) (st : BitVec 2) (reach : BitVec 64),
    (12 ≤ p ∨ st = 3 → exec (.portStateChange p st reach) s = .next s) ∧
    (p < 12 → st ≠ 3 → s.links.held = [] →
      let changes := fun (q : State → Prop) => ∃ t, exec (.portStateChange p st reach) s = .next t ∧ t.links.reach = reach ∧
        (∀ i < 24, t.links.portStat.getLsbD i = if 2 * p ≤ i ∧ i < 2 * p + 2 then st.getLsbD (i - 2 * p) else s.links.portStat.getLsbD i) ∧ t.groups = s.groups ∧ q t
      (s.links.out = [] → changes fun t => SameMem s t ∧ t.links.out = []) ∧
      (∀ w, s.links.out = [w] → keyMod w.key = w.peer → w.peer < 64 → w.peer ≠ Config.selfModule → w.bytes ≠ [] → AtRest s w.key w.bytes.length →
        (reach.getLsbD w.peer = true → changes fun t => Wrote s t w.key w.bytes ∧ t.links.out = []) ∧
        (reach.getLsbD w.peer = false → changes fun t => SameMem s t ∧ t.links.out = [w])))) ∧
  (∀ (s : State) (r : HomeReq) (k gio lane : Nat) (g : Group) (o : Op) (a : LaneAcc), Late s r k gio lane g o a →
    (s.reachable (keyMod (r.line * 128)) = false → ∃ t g' o', exec .peerReadTimeout s = .next t ∧ t.reqs.get? s.hand = none ∧ t.group? k = some g' ∧ g'.op? gio = some o' ∧
      o'.accs = [{ a with phase := .faulted (absentAt (r.line * 128)) }] ∧ g'.v = g.v ∧ g'.s = g.s ∧ g'.p = g.p ∧ g'.stop = none ∧
      (∀ e, o.place = .free → s.freeEntry (coreOf k) = some e → g.loggedOps.length < 8 → o'.place = .logged e ∧ (t.core (coreOf k)).log.get? e = some k)) ∧
    (s.reachable (keyMod (r.line * 128)) = true → exec .peerReadTimeout s = .next s) ∧
    (∀ i tier, (i = .tier5ReadTimeout ∧ tier = 5) ∨ (i = .poolReadTimeout ∧ tier = 2) →
      (keyTier (r.line * 128) = tier → ∃ t g' st, exec i s = .next t ∧ t.reqs.get? s.hand = none ∧ t.group? k = some g' ∧ g'.stop = some st ∧ st.cause = 0x13 ∧
        st.pc = o.pc ∧ st.idx = o.idx ∧ st.vaddr = a.ea ∧ st.gio = some gio ∧ (lane < 64 → ∀ l < 64, st.lanes.getLsbD l = decide (l = lane)) ∧ (∀ y ∈ g'.splits, y.st = .stopped) ∧
        g'.v = g.v ∧ g'.s = g.s ∧ g'.p = g.p) ∧
      (keyTier (r.line * 128) ≠ tier → exec i s = .next s))) ∧
  (∀ (s : State) (r : HomeReq), s.reqs.get? s.hand = some r → s.cycle < r.due →
    exec .peerReadTimeout s = .next s ∧ exec .tier5ReadTimeout s = .next s ∧ exec .poolReadTimeout s = .next s) ∧
  (∀ s : State, ∃ t, exec .poolWriteCompletion s = .next t ∧ SameMem s t ∧ t.groups = s.groups ∧
    ∀ n, t.links.poolOut.get? n = if n = s.hand then none else s.links.poolOut.get? n)

/-- 16 R340, R356, R357: a corrected error changes nothing; an uncorrectable one marks its 32-byte sector, with POISON_FOUND where a scrub found it,
and stops the owner of a register, a tile or an accumulator with DATA_POISON. No byte of memory changes. -/
def Sys2Proof.Claim.SoftErrors : Prop :=
  ∀ s : State,
    (∀ k, exec (.eccCorrected k) s = .next s) ∧
    (∀ k scrub, keyMod k = Config.selfModule → s.tierLimit (keyTier k) ≤ keyPa k → exec (.eccUncorrectable (.sector k scrub)) s = .fault (.noSuchAddress k)) ∧
    (∀ k scrub, keyMod k = Config.selfModule → keyPa k < s.tierLimit (keyTier k) → (scrub = true → (s.die (homeDie (k / 32 * 32))).evqBase = 0) →
      ∃ t, exec (.eccUncorrectable (.sector k scrub)) s = .next t ∧ SameMem s t ∧ t.groups = s.groups ∧
        (∀ a, t.poisoned a 1 = (s.poisoned a 1 || decide (a / 32 = k / 32))) ∧ t.evWait.length = s.evWait.length + if scrub = true then 1 else 0) ∧
    (∀ k item g x, s.group? k = some g → g.splits.head? = some x → g.stop = none → (s.die (dieOfCore (coreOf k))).evqBase = 0 →
      ∃ t g' st, exec (.eccUncorrectable (.group k item)) s = .next t ∧ SameMem s t ∧ t.group? k = some g' ∧ g'.stop = some st ∧ st.cause = 0x13 ∧ st.pc = x.pc ∧
        st.idx = x.idx ∧ st.lanes = x.mask ∧ st.arg1 = item ∧ (∀ y ∈ g'.splits, y.st = .stopped) ∧ g'.v = g.v ∧ g'.s = g.s ∧ g'.p = g.p) ∧
    (∀ q item x, s.seq? q = some x → (s.die (dieOfCore (q / 4))).evqBase = 0 →
      ∃ t x' st, exec (.eccUncorrectable (.seq q item)) s = .next t ∧ SameMem s t ∧ t.groups = s.groups ∧ t.seq? q = some x' ∧ x'.stop = some st ∧ st.cause = 0x13 ∧
        st.pc = x.pc ∧ x'.q = x.q ∧ x'.t = x.t ∧ x'.pc = x.pc)

/-- Ports, timeouts of links, and soft errors: the two parts stated as PortsAndTimeouts, SoftErrors. -/
def Obligations.LinksAndErrors : Prop :=
  Sys2Proof.Claim.PortsAndTimeouts ∧ Sys2Proof.Claim.SoftErrors


/-! ### Boot, attestation, power and checkpoint (18 R375 to R382; 15 R335) -/

/-- The state without memory, poison, the schedule and the platform. -/
def Sys2Proof.Claim.machineOnly (s : State) : State := { s with mem := [], poison := [], turns := [], fresh := 0, plat := {}, links := {} }
/-- An image that the ROM accepts (18 R375, R377). -/
def Sys2Proof.Claim.Accepted (fuse : BitVec 16) (i : ImageFacts) : Prop := i.readOk = true ∧ i.ecdsaOk = true ∧ i.lmsOk = true ∧ fuse.toNat ≤ i.version.toNat
/-- A byte of the module's own tier. -/
def Sys2Proof.Claim.ofTier (n a : Nat) : Prop := keyMod a = Config.selfModule ∧ keyTier a = n

/-- COMPUTE_RESET, POWER_LOSS and MODULE_RESET complete: from every state exec answers a next state, the one stated. 18 R375 to R377, R382: a
compute reset leaves the safe tier's bytes and a loss of power those of neither tier (log 4); every agent and register is
at its reset value. A module reset boots image A, or image B, whose signatures both verify and whose version is not below the fuses' counter: BOOTST
names the image and step 4, FWVER of both dies holds its version, the measurements hold its digest, and every service core enters it in M mode;
failed training gives BOOTST CODE 1 and two bad images CODE 2, and no service core runs. Step 5, reported through BOOTST, enables the SIMT cores. -/
def Sys2Proof.Claim.BootAndReset : Prop :=
  ∀ s : State,
    (∃ t, exec .computeReset s = .next t ∧ machineOnly t = machineOnly State.reset ∧ t.links = State.reset.links ∧ t.plat = { fuse := s.plat.fuse, intact := true } ∧
      ∀ a, (ofTier 0 a → t.byte a = 0) ∧ (¬ ofTier 0 a → t.byte a = s.byte a)) ∧
    (∃ t, exec .powerLoss s = .next t ∧ machineOnly t = machineOnly State.reset ∧ t.links = State.reset.links ∧ t.plat = { fuse := s.plat.fuse } ∧
      ∀ a, (ofTier 0 a ∨ ofTier 1 a → t.byte a = 0) ∧ (¬ ofTier 0 a → ¬ ofTier 1 a → t.byte a = s.byte a)) ∧
    (∀ b : BootFacts, ∃ t, exec (.moduleReset b) s = .next t ∧ t.groups = [] ∧ t.teams = [] ∧ t.homes = [] ∧ t.ctxs = [] ∧ t.links.pool = b.pool ∧ t.links.reach = 0 ∧
      t.plat.simt = false ∧ t.plat.fuse = s.plat.fuse ∧
      (∀ a, (ofTier 0 a ∨ (ofTier 1 a ∧ s.plat.intact = false) → t.byte a = 0) ∧ (¬ ofTier 0 a → (ofTier 1 a → s.plat.intact = true) → t.byte a = s.byte a)) ∧
      let boots := fun (n : Nat) (i : ImageFacts) => t.plat.bootst = BitVec.ofNat 64 (256 * n + 0x40) ∧ (∀ d < 2, (t.die d).fwver = i.version) ∧
        t.plat.meas.getD 2 0 = i.digest ∧ t.plat.meas.getD 4 0 = s.plat.fuse.setWidth 384 ∧
        ∀ h < 24, (t.hart h).pc = b.entry ∧ (t.hart h).mode = .m ∧ (t.hart h).running = true
      let stays := fun (code : BitVec 64) => t.plat.bootst &&& 0xF0F = code ∧ ∀ h, (t.hart h).running = false
      (b.trained = false → t.plat.bootst = 0x11 ∧ ∀ h, (t.hart h).running = false) ∧
      (b.trained = true → Accepted s.plat.fuse b.imageA → boots 1 b.imageA) ∧
      (b.trained = true → ¬ Accepted s.plat.fuse b.imageA → Accepted s.plat.fuse b.imageB → boots 2 b.imageB) ∧
      (b.trained = true → ¬ Accepted s.plat.fuse b.imageA → ¬ Accepted s.plat.fuse b.imageB → stays 2)) ∧
    (∀ v : BitVec 64, let image := fld s.plat.bootst.toNat 8 4
      (v.extractLsb' 0 4 = 3 → image ≠ 0 →
        exec (.registerWrite 0x3010 8 v) s = .next (s.updPlat fun p => { p with bootst := BitVec.ofNat 64 (256 * image + 0x53), simt := true })) ∧
      (v.extractLsb' 0 4 ≠ 3 ∨ image = 0 → exec (.registerWrite 0x3010 8 v) s = .next s))

/-- GET_VERSION, GET_CAPABILITIES, NEGOTIATE_ALGORITHMS, GET_DIGESTS, GET_CERTIFICATE, CHALLENGE and GET_MEASUREMENTS complete: in every state
exec answers a next state, with the response where one is due. 18 R375, R378 (the request codes and what signs a response are log 14's): a module that runs an image answers the seven requests in the order
that SPDM gives them, and agrees to ECDSA P-384 with SHA-384 alone; in recovery it answers GET_VERSION, GET_CAPABILITIES and GET_MEASUREMENTS
only, the last with the failure; while it boots, and after failed training, it answers none. -/
def Sys2Proof.Claim.Attestation : Prop :=
  ∀ s : State,
    let p := s.plat
    let image := p.bootst.extractLsb' 8 4
    let code := p.bootst.extractLsb' 0 4
    let answers := fun (i : Instr) (c : Nat) (x : Nat) (f : Platform → Platform) =>
      exec i s = .next (s.updPlat fun p => { f p with spdm := p.spdm ++ [(c, x)] })
    let silent := fun (i : Instr) => exec i s = .next s
    let all := fun (q : Instr → Prop) => q .getDigests ∧ (∀ a o l, q (.getCertificate a o l)) ∧ (∀ a n, q (.challenge a n))
    (image ≠ 0 ∨ code = 2 →
      answers .getVersion 0x84 0x12 (fun p => { p with spdmVersion := true, spdmCaps := false, spdmAlgs := false }) ∧
      (p.spdmVersion = true → ∃ x, answers .getCapabilities 0xE1 x fun p => { p with spdmCaps := true }) ∧ (p.spdmVersion = false → silent .getCapabilities)) ∧
    (image ≠ 0 → p.spdmVersion = true → p.spdmCaps = true → ∀ e h : Bool,
      answers (.negotiateAlgorithms e h) 0xE3 (if e = true ∧ h = true then 1 else 0) fun p => { p with spdmAlgs := e && h }) ∧
    (image ≠ 0 → p.spdmVersion = true → p.spdmCaps = true → p.spdmAlgs = true →
      (∃ x, answers .getDigests 0x81 x id) ∧ (∀ a o l, ∃ x, answers (.getCertificate a o l) 0x82 x id) ∧ (∀ a n, ∃ x, answers (.challenge a n) 0x83 x id) ∧
      (code ≠ 2 → ∀ i sign n, ∃ x, answers (.getMeasurements i sign n) 0xE0 x id ∧ (i = 0 → x % 2 ^ 384 = 4) ∧ (i = 3 → x % 2 ^ 384 = (s.die 0).fwver.toNat) ∧
        (i ≠ 0 → i ≠ 3 → x % 2 ^ 384 = (p.meas.getD i 0).toNat) ∧
        (sign = false → x < 2 ^ 384))) ∧
    (p.spdmAlgs = false → image ≠ 0 → all silent ∧ (code ≠ 2 → ∀ i sg n, silent (.getMeasurements i sg n))) ∧
    (image = 0 → all silent ∧ (∀ e h, silent (.negotiateAlgorithms e h)) ∧
      (code ≠ 2 → silent .getVersion ∧ silent .getCapabilities ∧ ∀ i sg n, silent (.getMeasurements i sg n))) ∧
    (code = 2 → ∀ i sg n, answers (.getMeasurements i sg n) 0xE0 p.bootst.toNat id)

/-- Reset, boot and attestation (as inputs, logs 13 and 14): the two parts stated as BootAndReset, Attestation. -/
def Obligations.BootAndAttestation : Prop :=
  Sys2Proof.Claim.BootAndReset ∧ Sys2Proof.Claim.Attestation

/-- 15 R335, 18 R379: each completed phase of a team barrier, over teams of one command on more than one cluster, counts once in that command's
window; after 8 the cluster that was last in
at least 6 gains a step, which the cluster of its die that was first most often gives, within 4 steps of 1.05 GHz; PWRCTL's bit 0 holds every cluster
there. While issue slots are withheld, whether the module's limit lets the steps shift is free (log 59). Withholding them changes timing alone. -/
def Sys2Proof.Claim.Power : Prop :=
  ∀ s : State,
    (∀ on, exec (.powerCapThrottle on) s = .next (s.updPlat fun p => { p with throttled := on })) ∧
    (s.plat.phases = [] → exec .powerShift s = .next s) ∧
    (∀ v : BitVec 64, ∃ t, exec (.registerWrite 0x3000 8 v) s = .next t ∧ SameMem s t ∧ t.groups = s.groups ∧ t.plat.pwrctl = v &&& 1 ∧
      ∀ c, t.plat.steps.getD c 4 = if v.getLsbD 0 = true then s.plat.steps.getD c 4 else 4) ∧
    (∀ n b ph c1 c2, s.plat.phases = [(n, b, ph, c1), (n, b, ph, c2)] →
      let shifts := fun (q : Platform → Prop) => ∃ t, exec .powerShift s = .next t ∧ SameMem s t ∧ t.groups = s.groups ∧ t.teams = s.teams ∧ t.plat.phases = [] ∧ q t.plat
      let p := s.plat
      let step := fun (p : Platform) (c : Nat) => p.steps.getD c 4
      let w := p.windows.getD n {}
      let others := fun (p' : Platform) => ∀ m, m ≠ n → p'.windows.get? m = p.windows.get? m
      ((∃ e ∈ s.teams, e.2.cmd = some n ∧ (BitVec.ofNat 16 ph - (e.2.bar b).ph).toNat < 2 ^ 15) → exec .powerShift s = .next s) ∧
      ((∀ e ∈ s.teams, e.2.cmd ≠ some n) → (∀ e ∈ s.outTeams, e.team.cmd ≠ some n) →
        (c1 = c2 ∨ p.pwrctl.getLsbD 0 = false → shifts fun p' => p'.windows = p.windows ∧ p'.steps = p.steps) ∧
        (c1 ≠ c2 → p.pwrctl.getLsbD 0 = true → w.window < 7 → shifts fun p' => p'.steps = p.steps ∧ others p' ∧ ∃ w', p'.windows.get? n = some w' ∧
          w'.window = w.window + 1 ∧ (∀ c, w'.firsts.getD c 0 = w.firsts.getD c 0 + if c = c1 then 1 else 0) ∧
          ∀ c, w'.lasts.getD c 0 = w.lasts.getD c 0 + if c = c2 then 1 else 0) ∧
        (∀ i j, c1 ≠ c2 → p.pwrctl.getLsbD 0 = true → w.window = 7 → w.firsts = [(c1, i)] → w.lasts = [(c2, j)] →
          shifts fun p' => p'.windows.get? n = none ∧ others p' ∧ ∀ c, step p' c =
            if s.mayShift = true ∧ 5 ≤ j ∧ c1 / 18 = c2 / 18 ∧ step p c2 < 8 ∧ 0 < step p c1 then
              (if c = c1 then step p c1 - 1 else if c = c2 then step p c2 + 1 else step p c) else step p c)))

/-- The first byte of what a checkpoint copies, and of where it goes (18 R380). -/
def Sys2Proof.Claim.ckptFrom (save : Bool) (r : Nat) : Nat := if save then 0 else 2 ^ 52 + r * 2 ^ 39
def Sys2Proof.Claim.ckptTo (save : Bool) (r : Nat) : Nat := if save then 2 ^ 52 + r * 2 ^ 39 else 0
/-- The copy has been made: 2^39 bytes with their poison marks, and no other byte. -/
def Sys2Proof.Claim.Copied (s t : State) (save : Bool) (r : Nat) : Prop :=
  ∀ a, let moved := ckptTo save r ≤ a ∧ a < ckptTo save r + 2 ^ 39
    t.byte a = (if moved then s.byte (a - ckptTo save r + ckptFrom save r) else s.byte a) ∧
    t.poisoned a 1 = (if moved then s.poisoned (a - ckptTo save r + ckptFrom save r) 1 else s.poisoned a 1)

/-- 18 R380, R381: a checkpoint command is ignored while one is BUSY, and ends at once with BAD_CMD for a field that must be zero, with ACTIVE_WORK while
teams, requests, rays or a started DISPATCH are there, and with BUNDLES while a home holds a pending line; else it is BUSY, with every later lease
passed, until its copy is complete. Writes to tier 0 and to its region wait for that, and a poisoned sector goes with its mark and gives POISON. -/
def Sys2Proof.Claim.Checkpoint : Prop :=
  (∀ (s : State) (save : Bool) (seq r : Nat) (v : BitVec 64), seq < 256 → r < 4 →
    let i := fun (v : BitVec 64) => if save = true then Instr.ckptSave v else Instr.ckptRestore v
    let op := if save = true then 1 else 2
    let good : BitVec 64 := BitVec.ofNat 64 (r * 2 ^ 39 + seq * 16 + op)
    let ends := fun (st : BitVec 3) => exec (i good) s = .next (s.updPlat fun p => { p with ckptSeq := BitVec.ofNat 8 seq, ckptStatus := st })
    let working := s.teams ≠ [] ∨ s.copies ≠ [] ∨ s.rays ≠ [] ∨ ∃ e ∈ s.cmds, e.2.started = true ∧ e.2.done = false ∧ fld e.2.raw.toNat 0 4 = 1
    (fld v.toNat 0 2 ≠ op → exec (i v) s = .next s) ∧
    (s.plat.ckptStatus = 1 → exec (i v) s = .next s) ∧
    (s.plat.ckptStatus ≠ 1 → fld v.toNat 0 2 = op → fld v.toNat 41 23 ≠ 0 ∨ fld v.toNat 12 27 ≠ 0 ∨ fld v.toNat 2 2 ≠ 0 →
      exec (i v) s = .next (s.updPlat fun p => { p with ckptSeq := v.extractLsb' 4 8, ckptStatus := 2 })) ∧
    (s.plat.ckptStatus ≠ 1 → working → ends 3) ∧
    (s.plat.ckptStatus ≠ 1 → ¬ working → (∃ e ∈ s.homes, e.2.pend ≠ []) → ends 4) ∧
    (s.plat.ckptStatus ≠ 1 → ¬ working → (∀ e ∈ s.homes, e.2.pend = [] ∧ e.2.dir = {} ∧ keyTier (e.1 * 128) ≠ 2) → clean s →
      ∃ t, exec (i good) s = .next t ∧ SameMem s t ∧ t.groups = s.groups ∧ t.plat.ckptStatus = 1 ∧ t.plat.ckptSeq = BitVec.ofNat 8 seq ∧ t.plat.ckpt = some (save, r) ∧
        ∀ line h, s.homes.get? line = some h → line < 2 ^ 32 → ∀ c < 144, h.rts < t.pts c)) ∧
  (∀ s : State, s.plat.ckpt = none → exec .ckptDone s = .next s) ∧
  (∀ (s : State) (save : Bool) (r : Nat), s.plat.ckpt = some (save, r) → r < 4 → s.links.held = [] → clean s → (∀ a, s.ckptHolds a = true ↔ ofTier 0 a ∨ (ofTier 1 a ∧ keyPa a / 2 ^ 39 = r)) ∧
    (s.plat.ckptHeld = [] → (∀ a, ckptFrom save r ≤ a → a < ckptFrom save r + 2 ^ 39 → s.poisoned a 1 = false) →
      ∃ t, exec .ckptDone s = .next t ∧ Copied s t save r ∧ t.groups = s.groups ∧ t.plat.ckptStatus = 0 ∧ t.plat.ckpt = none) ∧
    (∀ m, s.plat.ckptHeld = [] → s.poison = [(m, ())] → ckptFrom save r ≤ 32 * m → 32 * m < ckptFrom save r + 2 ^ 39 → (s.die (homeDie (32 * m))).evqBase = 0 →
      ∃ t, exec .ckptDone s = .next t ∧ Copied s t save r ∧ t.plat.ckptStatus = 5 ∧ t.plat.ckpt = none ∧ t.evWait.length = s.evWait.length + 1) ∧
    (∀ k bs, s.plat.ckptHeld = [(k, bs)] → s.poison = [] → bs ≠ [] → keyMod k = Config.selfModule → AtRest { s with plat := { s.plat with ckpt := none } } k bs.length →
      ∃ u t, exec .ckptDone s = .next t ∧ Copied s u save r ∧ Wrote u t k bs ∧ t.plat.ckptHeld = [] ∧ t.plat.ckptStatus = 0) ∧
    (∀ (fn k : Nat) (off : BitVec 64) (bs : List Byte), HostAt { s with plat := { s.plat with ckpt := none } } fn off bs.length .write k → s.ckptHolds k = true →
      ∃ t, exec (.hostWrite ⟨fn, none, off, bs⟩) s = .next t ∧ SameMem s t ∧ t.plat.ckptHeld = s.plat.ckptHeld ++ [(k, bs)]))

/-- Power shifts and the checkpoint: the two parts stated as Power, Checkpoint. -/
def Obligations.PowerAndCheckpoint : Prop :=
  Sys2Proof.Claim.Power ∧ Sys2Proof.Claim.Checkpoint


/-! ### Rays (14 R292 to R318) -/

/-- A ray command of a team with an empty Geode queue, not guarded, whose scene the Geode holds for a ray in flight. -/
def Sys2Proof.Claim.RayScene (s : State) (k : Nat) (g : Group) (x : Split) (tm : Team) (o : RayOp) (c : Machine.Scene) : Prop :=
  s.issuer? = some (k, g, x) ∧ s.team? g.team = some tm ∧ idle s g ∧ clean s ∧ g.stop = none ∧ (s.readS g o.a.toNat).toNat % 256 = 0 ∧
  s.scene? tm.asid (s.readS g o.a.toNat) = some c ∧ (∃ e ∈ s.rays, e.2.asid = tm.asid ∧ e.2.scene = s.readS g o.a.toNat) ∧ tm.rays = [] ∧ o.slot = none ∧
  s.switchedOut tm.asid (k / 256) = false
/-- Such a command of one lane. -/
def Sys2Proof.Claim.RayLane (s : State) (k : Nat) (g : Group) (x : Split) (tm : Team) (o : RayOp) (l : Nat) (c : Machine.Scene) : Prop :=
  RayScene s k g x tm o c ∧ l < 64 ∧ ∀ i < 64, (s.active g x o.g).getLsbD i = decide (i = l)
/-- A Geode's write of n bytes for a ray finds its translation. -/
def Sys2Proof.Claim.GeoPuts (s : State) (r : Ray) (va : Addr) (n : Nat) : Prop :=
  inWindow va n = false ∧ va.toNat % 65536 + n ≤ 65536 ∧ va.toNat + n ≤ 2 ^ 52 ∧
  ((Near.hit s (s.nearOf r.team) r.asid va.toNat n .write false).or (findTlb (s.tlbDie.getD (dieOfCluster r.cluster) []) r.asid va.toNat .write false)).isSome = true
/-- Where a ray's slot, and its scene's slot allocator, lie. -/
def Sys2Proof.Claim.slotVa (c : Machine.Scene) (r : Ray) : Addr := BitVec.ofNat 64 ((c.f.raypool + 128 * r.idx) % 2 ^ 64)
def Sys2Proof.Claim.gprivVa (r : Ray) : Addr := BitVec.ofNat 64 ((r.scene.toNat + 8) % 2 ^ 64)
/-- A ray of a scene, by its slot. -/
def Sys2Proof.Claim.OfScene (r : Ray) (asid : BitVec 16) (va : Addr) : Prop := r.asid = asid ∧ r.scene = va
/-- Fields of a ray record (14 R298). -/
def Sys2Proof.Claim.rayField (r : Ray) (lo n : Nat) : Nat := fld r.data.toNat lo n

/-- 14 R298, R314, R315: TRACE traps with SCENE_BAD for a scene that is not 256-byte aligned or whose header fails the checks of R293, with no active lane too, and with NODE_DEPTH for a
lane too deep, in no lane. A lane with bad values answers 0xFFFFFFFD, with no free slot 0xFFFFFFFF, with fewer than 20 granules 0xFFFFFFFE; else it
takes a free slot (which one is free, log 74) and 20 granules, and answers the slot. With no active lane nothing else happens. A command whose
guard has not resolved TRUE enters flight, and raises and reads nothing (07 R170). -/
def Sys2Proof.Claim.Traces : Prop :=
  (∀ (s : State) (k : Nat) (g : Group) (x : Split) (o : RayOp) (i : Instr), i = .trace o ∨ i = .cont o ∨ i = .contEnd o → s.issuer? = some (k, g, x) →
    let act := s.active g x o.g
    (∀ tm c, act = 0 → RayScene s k g x tm o c → Flies s k g i 0 (fun t p => p.performed = true ∧ t.rays = s.rays) (exec i s)) ∧
    (g.stop = none → o.slot = none → (s.readS g o.a.toNat).toNat % 256 ≠ 0 →
      Stops s k g { cause := 0x11, detail := BitVec.ofNat 8 x.idx, pc := x.pc, idx := x.idx, lanes := if act = 0 then x.mask else act } (exec i s)) ∧
    (∀ tm h, g.stop = none → o.slot = none → s.team? g.team = some tm → idle s g → clean s → (s.readS g o.a.toNat).toNat % 256 = 0 →
      s.sceneInUse tm.asid (s.readS g o.a.toNat) = false → s.locate k g x.xfaults (s.readS g o.a.toNat) 256 .read = .at h → h.key % 128 = 0 →
      Quiet s (coreOf k) (h.key / 128) → Quiet s (coreOf k) (h.key / 128 + 1) → Machine.sceneOk (cell s.byte h.key 256) = false →
      Stops s k g { cause := 0x11, detail := BitVec.ofNat 8 x.idx, pc := x.pc, idx := x.idx, lanes := if act = 0 then x.mask else act } (exec i s)) ∧
    (∀ tm, s.team? g.team = some tm → idle s g → clean s → act ≠ 0 → s.guardCode g.team o.slot ≠ 2 →
      Flies s k g i act (fun t p => p.performed = false ∧ t.rays = s.rays) (exec i s))) ∧
  (∀ (s : State) (k l : Nat) (g : Group) (x : Split) (tm : Team) (o : RayOp) (c : Machine.Scene), RayLane s k g x tm o l c →
    let act := s.active g x o.g
    let va := s.readS g o.a.toNat
    let w := fun i => s.readV g (o.b.toNat + i) l
    let ctl := (w 9).toNat
    let node := (c.f.shnode[ctl % 16]?).getD 0
    let d := s.laneDepth g l + 1
    let deep := node ≠ 0 ∧ (c.maxDepth node < d ∨ (c.f.fnode ≠ 0 ∧ c.maxDepth c.f.fnode < d))
    let bad := ctl / 64 ≠ 0 ∨ node = 0 ∨ (∃ i < 6, rFinite (w i) = false) ∨ (∀ i < 3, rZero (w (3 + i)) = true) ∨ rFinite (w 6) = false ∨ rLt (w 6) 0 = true ∨
      rLt (w 6) (w 7) = false
    let used := fun (i : Nat) => ∃ e ∈ s.rays, OfScene e.2 tm.asid va ∧ e.2.idx = i
    let lane := fun (v : Nat) => Flies s k g (.trace o) act (fun t p => p.performed = true ∧ p.accs.map (·.phase) = [.done v] ∧ t.rays = s.rays) (exec (.trace o) s)
    (deep → Stops s k g { cause := 0x10, detail := BitVec.ofNat 8 x.idx, pc := x.pc, idx := x.idx, lanes := act } (exec (.trace o) s)) ∧
    (¬ deep → bad → lane 0xFFFFFFFD) ∧
    (¬ deep → ¬ bad → (∀ i < c.f.nslot, used i) → lane 0xFFFFFFFF) ∧
    (∀ ctx, ¬ deep → ¬ bad → (∃ i < c.f.nslot, ¬ used i) → s.ctx tm.asid = some ctx →
      (256 * ctx.poolsz < ctx.used + 20 → lane 0xFFFFFFFE) ∧
      (ctx.used + 20 ≤ 256 * ctx.poolsz → s.waits = [] → inWindow (va + 8) 8 = false → (∀ i < c.f.nslot, inWindow (BitVec.ofNat 64 ((c.f.raypool + 128 * i) % 2 ^ 64)) 64 = false) →
        ∃ i t g' p r ctx', i < c.f.nslot ∧ ¬ used i ∧ exec (.trace o) s = .next t ∧ t.group? k = some g' ∧ g'.op? g.gio = some p ∧ p.performed = true ∧
          p.accs.map (·.phase) = [.done i] ∧
          g'.v = g.v ∧ g'.s = g.s ∧ g'.p = g.p ∧ t.ctx tm.asid = some ctx' ∧ ctx'.used = ctx.used + 20 ∧ t.rays.get? s.rays.next = some r ∧
          OfScene r tm.asid va ∧ r.idx = i ∧ r.cluster = k / 256 ∧ r.gran = 20 ∧
          (∀ j < 3, rayField r (256 + 32 * j) 32 = (w j).toNat ∧ rayField r (352 + 32 * j) 32 = (w (3 + j)).toNat) ∧ rayField r 448 32 = (w 6).toNat ∧
          rayField r 480 32 = (w 7).toNat ∧ rayField r 224 32 = (w 8).toNat ∧ rayField r 192 32 = 0xFF800000 ∧ rayField r 128 64 = 0 ∧ rayField r 96 32 = (w 6).toNat ∧
          rayField r 23 73 = 0 ∧ rayField r 17 6 = d % 64 ∧ rayField r 14 3 = 0 ∧ rayField r 11 3 = 1 ∧ rayField r 10 1 = 0 ∧ rayField r 9 1 = ctl / 32 % 2 ∧
          rayField r 8 1 = ctl / 16 % 2 ∧ rayField r 4 4 = ctl % 16)))

/-- 14 R316: a CONT answers 2 for a RAYID that is not below NSLOT and sends its other lanes to the Geodes that hold their rays; there a ray that is not
in CALLOUT answers 1, one ended leaves with its record and one resumed waits for 16 granules, which go to the waiting rays of a context in order. A
lane too deep for its ray's nodes raises NODE_DEPTH in no lane. -/
def Sys2Proof.Claim.RayResumption : Prop :=
  (∀ (s : State) (k l : Nat) (g : Group) (x : Split) (tm : Team) (o : RayOp) (c : Machine.Scene) (i : Instr) (isEnd : Bool),
    i = (if isEnd = true then .contEnd o else .cont o) → RayLane s k g x tm o l c →
    let va := s.readS g o.a.toNat
    let id := (s.readV g o.b.toNat l).toNat
    let d := s.laneDepth g l + 1
    let ray := fun (n : Nat) (r : Ray) => s.ray? tm.asid va id = some (n, r)
    let deep := fun (r : Ray) => c.maxDepth ((c.f.shnode[rayField r 4 4]?).getD 0) < d ∨ (isEnd = false ∧ c.maxDepth c.f.fnode < d)
    (c.f.nslot ≤ id → Flies s k g i (s.active g x o.g) (fun t p => p.performed = true ∧ p.accs.map (·.phase) = [.done 2] ∧ t.rays = s.rays ∧ t.contReqs = s.contReqs) (exec i s)) ∧
    (∀ n r, id < c.f.nslot → ray n r → rayField r 11 3 = 3 → deep r →
      Stops s k g { cause := 0x10, detail := BitVec.ofNat 8 x.idx, pc := x.pc, idx := x.idx, lanes := s.active g x o.g } (exec i s)) ∧
    (id < c.f.nslot → (∀ n r, ray n r → rayField r 11 3 = 3 → ¬ deep r) → Flies s k g i (s.active g x o.g) (fun t p => p.performed = false ∧ t.rays = s.rays ∧
      ∃ q : ContReq, t.contReqs = s.contReqs.put s.contReqs.next q ∧ q.team = g.team ∧ q.group = k ∧ q.gio = g.gio ∧ q.lane = l ∧ q.asid = tm.asid ∧ q.scene = va ∧ q.ray = id ∧
        q.depth = d ∧ q.isEnd = isEnd ∧ (∀ n r, ray n r → q.cluster = r.cluster)) (exec i s))) ∧
  (∀ (s : State) (q : ContReq) (g : Group) (p : Op) (a : LaneAcc), s.contReqs.get? s.hand = some q → s.group? q.group = some g → g.op? q.gio = some p → p.accs = [a] → a.lane = q.lane →
    let ready := s.contWaits q = false ∧ ∀ e ∈ s.contReqs, e.1 < s.hand → e.2.cluster = q.cluster → e.2.team ≠ q.team
    let lane := fun (v : Nat) (f : State → Prop) => ∃ t g' p', exec .contRequest s = .next t ∧ t.contReqs.get? s.hand = none ∧ t.group? q.group = some g' ∧ g'.op? q.gio = some p' ∧
      p'.performed = true ∧ p'.accs = [{ a with phase := .done v }] ∧ g'.v = g.v ∧ g'.s = g.s ∧ f t
    (¬ ready → exec .contRequest s = .next s) ∧
    (ready → (s.ray? q.asid q.scene q.ray = none ∨ ∃ n r, s.ray? q.asid q.scene q.ray = some (n, r) ∧ rayField r 11 3 ≠ 3) → lane 1 fun t => SameMem s t ∧ t.rays = s.rays) ∧
    (∀ n r c, ready → s.ray? q.asid q.scene q.ray = some (n, r) → s.rays.get? n = some r → rayField r 11 3 = 3 → q.depth < 64 → s.scene? q.asid q.scene = some c →
      (q.isEnd = true → GeoPuts s { r with team := q.team } (gprivVa r) 8 → GeoPuts s { r with team := q.team } (slotVa c r) 64 →
        lane 0 fun t => t.rays.get? n = none ∧ ∃ m, t.inflight = s.inflight.put s.inflight.next m ∧ m.asid = r.asid ∧ m.depth = q.depth ∧ m.src = 2 ∧
        fld (ofBytes m.data) 14 3 = 3 ∧ fld (ofBytes m.data) 11 3 = 0 ∧ fld (ofBytes m.data) 17 6 = q.depth) ∧
      (q.isEnd = false → s.waits = [] → inWindow (slotVa c r) 64 = false → r.ending = false → r.gpriv = false →
        lane 0 fun t => ∃ r', t.rays.get? n = some r' ∧ rayField r' 11 3 = 4 ∧ rayField r' 17 6 = q.depth ∧ r'.idx = r.idx ∧ r'.gran = r.gran ∧ r'.ord = s.rayOrder))) ∧
  (∀ (s : State) (r : Ray) (ctx : Ctx) (c : Machine.Scene), s.rays.get? s.hand = some r → s.ctx r.asid = some ctx →
    let first := ∀ e ∈ s.rays, e.2.asid = r.asid → rayField e.2 11 3 = 4 → s.switchedOut e.2.asid e.2.cluster = false → r.ord ≤ e.2.ord
    (rayField r 11 3 ≠ 4 ∨ s.switchedOut r.asid r.cluster = true ∨ ¬ first → exec .rayGranulesReserved s = .next s) ∧
    (rayField r 11 3 = 4 → s.switchedOut r.asid r.cluster = false → first →
      (256 * ctx.poolsz < ctx.used + 16 → ∃ t ctx', exec .rayGranulesReserved s = .next t ∧ t.rays = s.rays ∧ t.ctx r.asid = some ctx' ∧ ctx'.used = ctx.used) ∧
      (ctx.used + 16 ≤ 256 * ctx.poolsz → s.scene? r.asid r.scene = some c → inWindow (slotVa c r) 64 = false → r.ending = false → r.gpriv = false →
        ∃ t r' ctx', exec .rayGranulesReserved s = .next t ∧ t.rays.get? s.hand = some r' ∧ r'.gran = r.gran + 16 ∧
          rayField r' 11 3 = 1 ∧ (∀ lo n, 14 ≤ lo → lo + n ≤ 512 → rayField r' lo n = rayField r lo n) ∧ t.ctx r.asid = some ctx' ∧ ctx'.used = ctx.used + 16)))

/-- TRACE and CONT: the two parts stated as Traces, RayResumption. -/
def Obligations.RayCommands : Prop :=
  Sys2Proof.Claim.Traces ∧ Sys2Proof.Claim.RayResumption

/-- 14 R300 to R303: a hit is accepted when TMIN ≤ t < TMAX, or at the t of the present one when it comes before it, and then stands. A pass over a
treelet whose node 0 hits nothing goes to the root, and at the root completes; a root pass goes on to the treelet reference with the next key. -/
def Sys2Proof.Claim.RayPasses : Prop :=
  (∀ (r : RayRec) (key off prim : Nat) (t u v : LaneWord),
    let before := r.tree < r.hittree ∨ (r.tree = r.hittree ∧ off < key)
    let same := rLe t r.tmax = true ∧ rLe r.tmax t = true
    let h := takeHit r key (off, prim, t, u, v)
    let taken := { r with tmax := t, hit := true, hittree := r.tree, hitprim := BitVec.ofNat 32 prim, hitu := toHalf u, hitv := toHalf v }
    (rLe r.tmin t = true ∧ (rLt t r.tmax = true ∨ (r.hit = true ∧ same ∧ before)) → h = (taken, off)) ∧
    (¬ (rLe r.tmin t = true ∧ (rLt t r.tmax = true ∨ (r.hit = true ∧ same ∧ before))) → h = (r, key))) ∧
  (∀ (c : SceneF) (r : RayRec) (key pick : Nat) (b : GeoBytes), 64 ≤ b.bytes.length → b.bad = [] → b.num 56 8 = 0 → (r.any && r.hit) = false → b.num 52 4 = 0xFFFFFFFF →
    let r1 := { r with visits := 1 }
    (b.num 48 4 = 0xFFFFFFFF → r.tree ≠ 0 → advanceRay c r key b pick = .queue { r1 with tree := 0 } key) ∧
    (b.num 48 4 = 0xFFFFFFFF → r.tree = 0 → advanceRay c r key b pick = .complete r1 (if r.hit = true then 1 else 2)) ∧
    (∀ i te tf, b.num 48 4 = 3 * 2 ^ 30 + i → 1 ≤ i → i < 2 ^ 20 → i < c.ntree → r.tree = 0 → boxHit r (fun m => b.w (4 * m)) = some (te, tf) →
      (rLt r.lastt te = true ∨ (rLt te r.lastt = false ∧ r.lastidx < i) → rLt te r.tmax = true →
        advanceRay c r key b pick = .queue { r1 with lastt := te, lastidx := i, tree := i } key) ∧
      (rLt te r.tmax = false → advanceRay c r key b pick = .complete r1 (if r.hit = true then 1 else 2))) ∧
    (∀ i te tf, b.num 48 4 = 3 * 2 ^ 30 + i → i < 2 ^ 30 - 1 → boxHit r (fun m => b.w (4 * m)) = some (te, tf) → i = 0 ∨ 2 ^ 20 ≤ i ∨ c.ntree ≤ i ∨ r.tree ≠ 0 →
      advanceRay c r key b pick = .complete r1 4) ∧
    (boxHit r (fun m => b.w (4 * m)) = none → r.tree = 0 → advanceRay c r key b pick = .complete r1 (if r.hit = true then 1 else 2)))

/-- 14 R299, R302, R305, R317, R318: GEODE_PASS advances the queued ray of its cluster: a completion pushes its record to its shading node and frees the
slot and the granules it still holds, a ray that goes on waits in its next queue, a callout pushes its record to the field node and waits for CONT.
RAYLD reads words of a ray in CALLOUT, 0 for a RAYID that is not below NSLOT; GEOSTAT counts the rays. -/
def Sys2Proof.Claim.GeodePasses : Prop :=
  (∀ (s s2 : State) (n : Nat) (r : Ray) (c : Machine.Scene) (e : RayEnd), s.rays = [(n, r)] → r.cluster = s.hand → r.waiting = false → r.areaWait = false → r.unsaved = false →
    rayField r 11 3 = 1 → (∀ e ∈ s.scenes, s.hand ∉ e.2.away) →
    s.switchedOut r.asid s.hand = false → s.scene? r.asid r.scene = some c →
    let r1 := r.with fun y => { y with visits := 0, st := 2 }
    ({ s with rays := [(n, r.with fun y => { y with st := 2 })] } : State).passOf r1 c.f = (s2, e) →
    let went := fun (q : State → Prop) => ∃ t, exec .geodePass s = .next t ∧ q t
    (e = .wait → exec .geodePass s = .next s2) ∧
    (∀ y st, e = .complete y st → st < 8 → GeoPuts s2 r (gprivVa r) 8 → GeoPuts s2 r (slotVa c r) 64 → went fun t => t.rays.get? n = none ∧ ∃ m, t.inflight = s.inflight.put s.inflight.next m ∧ m.asid = r.asid ∧ m.src = 2 ∧
      m.node = BitVec.ofNat 64 ((c.f.shnode[y.shidx % 16]?).getD 0) ∧ m.depth = y.depth % 64 ∧ fld (ofBytes m.data) 14 3 = st ∧ fld (ofBytes m.data) 11 3 = 0 ∧
      fld (ofBytes m.data) 480 32 = y.tmax.toNat ∧ fld (ofBytes m.data) 160 32 = y.hitprim.toNat ∧ fld (ofBytes m.data) 10 1 = y.hit.toNat) ∧
    (∀ y key, e = .queue y key → GeoPuts s2 r (slotVa c r) 64 → went fun t => t.inflight = s.inflight ∧ ∃ r', t.rays.get? n = some r' ∧ r'.hitKey = key ∧ r'.idx = r.idx ∧ r'.ord = s.rayOrder ∧ rayField r' 11 3 = 1 ∧
      rayField r' 56 20 = y.tree % 2 ^ 20 ∧ rayField r' 480 32 = y.tmax.toNat) ∧
    (∀ y key ts fs s3 s4, e = .callout y key ts → s2.batch r1 c.f ts = (s3, .ok fs) → s3.writeFeats r1 c.f (enum 0 fs) = (s4, .ok ()) → GeoPuts s4 r (slotVa c r) 64 → 1 ≤ ts.length → ts.length ≤ 16 →
      r.idx < 2 ^ 32 → c.f.levels < 2 ^ 8 →
      went fun t => ∃ r' m, t.rays.get? n = some r' ∧ rayField r' 11 3 = 3 ∧ r'.hitKey = key ∧ r'.gran = r.gran - 16 ∧ t.inflight = s.inflight.put s.inflight.next m ∧
        m.asid = r.asid ∧ m.node = BitVec.ofNat 64 c.f.fnode ∧ m.src = 2 ∧ m.gran = 16 ∧ m.depth = y.depth ∧ m.data.length = 256 ∧ fld (ofBytes m.data) 0 64 = r.scene.toNat ∧
        fld (ofBytes m.data) 64 32 = r.idx ∧ fld (ofBytes m.data) 96 32 = y.tag.toNat ∧ fld (ofBytes m.data) 224 16 = ts.length ∧ fld (ofBytes m.data) 240 8 = c.f.levels ∧
        (∀ i, fld (ofBytes m.data) (384 + 32 * i) 32 = ((ts[i]?).map (·.toNat)).getD 0))) ∧
  (∀ (s : State) (k : Nat) (g : Group) (x : Split) (tm : Team) (c : Machine.Scene), s.issuer? = some (k, g, x) → s.team? g.team = some tm → idle s g → clean s →
    (∀ o : RayldOp, o.cnt ≠ 3 → s.scene? tm.asid (s.readS g o.a.toNat) = some c → s.sceneInUse tm.asid (s.readS g o.a.toNat) = true →
      Flies s k g (.rayld o) (s.active g x o.g) (fun t p => p.performed = true ∧ t.rays = s.rays ∧ (o.d = 255 → p.vOut = []) ∧ ∀ l < 64, (s.active g x o.g).getLsbD l = true → ∀ i < 2 ^ o.cnt.toNat,
        let id := (s.readV g o.b.toNat l).toNat
        let out := Tab.get? p.vOut (64 * (o.d.toNat + i) + l)
        (o.d ≠ 255 → c.f.nslot ≤ id → out = some 0) ∧
        (∀ n r, o.d ≠ 255 → id < c.f.nslot → s.ray? tm.asid (s.readS g o.a.toNat) id = some (n, r) → rayField r 11 3 = 3 →
          out = some (BitVec.ofNat 32 (rayField r (32 * (o.w.toNat + i)) 32)))) (exec (.rayld o) s)) ∧
    (∀ o : SPair, let va := s.readS g o.a.toNat
      let gets := fun (v : Nat) => Flies s k g (.geostat o) (s.active g x o.g) (fun t p => p.performed = true ∧ t.rays = s.rays ∧
        p.sOut = if s.active g x o.g = 0 then [] else [(o.d.toNat, BitVec.ofNat 64 v)]) (exec (.geostat o) s)
      let mine := s.rays.filter fun e => e.2.asid == tm.asid && e.2.scene == va
      (s.scene? tm.asid va = some c → s.sceneInUse tm.asid va = true → gets (mine.length * 2 ^ 47 + (mine.countP fun e => rayField e.2 11 3 == 3) * 2 ^ 30 +
        (mine.countP fun e => rayField e.2 11 3 == 1 && e.2.cluster == k / 256) * 2 ^ 13)) ∧
      (s.scene? tm.asid va = none → va.toNat % 256 ≠ 0 → gets 1)))

/-- Passes of the Geode, RAYLD and GEOSTAT: the two parts stated as RayPasses, GeodePasses. -/
def Obligations.RayEngine : Prop :=
  Sys2Proof.Claim.RayPasses ∧ Sys2Proof.Claim.GeodePasses


/-! ### The machine as a whole -/

/-- What a step adds around an instruction's outcome (log 2): the register writes of engines (15 R391), the bytes that spill stacks take (12 R261)
and the stores into record pools (13 R278) are performed, and the model's own fields are settled. -/
def Sys2Proof.Claim.settles (s : State) (out : Out) (f : State → State) : Out :=
  match out with
  | .next t => .next { (f t).performRegs.performSpills.performStores with cur := .none, hand := 0, pairV := Option.none, fresh := s.fresh + 1 }
  | .fault e => .fault e
  | .refused r => .refused r
/-- Group k's split of a lane has issued its word: unless the word left it elsewhere (`cur` is then cleared), the group's order has gone on
by one and the split stands at its clause's next word, or past its clause. -/
def Sys2Proof.Claim.passes (k lane : Nat) (g : Group) (t : State) : State :=
  if t.cur = .grp k lane then
    { t with groups := t.groups.put k { g with
      gio := g.gio + 1
      splits := g.splits.map fun y => if y.mask.getLsbD lane then (match y.run with
        | some r => if r.idx + 1 < r.words.length then { y with run := some { r with idx := r.idx + 1 } } else at_ (fallOf y) y
        | Option.none => y) else y } }
  else t

/-- The state at which a split of a group issues its word: its clause has the slot again, if a stop had interrupted it (02 R39). -/
def Sys2Proof.Claim.goesOn (s : State) (k lane : Nat) (g : Group) (r : Run) : State :=
  s.setGroup k (g.updSplit lane fun y => { y with run := some { r with back := false } })

/-- 02 R35, R36, R52, R54; 10 R217, R219; 15 R393: a step at which a group's split, a stream, a service core or an event has the turn runs the
instruction that its bytes hold, and moves past it: a group's word, a pair's two operations on the registers from before the word, the start
of a clause, a stream word, a hart's word, an event with the item that it takes up, and the passing of cycles, at which the PTS of
each core, each service core's with them, counts its ticks, one for every 16 cycles (04 R95). A clause that its group's stop interrupted goes on when the partition's slot is free
(02 R39). The turns are the model's choice (log 2). -/
def Sys2Proof.Claim.StepRuns : Prop :=
  ∀ (s : State) (others : List Turn),
    let s0 : State := { s with turns := others }
    (∀ (k lane : Nat) (g : Group) (x : Split) (r : Run) (w : Word) (i : Instr), s.turns = .group k lane :: others → s.group? k = some g →
      g.split? lane = some x → x.run = some r → x.st = .ready → g.stop = none → g.atLimit = false → (r.back = true → s.slotTaken (coreOf k) g.part = false) →
      r.words[r.idx]? = some w → hdrClass r.hdr ≠ 1 → isStreamWord w = false → decodeTableWord 64 w.toNat = some i →
      ∀ t, exec i { goesOn s0 k lane g r with cur := .grp k lane } = .next t → ∀ g', t.group? k = some g' → step s = settles s (.next t) (passes k lane g')) ∧
    (∀ (k lane : Nat) (g : Group) (x : Split) (r : Run) (w : Word) (i j : Instr), s.turns = .group k lane :: others → s.group? k = some g →
      g.split? lane = some x → x.run = some r → x.st = .ready → g.stop = none → g.atLimit = false → (r.back = true → s.slotTaken (coreOf k) g.part = false) →
      r.words[r.idx]? = some w → hdrClass r.hdr = 1 → decodeHalf (w.extractLsb' 0 32) = .ok i → decodeHalf (w.extractLsb' 32 32) = .ok j →
      ∀ t u, exec i { goesOn s0 k lane g r with cur := .grp k lane, pairV := some g.v } = .next t → exec j t = .next u → ∀ g', u.group? k = some g' →
        step s = settles s (.next u) (passes k lane { g' with pmc := g'.pmc.put 1 (g'.pmc.getD 1 0 + 1) })) ∧
    (∀ (k lane : Nat) (g : Group) (x : Split), s.turns = .group k lane :: others → s.group? k = some g → g.split? lane = some x →
      x.run = none → g.atLimit = false → step s = settles s (exec (.clauseStart k lane) s0) id) ∧
    (∀ (q key : Nat) (x : Seq) (t : Team) (w : Word) (i : Instr), s.turns = .seq q :: others → s.seq? q = some x → s.team? x.team = some t →
      x.exited = false → x.stop = none → x.waiting = none → x.held = none → x.cmds = [] → x.fetchFault = none →
      s.switchedOut t.asid t.cluster = false → x.pc.toNat + 8 ≤ 0x000FFFFFFFE00000 →
      (∃ h, extentHit t.extents x.pc.toNat 8 .fetch = some h ∧ h.key = key) → key % 128 + 8 ≤ 128 → s.reachable (keyMod key) = true →
      s.poisoned key 8 = false → t.horizon = [] → ((s.homes.get? (key / 128)).bind fun h => h.ref) = none →
      (s.current (key / 128)).length = 128 → w = BitVec.ofNat 64 (lineNum (s.current (key / 128)) (key % 128) 8) →
      (∀ e ∈ s.frecs, e.work ≠ .seqFetch q) → isStreamWord w = true → decodeTableWord 64 w.toNat = some i → badAcc i t.kern.hdr.acct = false →
      step s = settles s (exec i { s0 with cur := .seq q }) fun u =>
        if u.cur = .seq q then { u with seqs := u.seqs.upd q fun y => { y with pc := y.pc + 8 } } else u) ∧
    (∀ (h key : Nat) (w : BitVec 32) (i : Instr), s.turns = .hart h :: others → h < 24 → (s.hart h).running = true → (s.hart h).wait = .no →
      (s.hart h).irq = none → (∀ f, s.hartXlate h (s.hart h).pc .fetch f = (s, .ok key)) →
      (∀ f, s.hartXlate h ((s.hart h).pc + 2) .fetch f = (s, .ok (key + 2))) → key % 128 + 4 ≤ 128 → keyTier key ≤ 4 →
      s.reachable (keyMod key) = true → s.poisoned key 4 = false → (s.current (key / 128)).length = 128 →
      w = BitVec.ofNat 32 (lineNum (s.current (key / 128)) (key % 128) 4) → w.getLsbD 0 = true → w.getLsbD 1 = true →
      decodeTableWord 32 w.toNat = some i →
      step s = settles s (exec i { s0 with cur := .hart h }) fun u =>
        if u.cur = .hart h then u.setHart h { u.hart h with pc := (u.hart h).pc + 4, instret := ((u.hart h).instret + 1) % 2 ^ 64,
                                                            xfault := none, answer := none, due := 0 } else u) ∧
    (∀ (i : Instr) (n : Nat), s.turns = .event i n :: others → step s = settles s (exec i { s0 with hand := n }) id) ∧
    (∀ n, s.turns = .elapse n :: others → ∃ t, step s = .next t) ∧
    (∀ n, s.turns = .elapse n :: others → s.regOut = [] → s.spillOut = [] → s.storeOut = [] →
      (∀ e ∈ s.cores, ∀ y ∈ e.2.l1, y.2.dirty = 0) → ∃ t, step s = .next t ∧ t.cycle = s.cycle + n ∧ t.teams = s.teams ∧ t.mem = s.mem ∧
      (∀ h, (t.hart h).pts = (s.hart h).pts + ((s.cycle + n) / 16 - (s.hart h).ticks)) ∧
      ∀ c, s.ptsCore c = c → t.pts c = s.pts c + ((s.cycle + n) / 16 - (s.core c).ticks))

/-- Memory keeps its canonical form (addresses rising, no byte listed that an unlisted address reads as) in every step, from every state that has
it: a group's, a stream's, a service core's or an event's. The form is the model's (log 4). -/
def Obligations.StepsKeepMemoryCanonical : Prop := ∀ s t : State, Inv s → step s = .next t → Inv t

/-- Between any two steps no agent holds the turn, and each step draws fresh free values: the model's own fields (logs 2 and 3). -/
def Sys2Proof.Claim.StepsSettle : Prop :=
  ∀ s t : State, step s = .next t → t.cur = .none ∧ t.hand = 0 ∧ t.pairV = none ∧ t.fresh = s.fresh + 1

/-- A step runs the instruction that the bytes hold: the two parts stated as StepRuns, StepsSettle. -/
def Obligations.StepRunsTheDecodedInstruction : Prop :=
  Sys2Proof.Claim.StepRuns ∧ Sys2Proof.Claim.StepsSettle

/-- 02 R45 to R54, R55, R64: what the encoder writes for a well-formed instruction, the decoder reads back: group words, compact halves, stream
words and hart words, with every operand at every value. -/
def Obligations.DecodeOfEncode : Prop :=
  ∀ (i : Instr) (n w : Nat), i.WellFormed → encode i = some (n, w) → decodeTableWord n w = some i

/-- 02 R45 to R54: a word that decodes is the one word of its instruction, and the instruction is well-formed: no bit of a word is ignored. -/
def Obligations.EncodeOfDecode : Prop :=
  ∀ (n w : Nat) (i : Instr), w < 2 ^ n → decodeTableWord n w = some i → encode i = some (n, w) ∧ i.wf = true

/-- Words that the manual itself writes out: LD.b32.acq.die v4, [s2 + v7*4 + 64] (02 R48), ATOM.ADD.b32.ar.dev v6, [s4 + v9*4], v10 (06),
FFMA.rz v8, -v2, s5, v9 (09), LEA.b64 v10, s4, v7 << 2 (08), @p1 BRA (12), KICK.rel.dev [s10], s11, g3 (07), MMAS.e4m3.ds8 acc3, t0, q4, #128 (10),
TRACE v30, s8, v40, g2 (14), the filler and a compact FFMA (02), x.waitv.aq a0, a1, a2 (02 R64); a reserved slot and a reserved type decode to
nothing. -/
def Sys2Proof.Claim.WordsDecode : Prop :=
  let u : Guard := { neg := false, p := 7 }
  decodeTableWord 64 0x8007040207002A40 =
    some (.ld { g := u, ty := .b32, ord := .acq, scope := .die, d := 4, m := { base := some 2, idx := 7, scale := 2, off := 64 } }) ∧
  decodeTableWord 64 0x84070604090A6E00 =
    some (.atomAdd { g := u, b64 := false, ord := .ar, scope := .dev, d := 6, base := some 4, idx := 9, scale := 2, c := 10 }) ∧
  decodeTableWord 64 0x5237080205095000 =
    some (.ffma { g := u, rnd := .rz, na := true, nb := false, nc := false, d := 8, a := .v 2, b := .s 5, c := .v 9 }) ∧
  decodeTableWord 64 0x36170A0407008002 = some (.lea { g := u, b64 := true, d := 10, a := .s 4, b := .v 7, sx := false, sh := 2 }) ∧
  decodeTableWord 64 0x0101000000000040 = some (.bra { g := { neg := false, p := 1 }, off := 0x40 }) ∧
  decodeTableWord 64 0x9007000A0B004C13 = some (.kick { g := u, rel := true, scope := .dev, slot := some 3, a := 10, b := 11 }) ∧
  decodeTableWord 64 0xC237030084007800 =
    some (.mmas { z := false, nch := 3, d := 3, a := .tile 0, b := .scr 4, fa := 3, fb := 6, slot := none }) ∧
  decodeTableWord 64 0xA8071E0828000012 = some (.trace { g := u, d := 30, a := 8, b := 40, slot := some 2 }) ∧
  decodeTableWord 32 0x3C00000E = some .filler ∧
  decodeTableWord 32 0x0C401046 = some (.ffmaCompact { d := 8, a := 1, b := .v 2, gn := false, gp := 3 }) ∧
  decodeTableWord 32 0x04C5850B = some (.xWaitv { w32 := false, aq := true, rd := 10, rs1 := 11, rs2 := 12 }) ∧
  decodeTableWord 64 0x3907000000000000 = none ∧ decodeTableWord 64 0x8077040207002A40 = none

/-- 02 R44: GRD 0b1111 is reserved: no group word and no stream word with it decodes. -/
def Sys2Proof.Claim.ReservedGuard : Prop :=
  ∀ w : Word, w.extractLsb' 48 4 = 15 → decodeTableWord 64 w.toNat = none

/-- The manual's own words decode, and GRD 0b1111 does not: the two parts stated as WordsDecode, ReservedGuard. -/
def Obligations.WordsOfTheManual : Prop :=
  Sys2Proof.Claim.WordsDecode ∧ Sys2Proof.Claim.ReservedGuard

/-- 02 R37: a header is refused with ILLEGAL_CLAUSE in each case of the rule, whatever words follow it, and, with no words, in no other. -/
def Obligations.HeaderChecks : Prop :=
  ∀ (hdr : Word) (kern : Header),
    let seta := (hdr.extractLsb' 39 4).toNat
    let setb := (hdr.extractLsb' 34 4).toNat
    let spid := (hdr.extractLsb' 20 11).toNat
    let a := hdr.getLsbD 43
    let b := hdr.getLsbD 38
    let safe := hdr.getLsbD 31
    let bad := 5 ≤ (hdr.extractLsb' 60 4).toNat ∨ hdr.extractLsb' 32 2 ≠ 0 ∨ hdr.extractLsb' 0 20 ≠ 0 ∨
      (a = false ∧ seta ≠ 0) ∨ (b = false ∧ setb ≠ 0) ∨ (a = true ∧ 11 < seta) ∨ (b = true ∧ 11 < setb) ∨
      (a = true ∧ b = true ∧ seta = setb) ∨ (b = true ∧ a = false) ∨ (safe = false ∧ spid ≠ 0) ∨ (safe = true ∧ kern.nsp ≤ spid)
    (bad → ∀ ws, clauseVerdict hdr ws kern = .illegalClause) ∧ (clauseVerdict hdr [] kern = .illegalClause → bad)

/-- 09 R194: FMIN and FMAX write the smaller and the larger of FtzIn(a) and FtzIn(b) in each active lane and raise no flag: −0 orders below +0,
one NaN gives the other operand, two give 0x7FC00000, and a result is one of the two operands unchanged. -/
def Obligations.FloatMinMax : Prop :=
  ∀ (s : State) (k : Nat) (g : Group) (x : Split), s.issuer? = some (k, g, x) → ∀ o : FSel,
    let act := s.active g x o.g
    let a := fun l => ftzIn g.ftz (s.src32 g .float l o.a)
    let b := fun l => ftzIn g.ftz (s.src32 g .float l o.b)
    let nan := fun (c : LaneWord) => 0x7F800000 < c.toNat % 2 ^ 31
    let key := fun (c : LaneWord) => if c.toNat < 2 ^ 31 then (c.toNat : Int) else -1 - (c.toNat - 2 ^ 31 : Nat)
    let pick := fun (less : Bool) l => if nan (a l) ∧ nan (b l) then (0x7FC00000 : LaneWord) else if nan (a l) then b l else if nan (b l) then a l
      else if decide (key (a l) < key (b l)) = less then a l else b l
    VecResult s k g act false o.d (fun l => (pick true l).setWidth 64) 0 (exec (.fmin o) s) ∧
    VecResult s k g act false o.d (fun l => (pick false l).setWidth 64) 0 (exec (.fmax o) s)

/-- 01 R17: the values of the E2M1 codes. -/
def Obligations.FourBitFloats : Prop :=
  ∀ c : Nat, c < 16 → ∃ z : Machine.Dyadic, e2m1.decode c = .fin z ∧ z.neg = decide (8 ≤ c) ∧
    value { z with neg := false } = ([0, 1 / 2, 1, 3 / 2, 2, 3, 4, 6] : List ℚ)[c % 8]!

/-- What reset leaves (the values that the manual gives): the quotas, PWRCTL, PWRCAP, BOOTST, CKPT_STAT, the budgets, the event queue without ring or
mirror, LINK_WAIT, the translation registers, every slot idle and not enabled, AGE_LIMIT of every Geode; no team and no bundle. Memory is in its
canonical form (log 4). -/
def Obligations.ResetState : Prop :=
  let reads := fun (pa v : Nat) => State.reset.mmioRead pa 8 = some (State.reset, v)
  Inv State.reset ∧ State.reset.groups = [] ∧ State.reset.teams = [] ∧ State.reset.seqs = [] ∧ State.reset.bundles = [] ∧ State.reset.cycle = 0 ∧
  (∀ p < 16, reads (0x2000 + 8 * p) (4 * 2 ^ 37 + 32 * 2 ^ 31 + 512 * 2 ^ 21 + 1024 * 2 ^ 10 + 64)) ∧
  reads 0x3000 1 ∧ reads 0x3008 2400 ∧ reads 0x3010 0 ∧ reads 0x5008 0 ∧
  (∀ b ∈ [0, 0x100000], reads (b + 0x4008) 0 ∧ reads (b + 0x4010) (20 * 2 ^ 16 + 20) ∧ reads (b + 0x6000) 0 ∧ reads (b + 0x6020) 0) ∧
  reads 0x300010 1000 ∧ reads 0x200000 0 ∧ reads 0x200008 0 ∧ reads 0x200018 0 ∧
  (∀ n < 32, reads (0x1000 + 64 * n + 0x08) 0 ∧ reads (0x1000 + 64 * n + 0x20) 1) ∧
  (∀ c < 36, reads (0x1000000 + 0x10000 * c) 0x10000)

end
end

