-- ==== Sys2Proof/Laws/Tab.lean ====
section
/-! SUPPORT. Laws of tables: what is read after a write, and that every operation keeps the keys rising. -/

namespace Sys2Proof.Machine

variable {α : Type}

@[simp] theorem Tab.get?_nil (n : Nat) : Tab.get? ([] : Tab α) n = none := rfl
@[simp] theorem Tab.getD_nil (n : Nat) (d : α) : Tab.getD ([] : Tab α) n d = d := rfl

theorem Tab.get?_put (t : Tab α) (n : Nat) (x : α) (m : Nat) :
    Tab.get? (Tab.put t n x) m = if n = m then some x else Tab.get? t m := by
  induction t with
  | nil => simp [Tab.put, Tab.get?]
  | cons e t ih =>
    obtain ⟨k, v⟩ := e
    simp only [Tab.put]
    split
    · by_cases h : n = m <;> simp [Tab.get?, h]
    · split
      · rename_i h1 h2; subst h2; by_cases h : k = m <;> simp [Tab.get?, h]
      · rename_i h1 h2
        by_cases h : k = m
        · subst h; simp [Tab.get?, Ne.symm h2]
        · simp [Tab.get?, h, ih]

theorem Tab.get?_del (t : Tab α) (n m : Nat) :
    Tab.get? (Tab.del t n) m = if n = m then none else Tab.get? t m := by
  induction t with
  | nil => simp [Tab.del]
  | cons e t ih =>
    obtain ⟨k, v⟩ := e
    simp only [Tab.del]
    split
    · rename_i h; subst h
      by_cases h : k = m
      · subst h; simpa using ih
      · simp [Tab.get?, ih, h]
    · rename_i h
      by_cases h2 : k = m
      · subst h2; simp [Tab.get?, Ne.symm h]
      · simp [Tab.get?, h2, ih]

@[simp] theorem Tab.get?_put_self (t : Tab α) (n : Nat) (x : α) : Tab.get? (Tab.put t n x) n = some x := by
  simp [Tab.get?_put]
theorem Tab.get?_put_ne (t : Tab α) {n m : Nat} (x : α) (h : n ≠ m) : Tab.get? (Tab.put t n x) m = Tab.get? t m := by
  simp [Tab.get?_put, h]
@[simp] theorem Tab.getD_put_self (t : Tab α) (n : Nat) (x d : α) : Tab.getD (Tab.put t n x) n d = x := by
  simp [Tab.getD]
theorem Tab.getD_put_ne (t : Tab α) {n m : Nat} (x d : α) (h : n ≠ m) :
    Tab.getD (Tab.put t n x) m d = Tab.getD t m d := by
  simp [Tab.getD, Tab.get?_put, h]

/-- A write under a default, read under the same default. -/
theorem Tab.getD_putD [DecidableEq α] (d : α) (t : Tab α) (n : Nat) (x : α) (m : Nat) :
    Tab.getD (Tab.putD d t n x) m d = if n = m then x else Tab.getD t m d := by
  unfold Tab.putD
  split
  · rename_i h; subst h
    by_cases hm : n = m <;> simp [Tab.getD, Tab.get?_del, hm]
  · by_cases hm : n = m <;> simp [Tab.getD, Tab.get?_put, hm]
@[simp] theorem Tab.getD_putD_self [DecidableEq α] (d : α) (t : Tab α) (n : Nat) (x : α) :
    Tab.getD (Tab.putD d t n x) n d = x := by simp [Tab.getD_putD]
theorem Tab.getD_putD_ne [DecidableEq α] (d : α) (t : Tab α) {n m : Nat} (x : α) (h : n ≠ m) :
    Tab.getD (Tab.putD d t n x) m d = Tab.getD t m d := by simp [Tab.getD_putD, h]

theorem Tab.get?_upd (t : Tab α) (n : Nat) (f : α → α) (m : Nat) :
    Tab.get? (Tab.upd t n f) m = if n = m then (Tab.get? t n).map f else Tab.get? t m := by
  unfold Tab.upd
  split
  · rename_i x h; by_cases hm : n = m
    · subst hm; simp [h]
    · simp [Tab.get?_put, hm]
  · rename_i h; by_cases hm : n = m
    · subst hm; simp [h]
    · simp [hm]

/-! ### Keys rise -/

theorem Tab.get?_map {β : Type} (f : α → β) (t : Tab α) (n : Nat) :
    Tab.get? (t.map fun e => (e.1, f e.2)) n = (Tab.get? t n).map f := by
  induction t with
  | nil => rfl
  | cons e t ih =>
    simp only [List.map_cons, Tab.get?]
    split
    · rfl
    · exact ih

theorem Tab.risesFrom_mono {t : Tab α} {a b : Nat} (h : a ≤ b) (ht : Tab.risesFrom b t = true) : Tab.risesFrom a t = true := by
  cases t with
  | nil => rfl
  | cons e t =>
    simp only [Tab.risesFrom, Bool.and_eq_true, decide_eq_true_eq] at *
    exact ⟨by omega, ht.2⟩

theorem Tab.risesFrom_put {t : Tab α} {a n : Nat} {x : α} (ha : a ≤ n) (ht : Tab.risesFrom a t = true) :
    Tab.risesFrom a (Tab.put t n x) = true := by
  induction t generalizing a with
  | nil => simp [Tab.put, Tab.risesFrom, ha]
  | cons e t ih =>
    obtain ⟨k, v⟩ := e
    simp only [Tab.risesFrom, Bool.and_eq_true, decide_eq_true_eq] at ht
    simp only [Tab.put]
    split
    · simp only [Tab.risesFrom, Bool.and_eq_true, decide_eq_true_eq]; exact ⟨ha, by omega, ht.2⟩
    · split
      · rename_i h; subst h; simp only [Tab.risesFrom, Bool.and_eq_true, decide_eq_true_eq]; exact ht
      · simp only [Tab.risesFrom, Bool.and_eq_true, decide_eq_true_eq]
        exact ⟨ht.1, ih (by omega) ht.2⟩

theorem Tab.risesFrom_del {t : Tab α} {a n : Nat} (ht : Tab.risesFrom a t = true) : Tab.risesFrom a (Tab.del t n) = true := by
  induction t generalizing a with
  | nil => rfl
  | cons e t ih =>
    obtain ⟨k, v⟩ := e
    simp only [Tab.risesFrom, Bool.and_eq_true, decide_eq_true_eq] at ht
    simp only [Tab.del]
    split
    · exact Tab.risesFrom_mono (by omega) (ih ht.2)
    · simp only [Tab.risesFrom, Bool.and_eq_true, decide_eq_true_eq]; exact ⟨ht.1, ih ht.2⟩

theorem Tab.risesFrom_filter {t : Tab α} {a : Nat} (p : Nat × α → Bool) (ht : Tab.risesFrom a t = true) :
    Tab.risesFrom a (t.filter p) = true := by
  induction t generalizing a with
  | nil => rfl
  | cons e t ih =>
    simp only [Tab.risesFrom, Bool.and_eq_true, decide_eq_true_eq] at ht
    simp only [List.filter_cons]
    split
    · simp only [Tab.risesFrom, Bool.and_eq_true, decide_eq_true_eq]; exact ⟨ht.1, ih ht.2⟩
    · exact Tab.risesFrom_mono (by omega) (ih ht.2)

theorem Tab.rises_put {t : Tab α} (n : Nat) (x : α) (ht : Tab.rises t = true) : Tab.rises (Tab.put t n x) = true :=
  Tab.risesFrom_put (Nat.zero_le n) ht
theorem Tab.rises_putD [DecidableEq α] {d : α} {t : Tab α} (n : Nat) (x : α) (ht : Tab.rises t = true) :
    Tab.rises (Tab.putD d t n x) = true := by
  unfold Tab.putD; split
  · exact Tab.risesFrom_del ht
  · exact Tab.rises_put n x ht

/-- Every listed key of a rising table is at least the bound. -/
theorem Tab.le_of_risesFrom {t : Tab α} {a : Nat} (ht : Tab.risesFrom a t = true) {e : Nat × α} (he : e ∈ t) : a ≤ e.1 := by
  induction t generalizing a with
  | nil => cases he
  | cons c t ih =>
    simp only [Tab.risesFrom, Bool.and_eq_true, decide_eq_true_eq] at ht
    cases he with
    | head => exact ht.1
    | tail _ h => have := ih ht.2 h; omega

/-- Two rising tables that lie apart make a rising table. -/
theorem Tab.risesFrom_append {t u : Tab α} {a b : Nat} (ht : Tab.risesFrom a t = true) (hu : Tab.risesFrom b u = true)
    (hab : a ≤ b) (h : ∀ e ∈ t, e.1 < b) : Tab.risesFrom a (t ++ u) = true := by
  induction t generalizing a with
  | nil => exact Tab.risesFrom_mono hab hu
  | cons e t ih =>
    simp only [Tab.risesFrom, Bool.and_eq_true, decide_eq_true_eq] at ht
    simp only [List.cons_append, Tab.risesFrom, Bool.and_eq_true, decide_eq_true_eq]
    refine ⟨ht.1, ih ht.2 ?_ fun x hx => h x (List.mem_cons_of_mem _ hx)⟩
    have := h e List.mem_cons_self
    omega

/-- Keys moved down or up together keep rising. -/
theorem Tab.risesFrom_shift {t : Tab α} {a b c : Nat} (hc : ∀ e ∈ t, c ≤ e.1) (ht : Tab.risesFrom a t = true) (hab : b + c ≤ a + d) :
    Tab.risesFrom b (t.map fun e => (e.1 - c + d, e.2)) = true := by
  induction t generalizing a b with
  | nil => rfl
  | cons e t ih =>
    simp only [Tab.risesFrom, Bool.and_eq_true, decide_eq_true_eq] at ht
    have h1 := hc e List.mem_cons_self
    simp only [List.map_cons, Tab.risesFrom, Bool.and_eq_true, decide_eq_true_eq]
    exact ⟨by omega, ih (fun x hx => hc x (List.mem_cons_of_mem _ hx)) ht.2 (by omega)⟩

theorem Tab.mem_put {t : Tab α} {n : Nat} {x : α} {e : Nat × α} (h : e ∈ Tab.put t n x) : e = (n, x) ∨ e ∈ t := by
  induction t with
  | nil => simpa [Tab.put] using h
  | cons c t ih =>
    obtain ⟨k, v⟩ := c
    simp only [Tab.put] at h
    split at h
    · simpa using h
    · split at h
      · simp only [List.mem_cons] at h ⊢; tauto
      · simp only [List.mem_cons] at h ⊢
        rcases h with h | h
        · exact .inr (.inl h)
        · exact (ih h).imp_right .inr
theorem Tab.mem_del {t : Tab α} {n : Nat} {e : Nat × α} (h : e ∈ Tab.del t n) : e ∈ t := by
  induction t with
  | nil => exact h
  | cons c t ih =>
    obtain ⟨k, v⟩ := c
    simp only [Tab.del] at h
    split at h
    · exact List.mem_cons_of_mem _ (ih h)
    · rcases List.mem_cons.1 h with h | h
      · exact h ▸ List.mem_cons_self
      · exact List.mem_cons_of_mem _ (ih h)

end Sys2Proof.Machine
end

