-- ==== Sys2Proof/Laws/Mem.lean ====
section
/-! SUPPORT. Laws of memory: what is read after a write, and that every operation that changes memory keeps its canonical form. -/

namespace Sys2Proof.Machine

/-! ### Read after write -/

/-- A byte after bytes were stored from `k` on: the stored byte inside the range, else what stood there. -/
theorem getD_putBytes (m : Tab Byte) (k : Nat) (l : List Byte) (a : Nat) :
    (putBytes m k l).getD a freshByte = if k ≤ a ∧ a < k + l.length then l.getD (a - k) freshByte else m.getD a freshByte := by
  induction l generalizing m k with
  | nil => simp [putBytes]
  | cons b l ih =>
    simp only [putBytes, ih, Tab.getD_putD, List.length_cons]
    by_cases h1 : k + 1 ≤ a ∧ a < k + 1 + l.length
    · rw [if_pos h1, if_pos (by omega)]
      obtain ⟨j, rfl⟩ : ∃ j, a = k + 1 + j := ⟨a - (k + 1), by omega⟩
      have e1 : k + 1 + j - (k + 1) = j := by omega
      have e2 : k + 1 + j - k = j + 1 := by omega
      rw [e1, e2]; simp
    · rw [if_neg h1]
      by_cases h2 : k = a
      · subst h2; simp
      · rw [if_neg h2, if_neg (by omega)]

theorem State.byte_setBytes (s : State) (k : Nat) (l : List Byte) (a : Nat) :
    (s.setBytes k l).byte a = if k ≤ a ∧ a < k + l.length then l.getD (a - k) freshByte else s.byte a :=
  getD_putBytes s.mem k l a
theorem State.byte_setByte (s : State) (k : Nat) (b : Byte) (a : Nat) :
    (s.setByte k b).byte a = if k = a then b else s.byte a := Tab.getD_putD freshByte s.mem k b a

/-! ### The canonical form -/

theorem Memory.wf_nil : Memory.wf [] = true := rfl

theorem Memory.wf_putD {m : Tab Byte} (k : Nat) (b : Byte) (h : Memory.wf m = true) :
    Memory.wf (m.putD freshByte k b) = true := by
  simp only [Memory.wf, Bool.and_eq_true, List.all_eq_true] at *
  refine ⟨Tab.rises_putD k b h.1, fun e he => ?_⟩
  unfold Tab.putD at he
  split at he
  · exact h.2 e (Tab.mem_del he)
  · rename_i hb
    rcases Tab.mem_put he with rfl | he
    · simpa using hb
    · exact h.2 e he

theorem Memory.wf_putBytes {m : Tab Byte} (k : Nat) (l : List Byte) (h : Memory.wf m = true) :
    Memory.wf (putBytes m k l) = true := by
  induction l generalizing m k with
  | nil => exact h
  | cons b l ih => exact ih (k + 1) (Memory.wf_putD k b h)

theorem Memory.wf_putAt {m : Tab Byte} (k : Nat) (l : List (Nat × Byte)) (h : Memory.wf m = true) :
    Memory.wf (putAt k m l) = true := by
  induction l generalizing m with
  | nil => exact h
  | cons b l ih => exact ih (Memory.wf_putD (k + b.1) b.2 h)

theorem Memory.wf_filter {m : Tab Byte} (p : Nat × Byte → Bool) (h : Memory.wf m = true) : Memory.wf (m.filter p) = true := by
  simp only [Memory.wf, Bool.and_eq_true, List.all_eq_true] at *
  exact ⟨Tab.risesFrom_filter p h.1, fun e he => h.2 e (List.mem_of_mem_filter he)⟩

theorem Memory.wf_copyTab {m : Tab Byte} (src dst n : Nat) (h : Memory.wf m = true) :
    Memory.wf (copyTab m src dst n) = true := by
  simp only [Memory.wf, Bool.and_eq_true, List.all_eq_true, copyTab] at *
  have hr : Tab.risesFrom 0 m = true := h.1
  constructor
  · unfold Tab.rises
    rw [List.append_assoc]
    refine Tab.risesFrom_append (b := dst) (Tab.risesFrom_filter _ hr) ?_ (Nat.zero_le _) ?_
    · refine Tab.risesFrom_append (b := dst + n) ?_ ?_ (by omega) ?_
      · have hf : ∀ {t : Tab Byte} {a : Nat}, a ≤ src → Tab.risesFrom a t = true → (∀ e ∈ t, src ≤ e.1) →
            Tab.risesFrom src t = true := by
          intro t a _ ht hs
          cases t with
          | nil => rfl
          | cons e t =>
            simp only [Tab.risesFrom, Bool.and_eq_true, decide_eq_true_eq] at ht ⊢
            exact ⟨hs e List.mem_cons_self, ht.2⟩
        refine Tab.risesFrom_shift (a := src) ?_ (hf (Nat.zero_le _) (Tab.risesFrom_filter _ hr) ?_) (by omega)
        · intro e he; simpa using (List.of_mem_filter he : _) |> fun x => by simp at x; exact x.1
        · intro e he; simpa using (List.of_mem_filter he : _) |> fun x => by simp at x; exact x.1
      · have hg : ∀ {t : Tab Byte} {a : Nat}, Tab.risesFrom a t = true → (∀ e ∈ t, dst + n ≤ e.1) →
            Tab.risesFrom (dst + n) t = true := by
          intro t a ht hs
          cases t with
          | nil => rfl
          | cons e t =>
            simp only [Tab.risesFrom, Bool.and_eq_true, decide_eq_true_eq] at ht ⊢
            exact ⟨hs e List.mem_cons_self, ht.2⟩
        refine hg (Tab.risesFrom_filter _ hr) fun e he => ?_
        have := List.of_mem_filter he; simpa using this
      · intro e he
        obtain ⟨x, hx, rfl⟩ := List.mem_map.1 he
        have := List.of_mem_filter hx
        simp at this; simp; omega
    · intro e he; have := List.of_mem_filter he; simpa using this
  · intro e he
    simp only [List.mem_append, List.mem_map] at he
    rcases he with (he | ⟨x, hx, rfl⟩) | he
    · exact h.2 e (List.mem_of_mem_filter he)
    · exact h.2 x (List.mem_of_mem_filter hx)
    · exact h.2 e (List.mem_of_mem_filter he)

/-! ### Operations of the state -/

/-- Memory of a state in its canonical form. -/
def State.memOk (s : State) : Prop := Memory.wf s.mem = true

theorem State.memOk_reset : State.reset.memOk := rfl

theorem State.memOk_of_mem {s t : State} (h : s.memOk) (e : t.mem = s.mem) : t.memOk := by
  unfold State.memOk at *; rw [e]; exact h

theorem State.memOk_setByte {s : State} (k : Nat) (b : Byte) (h : s.memOk) : (s.setByte k b).memOk := Memory.wf_putD k b h
theorem State.memOk_setBytes {s : State} (k : Nat) (l : List Byte) (h : s.memOk) : (s.setBytes k l).memOk :=
  Memory.wf_putBytes k l h
theorem State.memOk_setHomeRec {s : State} (line : Nat) (x : HomeLine) (h : s.memOk) : (s.setHomeRec line x).memOk := h
theorem State.memOk_markPoison {s : State} (k n : Nat) (h : s.memOk) : (s.markPoison k n).memOk := h
theorem State.memOk_owePool {s : State} (w : OutWrite) (h : s.memOk) : (s.owePool w).memOk := h
theorem State.memOk_dropPending {s : State} (n : Nat) (x : BitVec 16) (o : Option Nat) (h : s.memOk) :
    (s.dropPending n x o).memOk := h

/-- A fold of operations that each keep memory canonical keeps it. -/
theorem State.memOk_foldl {β : Type} (f : State → β → State) (hf : ∀ s b, s.memOk → (f s b).memOk) (l : List β) {s : State}
    (h : s.memOk) : (l.foldl f s).memOk := by
  induction l generalizing s with
  | nil => exact h
  | cons b l ih => exact ih (hf s b h)
/-- A fold of operations that leave a part of the state leaves it. -/
theorem State.foldl_eq {α β : Type} (q : State → α) (f : State → β → State) (hf : ∀ s b, q (f s b) = q s) (l : List β) (s : State) :
    q (l.foldl f s) = q s := by
  induction l generalizing s with
  | nil => rfl
  | cons b l ih => exact (ih _).trans (hf s b)

theorem State.memOk_recallNow {s : State} (line : Nat) (h : s.memOk) : (s.recallNow line).memOk := by
  unfold State.recallNow
  dsimp only
  split
  · exact h
  · exact State.memOk_foldl State.sendMsg (fun _ _ hs => hs) _ (Memory.wf_putBytes _ _ h)
/-- A recall that begins sends messages and marks the line: memory stands. -/
theorem State.mem_startRecall (s : State) (line : Nat) (held : Option Nat) : (s.startRecall line held).mem = s.mem := by
  unfold State.startRecall
  dsimp only
  refine (State.foldl_eq (·.mem) (fun (s : State) (c : Nat) => s.sendMsg { kind := .inv, core := c, line := line }) (fun _ _ => rfl) _ _).trans ?_
  split <;> rfl
theorem State.mem_oneLeaves (s : State) (slice : Nat) : (s.oneLeaves slice).mem = s.mem := by
  unfold State.oneLeaves
  repeat' split
  all_goals first | rfl | exact State.mem_startRecall _ _ _
theorem State.mem_makeRoom (s : State) (slice : Nat) : (s.makeRoom slice).mem = s.mem := by
  unfold State.makeRoom
  dsimp only
  split
  · rfl
  · split
    · exact State.mem_oneLeaves _ _
    · exact (State.mem_oneLeaves _ _).trans (State.mem_oneLeaves _ _)
/-- Storing a home's record leaves memory. -/
theorem State.mem_setHome (s : State) (line : Nat) (x : HomeLine) : (s.setHome line x).mem = s.mem := by
  unfold State.setHome
  split
  · rfl
  · exact State.mem_makeRoom _ _
theorem State.memOk_setHome {s : State} (line : Nat) (x : HomeLine) (h : s.memOk) : (s.setHome line x).memOk :=
  State.memOk_of_mem h (State.mem_setHome _ _ _)
theorem State.memOk_stamp {s : State} (line pts : Nat) (h : s.memOk) : (s.stamp line pts).1.memOk := State.memOk_setHome _ _ h
theorem State.memOk_readLease {s : State} (line pts : Nat) (r : Option Nat) (h : s.memOk) : (s.readLease line pts r).1.memOk := by
  unfold State.readLease
  dsimp only
  split
  · split
    · exact h
    · exact State.memOk_setHome _ _ h
  · split
    · exact State.memOk_setHome _ _ h
    · exact State.memOk_setHome _ _ h

theorem State.memOk_writeStamp {s : State} (line pts : Nat) (h : s.memOk) : (s.writeStamp line pts).1.memOk := by
  unfold State.writeStamp
  repeat' split
  · exact State.memOk_stamp _ _ h
  · exact State.memOk_stamp (s := s.filterAdd line) _ _ h
  · exact h
theorem State.memOk_noteStore {s : State} (k n : Nat) (h : s.memOk) : (s.noteStore k n).memOk := by
  unfold State.noteStore; split <;> exact h
theorem State.memOk_homeStore {s : State} (k : Nat) (bs : List Byte) (pts : Nat) (who : Nat × Nat) (h : s.memOk) :
    (s.homeStore k bs pts who).1.memOk := by
  unfold State.homeStore
  dsimp only
  repeat' split
  · exact h
  · exact h
  · exact State.memOk_setBytes (s := s.breakLinksOn _) _ _ h
  · exact h
  all_goals exact State.memOk_setBytes _ _ (State.memOk_writeStamp _ _ (State.memOk_recallNow _ h))
theorem State.memOk_homeWrite {s : State} (k : Nat) (bs : List Byte) (pts : Nat) (who : Nat × Nat) (h : s.memOk) :
    (s.homeWrite k bs pts who).1.memOk := by
  have h1 := State.memOk_homeStore k bs pts who (State.memOk_noteStore k bs.length h)
  unfold State.homeWrite
  dsimp only
  split
  · exact State.memOk_homeStore _ _ _ _ h1
  · exact h1
theorem State.memOk_deviceWriteN (fuel : Nat) {s : State} (k : Nat) (bs : List Byte) (h : s.memOk) :
    (State.deviceWriteN fuel s k bs).memOk := by
  induction fuel generalizing s k bs with
  | zero => exact h
  | succ n ih =>
    unfold State.deviceWriteN
    split
    · exact h
    · exact ih _ _ (State.memOk_homeWrite _ _ _ _ h)
theorem State.memOk_deviceWrite {s : State} (k : Nat) (bs : List Byte) (h : s.memOk) : (s.deviceWrite k bs).memOk :=
  State.memOk_deviceWriteN _ k bs h

theorem State.memOk_installPending {s : State} (line : Nat) (p : Pending) (t : Nat) (h : s.memOk) :
    (s.installPending line p t).memOk := by
  unfold State.installPending
  exact Memory.wf_putAt _ _ (State.memOk_stamp line t (State.memOk_recallNow _ h))
theorem State.memOk_retainedAll {s : State} (line : Nat) (hz : List Horizon) (h : s.memOk) : (s.retainedAll line hz).memOk := by
  refine State.memOk_foldl _ (fun s e hs => ?_) hz h
  unfold State.retained
  split
  · exact State.memOk_installPending _ _ _ hs
  · exact hs
theorem State.memOk_cold {s : State} (keep : Nat → Bool) (h : s.memOk) : (s.cold keep).memOk := Memory.wf_filter _ h

end Sys2Proof.Machine
end

