-- ==== Sys2Proof/Laws/State.lean ====
section
/-! SUPPORT. What each update of the state leaves in each field: one lemma per field per update. -/

namespace Sys2Proof.Machine

variable (s : State)

@[simp] theorem State.halt_turns : (s.halt).turns = s.turns := rfl
@[simp] theorem State.halt_cur : (s.halt).cur = .none := rfl
@[simp] theorem State.halt_hand : (s.halt).hand = s.hand := rfl
@[simp] theorem State.halt_fresh : (s.halt).fresh = s.fresh := rfl
@[simp] theorem State.halt_pairV : (s.halt).pairV = s.pairV := rfl
@[simp] theorem State.halt_cycle : (s.halt).cycle = s.cycle := rfl
@[simp] theorem State.halt_mem : (s.halt).mem = s.mem := rfl
@[simp] theorem State.halt_poison : (s.halt).poison = s.poison := rfl
@[simp] theorem State.halt_homes : (s.halt).homes = s.homes := rfl
@[simp] theorem State.halt_memts : (s.halt).memts = s.memts := rfl
@[simp] theorem State.halt_proxies : (s.halt).proxies = s.proxies := rfl
@[simp] theorem State.halt_devPts : (s.halt).devPts = s.devPts := rfl
@[simp] theorem State.halt_reqs : (s.halt).reqs = s.reqs := rfl
@[simp] theorem State.halt_regOut : (s.halt).regOut = s.regOut := rfl
@[simp] theorem State.halt_spillOut : (s.halt).spillOut = s.spillOut := rfl
@[simp] theorem State.halt_storeOut : (s.halt).storeOut = s.storeOut := rfl
@[simp] theorem State.halt_msgs : (s.halt).msgs = s.msgs := rfl
@[simp] theorem State.halt_cores : (s.halt).cores = s.cores := rfl
@[simp] theorem State.halt_fused : (s.halt).fused = s.fused := rfl
@[simp] theorem State.halt_groups : (s.halt).groups = s.groups := rfl
@[simp] theorem State.halt_teams : (s.halt).teams = s.teams := rfl
@[simp] theorem State.halt_seqs : (s.halt).seqs = s.seqs := rfl
@[simp] theorem State.halt_harts : (s.halt).harts = s.harts := rfl
@[simp] theorem State.halt_tlbCore : (s.halt).tlbCore = s.tlbCore := rfl
@[simp] theorem State.halt_tlbCluster : (s.halt).tlbCluster = s.tlbCluster := rfl
@[simp] theorem State.halt_tlbDie : (s.halt).tlbDie = s.tlbDie := rfl
@[simp] theorem State.halt_walkDie : (s.halt).walkDie = s.walkDie := rfl
@[simp] theorem State.halt_walks : (s.halt).walks = s.walks := rfl
@[simp] theorem State.halt_xlat : (s.halt).xlat = s.xlat := rfl
@[simp] theorem State.halt_waits : (s.halt).waits = s.waits := rfl
@[simp] theorem State.halt_waitOrder : (s.halt).waitOrder = s.waitOrder := rfl
@[simp] theorem State.halt_heap : (s.halt).heap = s.heap := rfl
@[simp] theorem State.halt_exchange : (s.halt).exchange = s.exchange := rfl
@[simp] theorem State.halt_tdCache : (s.halt).tdCache = s.tdCache := rfl
@[simp] theorem State.halt_copies : (s.halt).copies = s.copies := rfl
@[simp] theorem State.halt_reqTurn : (s.halt).reqTurn = s.reqTurn := rfl
@[simp] theorem State.halt_bundles : (s.halt).bundles = s.bundles := rfl
@[simp] theorem State.halt_bunNew : (s.halt).bunNew = s.bunNew := rfl
@[simp] theorem State.halt_bunFreed : (s.halt).bunFreed = s.bunFreed := rfl
@[simp] theorem State.halt_notices : (s.halt).notices = s.notices := rfl
@[simp] theorem State.halt_queries : (s.halt).queries = s.queries := rfl
@[simp] theorem State.halt_answers : (s.halt).answers = s.answers := rfl
@[simp] theorem State.halt_ctxs : (s.halt).ctxs = s.ctxs := rfl
@[simp] theorem State.halt_inflight : (s.halt).inflight = s.inflight := rfl
@[simp] theorem State.halt_bins : (s.halt).bins = s.bins := rfl
@[simp] theorem State.halt_slots : (s.halt).slots = s.slots := rfl
@[simp] theorem State.halt_tails : (s.halt).tails = s.tails := rfl
@[simp] theorem State.halt_pend : (s.halt).pend = s.pend := rfl
@[simp] theorem State.halt_cmds : (s.halt).cmds = s.cmds := rfl
@[simp] theorem State.halt_quotas : (s.halt).quotas = s.quotas := rfl
@[simp] theorem State.halt_geoAge : (s.halt).geoAge = s.geoAge := rfl
@[simp] theorem State.halt_scenes : (s.halt).scenes = s.scenes := rfl
@[simp] theorem State.halt_rays : (s.halt).rays = s.rays := rfl
@[simp] theorem State.halt_contReqs : (s.halt).contReqs = s.contReqs := rfl
@[simp] theorem State.halt_rayOrder : (s.halt).rayOrder = s.rayOrder := rfl
@[simp] theorem State.halt_outOf : (s.halt).outOf = s.outOf := rfl
@[simp] theorem State.halt_dies : (s.halt).dies = s.dies := rfl
@[simp] theorem State.halt_evSeq : (s.halt).evSeq = s.evSeq := rfl
@[simp] theorem State.halt_evWait : (s.halt).evWait = s.evWait := rfl
@[simp] theorem State.halt_upcalls : (s.halt).upcalls = s.upcalls := rfl
@[simp] theorem State.halt_frecs : (s.halt).frecs = s.frecs := rfl
@[simp] theorem State.halt_outTeams : (s.halt).outTeams = s.outTeams := rfl
@[simp] theorem State.halt_links : (s.halt).links = s.links := rfl
@[simp] theorem State.halt_plat : (s.halt).plat = s.plat := rfl
@[simp] theorem State.halt_bus : (s.halt).bus = s.bus := rfl

@[simp] theorem State.setByte_turns (k : Nat) (b : Byte) : (s.setByte k b).turns = s.turns := rfl
@[simp] theorem State.setByte_cur (k : Nat) (b : Byte) : (s.setByte k b).cur = s.cur := rfl
@[simp] theorem State.setByte_hand (k : Nat) (b : Byte) : (s.setByte k b).hand = s.hand := rfl
@[simp] theorem State.setByte_fresh (k : Nat) (b : Byte) : (s.setByte k b).fresh = s.fresh := rfl
@[simp] theorem State.setByte_pairV (k : Nat) (b : Byte) : (s.setByte k b).pairV = s.pairV := rfl
@[simp] theorem State.setByte_cycle (k : Nat) (b : Byte) : (s.setByte k b).cycle = s.cycle := rfl
@[simp] theorem State.setByte_mem (k : Nat) (b : Byte) : (s.setByte k b).mem = s.mem.putD freshByte k b := rfl
@[simp] theorem State.setByte_poison (k : Nat) (b : Byte) : (s.setByte k b).poison = s.poison := rfl
@[simp] theorem State.setByte_homes (k : Nat) (b : Byte) : (s.setByte k b).homes = s.homes := rfl
@[simp] theorem State.setByte_memts (k : Nat) (b : Byte) : (s.setByte k b).memts = s.memts := rfl
@[simp] theorem State.setByte_proxies (k : Nat) (b : Byte) : (s.setByte k b).proxies = s.proxies := rfl
@[simp] theorem State.setByte_devPts (k : Nat) (b : Byte) : (s.setByte k b).devPts = s.devPts := rfl
@[simp] theorem State.setByte_reqs (k : Nat) (b : Byte) : (s.setByte k b).reqs = s.reqs := rfl
@[simp] theorem State.setByte_regOut (k : Nat) (b : Byte) : (s.setByte k b).regOut = s.regOut := rfl
@[simp] theorem State.setByte_spillOut (k : Nat) (b : Byte) : (s.setByte k b).spillOut = s.spillOut := rfl
@[simp] theorem State.setByte_storeOut (k : Nat) (b : Byte) : (s.setByte k b).storeOut = s.storeOut := rfl
@[simp] theorem State.setByte_msgs (k : Nat) (b : Byte) : (s.setByte k b).msgs = s.msgs := rfl
@[simp] theorem State.setByte_cores (k : Nat) (b : Byte) : (s.setByte k b).cores = s.cores := rfl
@[simp] theorem State.setByte_fused (k : Nat) (b : Byte) : (s.setByte k b).fused = s.fused := rfl
@[simp] theorem State.setByte_groups (k : Nat) (b : Byte) : (s.setByte k b).groups = s.groups := rfl
@[simp] theorem State.setByte_teams (k : Nat) (b : Byte) : (s.setByte k b).teams = s.teams := rfl
@[simp] theorem State.setByte_seqs (k : Nat) (b : Byte) : (s.setByte k b).seqs = s.seqs := rfl
@[simp] theorem State.setByte_harts (k : Nat) (b : Byte) : (s.setByte k b).harts = s.harts := rfl
@[simp] theorem State.setByte_tlbCore (k : Nat) (b : Byte) : (s.setByte k b).tlbCore = s.tlbCore := rfl
@[simp] theorem State.setByte_tlbCluster (k : Nat) (b : Byte) : (s.setByte k b).tlbCluster = s.tlbCluster := rfl
@[simp] theorem State.setByte_tlbDie (k : Nat) (b : Byte) : (s.setByte k b).tlbDie = s.tlbDie := rfl
@[simp] theorem State.setByte_walkDie (k : Nat) (b : Byte) : (s.setByte k b).walkDie = s.walkDie := rfl
@[simp] theorem State.setByte_walks (k : Nat) (b : Byte) : (s.setByte k b).walks = s.walks := rfl
@[simp] theorem State.setByte_xlat (k : Nat) (b : Byte) : (s.setByte k b).xlat = s.xlat := rfl
@[simp] theorem State.setByte_waits (k : Nat) (b : Byte) : (s.setByte k b).waits = s.waits := rfl
@[simp] theorem State.setByte_waitOrder (k : Nat) (b : Byte) : (s.setByte k b).waitOrder = s.waitOrder := rfl
@[simp] theorem State.setByte_heap (k : Nat) (b : Byte) : (s.setByte k b).heap = s.heap := rfl
@[simp] theorem State.setByte_exchange (k : Nat) (b : Byte) : (s.setByte k b).exchange = s.exchange := rfl
@[simp] theorem State.setByte_tdCache (k : Nat) (b : Byte) : (s.setByte k b).tdCache = s.tdCache := rfl
@[simp] theorem State.setByte_copies (k : Nat) (b : Byte) : (s.setByte k b).copies = s.copies := rfl
@[simp] theorem State.setByte_reqTurn (k : Nat) (b : Byte) : (s.setByte k b).reqTurn = s.reqTurn := rfl
@[simp] theorem State.setByte_bundles (k : Nat) (b : Byte) : (s.setByte k b).bundles = s.bundles := rfl
@[simp] theorem State.setByte_bunNew (k : Nat) (b : Byte) : (s.setByte k b).bunNew = s.bunNew := rfl
@[simp] theorem State.setByte_bunFreed (k : Nat) (b : Byte) : (s.setByte k b).bunFreed = s.bunFreed := rfl
@[simp] theorem State.setByte_notices (k : Nat) (b : Byte) : (s.setByte k b).notices = s.notices := rfl
@[simp] theorem State.setByte_queries (k : Nat) (b : Byte) : (s.setByte k b).queries = s.queries := rfl
@[simp] theorem State.setByte_answers (k : Nat) (b : Byte) : (s.setByte k b).answers = s.answers := rfl
@[simp] theorem State.setByte_ctxs (k : Nat) (b : Byte) : (s.setByte k b).ctxs = s.ctxs := rfl
@[simp] theorem State.setByte_inflight (k : Nat) (b : Byte) : (s.setByte k b).inflight = s.inflight := rfl
@[simp] theorem State.setByte_bins (k : Nat) (b : Byte) : (s.setByte k b).bins = s.bins := rfl
@[simp] theorem State.setByte_slots (k : Nat) (b : Byte) : (s.setByte k b).slots = s.slots := rfl
@[simp] theorem State.setByte_tails (k : Nat) (b : Byte) : (s.setByte k b).tails = s.tails := rfl
@[simp] theorem State.setByte_pend (k : Nat) (b : Byte) : (s.setByte k b).pend = s.pend := rfl
@[simp] theorem State.setByte_cmds (k : Nat) (b : Byte) : (s.setByte k b).cmds = s.cmds := rfl
@[simp] theorem State.setByte_quotas (k : Nat) (b : Byte) : (s.setByte k b).quotas = s.quotas := rfl
@[simp] theorem State.setByte_geoAge (k : Nat) (b : Byte) : (s.setByte k b).geoAge = s.geoAge := rfl
@[simp] theorem State.setByte_scenes (k : Nat) (b : Byte) : (s.setByte k b).scenes = s.scenes := rfl
@[simp] theorem State.setByte_rays (k : Nat) (b : Byte) : (s.setByte k b).rays = s.rays := rfl
@[simp] theorem State.setByte_contReqs (k : Nat) (b : Byte) : (s.setByte k b).contReqs = s.contReqs := rfl
@[simp] theorem State.setByte_rayOrder (k : Nat) (b : Byte) : (s.setByte k b).rayOrder = s.rayOrder := rfl
@[simp] theorem State.setByte_outOf (k : Nat) (b : Byte) : (s.setByte k b).outOf = s.outOf := rfl
@[simp] theorem State.setByte_dies (k : Nat) (b : Byte) : (s.setByte k b).dies = s.dies := rfl
@[simp] theorem State.setByte_evSeq (k : Nat) (b : Byte) : (s.setByte k b).evSeq = s.evSeq := rfl
@[simp] theorem State.setByte_evWait (k : Nat) (b : Byte) : (s.setByte k b).evWait = s.evWait := rfl
@[simp] theorem State.setByte_upcalls (k : Nat) (b : Byte) : (s.setByte k b).upcalls = s.upcalls := rfl
@[simp] theorem State.setByte_frecs (k : Nat) (b : Byte) : (s.setByte k b).frecs = s.frecs := rfl
@[simp] theorem State.setByte_outTeams (k : Nat) (b : Byte) : (s.setByte k b).outTeams = s.outTeams := rfl
@[simp] theorem State.setByte_links (k : Nat) (b : Byte) : (s.setByte k b).links = s.links := rfl
@[simp] theorem State.setByte_plat (k : Nat) (b : Byte) : (s.setByte k b).plat = s.plat := rfl
@[simp] theorem State.setByte_bus (k : Nat) (b : Byte) : (s.setByte k b).bus = s.bus := rfl

@[simp] theorem State.setBytes_turns (k : Nat) (l : List Byte) : (s.setBytes k l).turns = s.turns := rfl
@[simp] theorem State.setBytes_cur (k : Nat) (l : List Byte) : (s.setBytes k l).cur = s.cur := rfl
@[simp] theorem State.setBytes_hand (k : Nat) (l : List Byte) : (s.setBytes k l).hand = s.hand := rfl
@[simp] theorem State.setBytes_fresh (k : Nat) (l : List Byte) : (s.setBytes k l).fresh = s.fresh := rfl
@[simp] theorem State.setBytes_pairV (k : Nat) (l : List Byte) : (s.setBytes k l).pairV = s.pairV := rfl
@[simp] theorem State.setBytes_cycle (k : Nat) (l : List Byte) : (s.setBytes k l).cycle = s.cycle := rfl
@[simp] theorem State.setBytes_mem (k : Nat) (l : List Byte) : (s.setBytes k l).mem = putBytes s.mem k l := rfl
@[simp] theorem State.setBytes_poison (k : Nat) (l : List Byte) : (s.setBytes k l).poison = clearMarks s.poison k l.length := rfl
@[simp] theorem State.setBytes_homes (k : Nat) (l : List Byte) : (s.setBytes k l).homes = s.homes := rfl
@[simp] theorem State.setBytes_memts (k : Nat) (l : List Byte) : (s.setBytes k l).memts = s.memts := rfl
@[simp] theorem State.setBytes_proxies (k : Nat) (l : List Byte) : (s.setBytes k l).proxies = s.proxies := rfl
@[simp] theorem State.setBytes_devPts (k : Nat) (l : List Byte) : (s.setBytes k l).devPts = s.devPts := rfl
@[simp] theorem State.setBytes_reqs (k : Nat) (l : List Byte) : (s.setBytes k l).reqs = s.reqs := rfl
@[simp] theorem State.setBytes_regOut (k : Nat) (l : List Byte) : (s.setBytes k l).regOut = s.regOut := rfl
@[simp] theorem State.setBytes_spillOut (k : Nat) (l : List Byte) : (s.setBytes k l).spillOut = s.spillOut := rfl
@[simp] theorem State.setBytes_storeOut (k : Nat) (l : List Byte) : (s.setBytes k l).storeOut = s.storeOut := rfl
@[simp] theorem State.setBytes_msgs (k : Nat) (l : List Byte) : (s.setBytes k l).msgs = s.msgs := rfl
@[simp] theorem State.setBytes_cores (k : Nat) (l : List Byte) : (s.setBytes k l).cores = s.cores := rfl
@[simp] theorem State.setBytes_fused (k : Nat) (l : List Byte) : (s.setBytes k l).fused = s.fused := rfl
@[simp] theorem State.setBytes_groups (k : Nat) (l : List Byte) : (s.setBytes k l).groups = s.groups := rfl
@[simp] theorem State.setBytes_teams (k : Nat) (l : List Byte) : (s.setBytes k l).teams = s.teams := rfl
@[simp] theorem State.setBytes_seqs (k : Nat) (l : List Byte) : (s.setBytes k l).seqs = s.seqs := rfl
@[simp] theorem State.setBytes_harts (k : Nat) (l : List Byte) : (s.setBytes k l).harts = s.harts := rfl
@[simp] theorem State.setBytes_tlbCore (k : Nat) (l : List Byte) : (s.setBytes k l).tlbCore = s.tlbCore := rfl
@[simp] theorem State.setBytes_tlbCluster (k : Nat) (l : List Byte) : (s.setBytes k l).tlbCluster = s.tlbCluster := rfl
@[simp] theorem State.setBytes_tlbDie (k : Nat) (l : List Byte) : (s.setBytes k l).tlbDie = s.tlbDie := rfl
@[simp] theorem State.setBytes_walkDie (k : Nat) (l : List Byte) : (s.setBytes k l).walkDie = s.walkDie := rfl
@[simp] theorem State.setBytes_walks (k : Nat) (l : List Byte) : (s.setBytes k l).walks = s.walks := rfl
@[simp] theorem State.setBytes_xlat (k : Nat) (l : List Byte) : (s.setBytes k l).xlat = s.xlat := rfl
@[simp] theorem State.setBytes_waits (k : Nat) (l : List Byte) : (s.setBytes k l).waits = s.waits := rfl
@[simp] theorem State.setBytes_waitOrder (k : Nat) (l : List Byte) : (s.setBytes k l).waitOrder = s.waitOrder := rfl
@[simp] theorem State.setBytes_heap (k : Nat) (l : List Byte) : (s.setBytes k l).heap = s.heap := rfl
@[simp] theorem State.setBytes_exchange (k : Nat) (l : List Byte) : (s.setBytes k l).exchange = s.exchange := rfl
@[simp] theorem State.setBytes_tdCache (k : Nat) (l : List Byte) : (s.setBytes k l).tdCache = s.tdCache := rfl
@[simp] theorem State.setBytes_copies (k : Nat) (l : List Byte) : (s.setBytes k l).copies = s.copies := rfl
@[simp] theorem State.setBytes_reqTurn (k : Nat) (l : List Byte) : (s.setBytes k l).reqTurn = s.reqTurn := rfl
@[simp] theorem State.setBytes_bundles (k : Nat) (l : List Byte) : (s.setBytes k l).bundles = s.bundles := rfl
@[simp] theorem State.setBytes_bunNew (k : Nat) (l : List Byte) : (s.setBytes k l).bunNew = s.bunNew := rfl
@[simp] theorem State.setBytes_bunFreed (k : Nat) (l : List Byte) : (s.setBytes k l).bunFreed = s.bunFreed := rfl
@[simp] theorem State.setBytes_notices (k : Nat) (l : List Byte) : (s.setBytes k l).notices = s.notices := rfl
@[simp] theorem State.setBytes_queries (k : Nat) (l : List Byte) : (s.setBytes k l).queries = s.queries := rfl
@[simp] theorem State.setBytes_answers (k : Nat) (l : List Byte) : (s.setBytes k l).answers = s.answers := rfl
@[simp] theorem State.setBytes_ctxs (k : Nat) (l : List Byte) : (s.setBytes k l).ctxs = s.ctxs := rfl
@[simp] theorem State.setBytes_inflight (k : Nat) (l : List Byte) : (s.setBytes k l).inflight = s.inflight := rfl
@[simp] theorem State.setBytes_bins (k : Nat) (l : List Byte) : (s.setBytes k l).bins = s.bins := rfl
@[simp] theorem State.setBytes_slots (k : Nat) (l : List Byte) : (s.setBytes k l).slots = s.slots := rfl
@[simp] theorem State.setBytes_tails (k : Nat) (l : List Byte) : (s.setBytes k l).tails = s.tails := rfl
@[simp] theorem State.setBytes_pend (k : Nat) (l : List Byte) : (s.setBytes k l).pend = s.pend := rfl
@[simp] theorem State.setBytes_cmds (k : Nat) (l : List Byte) : (s.setBytes k l).cmds = s.cmds := rfl
@[simp] theorem State.setBytes_quotas (k : Nat) (l : List Byte) : (s.setBytes k l).quotas = s.quotas := rfl
@[simp] theorem State.setBytes_geoAge (k : Nat) (l : List Byte) : (s.setBytes k l).geoAge = s.geoAge := rfl
@[simp] theorem State.setBytes_scenes (k : Nat) (l : List Byte) : (s.setBytes k l).scenes = s.scenes := rfl
@[simp] theorem State.setBytes_rays (k : Nat) (l : List Byte) : (s.setBytes k l).rays = s.rays := rfl
@[simp] theorem State.setBytes_contReqs (k : Nat) (l : List Byte) : (s.setBytes k l).contReqs = s.contReqs := rfl
@[simp] theorem State.setBytes_rayOrder (k : Nat) (l : List Byte) : (s.setBytes k l).rayOrder = s.rayOrder := rfl
@[simp] theorem State.setBytes_outOf (k : Nat) (l : List Byte) : (s.setBytes k l).outOf = s.outOf := rfl
@[simp] theorem State.setBytes_dies (k : Nat) (l : List Byte) : (s.setBytes k l).dies = s.dies := rfl
@[simp] theorem State.setBytes_evSeq (k : Nat) (l : List Byte) : (s.setBytes k l).evSeq = s.evSeq := rfl
@[simp] theorem State.setBytes_evWait (k : Nat) (l : List Byte) : (s.setBytes k l).evWait = s.evWait := rfl
@[simp] theorem State.setBytes_upcalls (k : Nat) (l : List Byte) : (s.setBytes k l).upcalls = s.upcalls := rfl
@[simp] theorem State.setBytes_frecs (k : Nat) (l : List Byte) : (s.setBytes k l).frecs = s.frecs := rfl
@[simp] theorem State.setBytes_outTeams (k : Nat) (l : List Byte) : (s.setBytes k l).outTeams = s.outTeams := rfl
@[simp] theorem State.setBytes_links (k : Nat) (l : List Byte) : (s.setBytes k l).links = s.links := rfl
@[simp] theorem State.setBytes_plat (k : Nat) (l : List Byte) : (s.setBytes k l).plat = s.plat := rfl
@[simp] theorem State.setBytes_bus (k : Nat) (l : List Byte) : (s.setBytes k l).bus = s.bus := rfl

@[simp] theorem State.markPoison_turns (k n : Nat) : (s.markPoison k n).turns = s.turns := rfl
@[simp] theorem State.markPoison_cur (k n : Nat) : (s.markPoison k n).cur = s.cur := rfl
@[simp] theorem State.markPoison_hand (k n : Nat) : (s.markPoison k n).hand = s.hand := rfl
@[simp] theorem State.markPoison_fresh (k n : Nat) : (s.markPoison k n).fresh = s.fresh := rfl
@[simp] theorem State.markPoison_pairV (k n : Nat) : (s.markPoison k n).pairV = s.pairV := rfl
@[simp] theorem State.markPoison_cycle (k n : Nat) : (s.markPoison k n).cycle = s.cycle := rfl
@[simp] theorem State.markPoison_mem (k n : Nat) : (s.markPoison k n).mem = s.mem := rfl
@[simp] theorem State.markPoison_homes (k n : Nat) : (s.markPoison k n).homes = s.homes := rfl
@[simp] theorem State.markPoison_memts (k n : Nat) : (s.markPoison k n).memts = s.memts := rfl
@[simp] theorem State.markPoison_proxies (k n : Nat) : (s.markPoison k n).proxies = s.proxies := rfl
@[simp] theorem State.markPoison_devPts (k n : Nat) : (s.markPoison k n).devPts = s.devPts := rfl
@[simp] theorem State.markPoison_reqs (k n : Nat) : (s.markPoison k n).reqs = s.reqs := rfl
@[simp] theorem State.markPoison_regOut (k n : Nat) : (s.markPoison k n).regOut = s.regOut := rfl
@[simp] theorem State.markPoison_spillOut (k n : Nat) : (s.markPoison k n).spillOut = s.spillOut := rfl
@[simp] theorem State.markPoison_storeOut (k n : Nat) : (s.markPoison k n).storeOut = s.storeOut := rfl
@[simp] theorem State.markPoison_msgs (k n : Nat) : (s.markPoison k n).msgs = s.msgs := rfl
@[simp] theorem State.markPoison_cores (k n : Nat) : (s.markPoison k n).cores = s.cores := rfl
@[simp] theorem State.markPoison_fused (k n : Nat) : (s.markPoison k n).fused = s.fused := rfl
@[simp] theorem State.markPoison_groups (k n : Nat) : (s.markPoison k n).groups = s.groups := rfl
@[simp] theorem State.markPoison_teams (k n : Nat) : (s.markPoison k n).teams = s.teams := rfl
@[simp] theorem State.markPoison_seqs (k n : Nat) : (s.markPoison k n).seqs = s.seqs := rfl
@[simp] theorem State.markPoison_harts (k n : Nat) : (s.markPoison k n).harts = s.harts := rfl
@[simp] theorem State.markPoison_tlbCore (k n : Nat) : (s.markPoison k n).tlbCore = s.tlbCore := rfl
@[simp] theorem State.markPoison_tlbCluster (k n : Nat) : (s.markPoison k n).tlbCluster = s.tlbCluster := rfl
@[simp] theorem State.markPoison_tlbDie (k n : Nat) : (s.markPoison k n).tlbDie = s.tlbDie := rfl
@[simp] theorem State.markPoison_walkDie (k n : Nat) : (s.markPoison k n).walkDie = s.walkDie := rfl
@[simp] theorem State.markPoison_walks (k n : Nat) : (s.markPoison k n).walks = s.walks := rfl
@[simp] theorem State.markPoison_xlat (k n : Nat) : (s.markPoison k n).xlat = s.xlat := rfl
@[simp] theorem State.markPoison_waits (k n : Nat) : (s.markPoison k n).waits = s.waits := rfl
@[simp] theorem State.markPoison_waitOrder (k n : Nat) : (s.markPoison k n).waitOrder = s.waitOrder := rfl
@[simp] theorem State.markPoison_heap (k n : Nat) : (s.markPoison k n).heap = s.heap := rfl
@[simp] theorem State.markPoison_exchange (k n : Nat) : (s.markPoison k n).exchange = s.exchange := rfl
@[simp] theorem State.markPoison_tdCache (k n : Nat) : (s.markPoison k n).tdCache = s.tdCache := rfl
@[simp] theorem State.markPoison_copies (k n : Nat) : (s.markPoison k n).copies = s.copies := rfl
@[simp] theorem State.markPoison_reqTurn (k n : Nat) : (s.markPoison k n).reqTurn = s.reqTurn := rfl
@[simp] theorem State.markPoison_bundles (k n : Nat) : (s.markPoison k n).bundles = s.bundles := rfl
@[simp] theorem State.markPoison_bunNew (k n : Nat) : (s.markPoison k n).bunNew = s.bunNew := rfl
@[simp] theorem State.markPoison_bunFreed (k n : Nat) : (s.markPoison k n).bunFreed = s.bunFreed := rfl
@[simp] theorem State.markPoison_notices (k n : Nat) : (s.markPoison k n).notices = s.notices := rfl
@[simp] theorem State.markPoison_queries (k n : Nat) : (s.markPoison k n).queries = s.queries := rfl
@[simp] theorem State.markPoison_answers (k n : Nat) : (s.markPoison k n).answers = s.answers := rfl
@[simp] theorem State.markPoison_ctxs (k n : Nat) : (s.markPoison k n).ctxs = s.ctxs := rfl
@[simp] theorem State.markPoison_inflight (k n : Nat) : (s.markPoison k n).inflight = s.inflight := rfl
@[simp] theorem State.markPoison_bins (k n : Nat) : (s.markPoison k n).bins = s.bins := rfl
@[simp] theorem State.markPoison_slots (k n : Nat) : (s.markPoison k n).slots = s.slots := rfl
@[simp] theorem State.markPoison_tails (k n : Nat) : (s.markPoison k n).tails = s.tails := rfl
@[simp] theorem State.markPoison_pend (k n : Nat) : (s.markPoison k n).pend = s.pend := rfl
@[simp] theorem State.markPoison_cmds (k n : Nat) : (s.markPoison k n).cmds = s.cmds := rfl
@[simp] theorem State.markPoison_quotas (k n : Nat) : (s.markPoison k n).quotas = s.quotas := rfl
@[simp] theorem State.markPoison_geoAge (k n : Nat) : (s.markPoison k n).geoAge = s.geoAge := rfl
@[simp] theorem State.markPoison_scenes (k n : Nat) : (s.markPoison k n).scenes = s.scenes := rfl
@[simp] theorem State.markPoison_rays (k n : Nat) : (s.markPoison k n).rays = s.rays := rfl
@[simp] theorem State.markPoison_contReqs (k n : Nat) : (s.markPoison k n).contReqs = s.contReqs := rfl
@[simp] theorem State.markPoison_rayOrder (k n : Nat) : (s.markPoison k n).rayOrder = s.rayOrder := rfl
@[simp] theorem State.markPoison_outOf (k n : Nat) : (s.markPoison k n).outOf = s.outOf := rfl
@[simp] theorem State.markPoison_dies (k n : Nat) : (s.markPoison k n).dies = s.dies := rfl
@[simp] theorem State.markPoison_evSeq (k n : Nat) : (s.markPoison k n).evSeq = s.evSeq := rfl
@[simp] theorem State.markPoison_evWait (k n : Nat) : (s.markPoison k n).evWait = s.evWait := rfl
@[simp] theorem State.markPoison_upcalls (k n : Nat) : (s.markPoison k n).upcalls = s.upcalls := rfl
@[simp] theorem State.markPoison_frecs (k n : Nat) : (s.markPoison k n).frecs = s.frecs := rfl
@[simp] theorem State.markPoison_outTeams (k n : Nat) : (s.markPoison k n).outTeams = s.outTeams := rfl
@[simp] theorem State.markPoison_links (k n : Nat) : (s.markPoison k n).links = s.links := rfl
@[simp] theorem State.markPoison_plat (k n : Nat) : (s.markPoison k n).plat = s.plat := rfl
@[simp] theorem State.markPoison_bus (k n : Nat) : (s.markPoison k n).bus = s.bus := rfl

@[simp] theorem State.setHomeRec_turns (line : Nat) (h : HomeLine) : (s.setHomeRec line h).turns = s.turns := rfl
@[simp] theorem State.setHomeRec_cur (line : Nat) (h : HomeLine) : (s.setHomeRec line h).cur = s.cur := rfl
@[simp] theorem State.setHomeRec_hand (line : Nat) (h : HomeLine) : (s.setHomeRec line h).hand = s.hand := rfl
@[simp] theorem State.setHomeRec_fresh (line : Nat) (h : HomeLine) : (s.setHomeRec line h).fresh = s.fresh := rfl
@[simp] theorem State.setHomeRec_pairV (line : Nat) (h : HomeLine) : (s.setHomeRec line h).pairV = s.pairV := rfl
@[simp] theorem State.setHomeRec_cycle (line : Nat) (h : HomeLine) : (s.setHomeRec line h).cycle = s.cycle := rfl
@[simp] theorem State.setHomeRec_mem (line : Nat) (h : HomeLine) : (s.setHomeRec line h).mem = s.mem := rfl
@[simp] theorem State.setHomeRec_poison (line : Nat) (h : HomeLine) : (s.setHomeRec line h).poison = s.poison := rfl
@[simp] theorem State.setHomeRec_homes (line : Nat) (h : HomeLine) : (s.setHomeRec line h).homes = s.homes.put line h := rfl
@[simp] theorem State.setHomeRec_memts (line : Nat) (h : HomeLine) : (s.setHomeRec line h).memts = s.memts := rfl
@[simp] theorem State.setHomeRec_proxies (line : Nat) (h : HomeLine) : (s.setHomeRec line h).proxies = s.proxies := rfl
@[simp] theorem State.setHomeRec_devPts (line : Nat) (h : HomeLine) : (s.setHomeRec line h).devPts = s.devPts := rfl
@[simp] theorem State.setHomeRec_reqs (line : Nat) (h : HomeLine) : (s.setHomeRec line h).reqs = s.reqs := rfl
@[simp] theorem State.setHomeRec_regOut (line : Nat) (h : HomeLine) : (s.setHomeRec line h).regOut = s.regOut := rfl
@[simp] theorem State.setHomeRec_spillOut (line : Nat) (h : HomeLine) : (s.setHomeRec line h).spillOut = s.spillOut := rfl
@[simp] theorem State.setHomeRec_storeOut (line : Nat) (h : HomeLine) : (s.setHomeRec line h).storeOut = s.storeOut := rfl
@[simp] theorem State.setHomeRec_msgs (line : Nat) (h : HomeLine) : (s.setHomeRec line h).msgs = s.msgs := rfl
@[simp] theorem State.setHomeRec_cores (line : Nat) (h : HomeLine) : (s.setHomeRec line h).cores = s.cores := rfl
@[simp] theorem State.setHomeRec_fused (line : Nat) (h : HomeLine) : (s.setHomeRec line h).fused = s.fused := rfl
@[simp] theorem State.setHomeRec_groups (line : Nat) (h : HomeLine) : (s.setHomeRec line h).groups = s.groups := rfl
@[simp] theorem State.setHomeRec_teams (line : Nat) (h : HomeLine) : (s.setHomeRec line h).teams = s.teams := rfl
@[simp] theorem State.setHomeRec_seqs (line : Nat) (h : HomeLine) : (s.setHomeRec line h).seqs = s.seqs := rfl
@[simp] theorem State.setHomeRec_harts (line : Nat) (h : HomeLine) : (s.setHomeRec line h).harts = s.harts := rfl
@[simp] theorem State.setHomeRec_tlbCore (line : Nat) (h : HomeLine) : (s.setHomeRec line h).tlbCore = s.tlbCore := rfl
@[simp] theorem State.setHomeRec_tlbCluster (line : Nat) (h : HomeLine) : (s.setHomeRec line h).tlbCluster = s.tlbCluster := rfl
@[simp] theorem State.setHomeRec_tlbDie (line : Nat) (h : HomeLine) : (s.setHomeRec line h).tlbDie = s.tlbDie := rfl
@[simp] theorem State.setHomeRec_walkDie (line : Nat) (h : HomeLine) : (s.setHomeRec line h).walkDie = s.walkDie := rfl
@[simp] theorem State.setHomeRec_walks (line : Nat) (h : HomeLine) : (s.setHomeRec line h).walks = s.walks := rfl
@[simp] theorem State.setHomeRec_xlat (line : Nat) (h : HomeLine) : (s.setHomeRec line h).xlat = s.xlat := rfl
@[simp] theorem State.setHomeRec_waits (line : Nat) (h : HomeLine) : (s.setHomeRec line h).waits = s.waits := rfl
@[simp] theorem State.setHomeRec_waitOrder (line : Nat) (h : HomeLine) : (s.setHomeRec line h).waitOrder = s.waitOrder := rfl
@[simp] theorem State.setHomeRec_heap (line : Nat) (h : HomeLine) : (s.setHomeRec line h).heap = s.heap := rfl
@[simp] theorem State.setHomeRec_exchange (line : Nat) (h : HomeLine) : (s.setHomeRec line h).exchange = s.exchange := rfl
@[simp] theorem State.setHomeRec_tdCache (line : Nat) (h : HomeLine) : (s.setHomeRec line h).tdCache = s.tdCache := rfl
@[simp] theorem State.setHomeRec_copies (line : Nat) (h : HomeLine) : (s.setHomeRec line h).copies = s.copies := rfl
@[simp] theorem State.setHomeRec_reqTurn (line : Nat) (h : HomeLine) : (s.setHomeRec line h).reqTurn = s.reqTurn := rfl
@[simp] theorem State.setHomeRec_bundles (line : Nat) (h : HomeLine) : (s.setHomeRec line h).bundles = s.bundles := rfl
@[simp] theorem State.setHomeRec_bunNew (line : Nat) (h : HomeLine) : (s.setHomeRec line h).bunNew = s.bunNew := rfl
@[simp] theorem State.setHomeRec_bunFreed (line : Nat) (h : HomeLine) : (s.setHomeRec line h).bunFreed = s.bunFreed := rfl
@[simp] theorem State.setHomeRec_notices (line : Nat) (h : HomeLine) : (s.setHomeRec line h).notices = s.notices := rfl
@[simp] theorem State.setHomeRec_queries (line : Nat) (h : HomeLine) : (s.setHomeRec line h).queries = s.queries := rfl
@[simp] theorem State.setHomeRec_answers (line : Nat) (h : HomeLine) : (s.setHomeRec line h).answers = s.answers := rfl
@[simp] theorem State.setHomeRec_ctxs (line : Nat) (h : HomeLine) : (s.setHomeRec line h).ctxs = s.ctxs := rfl
@[simp] theorem State.setHomeRec_inflight (line : Nat) (h : HomeLine) : (s.setHomeRec line h).inflight = s.inflight := rfl
@[simp] theorem State.setHomeRec_bins (line : Nat) (h : HomeLine) : (s.setHomeRec line h).bins = s.bins := rfl
@[simp] theorem State.setHomeRec_slots (line : Nat) (h : HomeLine) : (s.setHomeRec line h).slots = s.slots := rfl
@[simp] theorem State.setHomeRec_tails (line : Nat) (h : HomeLine) : (s.setHomeRec line h).tails = s.tails := rfl
@[simp] theorem State.setHomeRec_pend (line : Nat) (h : HomeLine) : (s.setHomeRec line h).pend = s.pend := rfl
@[simp] theorem State.setHomeRec_cmds (line : Nat) (h : HomeLine) : (s.setHomeRec line h).cmds = s.cmds := rfl
@[simp] theorem State.setHomeRec_quotas (line : Nat) (h : HomeLine) : (s.setHomeRec line h).quotas = s.quotas := rfl
@[simp] theorem State.setHomeRec_geoAge (line : Nat) (h : HomeLine) : (s.setHomeRec line h).geoAge = s.geoAge := rfl
@[simp] theorem State.setHomeRec_scenes (line : Nat) (h : HomeLine) : (s.setHomeRec line h).scenes = s.scenes := rfl
@[simp] theorem State.setHomeRec_rays (line : Nat) (h : HomeLine) : (s.setHomeRec line h).rays = s.rays := rfl
@[simp] theorem State.setHomeRec_contReqs (line : Nat) (h : HomeLine) : (s.setHomeRec line h).contReqs = s.contReqs := rfl
@[simp] theorem State.setHomeRec_rayOrder (line : Nat) (h : HomeLine) : (s.setHomeRec line h).rayOrder = s.rayOrder := rfl
@[simp] theorem State.setHomeRec_outOf (line : Nat) (h : HomeLine) : (s.setHomeRec line h).outOf = s.outOf := rfl
@[simp] theorem State.setHomeRec_dies (line : Nat) (h : HomeLine) : (s.setHomeRec line h).dies = s.dies := rfl
@[simp] theorem State.setHomeRec_evSeq (line : Nat) (h : HomeLine) : (s.setHomeRec line h).evSeq = s.evSeq := rfl
@[simp] theorem State.setHomeRec_evWait (line : Nat) (h : HomeLine) : (s.setHomeRec line h).evWait = s.evWait := rfl
@[simp] theorem State.setHomeRec_upcalls (line : Nat) (h : HomeLine) : (s.setHomeRec line h).upcalls = s.upcalls := rfl
@[simp] theorem State.setHomeRec_frecs (line : Nat) (h : HomeLine) : (s.setHomeRec line h).frecs = s.frecs := rfl
@[simp] theorem State.setHomeRec_outTeams (line : Nat) (h : HomeLine) : (s.setHomeRec line h).outTeams = s.outTeams := rfl
@[simp] theorem State.setHomeRec_links (line : Nat) (h : HomeLine) : (s.setHomeRec line h).links = s.links := rfl
@[simp] theorem State.setHomeRec_plat (line : Nat) (h : HomeLine) : (s.setHomeRec line h).plat = s.plat := rfl
@[simp] theorem State.setHomeRec_bus (line : Nat) (h : HomeLine) : (s.setHomeRec line h).bus = s.bus := rfl

@[simp] theorem State.setHart_turns (h : Nat) (x : Hart) : (s.setHart h x).turns = s.turns := rfl
@[simp] theorem State.setHart_cur (h : Nat) (x : Hart) : (s.setHart h x).cur = s.cur := rfl
@[simp] theorem State.setHart_hand (h : Nat) (x : Hart) : (s.setHart h x).hand = s.hand := rfl
@[simp] theorem State.setHart_fresh (h : Nat) (x : Hart) : (s.setHart h x).fresh = s.fresh := rfl
@[simp] theorem State.setHart_pairV (h : Nat) (x : Hart) : (s.setHart h x).pairV = s.pairV := rfl
@[simp] theorem State.setHart_cycle (h : Nat) (x : Hart) : (s.setHart h x).cycle = s.cycle := rfl
@[simp] theorem State.setHart_mem (h : Nat) (x : Hart) : (s.setHart h x).mem = s.mem := rfl
@[simp] theorem State.setHart_poison (h : Nat) (x : Hart) : (s.setHart h x).poison = s.poison := rfl
@[simp] theorem State.setHart_homes (h : Nat) (x : Hart) : (s.setHart h x).homes = s.homes := rfl
@[simp] theorem State.setHart_memts (h : Nat) (x : Hart) : (s.setHart h x).memts = s.memts := rfl
@[simp] theorem State.setHart_proxies (h : Nat) (x : Hart) : (s.setHart h x).proxies = s.proxies := rfl
@[simp] theorem State.setHart_devPts (h : Nat) (x : Hart) : (s.setHart h x).devPts = s.devPts := rfl
@[simp] theorem State.setHart_reqs (h : Nat) (x : Hart) : (s.setHart h x).reqs = s.reqs := rfl
@[simp] theorem State.setHart_regOut (h : Nat) (x : Hart) : (s.setHart h x).regOut = s.regOut := rfl
@[simp] theorem State.setHart_spillOut (h : Nat) (x : Hart) : (s.setHart h x).spillOut = s.spillOut := rfl
@[simp] theorem State.setHart_storeOut (h : Nat) (x : Hart) : (s.setHart h x).storeOut = s.storeOut := rfl
@[simp] theorem State.setHart_msgs (h : Nat) (x : Hart) : (s.setHart h x).msgs = s.msgs := rfl
@[simp] theorem State.setHart_cores (h : Nat) (x : Hart) : (s.setHart h x).cores = s.cores := rfl
@[simp] theorem State.setHart_fused (h : Nat) (x : Hart) : (s.setHart h x).fused = s.fused := rfl
@[simp] theorem State.setHart_groups (h : Nat) (x : Hart) : (s.setHart h x).groups = s.groups := rfl
@[simp] theorem State.setHart_teams (h : Nat) (x : Hart) : (s.setHart h x).teams = s.teams := rfl
@[simp] theorem State.setHart_seqs (h : Nat) (x : Hart) : (s.setHart h x).seqs = s.seqs := rfl
@[simp] theorem State.setHart_harts (h : Nat) (x : Hart) : (s.setHart h x).harts = s.harts.put h x := rfl
@[simp] theorem State.setHart_tlbCore (h : Nat) (x : Hart) : (s.setHart h x).tlbCore = s.tlbCore := rfl
@[simp] theorem State.setHart_tlbCluster (h : Nat) (x : Hart) : (s.setHart h x).tlbCluster = s.tlbCluster := rfl
@[simp] theorem State.setHart_tlbDie (h : Nat) (x : Hart) : (s.setHart h x).tlbDie = s.tlbDie := rfl
@[simp] theorem State.setHart_walkDie (h : Nat) (x : Hart) : (s.setHart h x).walkDie = s.walkDie := rfl
@[simp] theorem State.setHart_walks (h : Nat) (x : Hart) : (s.setHart h x).walks = s.walks := rfl
@[simp] theorem State.setHart_xlat (h : Nat) (x : Hart) : (s.setHart h x).xlat = s.xlat := rfl
@[simp] theorem State.setHart_waits (h : Nat) (x : Hart) : (s.setHart h x).waits = s.waits := rfl
@[simp] theorem State.setHart_waitOrder (h : Nat) (x : Hart) : (s.setHart h x).waitOrder = s.waitOrder := rfl
@[simp] theorem State.setHart_heap (h : Nat) (x : Hart) : (s.setHart h x).heap = s.heap := rfl
@[simp] theorem State.setHart_exchange (h : Nat) (x : Hart) : (s.setHart h x).exchange = s.exchange := rfl
@[simp] theorem State.setHart_tdCache (h : Nat) (x : Hart) : (s.setHart h x).tdCache = s.tdCache := rfl
@[simp] theorem State.setHart_copies (h : Nat) (x : Hart) : (s.setHart h x).copies = s.copies := rfl
@[simp] theorem State.setHart_reqTurn (h : Nat) (x : Hart) : (s.setHart h x).reqTurn = s.reqTurn := rfl
@[simp] theorem State.setHart_bundles (h : Nat) (x : Hart) : (s.setHart h x).bundles = s.bundles := rfl
@[simp] theorem State.setHart_bunNew (h : Nat) (x : Hart) : (s.setHart h x).bunNew = s.bunNew := rfl
@[simp] theorem State.setHart_bunFreed (h : Nat) (x : Hart) : (s.setHart h x).bunFreed = s.bunFreed := rfl
@[simp] theorem State.setHart_notices (h : Nat) (x : Hart) : (s.setHart h x).notices = s.notices := rfl
@[simp] theorem State.setHart_queries (h : Nat) (x : Hart) : (s.setHart h x).queries = s.queries := rfl
@[simp] theorem State.setHart_answers (h : Nat) (x : Hart) : (s.setHart h x).answers = s.answers := rfl
@[simp] theorem State.setHart_ctxs (h : Nat) (x : Hart) : (s.setHart h x).ctxs = s.ctxs := rfl
@[simp] theorem State.setHart_inflight (h : Nat) (x : Hart) : (s.setHart h x).inflight = s.inflight := rfl
@[simp] theorem State.setHart_bins (h : Nat) (x : Hart) : (s.setHart h x).bins = s.bins := rfl
@[simp] theorem State.setHart_slots (h : Nat) (x : Hart) : (s.setHart h x).slots = s.slots := rfl
@[simp] theorem State.setHart_tails (h : Nat) (x : Hart) : (s.setHart h x).tails = s.tails := rfl
@[simp] theorem State.setHart_pend (h : Nat) (x : Hart) : (s.setHart h x).pend = s.pend := rfl
@[simp] theorem State.setHart_cmds (h : Nat) (x : Hart) : (s.setHart h x).cmds = s.cmds := rfl
@[simp] theorem State.setHart_quotas (h : Nat) (x : Hart) : (s.setHart h x).quotas = s.quotas := rfl
@[simp] theorem State.setHart_geoAge (h : Nat) (x : Hart) : (s.setHart h x).geoAge = s.geoAge := rfl
@[simp] theorem State.setHart_scenes (h : Nat) (x : Hart) : (s.setHart h x).scenes = s.scenes := rfl
@[simp] theorem State.setHart_rays (h : Nat) (x : Hart) : (s.setHart h x).rays = s.rays := rfl
@[simp] theorem State.setHart_contReqs (h : Nat) (x : Hart) : (s.setHart h x).contReqs = s.contReqs := rfl
@[simp] theorem State.setHart_rayOrder (h : Nat) (x : Hart) : (s.setHart h x).rayOrder = s.rayOrder := rfl
@[simp] theorem State.setHart_outOf (h : Nat) (x : Hart) : (s.setHart h x).outOf = s.outOf := rfl
@[simp] theorem State.setHart_dies (h : Nat) (x : Hart) : (s.setHart h x).dies = s.dies := rfl
@[simp] theorem State.setHart_evSeq (h : Nat) (x : Hart) : (s.setHart h x).evSeq = s.evSeq := rfl
@[simp] theorem State.setHart_evWait (h : Nat) (x : Hart) : (s.setHart h x).evWait = s.evWait := rfl
@[simp] theorem State.setHart_upcalls (h : Nat) (x : Hart) : (s.setHart h x).upcalls = s.upcalls := rfl
@[simp] theorem State.setHart_frecs (h : Nat) (x : Hart) : (s.setHart h x).frecs = s.frecs := rfl
@[simp] theorem State.setHart_outTeams (h : Nat) (x : Hart) : (s.setHart h x).outTeams = s.outTeams := rfl
@[simp] theorem State.setHart_links (h : Nat) (x : Hart) : (s.setHart h x).links = s.links := rfl
@[simp] theorem State.setHart_plat (h : Nat) (x : Hart) : (s.setHart h x).plat = s.plat := rfl
@[simp] theorem State.setHart_bus (h : Nat) (x : Hart) : (s.setHart h x).bus = s.bus := rfl

@[simp] theorem State.updHart_turns (h : Nat) (f : Hart → Hart) : (s.updHart h f).turns = s.turns := rfl
@[simp] theorem State.updHart_cur (h : Nat) (f : Hart → Hart) : (s.updHart h f).cur = s.cur := rfl
@[simp] theorem State.updHart_hand (h : Nat) (f : Hart → Hart) : (s.updHart h f).hand = s.hand := rfl
@[simp] theorem State.updHart_fresh (h : Nat) (f : Hart → Hart) : (s.updHart h f).fresh = s.fresh := rfl
@[simp] theorem State.updHart_pairV (h : Nat) (f : Hart → Hart) : (s.updHart h f).pairV = s.pairV := rfl
@[simp] theorem State.updHart_cycle (h : Nat) (f : Hart → Hart) : (s.updHart h f).cycle = s.cycle := rfl
@[simp] theorem State.updHart_mem (h : Nat) (f : Hart → Hart) : (s.updHart h f).mem = s.mem := rfl
@[simp] theorem State.updHart_poison (h : Nat) (f : Hart → Hart) : (s.updHart h f).poison = s.poison := rfl
@[simp] theorem State.updHart_homes (h : Nat) (f : Hart → Hart) : (s.updHart h f).homes = s.homes := rfl
@[simp] theorem State.updHart_memts (h : Nat) (f : Hart → Hart) : (s.updHart h f).memts = s.memts := rfl
@[simp] theorem State.updHart_proxies (h : Nat) (f : Hart → Hart) : (s.updHart h f).proxies = s.proxies := rfl
@[simp] theorem State.updHart_devPts (h : Nat) (f : Hart → Hart) : (s.updHart h f).devPts = s.devPts := rfl
@[simp] theorem State.updHart_reqs (h : Nat) (f : Hart → Hart) : (s.updHart h f).reqs = s.reqs := rfl
@[simp] theorem State.updHart_regOut (h : Nat) (f : Hart → Hart) : (s.updHart h f).regOut = s.regOut := rfl
@[simp] theorem State.updHart_spillOut (h : Nat) (f : Hart → Hart) : (s.updHart h f).spillOut = s.spillOut := rfl
@[simp] theorem State.updHart_storeOut (h : Nat) (f : Hart → Hart) : (s.updHart h f).storeOut = s.storeOut := rfl
@[simp] theorem State.updHart_msgs (h : Nat) (f : Hart → Hart) : (s.updHart h f).msgs = s.msgs := rfl
@[simp] theorem State.updHart_cores (h : Nat) (f : Hart → Hart) : (s.updHart h f).cores = s.cores := rfl
@[simp] theorem State.updHart_fused (h : Nat) (f : Hart → Hart) : (s.updHart h f).fused = s.fused := rfl
@[simp] theorem State.updHart_groups (h : Nat) (f : Hart → Hart) : (s.updHart h f).groups = s.groups := rfl
@[simp] theorem State.updHart_teams (h : Nat) (f : Hart → Hart) : (s.updHart h f).teams = s.teams := rfl
@[simp] theorem State.updHart_seqs (h : Nat) (f : Hart → Hart) : (s.updHart h f).seqs = s.seqs := rfl
@[simp] theorem State.updHart_harts (h : Nat) (f : Hart → Hart) : (s.updHart h f).harts = s.harts.put h (f (s.hart h)) := rfl
@[simp] theorem State.updHart_tlbCore (h : Nat) (f : Hart → Hart) : (s.updHart h f).tlbCore = s.tlbCore := rfl
@[simp] theorem State.updHart_tlbCluster (h : Nat) (f : Hart → Hart) : (s.updHart h f).tlbCluster = s.tlbCluster := rfl
@[simp] theorem State.updHart_tlbDie (h : Nat) (f : Hart → Hart) : (s.updHart h f).tlbDie = s.tlbDie := rfl
@[simp] theorem State.updHart_walkDie (h : Nat) (f : Hart → Hart) : (s.updHart h f).walkDie = s.walkDie := rfl
@[simp] theorem State.updHart_walks (h : Nat) (f : Hart → Hart) : (s.updHart h f).walks = s.walks := rfl
@[simp] theorem State.updHart_xlat (h : Nat) (f : Hart → Hart) : (s.updHart h f).xlat = s.xlat := rfl
@[simp] theorem State.updHart_waits (h : Nat) (f : Hart → Hart) : (s.updHart h f).waits = s.waits := rfl
@[simp] theorem State.updHart_waitOrder (h : Nat) (f : Hart → Hart) : (s.updHart h f).waitOrder = s.waitOrder := rfl
@[simp] theorem State.updHart_heap (h : Nat) (f : Hart → Hart) : (s.updHart h f).heap = s.heap := rfl
@[simp] theorem State.updHart_exchange (h : Nat) (f : Hart → Hart) : (s.updHart h f).exchange = s.exchange := rfl
@[simp] theorem State.updHart_tdCache (h : Nat) (f : Hart → Hart) : (s.updHart h f).tdCache = s.tdCache := rfl
@[simp] theorem State.updHart_copies (h : Nat) (f : Hart → Hart) : (s.updHart h f).copies = s.copies := rfl
@[simp] theorem State.updHart_reqTurn (h : Nat) (f : Hart → Hart) : (s.updHart h f).reqTurn = s.reqTurn := rfl
@[simp] theorem State.updHart_bundles (h : Nat) (f : Hart → Hart) : (s.updHart h f).bundles = s.bundles := rfl
@[simp] theorem State.updHart_bunNew (h : Nat) (f : Hart → Hart) : (s.updHart h f).bunNew = s.bunNew := rfl
@[simp] theorem State.updHart_bunFreed (h : Nat) (f : Hart → Hart) : (s.updHart h f).bunFreed = s.bunFreed := rfl
@[simp] theorem State.updHart_notices (h : Nat) (f : Hart → Hart) : (s.updHart h f).notices = s.notices := rfl
@[simp] theorem State.updHart_queries (h : Nat) (f : Hart → Hart) : (s.updHart h f).queries = s.queries := rfl
@[simp] theorem State.updHart_answers (h : Nat) (f : Hart → Hart) : (s.updHart h f).answers = s.answers := rfl
@[simp] theorem State.updHart_ctxs (h : Nat) (f : Hart → Hart) : (s.updHart h f).ctxs = s.ctxs := rfl
@[simp] theorem State.updHart_inflight (h : Nat) (f : Hart → Hart) : (s.updHart h f).inflight = s.inflight := rfl
@[simp] theorem State.updHart_bins (h : Nat) (f : Hart → Hart) : (s.updHart h f).bins = s.bins := rfl
@[simp] theorem State.updHart_slots (h : Nat) (f : Hart → Hart) : (s.updHart h f).slots = s.slots := rfl
@[simp] theorem State.updHart_tails (h : Nat) (f : Hart → Hart) : (s.updHart h f).tails = s.tails := rfl
@[simp] theorem State.updHart_pend (h : Nat) (f : Hart → Hart) : (s.updHart h f).pend = s.pend := rfl
@[simp] theorem State.updHart_cmds (h : Nat) (f : Hart → Hart) : (s.updHart h f).cmds = s.cmds := rfl
@[simp] theorem State.updHart_quotas (h : Nat) (f : Hart → Hart) : (s.updHart h f).quotas = s.quotas := rfl
@[simp] theorem State.updHart_geoAge (h : Nat) (f : Hart → Hart) : (s.updHart h f).geoAge = s.geoAge := rfl
@[simp] theorem State.updHart_scenes (h : Nat) (f : Hart → Hart) : (s.updHart h f).scenes = s.scenes := rfl
@[simp] theorem State.updHart_rays (h : Nat) (f : Hart → Hart) : (s.updHart h f).rays = s.rays := rfl
@[simp] theorem State.updHart_contReqs (h : Nat) (f : Hart → Hart) : (s.updHart h f).contReqs = s.contReqs := rfl
@[simp] theorem State.updHart_rayOrder (h : Nat) (f : Hart → Hart) : (s.updHart h f).rayOrder = s.rayOrder := rfl
@[simp] theorem State.updHart_outOf (h : Nat) (f : Hart → Hart) : (s.updHart h f).outOf = s.outOf := rfl
@[simp] theorem State.updHart_dies (h : Nat) (f : Hart → Hart) : (s.updHart h f).dies = s.dies := rfl
@[simp] theorem State.updHart_evSeq (h : Nat) (f : Hart → Hart) : (s.updHart h f).evSeq = s.evSeq := rfl
@[simp] theorem State.updHart_evWait (h : Nat) (f : Hart → Hart) : (s.updHart h f).evWait = s.evWait := rfl
@[simp] theorem State.updHart_upcalls (h : Nat) (f : Hart → Hart) : (s.updHart h f).upcalls = s.upcalls := rfl
@[simp] theorem State.updHart_frecs (h : Nat) (f : Hart → Hart) : (s.updHart h f).frecs = s.frecs := rfl
@[simp] theorem State.updHart_outTeams (h : Nat) (f : Hart → Hart) : (s.updHart h f).outTeams = s.outTeams := rfl
@[simp] theorem State.updHart_links (h : Nat) (f : Hart → Hart) : (s.updHart h f).links = s.links := rfl
@[simp] theorem State.updHart_plat (h : Nat) (f : Hart → Hart) : (s.updHart h f).plat = s.plat := rfl
@[simp] theorem State.updHart_bus (h : Nat) (f : Hart → Hart) : (s.updHart h f).bus = s.bus := rfl

@[simp] theorem State.setGroup_turns (k : Nat) (g : Group) : (s.setGroup k g).turns = s.turns := rfl
@[simp] theorem State.setGroup_cur (k : Nat) (g : Group) : (s.setGroup k g).cur = s.cur := rfl
@[simp] theorem State.setGroup_hand (k : Nat) (g : Group) : (s.setGroup k g).hand = s.hand := rfl
@[simp] theorem State.setGroup_fresh (k : Nat) (g : Group) : (s.setGroup k g).fresh = s.fresh := rfl
@[simp] theorem State.setGroup_pairV (k : Nat) (g : Group) : (s.setGroup k g).pairV = s.pairV := rfl
@[simp] theorem State.setGroup_cycle (k : Nat) (g : Group) : (s.setGroup k g).cycle = s.cycle := rfl
@[simp] theorem State.setGroup_mem (k : Nat) (g : Group) : (s.setGroup k g).mem = s.mem := rfl
@[simp] theorem State.setGroup_poison (k : Nat) (g : Group) : (s.setGroup k g).poison = s.poison := rfl
@[simp] theorem State.setGroup_homes (k : Nat) (g : Group) : (s.setGroup k g).homes = s.homes := rfl
@[simp] theorem State.setGroup_memts (k : Nat) (g : Group) : (s.setGroup k g).memts = s.memts := rfl
@[simp] theorem State.setGroup_proxies (k : Nat) (g : Group) : (s.setGroup k g).proxies = s.proxies := rfl
@[simp] theorem State.setGroup_devPts (k : Nat) (g : Group) : (s.setGroup k g).devPts = s.devPts := rfl
@[simp] theorem State.setGroup_reqs (k : Nat) (g : Group) : (s.setGroup k g).reqs = s.reqs := rfl
@[simp] theorem State.setGroup_regOut (k : Nat) (g : Group) : (s.setGroup k g).regOut = s.regOut := rfl
@[simp] theorem State.setGroup_spillOut (k : Nat) (g : Group) : (s.setGroup k g).spillOut = s.spillOut := rfl
@[simp] theorem State.setGroup_storeOut (k : Nat) (g : Group) : (s.setGroup k g).storeOut = s.storeOut := rfl
@[simp] theorem State.setGroup_msgs (k : Nat) (g : Group) : (s.setGroup k g).msgs = s.msgs := rfl
@[simp] theorem State.setGroup_cores (k : Nat) (g : Group) : (s.setGroup k g).cores = s.cores := rfl
@[simp] theorem State.setGroup_fused (k : Nat) (g : Group) : (s.setGroup k g).fused = s.fused := rfl
@[simp] theorem State.setGroup_groups (k : Nat) (g : Group) : (s.setGroup k g).groups = s.groups.put k g := rfl
@[simp] theorem State.setGroup_teams (k : Nat) (g : Group) : (s.setGroup k g).teams = s.teams := rfl
@[simp] theorem State.setGroup_seqs (k : Nat) (g : Group) : (s.setGroup k g).seqs = s.seqs := rfl
@[simp] theorem State.setGroup_harts (k : Nat) (g : Group) : (s.setGroup k g).harts = s.harts := rfl
@[simp] theorem State.setGroup_tlbCore (k : Nat) (g : Group) : (s.setGroup k g).tlbCore = s.tlbCore := rfl
@[simp] theorem State.setGroup_tlbCluster (k : Nat) (g : Group) : (s.setGroup k g).tlbCluster = s.tlbCluster := rfl
@[simp] theorem State.setGroup_tlbDie (k : Nat) (g : Group) : (s.setGroup k g).tlbDie = s.tlbDie := rfl
@[simp] theorem State.setGroup_walkDie (k : Nat) (g : Group) : (s.setGroup k g).walkDie = s.walkDie := rfl
@[simp] theorem State.setGroup_walks (k : Nat) (g : Group) : (s.setGroup k g).walks = s.walks := rfl
@[simp] theorem State.setGroup_xlat (k : Nat) (g : Group) : (s.setGroup k g).xlat = s.xlat := rfl
@[simp] theorem State.setGroup_waits (k : Nat) (g : Group) : (s.setGroup k g).waits = s.waits := rfl
@[simp] theorem State.setGroup_waitOrder (k : Nat) (g : Group) : (s.setGroup k g).waitOrder = s.waitOrder := rfl
@[simp] theorem State.setGroup_heap (k : Nat) (g : Group) : (s.setGroup k g).heap = s.heap := rfl
@[simp] theorem State.setGroup_exchange (k : Nat) (g : Group) : (s.setGroup k g).exchange = s.exchange := rfl
@[simp] theorem State.setGroup_tdCache (k : Nat) (g : Group) : (s.setGroup k g).tdCache = s.tdCache := rfl
@[simp] theorem State.setGroup_copies (k : Nat) (g : Group) : (s.setGroup k g).copies = s.copies := rfl
@[simp] theorem State.setGroup_reqTurn (k : Nat) (g : Group) : (s.setGroup k g).reqTurn = s.reqTurn := rfl
@[simp] theorem State.setGroup_bundles (k : Nat) (g : Group) : (s.setGroup k g).bundles = s.bundles := rfl
@[simp] theorem State.setGroup_bunNew (k : Nat) (g : Group) : (s.setGroup k g).bunNew = s.bunNew := rfl
@[simp] theorem State.setGroup_bunFreed (k : Nat) (g : Group) : (s.setGroup k g).bunFreed = s.bunFreed := rfl
@[simp] theorem State.setGroup_notices (k : Nat) (g : Group) : (s.setGroup k g).notices = s.notices := rfl
@[simp] theorem State.setGroup_queries (k : Nat) (g : Group) : (s.setGroup k g).queries = s.queries := rfl
@[simp] theorem State.setGroup_answers (k : Nat) (g : Group) : (s.setGroup k g).answers = s.answers := rfl
@[simp] theorem State.setGroup_ctxs (k : Nat) (g : Group) : (s.setGroup k g).ctxs = s.ctxs := rfl
@[simp] theorem State.setGroup_inflight (k : Nat) (g : Group) : (s.setGroup k g).inflight = s.inflight := rfl
@[simp] theorem State.setGroup_bins (k : Nat) (g : Group) : (s.setGroup k g).bins = s.bins := rfl
@[simp] theorem State.setGroup_slots (k : Nat) (g : Group) : (s.setGroup k g).slots = s.slots := rfl
@[simp] theorem State.setGroup_tails (k : Nat) (g : Group) : (s.setGroup k g).tails = s.tails := rfl
@[simp] theorem State.setGroup_pend (k : Nat) (g : Group) : (s.setGroup k g).pend = s.pend := rfl
@[simp] theorem State.setGroup_cmds (k : Nat) (g : Group) : (s.setGroup k g).cmds = s.cmds := rfl
@[simp] theorem State.setGroup_quotas (k : Nat) (g : Group) : (s.setGroup k g).quotas = s.quotas := rfl
@[simp] theorem State.setGroup_geoAge (k : Nat) (g : Group) : (s.setGroup k g).geoAge = s.geoAge := rfl
@[simp] theorem State.setGroup_scenes (k : Nat) (g : Group) : (s.setGroup k g).scenes = s.scenes := rfl
@[simp] theorem State.setGroup_rays (k : Nat) (g : Group) : (s.setGroup k g).rays = s.rays := rfl
@[simp] theorem State.setGroup_contReqs (k : Nat) (g : Group) : (s.setGroup k g).contReqs = s.contReqs := rfl
@[simp] theorem State.setGroup_rayOrder (k : Nat) (g : Group) : (s.setGroup k g).rayOrder = s.rayOrder := rfl
@[simp] theorem State.setGroup_outOf (k : Nat) (g : Group) : (s.setGroup k g).outOf = s.outOf := rfl
@[simp] theorem State.setGroup_dies (k : Nat) (g : Group) : (s.setGroup k g).dies = s.dies := rfl
@[simp] theorem State.setGroup_evSeq (k : Nat) (g : Group) : (s.setGroup k g).evSeq = s.evSeq := rfl
@[simp] theorem State.setGroup_evWait (k : Nat) (g : Group) : (s.setGroup k g).evWait = s.evWait := rfl
@[simp] theorem State.setGroup_upcalls (k : Nat) (g : Group) : (s.setGroup k g).upcalls = s.upcalls := rfl
@[simp] theorem State.setGroup_frecs (k : Nat) (g : Group) : (s.setGroup k g).frecs = s.frecs := rfl
@[simp] theorem State.setGroup_outTeams (k : Nat) (g : Group) : (s.setGroup k g).outTeams = s.outTeams := rfl
@[simp] theorem State.setGroup_links (k : Nat) (g : Group) : (s.setGroup k g).links = s.links := rfl
@[simp] theorem State.setGroup_plat (k : Nat) (g : Group) : (s.setGroup k g).plat = s.plat := rfl
@[simp] theorem State.setGroup_bus (k : Nat) (g : Group) : (s.setGroup k g).bus = s.bus := rfl

@[simp] theorem State.updGroup_turns (k : Nat) (f : Group → Group) : (s.updGroup k f).turns = s.turns := rfl
@[simp] theorem State.updGroup_cur (k : Nat) (f : Group → Group) : (s.updGroup k f).cur = s.cur := rfl
@[simp] theorem State.updGroup_hand (k : Nat) (f : Group → Group) : (s.updGroup k f).hand = s.hand := rfl
@[simp] theorem State.updGroup_fresh (k : Nat) (f : Group → Group) : (s.updGroup k f).fresh = s.fresh := rfl
@[simp] theorem State.updGroup_pairV (k : Nat) (f : Group → Group) : (s.updGroup k f).pairV = s.pairV := rfl
@[simp] theorem State.updGroup_cycle (k : Nat) (f : Group → Group) : (s.updGroup k f).cycle = s.cycle := rfl
@[simp] theorem State.updGroup_mem (k : Nat) (f : Group → Group) : (s.updGroup k f).mem = s.mem := rfl
@[simp] theorem State.updGroup_poison (k : Nat) (f : Group → Group) : (s.updGroup k f).poison = s.poison := rfl
@[simp] theorem State.updGroup_homes (k : Nat) (f : Group → Group) : (s.updGroup k f).homes = s.homes := rfl
@[simp] theorem State.updGroup_memts (k : Nat) (f : Group → Group) : (s.updGroup k f).memts = s.memts := rfl
@[simp] theorem State.updGroup_proxies (k : Nat) (f : Group → Group) : (s.updGroup k f).proxies = s.proxies := rfl
@[simp] theorem State.updGroup_devPts (k : Nat) (f : Group → Group) : (s.updGroup k f).devPts = s.devPts := rfl
@[simp] theorem State.updGroup_reqs (k : Nat) (f : Group → Group) : (s.updGroup k f).reqs = s.reqs := rfl
@[simp] theorem State.updGroup_regOut (k : Nat) (f : Group → Group) : (s.updGroup k f).regOut = s.regOut := rfl
@[simp] theorem State.updGroup_spillOut (k : Nat) (f : Group → Group) : (s.updGroup k f).spillOut = s.spillOut := rfl
@[simp] theorem State.updGroup_storeOut (k : Nat) (f : Group → Group) : (s.updGroup k f).storeOut = s.storeOut := rfl
@[simp] theorem State.updGroup_msgs (k : Nat) (f : Group → Group) : (s.updGroup k f).msgs = s.msgs := rfl
@[simp] theorem State.updGroup_cores (k : Nat) (f : Group → Group) : (s.updGroup k f).cores = s.cores := rfl
@[simp] theorem State.updGroup_fused (k : Nat) (f : Group → Group) : (s.updGroup k f).fused = s.fused := rfl
@[simp] theorem State.updGroup_groups (k : Nat) (f : Group → Group) : (s.updGroup k f).groups = s.groups.upd k f := rfl
@[simp] theorem State.updGroup_teams (k : Nat) (f : Group → Group) : (s.updGroup k f).teams = s.teams := rfl
@[simp] theorem State.updGroup_seqs (k : Nat) (f : Group → Group) : (s.updGroup k f).seqs = s.seqs := rfl
@[simp] theorem State.updGroup_harts (k : Nat) (f : Group → Group) : (s.updGroup k f).harts = s.harts := rfl
@[simp] theorem State.updGroup_tlbCore (k : Nat) (f : Group → Group) : (s.updGroup k f).tlbCore = s.tlbCore := rfl
@[simp] theorem State.updGroup_tlbCluster (k : Nat) (f : Group → Group) : (s.updGroup k f).tlbCluster = s.tlbCluster := rfl
@[simp] theorem State.updGroup_tlbDie (k : Nat) (f : Group → Group) : (s.updGroup k f).tlbDie = s.tlbDie := rfl
@[simp] theorem State.updGroup_walkDie (k : Nat) (f : Group → Group) : (s.updGroup k f).walkDie = s.walkDie := rfl
@[simp] theorem State.updGroup_walks (k : Nat) (f : Group → Group) : (s.updGroup k f).walks = s.walks := rfl
@[simp] theorem State.updGroup_xlat (k : Nat) (f : Group → Group) : (s.updGroup k f).xlat = s.xlat := rfl
@[simp] theorem State.updGroup_waits (k : Nat) (f : Group → Group) : (s.updGroup k f).waits = s.waits := rfl
@[simp] theorem State.updGroup_waitOrder (k : Nat) (f : Group → Group) : (s.updGroup k f).waitOrder = s.waitOrder := rfl
@[simp] theorem State.updGroup_heap (k : Nat) (f : Group → Group) : (s.updGroup k f).heap = s.heap := rfl
@[simp] theorem State.updGroup_exchange (k : Nat) (f : Group → Group) : (s.updGroup k f).exchange = s.exchange := rfl
@[simp] theorem State.updGroup_tdCache (k : Nat) (f : Group → Group) : (s.updGroup k f).tdCache = s.tdCache := rfl
@[simp] theorem State.updGroup_copies (k : Nat) (f : Group → Group) : (s.updGroup k f).copies = s.copies := rfl
@[simp] theorem State.updGroup_reqTurn (k : Nat) (f : Group → Group) : (s.updGroup k f).reqTurn = s.reqTurn := rfl
@[simp] theorem State.updGroup_bundles (k : Nat) (f : Group → Group) : (s.updGroup k f).bundles = s.bundles := rfl
@[simp] theorem State.updGroup_bunNew (k : Nat) (f : Group → Group) : (s.updGroup k f).bunNew = s.bunNew := rfl
@[simp] theorem State.updGroup_bunFreed (k : Nat) (f : Group → Group) : (s.updGroup k f).bunFreed = s.bunFreed := rfl
@[simp] theorem State.updGroup_notices (k : Nat) (f : Group → Group) : (s.updGroup k f).notices = s.notices := rfl
@[simp] theorem State.updGroup_queries (k : Nat) (f : Group → Group) : (s.updGroup k f).queries = s.queries := rfl
@[simp] theorem State.updGroup_answers (k : Nat) (f : Group → Group) : (s.updGroup k f).answers = s.answers := rfl
@[simp] theorem State.updGroup_ctxs (k : Nat) (f : Group → Group) : (s.updGroup k f).ctxs = s.ctxs := rfl
@[simp] theorem State.updGroup_inflight (k : Nat) (f : Group → Group) : (s.updGroup k f).inflight = s.inflight := rfl
@[simp] theorem State.updGroup_bins (k : Nat) (f : Group → Group) : (s.updGroup k f).bins = s.bins := rfl
@[simp] theorem State.updGroup_slots (k : Nat) (f : Group → Group) : (s.updGroup k f).slots = s.slots := rfl
@[simp] theorem State.updGroup_tails (k : Nat) (f : Group → Group) : (s.updGroup k f).tails = s.tails := rfl
@[simp] theorem State.updGroup_pend (k : Nat) (f : Group → Group) : (s.updGroup k f).pend = s.pend := rfl
@[simp] theorem State.updGroup_cmds (k : Nat) (f : Group → Group) : (s.updGroup k f).cmds = s.cmds := rfl
@[simp] theorem State.updGroup_quotas (k : Nat) (f : Group → Group) : (s.updGroup k f).quotas = s.quotas := rfl
@[simp] theorem State.updGroup_geoAge (k : Nat) (f : Group → Group) : (s.updGroup k f).geoAge = s.geoAge := rfl
@[simp] theorem State.updGroup_scenes (k : Nat) (f : Group → Group) : (s.updGroup k f).scenes = s.scenes := rfl
@[simp] theorem State.updGroup_rays (k : Nat) (f : Group → Group) : (s.updGroup k f).rays = s.rays := rfl
@[simp] theorem State.updGroup_contReqs (k : Nat) (f : Group → Group) : (s.updGroup k f).contReqs = s.contReqs := rfl
@[simp] theorem State.updGroup_rayOrder (k : Nat) (f : Group → Group) : (s.updGroup k f).rayOrder = s.rayOrder := rfl
@[simp] theorem State.updGroup_outOf (k : Nat) (f : Group → Group) : (s.updGroup k f).outOf = s.outOf := rfl
@[simp] theorem State.updGroup_dies (k : Nat) (f : Group → Group) : (s.updGroup k f).dies = s.dies := rfl
@[simp] theorem State.updGroup_evSeq (k : Nat) (f : Group → Group) : (s.updGroup k f).evSeq = s.evSeq := rfl
@[simp] theorem State.updGroup_evWait (k : Nat) (f : Group → Group) : (s.updGroup k f).evWait = s.evWait := rfl
@[simp] theorem State.updGroup_upcalls (k : Nat) (f : Group → Group) : (s.updGroup k f).upcalls = s.upcalls := rfl
@[simp] theorem State.updGroup_frecs (k : Nat) (f : Group → Group) : (s.updGroup k f).frecs = s.frecs := rfl
@[simp] theorem State.updGroup_outTeams (k : Nat) (f : Group → Group) : (s.updGroup k f).outTeams = s.outTeams := rfl
@[simp] theorem State.updGroup_links (k : Nat) (f : Group → Group) : (s.updGroup k f).links = s.links := rfl
@[simp] theorem State.updGroup_plat (k : Nat) (f : Group → Group) : (s.updGroup k f).plat = s.plat := rfl
@[simp] theorem State.updGroup_bus (k : Nat) (f : Group → Group) : (s.updGroup k f).bus = s.bus := rfl

@[simp] theorem State.updTeam_turns (t : Nat) (f : Team → Team) : (s.updTeam t f).turns = s.turns := rfl
@[simp] theorem State.updTeam_cur (t : Nat) (f : Team → Team) : (s.updTeam t f).cur = s.cur := rfl
@[simp] theorem State.updTeam_hand (t : Nat) (f : Team → Team) : (s.updTeam t f).hand = s.hand := rfl
@[simp] theorem State.updTeam_fresh (t : Nat) (f : Team → Team) : (s.updTeam t f).fresh = s.fresh := rfl
@[simp] theorem State.updTeam_pairV (t : Nat) (f : Team → Team) : (s.updTeam t f).pairV = s.pairV := rfl
@[simp] theorem State.updTeam_cycle (t : Nat) (f : Team → Team) : (s.updTeam t f).cycle = s.cycle := rfl
@[simp] theorem State.updTeam_mem (t : Nat) (f : Team → Team) : (s.updTeam t f).mem = s.mem := rfl
@[simp] theorem State.updTeam_poison (t : Nat) (f : Team → Team) : (s.updTeam t f).poison = s.poison := rfl
@[simp] theorem State.updTeam_homes (t : Nat) (f : Team → Team) : (s.updTeam t f).homes = s.homes := rfl
@[simp] theorem State.updTeam_memts (t : Nat) (f : Team → Team) : (s.updTeam t f).memts = s.memts := rfl
@[simp] theorem State.updTeam_proxies (t : Nat) (f : Team → Team) : (s.updTeam t f).proxies = s.proxies := rfl
@[simp] theorem State.updTeam_devPts (t : Nat) (f : Team → Team) : (s.updTeam t f).devPts = s.devPts := rfl
@[simp] theorem State.updTeam_reqs (t : Nat) (f : Team → Team) : (s.updTeam t f).reqs = s.reqs := rfl
@[simp] theorem State.updTeam_regOut (t : Nat) (f : Team → Team) : (s.updTeam t f).regOut = s.regOut := rfl
@[simp] theorem State.updTeam_spillOut (t : Nat) (f : Team → Team) : (s.updTeam t f).spillOut = s.spillOut := rfl
@[simp] theorem State.updTeam_storeOut (t : Nat) (f : Team → Team) : (s.updTeam t f).storeOut = s.storeOut := rfl
@[simp] theorem State.updTeam_msgs (t : Nat) (f : Team → Team) : (s.updTeam t f).msgs = s.msgs := rfl
@[simp] theorem State.updTeam_cores (t : Nat) (f : Team → Team) : (s.updTeam t f).cores = s.cores := rfl
@[simp] theorem State.updTeam_fused (t : Nat) (f : Team → Team) : (s.updTeam t f).fused = s.fused := rfl
@[simp] theorem State.updTeam_groups (t : Nat) (f : Team → Team) : (s.updTeam t f).groups = s.groups := rfl
@[simp] theorem State.updTeam_teams (t : Nat) (f : Team → Team) : (s.updTeam t f).teams = s.teams.upd t f := rfl
@[simp] theorem State.updTeam_seqs (t : Nat) (f : Team → Team) : (s.updTeam t f).seqs = s.seqs := rfl
@[simp] theorem State.updTeam_harts (t : Nat) (f : Team → Team) : (s.updTeam t f).harts = s.harts := rfl
@[simp] theorem State.updTeam_tlbCore (t : Nat) (f : Team → Team) : (s.updTeam t f).tlbCore = s.tlbCore := rfl
@[simp] theorem State.updTeam_tlbCluster (t : Nat) (f : Team → Team) : (s.updTeam t f).tlbCluster = s.tlbCluster := rfl
@[simp] theorem State.updTeam_tlbDie (t : Nat) (f : Team → Team) : (s.updTeam t f).tlbDie = s.tlbDie := rfl
@[simp] theorem State.updTeam_walkDie (t : Nat) (f : Team → Team) : (s.updTeam t f).walkDie = s.walkDie := rfl
@[simp] theorem State.updTeam_walks (t : Nat) (f : Team → Team) : (s.updTeam t f).walks = s.walks := rfl
@[simp] theorem State.updTeam_xlat (t : Nat) (f : Team → Team) : (s.updTeam t f).xlat = s.xlat := rfl
@[simp] theorem State.updTeam_waits (t : Nat) (f : Team → Team) : (s.updTeam t f).waits = s.waits := rfl
@[simp] theorem State.updTeam_waitOrder (t : Nat) (f : Team → Team) : (s.updTeam t f).waitOrder = s.waitOrder := rfl
@[simp] theorem State.updTeam_heap (t : Nat) (f : Team → Team) : (s.updTeam t f).heap = s.heap := rfl
@[simp] theorem State.updTeam_exchange (t : Nat) (f : Team → Team) : (s.updTeam t f).exchange = s.exchange := rfl
@[simp] theorem State.updTeam_tdCache (t : Nat) (f : Team → Team) : (s.updTeam t f).tdCache = s.tdCache := rfl
@[simp] theorem State.updTeam_copies (t : Nat) (f : Team → Team) : (s.updTeam t f).copies = s.copies := rfl
@[simp] theorem State.updTeam_reqTurn (t : Nat) (f : Team → Team) : (s.updTeam t f).reqTurn = s.reqTurn := rfl
@[simp] theorem State.updTeam_bundles (t : Nat) (f : Team → Team) : (s.updTeam t f).bundles = s.bundles := rfl
@[simp] theorem State.updTeam_bunNew (t : Nat) (f : Team → Team) : (s.updTeam t f).bunNew = s.bunNew := rfl
@[simp] theorem State.updTeam_bunFreed (t : Nat) (f : Team → Team) : (s.updTeam t f).bunFreed = s.bunFreed := rfl
@[simp] theorem State.updTeam_notices (t : Nat) (f : Team → Team) : (s.updTeam t f).notices = s.notices := rfl
@[simp] theorem State.updTeam_queries (t : Nat) (f : Team → Team) : (s.updTeam t f).queries = s.queries := rfl
@[simp] theorem State.updTeam_answers (t : Nat) (f : Team → Team) : (s.updTeam t f).answers = s.answers := rfl
@[simp] theorem State.updTeam_ctxs (t : Nat) (f : Team → Team) : (s.updTeam t f).ctxs = s.ctxs := rfl
@[simp] theorem State.updTeam_inflight (t : Nat) (f : Team → Team) : (s.updTeam t f).inflight = s.inflight := rfl
@[simp] theorem State.updTeam_bins (t : Nat) (f : Team → Team) : (s.updTeam t f).bins = s.bins := rfl
@[simp] theorem State.updTeam_slots (t : Nat) (f : Team → Team) : (s.updTeam t f).slots = s.slots := rfl
@[simp] theorem State.updTeam_tails (t : Nat) (f : Team → Team) : (s.updTeam t f).tails = s.tails := rfl
@[simp] theorem State.updTeam_pend (t : Nat) (f : Team → Team) : (s.updTeam t f).pend = s.pend := rfl
@[simp] theorem State.updTeam_cmds (t : Nat) (f : Team → Team) : (s.updTeam t f).cmds = s.cmds := rfl
@[simp] theorem State.updTeam_quotas (t : Nat) (f : Team → Team) : (s.updTeam t f).quotas = s.quotas := rfl
@[simp] theorem State.updTeam_geoAge (t : Nat) (f : Team → Team) : (s.updTeam t f).geoAge = s.geoAge := rfl
@[simp] theorem State.updTeam_scenes (t : Nat) (f : Team → Team) : (s.updTeam t f).scenes = s.scenes := rfl
@[simp] theorem State.updTeam_rays (t : Nat) (f : Team → Team) : (s.updTeam t f).rays = s.rays := rfl
@[simp] theorem State.updTeam_contReqs (t : Nat) (f : Team → Team) : (s.updTeam t f).contReqs = s.contReqs := rfl
@[simp] theorem State.updTeam_rayOrder (t : Nat) (f : Team → Team) : (s.updTeam t f).rayOrder = s.rayOrder := rfl
@[simp] theorem State.updTeam_outOf (t : Nat) (f : Team → Team) : (s.updTeam t f).outOf = s.outOf := rfl
@[simp] theorem State.updTeam_dies (t : Nat) (f : Team → Team) : (s.updTeam t f).dies = s.dies := rfl
@[simp] theorem State.updTeam_evSeq (t : Nat) (f : Team → Team) : (s.updTeam t f).evSeq = s.evSeq := rfl
@[simp] theorem State.updTeam_evWait (t : Nat) (f : Team → Team) : (s.updTeam t f).evWait = s.evWait := rfl
@[simp] theorem State.updTeam_upcalls (t : Nat) (f : Team → Team) : (s.updTeam t f).upcalls = s.upcalls := rfl
@[simp] theorem State.updTeam_frecs (t : Nat) (f : Team → Team) : (s.updTeam t f).frecs = s.frecs := rfl
@[simp] theorem State.updTeam_outTeams (t : Nat) (f : Team → Team) : (s.updTeam t f).outTeams = s.outTeams := rfl
@[simp] theorem State.updTeam_links (t : Nat) (f : Team → Team) : (s.updTeam t f).links = s.links := rfl
@[simp] theorem State.updTeam_plat (t : Nat) (f : Team → Team) : (s.updTeam t f).plat = s.plat := rfl
@[simp] theorem State.updTeam_bus (t : Nat) (f : Team → Team) : (s.updTeam t f).bus = s.bus := rfl

@[simp] theorem State.updSeq_turns (q : Nat) (f : Seq → Seq) : (s.updSeq q f).turns = s.turns := rfl
@[simp] theorem State.updSeq_cur (q : Nat) (f : Seq → Seq) : (s.updSeq q f).cur = s.cur := rfl
@[simp] theorem State.updSeq_hand (q : Nat) (f : Seq → Seq) : (s.updSeq q f).hand = s.hand := rfl
@[simp] theorem State.updSeq_fresh (q : Nat) (f : Seq → Seq) : (s.updSeq q f).fresh = s.fresh := rfl
@[simp] theorem State.updSeq_pairV (q : Nat) (f : Seq → Seq) : (s.updSeq q f).pairV = s.pairV := rfl
@[simp] theorem State.updSeq_cycle (q : Nat) (f : Seq → Seq) : (s.updSeq q f).cycle = s.cycle := rfl
@[simp] theorem State.updSeq_mem (q : Nat) (f : Seq → Seq) : (s.updSeq q f).mem = s.mem := rfl
@[simp] theorem State.updSeq_poison (q : Nat) (f : Seq → Seq) : (s.updSeq q f).poison = s.poison := rfl
@[simp] theorem State.updSeq_homes (q : Nat) (f : Seq → Seq) : (s.updSeq q f).homes = s.homes := rfl
@[simp] theorem State.updSeq_memts (q : Nat) (f : Seq → Seq) : (s.updSeq q f).memts = s.memts := rfl
@[simp] theorem State.updSeq_proxies (q : Nat) (f : Seq → Seq) : (s.updSeq q f).proxies = s.proxies := rfl
@[simp] theorem State.updSeq_devPts (q : Nat) (f : Seq → Seq) : (s.updSeq q f).devPts = s.devPts := rfl
@[simp] theorem State.updSeq_reqs (q : Nat) (f : Seq → Seq) : (s.updSeq q f).reqs = s.reqs := rfl
@[simp] theorem State.updSeq_regOut (q : Nat) (f : Seq → Seq) : (s.updSeq q f).regOut = s.regOut := rfl
@[simp] theorem State.updSeq_spillOut (q : Nat) (f : Seq → Seq) : (s.updSeq q f).spillOut = s.spillOut := rfl
@[simp] theorem State.updSeq_storeOut (q : Nat) (f : Seq → Seq) : (s.updSeq q f).storeOut = s.storeOut := rfl
@[simp] theorem State.updSeq_msgs (q : Nat) (f : Seq → Seq) : (s.updSeq q f).msgs = s.msgs := rfl
@[simp] theorem State.updSeq_cores (q : Nat) (f : Seq → Seq) : (s.updSeq q f).cores = s.cores := rfl
@[simp] theorem State.updSeq_fused (q : Nat) (f : Seq → Seq) : (s.updSeq q f).fused = s.fused := rfl
@[simp] theorem State.updSeq_groups (q : Nat) (f : Seq → Seq) : (s.updSeq q f).groups = s.groups := rfl
@[simp] theorem State.updSeq_teams (q : Nat) (f : Seq → Seq) : (s.updSeq q f).teams = s.teams := rfl
@[simp] theorem State.updSeq_seqs (q : Nat) (f : Seq → Seq) : (s.updSeq q f).seqs = s.seqs.upd q f := rfl
@[simp] theorem State.updSeq_harts (q : Nat) (f : Seq → Seq) : (s.updSeq q f).harts = s.harts := rfl
@[simp] theorem State.updSeq_tlbCore (q : Nat) (f : Seq → Seq) : (s.updSeq q f).tlbCore = s.tlbCore := rfl
@[simp] theorem State.updSeq_tlbCluster (q : Nat) (f : Seq → Seq) : (s.updSeq q f).tlbCluster = s.tlbCluster := rfl
@[simp] theorem State.updSeq_tlbDie (q : Nat) (f : Seq → Seq) : (s.updSeq q f).tlbDie = s.tlbDie := rfl
@[simp] theorem State.updSeq_walkDie (q : Nat) (f : Seq → Seq) : (s.updSeq q f).walkDie = s.walkDie := rfl
@[simp] theorem State.updSeq_walks (q : Nat) (f : Seq → Seq) : (s.updSeq q f).walks = s.walks := rfl
@[simp] theorem State.updSeq_xlat (q : Nat) (f : Seq → Seq) : (s.updSeq q f).xlat = s.xlat := rfl
@[simp] theorem State.updSeq_waits (q : Nat) (f : Seq → Seq) : (s.updSeq q f).waits = s.waits := rfl
@[simp] theorem State.updSeq_waitOrder (q : Nat) (f : Seq → Seq) : (s.updSeq q f).waitOrder = s.waitOrder := rfl
@[simp] theorem State.updSeq_heap (q : Nat) (f : Seq → Seq) : (s.updSeq q f).heap = s.heap := rfl
@[simp] theorem State.updSeq_exchange (q : Nat) (f : Seq → Seq) : (s.updSeq q f).exchange = s.exchange := rfl
@[simp] theorem State.updSeq_tdCache (q : Nat) (f : Seq → Seq) : (s.updSeq q f).tdCache = s.tdCache := rfl
@[simp] theorem State.updSeq_copies (q : Nat) (f : Seq → Seq) : (s.updSeq q f).copies = s.copies := rfl
@[simp] theorem State.updSeq_reqTurn (q : Nat) (f : Seq → Seq) : (s.updSeq q f).reqTurn = s.reqTurn := rfl
@[simp] theorem State.updSeq_bundles (q : Nat) (f : Seq → Seq) : (s.updSeq q f).bundles = s.bundles := rfl
@[simp] theorem State.updSeq_bunNew (q : Nat) (f : Seq → Seq) : (s.updSeq q f).bunNew = s.bunNew := rfl
@[simp] theorem State.updSeq_bunFreed (q : Nat) (f : Seq → Seq) : (s.updSeq q f).bunFreed = s.bunFreed := rfl
@[simp] theorem State.updSeq_notices (q : Nat) (f : Seq → Seq) : (s.updSeq q f).notices = s.notices := rfl
@[simp] theorem State.updSeq_queries (q : Nat) (f : Seq → Seq) : (s.updSeq q f).queries = s.queries := rfl
@[simp] theorem State.updSeq_answers (q : Nat) (f : Seq → Seq) : (s.updSeq q f).answers = s.answers := rfl
@[simp] theorem State.updSeq_ctxs (q : Nat) (f : Seq → Seq) : (s.updSeq q f).ctxs = s.ctxs := rfl
@[simp] theorem State.updSeq_inflight (q : Nat) (f : Seq → Seq) : (s.updSeq q f).inflight = s.inflight := rfl
@[simp] theorem State.updSeq_bins (q : Nat) (f : Seq → Seq) : (s.updSeq q f).bins = s.bins := rfl
@[simp] theorem State.updSeq_slots (q : Nat) (f : Seq → Seq) : (s.updSeq q f).slots = s.slots := rfl
@[simp] theorem State.updSeq_tails (q : Nat) (f : Seq → Seq) : (s.updSeq q f).tails = s.tails := rfl
@[simp] theorem State.updSeq_pend (q : Nat) (f : Seq → Seq) : (s.updSeq q f).pend = s.pend := rfl
@[simp] theorem State.updSeq_cmds (q : Nat) (f : Seq → Seq) : (s.updSeq q f).cmds = s.cmds := rfl
@[simp] theorem State.updSeq_quotas (q : Nat) (f : Seq → Seq) : (s.updSeq q f).quotas = s.quotas := rfl
@[simp] theorem State.updSeq_geoAge (q : Nat) (f : Seq → Seq) : (s.updSeq q f).geoAge = s.geoAge := rfl
@[simp] theorem State.updSeq_scenes (q : Nat) (f : Seq → Seq) : (s.updSeq q f).scenes = s.scenes := rfl
@[simp] theorem State.updSeq_rays (q : Nat) (f : Seq → Seq) : (s.updSeq q f).rays = s.rays := rfl
@[simp] theorem State.updSeq_contReqs (q : Nat) (f : Seq → Seq) : (s.updSeq q f).contReqs = s.contReqs := rfl
@[simp] theorem State.updSeq_rayOrder (q : Nat) (f : Seq → Seq) : (s.updSeq q f).rayOrder = s.rayOrder := rfl
@[simp] theorem State.updSeq_outOf (q : Nat) (f : Seq → Seq) : (s.updSeq q f).outOf = s.outOf := rfl
@[simp] theorem State.updSeq_dies (q : Nat) (f : Seq → Seq) : (s.updSeq q f).dies = s.dies := rfl
@[simp] theorem State.updSeq_evSeq (q : Nat) (f : Seq → Seq) : (s.updSeq q f).evSeq = s.evSeq := rfl
@[simp] theorem State.updSeq_evWait (q : Nat) (f : Seq → Seq) : (s.updSeq q f).evWait = s.evWait := rfl
@[simp] theorem State.updSeq_upcalls (q : Nat) (f : Seq → Seq) : (s.updSeq q f).upcalls = s.upcalls := rfl
@[simp] theorem State.updSeq_frecs (q : Nat) (f : Seq → Seq) : (s.updSeq q f).frecs = s.frecs := rfl
@[simp] theorem State.updSeq_outTeams (q : Nat) (f : Seq → Seq) : (s.updSeq q f).outTeams = s.outTeams := rfl
@[simp] theorem State.updSeq_links (q : Nat) (f : Seq → Seq) : (s.updSeq q f).links = s.links := rfl
@[simp] theorem State.updSeq_plat (q : Nat) (f : Seq → Seq) : (s.updSeq q f).plat = s.plat := rfl
@[simp] theorem State.updSeq_bus (q : Nat) (f : Seq → Seq) : (s.updSeq q f).bus = s.bus := rfl

@[simp] theorem State.updDie_turns (d : Nat) (f : Die → Die) : (s.updDie d f).turns = s.turns := rfl
@[simp] theorem State.updDie_cur (d : Nat) (f : Die → Die) : (s.updDie d f).cur = s.cur := rfl
@[simp] theorem State.updDie_hand (d : Nat) (f : Die → Die) : (s.updDie d f).hand = s.hand := rfl
@[simp] theorem State.updDie_fresh (d : Nat) (f : Die → Die) : (s.updDie d f).fresh = s.fresh := rfl
@[simp] theorem State.updDie_pairV (d : Nat) (f : Die → Die) : (s.updDie d f).pairV = s.pairV := rfl
@[simp] theorem State.updDie_cycle (d : Nat) (f : Die → Die) : (s.updDie d f).cycle = s.cycle := rfl
@[simp] theorem State.updDie_mem (d : Nat) (f : Die → Die) : (s.updDie d f).mem = s.mem := rfl
@[simp] theorem State.updDie_poison (d : Nat) (f : Die → Die) : (s.updDie d f).poison = s.poison := rfl
@[simp] theorem State.updDie_homes (d : Nat) (f : Die → Die) : (s.updDie d f).homes = s.homes := rfl
@[simp] theorem State.updDie_memts (d : Nat) (f : Die → Die) : (s.updDie d f).memts = s.memts := rfl
@[simp] theorem State.updDie_proxies (d : Nat) (f : Die → Die) : (s.updDie d f).proxies = s.proxies := rfl
@[simp] theorem State.updDie_devPts (d : Nat) (f : Die → Die) : (s.updDie d f).devPts = s.devPts := rfl
@[simp] theorem State.updDie_reqs (d : Nat) (f : Die → Die) : (s.updDie d f).reqs = s.reqs := rfl
@[simp] theorem State.updDie_regOut (d : Nat) (f : Die → Die) : (s.updDie d f).regOut = s.regOut := rfl
@[simp] theorem State.updDie_spillOut (d : Nat) (f : Die → Die) : (s.updDie d f).spillOut = s.spillOut := rfl
@[simp] theorem State.updDie_storeOut (d : Nat) (f : Die → Die) : (s.updDie d f).storeOut = s.storeOut := rfl
@[simp] theorem State.updDie_msgs (d : Nat) (f : Die → Die) : (s.updDie d f).msgs = s.msgs := rfl
@[simp] theorem State.updDie_cores (d : Nat) (f : Die → Die) : (s.updDie d f).cores = s.cores := rfl
@[simp] theorem State.updDie_fused (d : Nat) (f : Die → Die) : (s.updDie d f).fused = s.fused := rfl
@[simp] theorem State.updDie_groups (d : Nat) (f : Die → Die) : (s.updDie d f).groups = s.groups := rfl
@[simp] theorem State.updDie_teams (d : Nat) (f : Die → Die) : (s.updDie d f).teams = s.teams := rfl
@[simp] theorem State.updDie_seqs (d : Nat) (f : Die → Die) : (s.updDie d f).seqs = s.seqs := rfl
@[simp] theorem State.updDie_harts (d : Nat) (f : Die → Die) : (s.updDie d f).harts = s.harts := rfl
@[simp] theorem State.updDie_tlbCore (d : Nat) (f : Die → Die) : (s.updDie d f).tlbCore = s.tlbCore := rfl
@[simp] theorem State.updDie_tlbCluster (d : Nat) (f : Die → Die) : (s.updDie d f).tlbCluster = s.tlbCluster := rfl
@[simp] theorem State.updDie_tlbDie (d : Nat) (f : Die → Die) : (s.updDie d f).tlbDie = s.tlbDie := rfl
@[simp] theorem State.updDie_walkDie (d : Nat) (f : Die → Die) : (s.updDie d f).walkDie = s.walkDie := rfl
@[simp] theorem State.updDie_walks (d : Nat) (f : Die → Die) : (s.updDie d f).walks = s.walks := rfl
@[simp] theorem State.updDie_xlat (d : Nat) (f : Die → Die) : (s.updDie d f).xlat = s.xlat := rfl
@[simp] theorem State.updDie_waits (d : Nat) (f : Die → Die) : (s.updDie d f).waits = s.waits := rfl
@[simp] theorem State.updDie_waitOrder (d : Nat) (f : Die → Die) : (s.updDie d f).waitOrder = s.waitOrder := rfl
@[simp] theorem State.updDie_heap (d : Nat) (f : Die → Die) : (s.updDie d f).heap = s.heap := rfl
@[simp] theorem State.updDie_exchange (d : Nat) (f : Die → Die) : (s.updDie d f).exchange = s.exchange := rfl
@[simp] theorem State.updDie_tdCache (d : Nat) (f : Die → Die) : (s.updDie d f).tdCache = s.tdCache := rfl
@[simp] theorem State.updDie_copies (d : Nat) (f : Die → Die) : (s.updDie d f).copies = s.copies := rfl
@[simp] theorem State.updDie_reqTurn (d : Nat) (f : Die → Die) : (s.updDie d f).reqTurn = s.reqTurn := rfl
@[simp] theorem State.updDie_bundles (d : Nat) (f : Die → Die) : (s.updDie d f).bundles = s.bundles := rfl
@[simp] theorem State.updDie_bunNew (d : Nat) (f : Die → Die) : (s.updDie d f).bunNew = s.bunNew := rfl
@[simp] theorem State.updDie_bunFreed (d : Nat) (f : Die → Die) : (s.updDie d f).bunFreed = s.bunFreed := rfl
@[simp] theorem State.updDie_notices (d : Nat) (f : Die → Die) : (s.updDie d f).notices = s.notices := rfl
@[simp] theorem State.updDie_queries (d : Nat) (f : Die → Die) : (s.updDie d f).queries = s.queries := rfl
@[simp] theorem State.updDie_answers (d : Nat) (f : Die → Die) : (s.updDie d f).answers = s.answers := rfl
@[simp] theorem State.updDie_ctxs (d : Nat) (f : Die → Die) : (s.updDie d f).ctxs = s.ctxs := rfl
@[simp] theorem State.updDie_inflight (d : Nat) (f : Die → Die) : (s.updDie d f).inflight = s.inflight := rfl
@[simp] theorem State.updDie_bins (d : Nat) (f : Die → Die) : (s.updDie d f).bins = s.bins := rfl
@[simp] theorem State.updDie_slots (d : Nat) (f : Die → Die) : (s.updDie d f).slots = s.slots := rfl
@[simp] theorem State.updDie_tails (d : Nat) (f : Die → Die) : (s.updDie d f).tails = s.tails := rfl
@[simp] theorem State.updDie_pend (d : Nat) (f : Die → Die) : (s.updDie d f).pend = s.pend := rfl
@[simp] theorem State.updDie_cmds (d : Nat) (f : Die → Die) : (s.updDie d f).cmds = s.cmds := rfl
@[simp] theorem State.updDie_quotas (d : Nat) (f : Die → Die) : (s.updDie d f).quotas = s.quotas := rfl
@[simp] theorem State.updDie_geoAge (d : Nat) (f : Die → Die) : (s.updDie d f).geoAge = s.geoAge := rfl
@[simp] theorem State.updDie_scenes (d : Nat) (f : Die → Die) : (s.updDie d f).scenes = s.scenes := rfl
@[simp] theorem State.updDie_rays (d : Nat) (f : Die → Die) : (s.updDie d f).rays = s.rays := rfl
@[simp] theorem State.updDie_contReqs (d : Nat) (f : Die → Die) : (s.updDie d f).contReqs = s.contReqs := rfl
@[simp] theorem State.updDie_rayOrder (d : Nat) (f : Die → Die) : (s.updDie d f).rayOrder = s.rayOrder := rfl
@[simp] theorem State.updDie_outOf (d : Nat) (f : Die → Die) : (s.updDie d f).outOf = s.outOf := rfl
@[simp] theorem State.updDie_dies (d : Nat) (f : Die → Die) : (s.updDie d f).dies = s.dies.put d (f (s.die d)) := rfl
@[simp] theorem State.updDie_evSeq (d : Nat) (f : Die → Die) : (s.updDie d f).evSeq = s.evSeq := rfl
@[simp] theorem State.updDie_evWait (d : Nat) (f : Die → Die) : (s.updDie d f).evWait = s.evWait := rfl
@[simp] theorem State.updDie_upcalls (d : Nat) (f : Die → Die) : (s.updDie d f).upcalls = s.upcalls := rfl
@[simp] theorem State.updDie_frecs (d : Nat) (f : Die → Die) : (s.updDie d f).frecs = s.frecs := rfl
@[simp] theorem State.updDie_outTeams (d : Nat) (f : Die → Die) : (s.updDie d f).outTeams = s.outTeams := rfl
@[simp] theorem State.updDie_links (d : Nat) (f : Die → Die) : (s.updDie d f).links = s.links := rfl
@[simp] theorem State.updDie_plat (d : Nat) (f : Die → Die) : (s.updDie d f).plat = s.plat := rfl
@[simp] theorem State.updDie_bus (d : Nat) (f : Die → Die) : (s.updDie d f).bus = s.bus := rfl

@[simp] theorem State.updCore_turns (c : Nat) (f : Core → Core) : (s.updCore c f).turns = s.turns := rfl
@[simp] theorem State.updCore_cur (c : Nat) (f : Core → Core) : (s.updCore c f).cur = s.cur := rfl
@[simp] theorem State.updCore_hand (c : Nat) (f : Core → Core) : (s.updCore c f).hand = s.hand := rfl
@[simp] theorem State.updCore_fresh (c : Nat) (f : Core → Core) : (s.updCore c f).fresh = s.fresh := rfl
@[simp] theorem State.updCore_pairV (c : Nat) (f : Core → Core) : (s.updCore c f).pairV = s.pairV := rfl
@[simp] theorem State.updCore_cycle (c : Nat) (f : Core → Core) : (s.updCore c f).cycle = s.cycle := rfl
@[simp] theorem State.updCore_mem (c : Nat) (f : Core → Core) : (s.updCore c f).mem = s.mem := rfl
@[simp] theorem State.updCore_poison (c : Nat) (f : Core → Core) : (s.updCore c f).poison = s.poison := rfl
@[simp] theorem State.updCore_homes (c : Nat) (f : Core → Core) : (s.updCore c f).homes = s.homes := rfl
@[simp] theorem State.updCore_memts (c : Nat) (f : Core → Core) : (s.updCore c f).memts = s.memts := rfl
@[simp] theorem State.updCore_proxies (c : Nat) (f : Core → Core) : (s.updCore c f).proxies = s.proxies := rfl
@[simp] theorem State.updCore_devPts (c : Nat) (f : Core → Core) : (s.updCore c f).devPts = s.devPts := rfl
@[simp] theorem State.updCore_reqs (c : Nat) (f : Core → Core) : (s.updCore c f).reqs = s.reqs := rfl
@[simp] theorem State.updCore_regOut (c : Nat) (f : Core → Core) : (s.updCore c f).regOut = s.regOut := rfl
@[simp] theorem State.updCore_spillOut (c : Nat) (f : Core → Core) : (s.updCore c f).spillOut = s.spillOut := rfl
@[simp] theorem State.updCore_storeOut (c : Nat) (f : Core → Core) : (s.updCore c f).storeOut = s.storeOut := rfl
@[simp] theorem State.updCore_msgs (c : Nat) (f : Core → Core) : (s.updCore c f).msgs = s.msgs := rfl
@[simp] theorem State.updCore_cores (c : Nat) (f : Core → Core) : (s.updCore c f).cores = s.cores.put c (f (s.core c)) := rfl
@[simp] theorem State.updCore_fused (c : Nat) (f : Core → Core) : (s.updCore c f).fused = s.fused := rfl
@[simp] theorem State.updCore_groups (c : Nat) (f : Core → Core) : (s.updCore c f).groups = s.groups := rfl
@[simp] theorem State.updCore_teams (c : Nat) (f : Core → Core) : (s.updCore c f).teams = s.teams := rfl
@[simp] theorem State.updCore_seqs (c : Nat) (f : Core → Core) : (s.updCore c f).seqs = s.seqs := rfl
@[simp] theorem State.updCore_harts (c : Nat) (f : Core → Core) : (s.updCore c f).harts = s.harts := rfl
@[simp] theorem State.updCore_tlbCore (c : Nat) (f : Core → Core) : (s.updCore c f).tlbCore = s.tlbCore := rfl
@[simp] theorem State.updCore_tlbCluster (c : Nat) (f : Core → Core) : (s.updCore c f).tlbCluster = s.tlbCluster := rfl
@[simp] theorem State.updCore_tlbDie (c : Nat) (f : Core → Core) : (s.updCore c f).tlbDie = s.tlbDie := rfl
@[simp] theorem State.updCore_walkDie (c : Nat) (f : Core → Core) : (s.updCore c f).walkDie = s.walkDie := rfl
@[simp] theorem State.updCore_walks (c : Nat) (f : Core → Core) : (s.updCore c f).walks = s.walks := rfl
@[simp] theorem State.updCore_xlat (c : Nat) (f : Core → Core) : (s.updCore c f).xlat = s.xlat := rfl
@[simp] theorem State.updCore_waits (c : Nat) (f : Core → Core) : (s.updCore c f).waits = s.waits := rfl
@[simp] theorem State.updCore_waitOrder (c : Nat) (f : Core → Core) : (s.updCore c f).waitOrder = s.waitOrder := rfl
@[simp] theorem State.updCore_heap (c : Nat) (f : Core → Core) : (s.updCore c f).heap = s.heap := rfl
@[simp] theorem State.updCore_exchange (c : Nat) (f : Core → Core) : (s.updCore c f).exchange = s.exchange := rfl
@[simp] theorem State.updCore_tdCache (c : Nat) (f : Core → Core) : (s.updCore c f).tdCache = s.tdCache := rfl
@[simp] theorem State.updCore_copies (c : Nat) (f : Core → Core) : (s.updCore c f).copies = s.copies := rfl
@[simp] theorem State.updCore_reqTurn (c : Nat) (f : Core → Core) : (s.updCore c f).reqTurn = s.reqTurn := rfl
@[simp] theorem State.updCore_bundles (c : Nat) (f : Core → Core) : (s.updCore c f).bundles = s.bundles := rfl
@[simp] theorem State.updCore_bunNew (c : Nat) (f : Core → Core) : (s.updCore c f).bunNew = s.bunNew := rfl
@[simp] theorem State.updCore_bunFreed (c : Nat) (f : Core → Core) : (s.updCore c f).bunFreed = s.bunFreed := rfl
@[simp] theorem State.updCore_notices (c : Nat) (f : Core → Core) : (s.updCore c f).notices = s.notices := rfl
@[simp] theorem State.updCore_queries (c : Nat) (f : Core → Core) : (s.updCore c f).queries = s.queries := rfl
@[simp] theorem State.updCore_answers (c : Nat) (f : Core → Core) : (s.updCore c f).answers = s.answers := rfl
@[simp] theorem State.updCore_ctxs (c : Nat) (f : Core → Core) : (s.updCore c f).ctxs = s.ctxs := rfl
@[simp] theorem State.updCore_inflight (c : Nat) (f : Core → Core) : (s.updCore c f).inflight = s.inflight := rfl
@[simp] theorem State.updCore_bins (c : Nat) (f : Core → Core) : (s.updCore c f).bins = s.bins := rfl
@[simp] theorem State.updCore_slots (c : Nat) (f : Core → Core) : (s.updCore c f).slots = s.slots := rfl
@[simp] theorem State.updCore_tails (c : Nat) (f : Core → Core) : (s.updCore c f).tails = s.tails := rfl
@[simp] theorem State.updCore_pend (c : Nat) (f : Core → Core) : (s.updCore c f).pend = s.pend := rfl
@[simp] theorem State.updCore_cmds (c : Nat) (f : Core → Core) : (s.updCore c f).cmds = s.cmds := rfl
@[simp] theorem State.updCore_quotas (c : Nat) (f : Core → Core) : (s.updCore c f).quotas = s.quotas := rfl
@[simp] theorem State.updCore_geoAge (c : Nat) (f : Core → Core) : (s.updCore c f).geoAge = s.geoAge := rfl
@[simp] theorem State.updCore_scenes (c : Nat) (f : Core → Core) : (s.updCore c f).scenes = s.scenes := rfl
@[simp] theorem State.updCore_rays (c : Nat) (f : Core → Core) : (s.updCore c f).rays = s.rays := rfl
@[simp] theorem State.updCore_contReqs (c : Nat) (f : Core → Core) : (s.updCore c f).contReqs = s.contReqs := rfl
@[simp] theorem State.updCore_rayOrder (c : Nat) (f : Core → Core) : (s.updCore c f).rayOrder = s.rayOrder := rfl
@[simp] theorem State.updCore_outOf (c : Nat) (f : Core → Core) : (s.updCore c f).outOf = s.outOf := rfl
@[simp] theorem State.updCore_dies (c : Nat) (f : Core → Core) : (s.updCore c f).dies = s.dies := rfl
@[simp] theorem State.updCore_evSeq (c : Nat) (f : Core → Core) : (s.updCore c f).evSeq = s.evSeq := rfl
@[simp] theorem State.updCore_evWait (c : Nat) (f : Core → Core) : (s.updCore c f).evWait = s.evWait := rfl
@[simp] theorem State.updCore_upcalls (c : Nat) (f : Core → Core) : (s.updCore c f).upcalls = s.upcalls := rfl
@[simp] theorem State.updCore_frecs (c : Nat) (f : Core → Core) : (s.updCore c f).frecs = s.frecs := rfl
@[simp] theorem State.updCore_outTeams (c : Nat) (f : Core → Core) : (s.updCore c f).outTeams = s.outTeams := rfl
@[simp] theorem State.updCore_links (c : Nat) (f : Core → Core) : (s.updCore c f).links = s.links := rfl
@[simp] theorem State.updCore_plat (c : Nat) (f : Core → Core) : (s.updCore c f).plat = s.plat := rfl
@[simp] theorem State.updCore_bus (c : Nat) (f : Core → Core) : (s.updCore c f).bus = s.bus := rfl

end Sys2Proof.Machine
end

