-- ==== Sys2Proof/Laws/Events.lean ====
section
/-! SUPPORT. What posting an event and stopping a group can do: no group changes but in the answers of its sleeping instructions and in a link
that a write breaks, and memory stays canonical. -/

namespace Sys2Proof.Machine

/-! ### Groups that differ in their instructions in flight and their links alone -/

/-- Every group of `t` is that of `s`, but for its instructions in flight and its link. -/
def GroupsStand (s t : State) : Prop :=
  ∀ k, ∃ (f : List Op → List Op) (l : Option Link → Option Link),
    t.groups.get? k = (s.groups.get? k).map fun g => { g with ops := f g.ops, link := l g.link }

theorem GroupsStand.of_eq {s t : State} (h : t.groups = s.groups) : GroupsStand s t := fun k => ⟨id, id, by simp [h]⟩
theorem GroupsStand.refl (s : State) : GroupsStand s s := GroupsStand.of_eq rfl
theorem GroupsStand.trans {s t u : State} (h : GroupsStand s t) (h2 : GroupsStand t u) : GroupsStand s u := fun k => by
  obtain ⟨f, l, hf⟩ := h k
  obtain ⟨f2, l2, hf2⟩ := h2 k
  exact ⟨f2 ∘ f, l2 ∘ l, by rw [hf2, hf, Option.map_map]; rfl⟩
theorem GroupsStand.foldl {β : Type} (f : State → β → State) (hf : ∀ s b, GroupsStand s (f s b)) (l : List β) (s : State) :
    GroupsStand s (l.foldl f s) := by
  induction l generalizing s with
  | nil => exact GroupsStand.refl s
  | cons b l ih => exact (hf s b).trans (ih _)

/-! ### Writes at the homes -/

theorem State.groups_recallNow (s : State) (line : Nat) : (s.recallNow line).groups = s.groups := by
  unfold State.recallNow
  dsimp only
  split
  · rfl
  · exact State.foldl_eq (·.groups) State.sendMsg (fun _ _ => rfl) _ _
theorem State.groups_startRecall (s : State) (line : Nat) (held : Option Nat) : (s.startRecall line held).groups = s.groups := by
  unfold State.startRecall
  dsimp only
  refine (State.foldl_eq (·.groups) (fun (s : State) (c : Nat) => s.sendMsg { kind := .inv, core := c, line := line }) (fun _ _ => rfl) _ _).trans ?_
  split <;> rfl
theorem State.groups_oneLeaves (s : State) (slice : Nat) : (s.oneLeaves slice).groups = s.groups := by
  unfold State.oneLeaves
  repeat' split
  all_goals first | rfl | exact State.groups_startRecall _ _ _
theorem State.groups_setHome (s : State) (line : Nat) (h : HomeLine) : (s.setHome line h).groups = s.groups := by
  unfold State.setHome State.makeRoom
  dsimp only
  repeat' split
  · rfl
  · rfl
  · exact State.groups_oneLeaves _ _
  · exact (State.groups_oneLeaves _ _).trans (State.groups_oneLeaves _ _)
theorem State.groups_writeStamp (s : State) (line pts : Nat) : (s.writeStamp line pts).1.groups = s.groups := by
  unfold State.writeStamp
  repeat' split
  · exact State.groups_setHome _ _ _
  · exact State.groups_setHome (s.filterAdd line) _ _
  · rfl
theorem GroupsStand.breakLinksOn (s : State) (line : Nat) : GroupsStand s (s.breakLinksOn line) := fun k => by
  refine ⟨id, Sys2Proof.Machine.breakLinks line, ?_⟩
  exact Tab.get?_map (fun g : Group => { g with link := Sys2Proof.Machine.breakLinks line g.link }) s.groups k
/-- A write of one line at its home: it is held for want of a route or for a checkpoint, acts on a register, breaks the links on a line of
tier 5, or takes a stamp after the copies of its line are recalled. -/
theorem GroupsStand.homeStore (s : State) (k : Nat) (bs : List Byte) (pts : Nat) (who : Nat × Nat) :
    GroupsStand s (s.homeStore k bs pts who).1 := by
  unfold State.homeStore
  dsimp only
  repeat' split
  · exact GroupsStand.of_eq rfl
  · exact GroupsStand.of_eq rfl
  · exact (GroupsStand.breakLinksOn s _).trans (GroupsStand.of_eq rfl)
  · exact GroupsStand.of_eq rfl
  all_goals exact GroupsStand.of_eq ((State.groups_writeStamp _ _ _).trans (State.groups_recallNow _ _))
theorem GroupsStand.homeWrite (s : State) (k : Nat) (bs : List Byte) (pts : Nat) (who : Nat × Nat) :
    GroupsStand s (s.homeWrite k bs pts who).1 := by
  have h0 : GroupsStand s (s.noteStore k bs.length) := by unfold State.noteStore; split <;> exact GroupsStand.of_eq rfl
  have h1 := h0.trans (GroupsStand.homeStore _ k bs pts who)
  unfold State.homeWrite
  dsimp only
  split
  · exact h1.trans (GroupsStand.homeStore _ _ _ _ _)
  · exact h1
theorem GroupsStand.deviceWriteN (fuel : Nat) (s : State) (k : Nat) (bs : List Byte) :
    GroupsStand s (State.deviceWriteN fuel s k bs) := by
  induction fuel generalizing s k bs with
  | zero => exact GroupsStand.refl s
  | succ n ih =>
    unfold State.deviceWriteN
    split
    · exact GroupsStand.refl s
    · exact ((GroupsStand.homeWrite s _ _ _ _).trans (GroupsStand.of_eq rfl)).trans (ih _ _ _)
theorem GroupsStand.deviceWrite (s : State) (k : Nat) (bs : List Byte) : GroupsStand s (s.deviceWrite k bs) :=
  GroupsStand.deviceWriteN _ _ _ _

/-! ### Waiters and events -/

theorem GroupsStand.answerWaiter (s : State) (w : WaitEntry) (n : Nat) : GroupsStand s (s.answerWaiter w n) := by
  intro k
  unfold State.answerWaiter
  split
  · rename_i k' gio lane h
    by_cases hk : k' = k
    · subst hk
      exact ⟨fun ops => ops.map fun o => if o.gio = gio then
        { o with performed := true, sOut := o.sd.map fun d => (d, BitVec.ofNat 64 n) } else o, id, by
          simp only [State.updGroup_groups, Tab.get?_upd, if_true]; rfl⟩
    · exact ⟨id, id, by simp [Tab.get?_upd, hk]⟩
  · exact ⟨id, id, by simp⟩
  · exact ⟨id, id, by simp⟩
theorem GroupsStand.wakeWhere (s : State) (p : WaitEntry → Bool) (n : Nat) : GroupsStand s (s.wakeWhere p n).1 :=
  (GroupsStand.of_eq rfl).trans (GroupsStand.foldl (fun s w => s.answerWaiter w 0) (fun s w => GroupsStand.answerWaiter s w 0) _ _)
/-- What writing an event can do: nothing, or the event leaves its source, its bytes and the new tail are written, and the tail's waiters
wake. -/
theorem State.writeEvent_cases (s : State) (d : Nat) :
    s.writeEvent d = s ∨ ∃ (t : State) (k : Nat) (bs : List Byte) (f : Die → Die), t = { s with evWait := t.evWait } ∧
      (s.writeEvent d = (t.deviceWrite k bs).updDie d f ∨
       ∃ k2 bs2 p, s.writeEvent d = ((((t.deviceWrite k bs).updDie d f).deviceWrite k2 bs2).wakeWhere p 0).1) := by
  unfold State.writeEvent
  cases h : s.evWait.find? fun e => e.die == d with
  | none => exact .inl rfl
  | some e =>
    dsimp only
    split
    · exact .inl rfl
    · split
      · exact .inr ⟨{ s with evWait := s.evWait.eraseP fun e => e.die == d }, _, _, _, rfl, .inl rfl⟩
      · exact .inr ⟨{ s with evWait := s.evWait.eraseP fun e => e.die == d }, _, _, fun x => { x with evqTail := x.evqTail + 1 }, rfl,
          .inr ⟨_, _, _, rfl⟩⟩
theorem GroupsStand.writeEvent (s : State) (d : Nat) : GroupsStand s (s.writeEvent d) := by
  rcases State.writeEvent_cases s d with h | ⟨t, k, bs, f, ht, h⟩
  · rw [h]; exact GroupsStand.refl s
  have h0 : GroupsStand s t := GroupsStand.of_eq (by rw [ht])
  rcases h with h | ⟨k2, bs2, p, h⟩
  · rw [h]; exact (h0.trans (GroupsStand.deviceWrite t k bs)).trans (GroupsStand.of_eq rfl)
  · rw [h]
    exact (((h0.trans (GroupsStand.deviceWrite t k bs)).trans (t := (t.deviceWrite k bs).updDie d f) (GroupsStand.of_eq rfl)).trans
      (GroupsStand.deviceWrite _ k2 bs2)).trans (GroupsStand.wakeWhere _ _ _)
theorem GroupsStand.flushEvents (n : Nat) (s : State) (d : Nat) : GroupsStand s (s.flushEvents d n) := by
  induction n generalizing s with
  | zero => exact GroupsStand.refl s
  | succ n ih => exact (GroupsStand.writeEvent s d).trans (ih _)
/-- Posting an event changes no group but in its instructions in flight and its link. -/
theorem GroupsStand.post (s : State) (e : Event) : GroupsStand s (s.post e) :=
  (GroupsStand.of_eq rfl).trans (GroupsStand.flushEvents _ _ _)

/-- A group that stops: its first cause, every split of its table STOPPED, the rest as it was but for its instructions in flight
and its link. -/
theorem State.stopGroup_group {s : State} {k : Nat} {g : Group} (h : s.group? k = some g) (st : Stop) :
    ∃ ops link, (s.stopGroup k st).group? k =
      some { g with stop := some (g.stop.getD st), splits := g.splits.map Split.halted, ops := ops, link := link } := by
  unfold State.stopGroup
  simp only [h]
  have key : ∀ (s' : State) (e : Event) (g' : Group), s'.groups.get? k = some g' →
      ∃ ops link, (s'.post e).group? k = some { g' with ops := ops, link := link } := fun s' e g' hg => by
    obtain ⟨f, l, hf⟩ := GroupsStand.post s' e k
    exact ⟨f g'.ops, l g'.link, by rw [State.group?, hf, hg]; rfl⟩
  exact key (s.setGroup k { g with stop := some (g.stop.getD st), splits := g.splits.map Split.halted }) _
    { g with stop := some (g.stop.getD st), splits := g.splits.map Split.halted }
    (by rw [State.setGroup_groups, Tab.get?_put_self])

/-! ### Memory stays canonical -/

theorem State.memOk_answerWaiter {s : State} (w : WaitEntry) (n : Nat) (h : s.memOk) : (s.answerWaiter w n).memOk := by
  unfold State.answerWaiter; split <;> exact h
theorem State.memOk_wakeWhere {s : State} (p : WaitEntry → Bool) (n : Nat) (h : s.memOk) : (s.wakeWhere p n).1.memOk :=
  State.memOk_foldl (fun s w => s.answerWaiter w 0) (fun _ w hs => State.memOk_answerWaiter w 0 hs) _ h
theorem State.memOk_writeEvent {s : State} (d : Nat) (h : s.memOk) : (s.writeEvent d).memOk := by
  rcases State.writeEvent_cases s d with e | ⟨t, k, bs, f, ht, e | ⟨k2, bs2, p, e⟩⟩
  · rw [e]; exact h
  · rw [e]; exact State.memOk_deviceWrite (s := t) _ _ (by rw [ht]; exact h)
  · rw [e]
    have h1 : (t.deviceWrite k bs).memOk := State.memOk_deviceWrite (s := t) _ _ (by rw [ht]; exact h)
    exact State.memOk_wakeWhere _ _ (State.memOk_deviceWrite (s := (t.deviceWrite k bs).updDie d f) _ _ h1)
theorem State.memOk_flushEvents (n : Nat) {s : State} (d : Nat) (h : s.memOk) : (s.flushEvents d n).memOk := by
  induction n generalizing s with
  | zero => exact h
  | succ n ih => exact ih (State.memOk_writeEvent d h)
theorem State.memOk_post {s : State} (e : Event) (h : s.memOk) : (s.post e).memOk := State.memOk_flushEvents _ _ h
theorem State.memOk_stopGroup {s : State} (k : Nat) (st : Stop) (h : s.memOk) : (s.stopGroup k st).memOk := by
  unfold State.stopGroup
  split
  · exact h
  · exact State.memOk_post _ h
theorem State.memOk_trapAt {s : State} (k : Nat) (x : Split) (c : Cause) (act : LaneMask) (va : Addr) (d : Option Nat) (h : s.memOk) :
    (s.trapAt k x c act va d).memOk := State.memOk_stopGroup k _ h
theorem State.memOk_trapHeader {s : State} (k : Nat) (x : Split) (c : Cause) (act : LaneMask) (d : Option Nat) (f : Option Addr) (va : Addr)
    (h : s.memOk) : (s.trapHeader k x c act d f va).memOk :=
  State.memOk_stopGroup (s := s.updGroup k fun g => g.updSplit (lowest x.mask) fun y => { y with run := none }) k _ h

end Sys2Proof.Machine
end

