-- ==== Sys2Proof/Laws/Ops.lean ====
section
/-! SUPPORT. One law for each shared operation of the group instructions: what a meaning over it answers, and what a register write leaves. -/

namespace Sys2Proof.Machine

/-! ### Lane sets -/

theorem mem_lanesOf {m : LaneMask} {l : Nat} : l ∈ lanesOf m ↔ m.getLsbD l = true := by
  simp only [lanesOf, List.mem_filter, List.mem_range, and_iff_right_iff_imp]
  intro h
  by_contra hl
  have := BitVec.getLsbD_of_ge m l (by omega)
  simp [this] at h
theorem lt_of_mem_lanesOf {m : LaneMask} {l : Nat} (h : l ∈ lanesOf m) : l < 64 := by
  simp only [lanesOf, List.mem_filter, List.mem_range] at h; exact h.1
theorem getLsbD_two_pow (i l : Nat) (hl : l < 64) : (BitVec.ofNat 64 (2 ^ i)).getLsbD l = decide (i = l) := by
  rw [BitVec.getLsbD_ofNat, Nat.testBit_two_pow]; simp [hl]
theorem getLsbD_maskOf (ls : List Nat) (l : Nat) (hl : l < 64) : (maskOf ls).getLsbD l = decide (l ∈ ls) := by
  suffices h : ∀ a : LaneMask,
      (ls.foldl (fun m i => m ||| BitVec.ofNat 64 (2 ^ i)) a).getLsbD l = (a.getLsbD l || decide (l ∈ ls)) by
    simpa [maskOf] using h 0
  induction ls with
  | nil => simp
  | cons i ls ih =>
    intro a
    rw [List.foldl_cons, ih, BitVec.getLsbD_or, getLsbD_two_pow i l hl, Bool.or_assoc]
    congr 1
    by_cases h : l = i
    · subst h; simp
    · have h2 : ¬ i = l := fun e => h e.symm
      simp [h, h2]
theorem getLsbD_maskWhere (f : Nat → Bool) (l : Nat) (hl : l < 64) : (maskWhere f).getLsbD l = f l := by
  rw [maskWhere, getLsbD_maskOf _ _ hl]
  cases h : f l <;> simp [h, hl]

/-! ### Who issues -/

/-- With an issuer, a group instruction does to it what its meaning says. -/
theorem onIssuer_some {s : State} {k : Nat} {g : Group} {x : Split} (h : s.issuer? = some (k, g, x)) (f : Nat → Group → Split → State) :
    onIssuer s f = .next (f k g x) := by simp [onIssuer, h]
/-- With none, nothing happens. -/
theorem onIssuer_none {s : State} (h : s.issuer? = none) (f : Nat → Group → Split → State) : onIssuer s f = .next s := by
  simp [onIssuer, h]

theorem vecForm_some {s : State} {k : Nat} {g : Group} {x : Split} (h : s.issuer? = some (k, g, x)) (gd : Guard) (b64 : Bool) (d : BitVec 8)
    (f : Group → Nat → BitVec 64) : vecForm gd b64 d s f = .next (s.setGroup k (g.writeD b64 d (s.active g x gd) (f g))) := by
  simp [vecForm, onIssuer_some h]
theorem predForm_some {s : State} {k : Nat} {g : Group} {x : Split} (h : s.issuer? = some (k, g, x)) (gd : Guard) (d : BitVec 3)
    (f : Group → Nat → Bool) : predForm gd d s f = .next (s.setGroup k (g.writeP d.toNat (s.active g x gd) (f g))) := by
  simp [predForm, onIssuer_some h]
theorem scalarForm_some {s : State} {k : Nat} {g : Group} {x : Split} (h : s.issuer? = some (k, g, x)) (gd : Guard) (d : BitVec 6)
    (f : Group → LaneMask → BitVec 64) : scalarForm gd d s f =
      .next (if s.active g x gd = 0 then s else s.setGroup k (g.writeS d.toNat (f g (s.active g x gd)))) := by
  simp [scalarForm, onIssuer_some h]

/-! ### Register writes -/

/-- A register and lane after a write of one register in a list of lanes. -/
theorem getD_putLanes (v : Tab LaneWord) (n : Nat) (f : Nat → LaneWord) (ls : List Nat) (h : ∀ l ∈ ls, l < 64) (m l : Nat) (hl : l < 64) :
    (putLanes v n f ls).getD (64 * m + l) 0 = if m = n ∧ l ∈ ls then f l else v.getD (64 * m + l) 0 := by
  induction ls generalizing v with
  | nil => simp [putLanes]
  | cons i ls ih =>
    have hi : i < 64 := h i List.mem_cons_self
    rw [putLanes, ih _ (fun x hx => h x (List.mem_cons_of_mem _ hx)), Tab.getD_putD]
    by_cases hm : m = n
    · subst hm
      by_cases h1 : l ∈ ls
      · simp [h1]
      · by_cases h2 : i = l
        · subst h2; simp
        · have h3 : ¬ l = i := fun e => h2 e.symm
          simp [h1, h2, h3]
    · have h4 : ¬ 64 * n + i = 64 * m + l := by omega
      simp [hm, h4]

/-- V[n] after a write: v255 stays, the register's lanes take their values, and every other register and lane stays. -/
theorem Group.v_writeV (g : Group) (n : Nat) (m : LaneMask) (f : Nat → LaneWord) (r l : Nat) (hl : l < 64) :
    (g.writeV n m f).v.getD (64 * r + l) 0 = if n ≠ 255 ∧ r = n ∧ m.getLsbD l = true then f l else g.v.getD (64 * r + l) 0 := by
  unfold Group.writeV
  split
  · rename_i h; simp [h]
  · rename_i h
    rw [getD_putLanes _ _ _ _ (fun x hx => lt_of_mem_lanesOf hx) _ _ hl]
    simp [mem_lanesOf, h]
theorem Group.v_writeV64 (g : Group) (n : Nat) (m : LaneMask) (f : Nat → BitVec 64) (r l : Nat) (hl : l < 64) :
    (g.writeV64 n m f).v.getD (64 * r + l) 0 =
      if n ≠ 255 ∧ r = n ∧ m.getLsbD l = true then (f l).setWidth 32
      else if n ≠ 255 ∧ n + 1 ≠ 255 ∧ r = n + 1 ∧ m.getLsbD l = true then (f l).extractLsb' 32 32
      else g.v.getD (64 * r + l) 0 := by
  unfold Group.writeV64
  split
  · rename_i h; simp [h]
  · rename_i h
    rw [Group.v_writeV _ _ _ _ _ _ hl, Group.v_writeV _ _ _ _ _ _ hl]
    by_cases h1 : r = n
    · subst h1; simp [h]
    · simp [h, h1]
theorem Group.v_writeD (g : Group) (b64 : Bool) (d : BitVec 8) (m : LaneMask) (f : Nat → BitVec 64) (r l : Nat) (hl : l < 64) :
    (g.writeD b64 d m f).v.getD (64 * r + l) 0 =
      if d ≠ 255 ∧ r = d.toNat ∧ m.getLsbD l = true then (f l).setWidth 32
      else if b64 = true ∧ d ≠ 255 ∧ d ≠ 254 ∧ r = d.toNat + 1 ∧ m.getLsbD l = true then (f l).extractLsb' 32 32
      else g.v.getD (64 * r + l) 0 := by
  have e1 : d.toNat = 255 ↔ d = 255 := by rw [← BitVec.toNat_inj]; simp
  have e2 : d.toNat = 254 ↔ d = 254 := by rw [← BitVec.toNat_inj]; simp
  unfold Group.writeD
  split
  · rename_i h; rw [Group.v_writeV64 _ _ _ _ _ _ hl]; simp [h, e1, e2]
  · rename_i h; rw [Group.v_writeV _ _ _ _ _ _ hl]; simp [h, e1]

/-- S[n] after a write. -/
theorem Group.s_writeS (g : Group) (n : Nat) (x : BitVec 64) (r : Nat) :
    (g.writeS n x).s.getD r 0 = if n = r then x else g.s.getD r 0 := by
  unfold Group.writeS; exact Tab.getD_putD 0 g.s n x r
/-- P[n] after a write: p7 stays, and inactive lanes keep their bits. -/
theorem Group.p_writeP (g : Group) (n : Nat) (m : LaneMask) (f : Nat → Bool) (r l : Nat) (hl : l < 64) :
    ((g.writeP n m f).p.getD r 0).getLsbD l =
      if n ≠ 7 ∧ r = n ∧ m.getLsbD l = true then f l else (g.p.getD r 0).getLsbD l := by
  unfold Group.writeP
  split
  · rename_i h; simp [h]
  · rename_i h
    rw [Tab.getD_putD]
    by_cases h1 : n = r
    · subst h1
      rw [if_pos rfl, BitVec.getLsbD_or, BitVec.getLsbD_and, BitVec.getLsbD_and, BitVec.getLsbD_not, getLsbD_maskWhere _ _ hl]
      cases hm : m.getLsbD l <;> simp [h, hl]
    · have h2 : ¬ r = n := fun e => h1 e.symm
      simp [h1, h2]

end Sys2Proof.Machine
end

