-- ==== Sys2Proof/Laws/Forms.lean ====
section
/-! SUPPORT. What a group form over the shared operations answers, in the terms of the claims: result and frame at once. -/

namespace Sys2Proof.Machine

open Sys2Proof.Claim

theorem rest_writeV (g : Group) (n : Nat) (m : LaneMask) (f : Nat → LaneWord) : rest (g.writeV n m f) = rest g := by
  unfold Group.writeV
  split
  · rfl
  · simp only [rest, Group.spoilV, List.map_map]
    congr 1
    refine List.map_congr_left fun o _ => ?_
    simp only [Function.comp]; split <;> rfl
theorem rest_writeV64 (g : Group) (n : Nat) (m : LaneMask) (f : Nat → BitVec 64) : rest (g.writeV64 n m f) = rest g := by
  unfold Group.writeV64
  split
  · rfl
  · rw [rest_writeV, rest_writeV]
theorem rest_writeD (g : Group) (b : Bool) (d : BitVec 8) (m : LaneMask) (f : Nat → BitVec 64) : rest (g.writeD b d m f) = rest g := by
  unfold Group.writeD
  split
  · exact rest_writeV64 _ _ _ _
  · exact rest_writeV _ _ _ _
theorem rest_writeS (g : Group) (n : Nat) (x : BitVec 64) : rest (g.writeS n x) = rest g := by
  simp only [rest, Group.writeS, Group.spoilS, List.map_map]
  congr 1
  refine List.map_congr_left fun o _ => ?_
  simp only [Function.comp]; split <;> rfl
theorem rest_writeP (g : Group) (n : Nat) (m : LaneMask) (f : Nat → Bool) : rest (g.writeP n m f) = rest g := by
  unfold Group.writeP
  split
  · rfl
  · simp only [rest, Group.spoilP, List.map_map]
    congr 1
    refine List.map_congr_left fun o _ => ?_
    simp only [Function.comp]; split <;> rfl
@[simp] theorem rest_raise (g : Group) (f : Flags) : rest (g.raise f) = rest g := rfl

theorem writeV_others (g : Group) (n : Nat) (m : LaneMask) (f : Nat → LaneWord) :
    (g.writeV n m f).flags = g.flags ∧ (g.writeV n m f).s = g.s ∧ (g.writeV n m f).p = g.p := by
  unfold Group.writeV; split <;> exact ⟨rfl, rfl, rfl⟩
theorem writeD_others (g : Group) (b : Bool) (d : BitVec 8) (m : LaneMask) (f : Nat → BitVec 64) :
    (g.writeD b d m f).flags = g.flags ∧ (g.writeD b d m f).s = g.s ∧ (g.writeD b d m f).p = g.p := by
  unfold Group.writeD Group.writeV64
  split
  · split
    · exact ⟨rfl, rfl, rfl⟩
    · obtain ⟨a, b, c⟩ := writeV_others (g.writeV d.toNat m fun l => (f l).setWidth 32) (d.toNat + 1) m fun l => (f l).extractLsb' 32 32
      obtain ⟨a', b', c'⟩ := writeV_others g d.toNat m fun l => (f l).setWidth 32
      exact ⟨a.trans a', b.trans b', c.trans c'⟩
  · exact writeV_others _ _ _ _
theorem writeP_others (g : Group) (n : Nat) (m : LaneMask) (f : Nat → Bool) :
    (g.writeP n m f).flags = g.flags ∧ (g.writeP n m f).v = g.v ∧ (g.writeP n m f).s = g.s := by
  unfold Group.writeP; split <;> exact ⟨rfl, rfl, rfl⟩

/-- A group with written registers and flags raised, as a result. -/
theorem vecResult_writeD (s : State) (k : Nat) (g : Group) (act : LaneMask) (b64 : Bool) (d : BitVec 8) (f F : Nat → BitVec 64) (fl : Flags)
    (h32 : ∀ l, act.getLsbD l = true → (f l).setWidth 32 = (F l).setWidth 32)
    (h64 : b64 = true → ∀ l, act.getLsbD l = true → (f l).extractLsb' 32 32 = (F l).extractLsb' 32 32) :
    VecResult s k g act b64 d f fl.bits (.next (s.setGroup k ((g.writeD b64 d act F).raise fl))) := by
  obtain ⟨hf, hs, hp⟩ := writeD_others g b64 d act F
  refine ⟨_, rfl, ?_, hs, hp, rest_writeD _ _ _ _ _, fun r l hl => ?_, fun a => rfl⟩
  · simp only [Group.raise, hf]
  · show (g.writeD b64 d act F).v.getD (64 * r + l) 0 = _
    rw [Group.v_writeD _ _ _ _ _ _ _ hl]
    split
    · rename_i h; exact (h32 l h.2.2).symm
    · split
      · rename_i h; exact (h64 h.1 l h.2.2.2.2).symm
      · rfl
/-- A lane-by-lane form with no flags. -/
theorem vecForm_result {s : State} {k : Nat} {g : Group} {x : Split} (h : s.issuer? = some (k, g, x)) (gd : Guard) (b64 : Bool) (d : BitVec 8)
    (F : Group → Nat → BitVec 64) (f : Nat → BitVec 64)
    (h32 : ∀ l, (f l).setWidth 32 = (F g l).setWidth 32)
    (h64 : b64 = true → ∀ l, (f l).extractLsb' 32 32 = (F g l).extractLsb' 32 32) :
    VecResult s k g (s.active g x gd) b64 d f 0 (vecForm gd b64 d s F) := by
  rw [vecForm_some h]
  have := vecResult_writeD s k g (s.active g x gd) b64 d f (F g) {} (fun l _ => h32 l) fun hb l _ => h64 hb l
  have e : ∀ g' : Group, g'.raise {} = g' := fun g' => by simp [Group.raise, Flags.bits, b2n]
  rw [e] at this; exact this
/-- A lane-by-lane form that writes a predicate. -/
theorem predForm_result {s : State} {k : Nat} {g : Group} {x : Split} (h : s.issuer? = some (k, g, x)) (gd : Guard) (d : BitVec 3)
    (F : Group → Nat → Bool) (f : Nat → Bool) (hf : ∀ l, f l = F g l) :
    PredResult s k g (s.active g x gd) d f (predForm gd d s F) := by
  rw [predForm_some h]
  obtain ⟨h1, h2, h3⟩ := writeP_others g d.toNat (s.active g x gd) (F g)
  refine ⟨_, rfl, h1, h2, h3, rest_writeP _ _ _ _, fun r l hl => ?_, fun a => rfl⟩
  rw [Group.p_writeP _ _ _ _ _ _ hl, hf l]
  have e : d.toNat = 7 ↔ d = 7 := by rw [← BitVec.toNat_inj]; simp
  simp [e]
/-- A form that runs once. -/
theorem scalarForm_result {s : State} {k : Nat} {g : Group} {x : Split} (h : s.issuer? = some (k, g, x)) (gd : Guard) (d : BitVec 6)
    (F : Group → LaneMask → BitVec 64) (y : BitVec 64) (hy : s.active g x gd ≠ 0 → y = F g (s.active g x gd)) :
    SclResult s k g (s.active g x gd) d y (scalarForm gd d s F) := by
  rw [scalarForm_some h]
  refine ⟨fun h0 => by simp [h0], fun h0 => ⟨g.writeS d.toNat (F g (s.active g x gd)), by simp only [h0, if_false], rfl, rfl, rfl,
    rest_writeS _ _ _, fun r => ?_, fun a => rfl⟩⟩
  rw [Group.s_writeS, ← hy h0]
  by_cases e : r = d.toNat
  · simp [e]
  · rw [if_neg e, if_neg fun h => e h.symm]

end Sys2Proof.Machine
end

