-- ==== Sys2Proof/Tests/Slice0.lean ====
section
/-! SUPPORT. Small tests, and for each statement of Certificates/Slice0 the cases that meet its hypotheses. Words and results are the manual's own
examples, or hand calculation from its tables; the comment of a test names its place. -/

namespace Sys2Proof.Test

open Sys2Proof Sys2Proof.Machine Sys2Proof.Claim

set_option maxRecDepth 20000
set_option exponentiation.threshold 8192

/-! ### Decoding: the words that the manual writes out -/

/-- No guard: GRD 0b0111. -/
def u : Guard := { neg := false, p := 7 }
def mem (base : BitVec 6) (off : BitVec 16) : MemOpd := { base := some base, idx := 255, scale := 0, off := off }

/-- 02, the worked example of a pair clause: FFMA v8, v1, v2; IADD v13, v5, s3; FMUL v20, v21, v22; the filler. -/
theorem test_decode_compact :
    decodeTableWord 32 0x0C401046 = some (.ffmaCompact { d := 8, a := 1, b := .v 2, gn := false, gp := 3 }) ∧
    decodeTableWord 32 0x20685076 = some (.iaddCompact { d := 13, a := 5, b := .s 3, gn := false, gp := 3 }) ∧
    decodeTableWord 32 0x08A152C6 = some (.fmulCompact { d := 20, a := 21, b := .v 22, gn := false, gp := 3 }) ∧
    decodeTableWord 32 0x3C00000E = some .filler := by decide
/-- 02 R48, 19, 20, 21 and 23: loads and stores. -/
theorem test_decode_load_store :
    decodeTableWord 64 0x8007040207002A40 =
      some (.ld { g := u, ty := .b32, ord := .acq, scope := .die, d := 4, m := { base := some 2, idx := 7, scale := 2, off := 0x40 } }) ∧
    decodeTableWord 64 0x80070200FF002C80 = some (.ld { g := u, ty := .b32, ord := .acq, scope := .dev, d := 2, m := mem 0 128 }) ∧
    decodeTableWord 64 0x8027140012010000 =
      some (.ld { g := u, ty := .b128, ord := .rlx, scope := .team, d := 20, m := { base := some 0, idx := 18, scale := 0, off := 256 } }) ∧
    decodeTableWord 64 0x81070100FF004C00 = some (.st { g := u, ty := .b32, ord := .rel, scope := .dev, d := 1, m := mem 0 0 }) ∧
    decodeTableWord 64 0x81070500FF105000 = some (.st { g := u, ty := .b32, ord := .rel, scope := .peer, d := 5, m := mem 0 0x1000 }) ∧
    decodeTableWord 64 0x81870402FF000080 = some (.stBnd { g := u, ty := .b32, d := 4, m := mem 2 128 }) := by decide
/-- 06 and 19: an atomic, a WAKE. 02 R64: x.waitv.aq a0, a1, a2. -/
theorem test_decode_sync :
    decodeTableWord 64 0x84070604090A6E00 =
      some (.atomAdd { g := u, b64 := false, ord := .ar, scope := .dev, d := 6, base := some 4, idx := 9, scale := 2, c := 10 }) ∧
    decodeTableWord 64 0x8907060005000C00 = some (.wake { g := u, ord := .rlx, scope := .dev, d := 6, a := 0, b := 5 }) ∧
    decodeTableWord 32 0x04C5850B = some (.xWaitv { w32 := false, aq := true, rd := 10, rs1 := 11, rs2 := 12 }) := by decide
/-- 07 and 22: KICK and the objects. -/
theorem test_decode_copy :
    decodeTableWord 64 0x9007000A0B004C13 = some (.kick { g := u, rel := true, scope := .dev, slot := some 3, a := 10, b := 11 }) ∧
    decodeTableWord 64 0x900700000B004C00 = some (.kick { g := u, rel := true, scope := .dev, slot := none, a := 0, b := 11 }) ∧
    decodeTableWord 64 0x9107000800000001 = some (.bobjInit { g := u, a := 8, n := 1 }) ∧
    decodeTableWord 64 0x920700080C000001 = some (.bobjExpect { g := u, a := 8, b := 12, arrive := true }) ∧
    decodeTableWord 64 0x94070D080E000000 = some (.bobjWait { g := u, d := 13, a := 8, b := 14 }) := by decide
/-- 08 R189, R188, R187, 20, 21, 24: LEA, MOV.hi, ISETP, BFX. -/
theorem test_decode_integer :
    decodeTableWord 64 0x36170A0407008002 = some (.lea { g := u, b64 := true, d := 10, a := .s 4, b := .v 7, sx := false, sh := 2 }) ∧
    decodeTableWord 64 0x4E070600FFE00000 = some (.movImm32Scalar { g := u, d := 6, imm := 0xFFE00000 }) ∧
    decodeTableWord 64 0x4E270600000FFFFF = some (.movHiScalar { g := u, d := 6, imm := 0x000FFFFF }) ∧
    decodeTableWord 64 0x320705191B000480 =
      some (.isetp { g := u, b64 := false, uns := false, d := 5, a := .v 25, b := .v 27, pc := 4, pcn := true, bop := .and, cmp := .eq }) ∧
    decodeTableWord 64 0x30870602010A0800 =
      some (.bfx { g := u, b64 := false, sat := false, uns := true, d := 6, a := .v 2, b := .imm 0x010A }) := by decide
/-- 09, 20, 22, 24: FFMA.rz, FADD with a negated source, CVTP2, UNPK, VOTE, REDUX. -/
theorem test_decode_float :
    decodeTableWord 64 0x5237080205095000 =
      some (.ffma { g := u, rnd := .rz, na := true, nb := false, nc := false, d := 8, a := .v 2, b := .s 5, c := .v 9 }) ∧
    decodeTableWord 64 0x500706060C000800 = some (.fadd { g := u, rnd := .dflt, na := false, nb := true, d := 6, a := .v 6, b := .v 12 }) ∧
    decodeTableWord 64 0x6D070C0809000020 = some (.cvtp2 { g := u, rnd := .dflt, bf := true, d := 12, a := 8, b := 9 }) ∧
    decodeTableWord 64 0x70070B0900000201 = some (.unpk { g := u, st := .f16, i := 1, scale := none, d := 11, a := 9 }) ∧
    decodeTableWord 64 0x79070A0000000703 = some (.vote { g := u, dst := .ballot 10, pa := 7, pan := false }) ∧
    decodeTableWord 64 0x7A071B1900000801 = some (.redux { g := u, op := .min false true, d := 27, a := 25 }) := by decide
/-- 10 R226, R227, R230, R232, 22: stream words and ACCLD. -/
theorem test_decode_matrix :
    decodeTableWord 64 0xC0F7008600000000 = some (.mld { sc := true, len := 7, d := 0, a := 6, slot := none }) ∧
    decodeTableWord 64 0xC237030084007800 =
      some (.mmas { z := false, nch := 3, d := 3, a := .tile 0, b := .scr 4, fa := 3, fb := 6, slot := none }) ∧
    decodeTableWord 64 0xC2B7020084007800 =
      some (.mmas { z := true, nch := 3, d := 2, a := .tile 0, b := .scr 4, fa := 3, fb := 6, slot := none }) ∧
    decodeTableWord 64 0xC507000000000021 = some (.marr { n := 1, count := 2 }) ∧
    decodeTableWord 64 0xC987040000004000 = some (.movQImm32 { d := 4, imm := 0x4000 }) ∧
    decodeTableWord 64 0x8E27080201000000 = some (.accld { g := u, cnt := 2, d := 8, acc := 2, b := .v 1 }) := by decide
/-- 11 R249, R253, 23: the bundle forms. -/
theorem test_decode_bundle :
    decodeTableWord 64 0x9807040600001000 = some (.bopen { g := u, scope := .peer, d := 4, a := 6 }) ∧
    decodeTableWord 64 0x9907060000000000 = some (.bcommit { g := u, d := 6 }) ∧
    decodeTableWord 64 0x9B07070400000000 = some (.bstat { g := u, d := 7, a := some 4 }) := by decide
/-- 12 R268, 16 R348, R358, R359, 20, 21: control, traps, status. -/
theorem test_decode_control :
    decodeTableWord 64 0x0101000000000040 = some (.bra { g := { neg := false, p := 1 }, off := 0x40 }) ∧
    decodeTableWord 64 0x0907000000000003 = some (.partset 3) ∧
    decodeTableWord 64 0x0E07000000000000 = some (.barSync { n := 0, count := 0 }) ∧
    decodeTableWord 64 0x13070A0400000005 = some (.upcall { g := u, d := 10, a := 4, code := 5 }) ∧
    decodeTableWord 64 0x120700000000002A = some (.trap { g := u, code := 0x2A }) ∧
    decodeTableWord 64 0x1507070000000000 = some (.clock { g := u, d := 7 }) ∧
    decodeTableWord 64 0x1707030000000000 = some (.gstat { g := u, d := 3, sel := 0 }) := by decide
/-- 13 R288, R289, 14 R315, R316, 24: nodes and rays. -/
theorem test_decode_nodes_rays :
    decodeTableWord 64 0xA007000C14000001 = some (.spawn { g := u, a := 12, b := 20, sz := 1 }) ∧
    decodeTableWord 64 0xA1670300FF00001C = some (.recld { g := u, ty := .z16, d := 3, b := 255, off := 28 }) ∧
    decodeTableWord 64 0xA8071E0828000012 = some (.trace { g := u, d := 30, a := 8, b := 40, slot := some 2 }) ∧
    decodeTableWord 64 0xAA07020805000020 = some (.contEnd { g := u, d := 2, a := 8, b := 5, slot := none }) := by decide
/-- A RISC-V word of the base set is handed on whole: addi a0, a0, 1. -/
theorem test_decode_base : decodeTableWord 32 0x00150513 = some (.hartInstruction 0x00150513) := by decide
/-- The words of these encode back, with the bits the manual gives. -/
theorem test_encode :
    encode (.trace { g := u, d := 30, a := 8, b := 40, slot := some 2 }) = some (64, 0xA8071E0828000012) ∧
    encode (.kick { g := u, rel := true, scope := .dev, slot := some 3, a := 10, b := 11 }) = some (64, 0x9007000A0B004C13) ∧
    encode (.xWaitv { w32 := false, aq := true, rd := 10, rs1 := 11, rs2 := 12 }) = some (32, 0x04C5850B) := by decide
/-- 02 R44, R45, R47, R49, R53, R54, R64: a reserved guard, an unused field, a reserved order, bit 0 of a half, reserved slots, an absent COP, a bit
of funct7 outside its set. -/
theorem test_decode_refuses :
    decodeTableWord 64 0x200F010203000000 = none ∧ decodeTableWord 64 0x2007010203010000 = none ∧
    decodeTableWord 64 0x80070402070FA000 = none ∧ decodeTableWord 32 0x1C000000 = none ∧ decodeTableWord 64 0x0007000000000000 = none ∧
    decodeTableWord 64 0xB007000000000000 = none ∧ decodeTableWord 64 0xCD07000000000000 = none ∧ decodeTableWord 32 0x10C5850B = none := by decide

/-! ### Ill-formed terms: one for each check -/

def bad : Guard := { neg := true, p := 7 }
def b32 (a b : Src) : IntBin := { g := u, b64 := false, sat := false, uns := false, d := 1, a := a, b := b }
def t32 (a b c : Src) : IntTer := { g := u, b64 := false, sat := false, uns := false, d := 1, a := a, b := b, c := c }
/-- Guards, register ranges, immediates and modifiers of the integer forms (02 R44 to R46; 08 R183). -/
theorem wf_integer :
    Instr.wf (.iadd (b32 (.v 1) (.imm 2))) = true ∧ Instr.wf (.iadd { b32 (.v 1) (.v 2) with g := bad }) = false ∧
    Instr.wf (.iadd (b32 (.imm 1) (.v 2))) = false ∧ Instr.wf (.iadd { b32 (.v 1) (.v 2) with uns := true }) = false ∧
    Instr.wf (.iadd { b32 (.v 1) (.v 2) with b64 := true, d := 254 }) = false ∧ Instr.wf (.imin { b32 (.v 1) (.v 2) with sat := true }) = false ∧
    Instr.wf (.imad (t32 (.v 1) (.imm 1) (.v 2))) = false ∧ Instr.wf (.shl { b32 (.v 1) (.v 2) with uns := true }) = false ∧
    Instr.wf (.fshl { t32 (.v 1) (.v 1) (.v 2) with b64 := true }) = false ∧
    Instr.wf (.lop3 { g := u, b64 := false, d := 1, a := .v 1, b := .imm 1, c := .v 1, lut := 0 }) = false ∧
    Instr.wf (.popc { g := u, b64 := false, d := 1, a := .imm 1 }) = false ∧
    Instr.wf (.lea { g := u, b64 := true, d := 1, a := .s 1, b := .imm 1, sx := true, sh := 0 }) = false ∧
    Instr.wf (.s2v { g := u, b64 := true, d := 1, a := 1, sel := .all }) = false ∧
    Instr.wf (.movImm32B64 { g := u, d := 254, imm := 0 }) = false ∧
    Instr.wf (.iaddScalar { g := u, b64 := true, sat := false, uns := false, d := 1, a := .imm 0, b := .s 1 }) = false := by decide
/-- Floating, converting and cross-lane forms (09). -/
theorem wf_float :
    Instr.wf (.fadd { g := u, rnd := .dflt, na := false, nb := false, d := 1, a := .imm 1, b := .v 2 }) = false ∧
    Instr.wf (.cvt { g := u, rnd := .dflt, dt := .f32, st := .b64, uns := false, sat := true, d := 1, a := 2 }) = false ∧
    Instr.wf (.cvt { g := u, rnd := .rz, dt := .s8, st := .b32, uns := false, sat := false, d := 1, a := 2 }) = false ∧
    Instr.wf (.cvtp4 { g := u, rnd := .dflt, dt := .e2m1, scale := none, d := 1, a := 248 }) = false ∧
    Instr.wf (.cvtds { g := u, rnd := .dflt, scale := none, d := 1, a := 252 }) = false ∧
    Instr.wf (.unpk { g := u, st := .f16, i := 2, scale := none, d := 1, a := 2 }) = false ∧
    Instr.wf (.unpk { g := u, st := .s8, i := 0, scale := some 3, d := 1, a := 2 }) = false ∧
    Instr.wf (.vote { g := u, dst := .ballot 254, pa := 0, pan := false }) = false ∧
    Instr.wf (.redux { g := u, op := .add true, d := 254, a := 0 }) = false ∧
    Instr.wf (.matchLanes { g := u, b64 := false, d := 254, a := 0 }) = false ∧
    Instr.wf (.faddCompact { d := 1, a := 1, b := .v 1, gn := true, gp := 3 }) = false := by decide
/-- Memory and synchronisation forms (06, 10, 11, 13, 14). -/
theorem wf_memory :
    Instr.wf (.ld { g := u, ty := .b32, ord := .rel, scope := .team, d := 1, m := mem 0 0 }) = false ∧
    Instr.wf (.st { g := u, ty := .b32, ord := .acq, scope := .team, d := 1, m := mem 0 0 }) = false ∧
    Instr.wf (.ld { g := u, ty := .b128, ord := .rlx, scope := .team, d := 252, m := mem 0 0 }) = false ∧
    Instr.wf (.atomCas { g := u, b64 := true, ord := .rlx, scope := .team, d := 1, base := none, idx := 255, scale := 0, c := 252 }) = false ∧
    Instr.wf (.fence { g := u, pd := none, ord := .rlx, scope := .dev }) = false ∧
    Instr.wf (.wake { g := u, ord := .acq, scope := .dev, d := 0, a := 0, b := 0 }) = false ∧
    Instr.wf (.linkq { g := u, ord := .rel, scope := .dev, d := 0, a := 0, b := 0 }) = false ∧
    Instr.wf (.condq { g := u, ord := .sc, scope := .dev, d := 0, a := 0, b := 0 }) = false ∧
    Instr.wf (.alloc { g := u, d := 254, a := 0 }) = false ∧ Instr.wf (.free { g := u, a := 254 }) = false ∧
    Instr.wf (.accld { g := u, cnt := 3, d := 0, acc := 0, b := .v 0 }) = false ∧ Instr.wf (.bobjInit { g := u, a := 0, n := 0 }) = false ∧
    Instr.wf (.bopen { g := u, scope := .clu, d := 0, a := 0 }) = false ∧ Instr.wf (.spawn { g := u, a := 0, b := 252, sz := 0 }) = false ∧
    Instr.wf (.trace { g := u, d := 0, a := 0, b := 246, slot := none }) = false := by decide
/-- Control and stream forms (02 R42; 08 R175, R178; 09 R209; 10 R223, R225; 12 R269; 16 R348). -/
theorem wf_control :
    Instr.wf (.partset 6) = false ∧ Instr.wf (.reggrow 0) = false ∧ Instr.wf (.regshrink 33) = false ∧
    Instr.wf (.setmode { clr := false, ftz := none }) = false ∧ Instr.wf (.call { g := u, d := 254, off := 0 }) = false ∧
    Instr.wf (.brx { g := u, t := .v 254 }) = false ∧ Instr.wf (.barArrive { n := 0, count := 34 }) = false ∧
    Instr.wf (.upcall { g := u, d := 63, a := 0, code := 0 }) = false ∧ Instr.wf (.upcall { g := u, d := 0, a := 61, code := 0 }) = false ∧
    Instr.wf (.upcall { g := u, d := 0, a := 0, code := 0xF0 }) = false ∧ Instr.targetAligned (.bra { g := u, off := 4 }) = false ∧
    Instr.wf (.mld { sc := false, len := 0, d := 0, a := 31, slot := none }) = false ∧
    Instr.wf (.mma { z := false, nch := 2, d := 0, a := .tile 0, b := .tile 1, fa := 1, fb := 1, slot := none }) = false ∧
    Instr.wf (.mmas { z := false, nch := 0, d := 0, a := .tile 0, b := .tile 1, fa := 1, fb := 1, slot := none }) = false ∧
    Instr.wf (.mst { fmt := .b32, a := 31, d := 0, slot := none }) = false := by decide

/-! ### Small states -/

/-- A split of the 32 lanes of a group at a clause of two words, and variants of it. -/
def x0 : Split := { mask := 0xFFFFFFFF, pc := 0x10000, last := 1, run := some { hdr := 0x4100000000000000, words := [0, 0], idx := 0, clause := 0 } }
def grp (x : Split) (l : List Split) : Group :=
  { team := 0, gidx := 0, role := 0, width := 32, bornAt := 0, born := 0, blocks := 4, vmax := 8, live := 0xFFFFFFFF, splits := x :: l,
    recs := [(0, { jmask := 0xFFFFFFFF, parent := 0 })], clauses := 1 }
def g0 : Group := grp x0 []
def tm0 : Team :=
  { asid := 0, cluster := 0, core := 0, slot := 0, num := 0, kern := { hdr := { seq := true, acct := 4, scratch := 8192 }, roles := [], safe := [] },
    hdrVa := 0, cmd := none, groups := [0] }
/-- A group in slot 0 of core 0 whose first split issues. -/
def sg (g : Group) : State := { groups := [(0, g)], teams := [(0, tm0)], cur := .grp 0 0 }
def s0 : State := sg g0
def sx (x : Split) : State := sg (grp x [])
/-- Lanes 0 to 3 alone: p1. -/
def p1 : Guard := { neg := false, p := 1 }
def s1 : State := sg { g0 with p := [(1, 0xF)] }
/-- No lane: p2. -/
def p2 : Guard := { neg := false, p := 2 }

/-! ### Cases that meet the hypotheses -/

/-- IntegerForms, ShiftsAndBitFields, LogicByTable, Moves, FloatingForms, FloatMinMax, PackedAndCompactFloats, Conversions, LanesOfATile, and every
other statement about an issuing split: a group of 32 lanes, some of whose lanes pass a guard. -/
theorem witness_issuer : s1.issuer? = some (0, { g0 with p := [(1, 0xF)] }, x0) ∧ s1.active { g0 with p := [(1, 0xF)] } x0 p1 = 0xF ∧
    s1.active { g0 with p := [(1, 0xF)] } x0 p2 = 0 ∧ s1.active { g0 with p := [(1, 0xF)] } x0 u = 0xFFFFFFFF ∧ g0.width = 32 := by decide
/-- CompareAndSelect, Moves: the lowest active lane. -/
theorem witness_lowest : (s1.active { g0 with p := [(1, 0xF)] } x0 p1).getLsbD 0 = true ∧ ∀ i < 0, ((0xF : LaneMask)).getLsbD i = false := by decide
/-- CompactIntegers, CompactFloats: no hypothesis. FloatInvalid: each case. -/
theorem witness_FloatInvalid :
    (Num.isZero (.fin ⟨false, 0, 0⟩) = true ∧ Num.isInf (.inf true) = true) ∧
    (Num.isNan (.inf false) = false ∧ Num.isZero (.fin ⟨true, 1, 0⟩) = false ∧ Num.isNan (.nan) = true) := by decide
/-- RoundToNearest: the largest finite code is within range, and a code holds it. -/
theorem witness_RoundToNearest : |value ⟨false, 2 ^ 24 - 1, 104⟩| ≤ (2 ^ 24 - 1) * 2 ^ 104 ∧ fp32.decode 0x7F7FFFFF = .fin ⟨false, 2 ^ 24 - 1, 104⟩ := by
  constructor
  · norm_num [value]
  · decide
/-- SpecialFunctions: a NaN, a negative number, whole and half-odd numbers, and 10. -/
theorem witness_SpecialFunctions : (fp32.decode 0x7F800001).isNan = true ∧ fp32.decode 0xBF800000 = .fin ⟨true, 2 ^ 23, -23⟩ ∧
    fp32.decode 0x3F000000 = .fin ⟨false, 2 ^ 23, -24⟩ ∧ fp32.decode 0x41200000 = .fin ⟨false, 10 * 2 ^ 20, -20⟩ := by decide
/-- Conversions: between integers, from an integer to a floating type. -/
theorem witness_Conversions : cvtTarget true .s8 = .int 8 true ∧ cvtTarget false .b64 = .int 64 true ∧ (CvtTy.isInt .f32 && CvtTy.isInt .s8) = false ∧
    UnpkTy.isInt .z16 = true ∧ UnpkTy.isInt .e2m1 = false := by decide
/-- FourBitFloats: the codes at both ends. -/
theorem witness_FourBitFloats : e2m1.decode 8 = .fin ⟨true, 0, -1⟩ ∧ (15 : Nat) < 16 := by decide
/-- Transfers: all lanes go, none goes, a call at depth 0 and a return at depth 1. -/
theorem witness_UniformTransfers : s0.active g0 x0 u = x0.mask ∧ s0.active g0 x0 p2 = 0 ∧ x0.depth ≠ 255 ∧
    (sx { x0 with depth := 1 }).issuer? = some (0, grp { x0 with depth := 1 } [], { x0 with depth := 1 }) ∧
    (∀ l < 64, s0.target { g0 with s := [(4, 0x8000)] } (.s 4) l = 0x8000) := by decide
theorem witness_TransferTraps : g0.stop = none ∧ s0.active g0 x0 u ≠ 0 ∧ x0.depth = 0 ∧
    (s0.target { g0 with s := [(4, 0x8004)] } (.s 4) 0).toNat % 8 ≠ 0 ∧
    (sx { x0 with depth := 255 }).issuer? = some (0, grp { x0 with depth := 255 } [], { x0 with depth := 255 }) := by decide
theorem witness_Division : let g := { g0 with p := [(1, 0xF)] }
    s1.active g x0 p1 ≠ 0 ∧ s1.active g x0 p1 ≠ x0.mask ∧ x0.pc + (0x40 : Addr) ≠ fallOf x0 ∧ g.splits.length ≤ 3 ∧ g.spilled = [] ∧
    g.recs.fresh 4096 1 ≤ 4095 ∧ (∀ e ∈ g.recs, e.2.chip = true) ∧ g.onChip.length < 4 := by decide
/-- JOIN: alone, before the other split, and with it waiting there. -/
def xa : Split := { x0 with mask := 0xFFFF, jid := 1 }
def xb : Split := { x0 with mask := 0xFFFF0000, jid := 1, run := none, pc := 0x20000 }
def gj (y : Split) : Group := { grp xa [y] with recs := [(0, { jmask := 0xFFFFFFFF, parent := 0 }), (1, { jmask := 0xFFFFFFFF, parent := 0 })] }
theorem witness_Joins : (s0.issuer? = some (0, g0, x0) ∧ g0.splits = [x0] ∧ (g0.jmaskOf x0.jid &&& g0.live) &&& ~~~x0.mask = 0) ∧
    ((sg (gj xb)).issuer? = some (0, gj xb, xa) ∧ xb.mask &&& xa.mask = 0 ∧ ((gj xb).jmaskOf 1 &&& (gj xb).live) &&& ~~~xa.mask ≠ 0) ∧
    (let y := { xb with st := .joinw, pc := xa.pc, wait := .join (fallOf xa) }
     (sg (gj y)).issuer? = some (0, gj y, xa) ∧ ((gj y).jmaskOf 1 &&& (gj y).live) &&& ~~~(xa.mask ||| y.mask) = 0) := by decide
theorem witness_ExitAndYield : g0.splits = [x0] ∧ g0.spilled = [] ∧ g0.recs = [(0, { jmask := 0xFFFFFFFF, parent := 0 })] ∧ x0.st = .ready := by decide
/-- REGGROW within the allocation, beyond it, and above VMAX; REGSHRINK. -/
theorem witness_RegisterAllocation : g0.ops = [] ∧ (4#6).toNat ≤ g0.blocks ∧ g0.blocks < (8#6).toNat ∧ (8#6).toNat ≤ g0.vmax ∧ g0.vmax < (9#6).toNat ∧
    (1#6).toNat < g0.blocks := by decide
def xg : Split := { x0 with st := .sleep, wait := .grow 8, run := none }
theorem witness_RegisterGrant : let s : State := { groups := [(0, grp xg [])], teams := [(0, tm0)] }
    s.groupsOn s.hand = [(0, grp xg [])] ∧ (grp xg []).blocks ≤ 8 ∧ 8 ≤ (grp xg []).vmax ∧ 8 * ((grp xg []).width / 16) ≤ 1024 ∧
    fld (s.quota (s.partitionOf (grp xg []))).toNat 10 11 = 1024 := by decide
/-- The barrier statements: a group and a sequencer at rest; the last arrival and one before it. -/
def q0 : Seq := { team := 0, pc := 0x10000 }
def sq (x : Seq) (t : Team) : State := { teams := [(0, t)], seqs := [(0, x)], cur := .seq 0 }
theorem witness_Barriers : s0.team? g0.team = some tm0 ∧ g0.allPerformed = true ∧ s0.reaches 0 .team = true ∧
    (sq q0 tm0).cur = .seq 0 ∧ (sq q0 tm0).seq? 0 = some q0 ∧ (sq q0 tm0).team? q0.team = some tm0 ∧
    (let s := { s0 with teams := [(0, { tm0 with bars := [(3, { ph := 5, rem := 2, isOpen := true })] })] }
     2 ≤ (s.barOf 0 3).rem ∧ (s.barOf 0 3).isOpen = true ∧ (s.barOf 0 3).ph ≠ 4) := by decide
/-- Guard slots: unresolved, resolved; a queued command bound either way; a ray command; a held stream command. -/
def te0 : QueueEntry := { id := 0, va := 0, group := 0, gio := 0, slot := some 1, bound := some true }
theorem witness_GuardSlots : tm0.guards.get? 1 = none ∧ ({ tm0 with guards := [(1, true)] } : Team).guards.get? 1 ≠ none ∧
    (({ tm0 with queue := [te0] } : Team).queue.find? fun e => e.slot.isSome) = some te0 ∧
    (let c : SeqCmd := { instr := .mzero { d := 0, slot := some 1 }, args := [], pc := 0 }
     ({ q0 with held := some (c, 1, some true) } : Seq).held = some (c, 1, some true) ∧ c.check ((sq q0 tm0).seqScratch q0) = none) := by decide
/-- TRAP with an active lane and with none; the routines. -/
theorem witness_ProgramTraps : g0.stop = none ∧ s0.active g0 x0 u ≠ 0 ∧ s0.active g0 x0 p2 = 0 ∧ x0.routine ≠ .save ∧ x0.routine ≠ .restore ∧
    (let y := { x0 with routine := .save }
     (sg { grp y [] with park := .saving [] }).issuer? = some (0, { grp y [] with park := .saving [] }, y)) ∧
    (let y := { x0 with routine := .restore }
     (sg { grp y [] with park := .restoring [] }).issuer? = some (0, { grp y [] with park := .restoring [] }, y)) := by decide
theorem witness_Upcalls : s0.active g0 x0 u ≠ 0 ∧ s0.active g0 x0 p2 = 0 ∧ s0.upcalls.get? 0 = none ∧ (s0.die 0).evqBase = 0 := by decide
/-- CLAUSE_START: the clause EXIT at 0x10000, in an extent from physical 0 on; a header with a reserved bit; a reserved slot; a wait flag held. -/
def ext0 : Extent := { vbase := 0x10000, vend := 0x20000, tier := 0, peer := 0, paddr := 0, spec := false, x := true, w := true, r := true }
def xi : Split := { x0 with run := none }
def sc (m : Tab Byte) : State :=
  { groups := [(0, grp xi [])], teams := [(0, { tm0 with extents := [ext0] })], mem := m }
theorem witness_ClauseStart : let s := sc [(7, 0x40), (14, 7), (15, 6)]; let g := grp xi []
    let t := (s.fetchClause 0 g xi).1
    s.group? 0 = some g ∧ g.split? 0 = some xi ∧ g.mayFetch xi = true ∧ s.slotBusy 0 g.part = false ∧ xi.pc.toNat % 8 = 0 ∧ xi.fetchFault = false ∧
    (s.fetchClause 0 g xi).2 = .clause 0x4000000000000000 [0x0607000000000000] ∧ t.group? 0 = some g ∧
    clauseVerdict 0x4000000000000000 [0x0607000000000000] tm0.kern.hdr = .ok ∧ g.flagsClear 0x4000000000000000 = true ∧ g.park = .no ∧
    t.passedOver 0 g xi = false ∧ t.chosen 0 g xi = true ∧ (t.core 0).atops = [] ∧ xi.skip < 1 ∧ clauseFlags 0x4000000000000000 [0x0607000000000000] 0 = [] := by decide
theorem witness_ClauseStart_traps : (grp { xi with pc := 0x10004 } []).mayFetch { xi with pc := 0x10004 } = true ∧ (0x10004#64).toNat % 8 ≠ 0 ∧ clauseVerdict 0x4000000000000001 [0x0607000000000000] tm0.kern.hdr = .illegalClause ∧
    clauseVerdict 0x4000000000000000 [0x0007000000000000] tm0.kern.hdr = .illegalOp 0 := by decide
/-- HeaderChecks: each case of 02 R37, and a header of none. -/
theorem test_header_checks : ([0x5000000000000000, 0x4000000100000000, 0x4000000000000001, 0x4000008000000000, 0x4000000400000000,
      0x40000E0000000000, 0x40000C6000000000, 0x4000084000000000, 0x4000004400000000, 0x4000000000100000, 0x4000000080000000] : List Word).all
      (fun h => decide (clauseVerdict h [] tm0.kern.hdr = .illegalClause)) = true ∧ clauseVerdict 0x40000C0000000000 [] tm0.kern.hdr = .ok := by decide
/-- INSTRUCTION_COMPLETE of a performed instruction with one scalar result, whose flag it is the last to hold. -/
def oc : Op := { gio := 3, instr := .bcommit { g := u, d := 6 }, word := 0, pc := 0, idx := 0, clause := 0, flag := some 2, mask := 1, split := 0,
                 performed := true, sOut := [(6, 9)] }
theorem witness_InstructionCompletes : let g := { g0 with ops := [oc], cf := [(2, 1)], att := [(0, 2, 1)] }
    (sg g).group? 0 = some g ∧ g.op? 3 = some oc ∧ g.declined = none ∧ oc.spoiltS.contains 6 = false ∧
    (g.att.find? fun a => a.1 == oc.clause && a.2.1 == 2) = some (oc.clause, 2, 1) := by decide

/-! ### Memory -/

/-- A group whose s4 points into the scratchpad, with nothing in flight: lane 0 alone passes p3. -/
def p3 : Guard := { neg := false, p := 3 }
def gm (a : BitVec 64) : Group := { g0 with s := [(4, a)], p := [(3, 1)] }
def sm (a : BitVec 64) : State := sg (gm a)
def m4 : MemOpd := { base := some 4, idx := 255, scale := 0, off := 16 }
theorem witness_InScratch : (gm 0x000FFFFFFFE00000).ops = [] ∧ (sm 0x000FFFFFFFE00000).links.out = [] ∧
    (sm 0x000FFFFFFFE00000).reachable Config.selfModule = true ∧ (sm 0x000FFFFFFFE00000).active (gm 0x000FFFFFFFE00000) x0 p3 = 1 ∧
    eaOf (sm 0x000FFFFFFFE00000) (gm 0x000FFFFFFFE00000) m4 0 = BitVec.ofNat 64 (0x000FFFFFFFE00000 + 16) ∧ 16 % tyLen .b128 = 0 ∧
    16 + tyLen .b128 ≤ tm0.kern.hdr.scratch ∧ (sm 0x000FFFFFFFE00000).scrPinned 0 16 16 = true ∧
    (sm 0x000FFFFFFFE00000).scrPoisoned 0 16 16 = false ∧ (sm 0).objUsed 0 16 = false ∧ (sm 0).objUsed 0 24 = false ∧ atomOf (.atomFmin { g := p3, ord := .rlx, scope := .team, d := 1, base := some 4, idx := 255, scale := 0, c := 2 })
      = some ⟨p3, false, 1, 2, some 4, 255, 0⟩ := by decide
/-- `idle` asks that every module answers: all ports are up. -/
def up : Links := { reach := BitVec.allOnes 64, pgMap := BitVec.allOnes 64, portStat := BitVec.allOnes 24 }
theorem witness_idle (m : Nat) : ({ sm 0 with links := up } : State).reachable m = true := by
  have h : m % 64 < 64 := Nat.mod_lt _ (by decide)
  simp only [State.reachable, up, BitVec.getLsbD_allOnes, h, decide_true, Bool.or_true]
theorem witness_clean (c : Nat) : ((sm 0).core c).l1 = [] := rfl
/-- A performed load of two words in lane 5, to v8 and v9. -/
def ol : Op := { gio := 3, instr := .ld { g := u, ty := .b64, ord := .rlx, scope := .team, d := 8, m := m4 }, word := 0, pc := 0, idx := 0, clause := 0,
                 flag := none, mask := 0x20, split := 0, performed := true, accs := [{ lane := 5, ea := 0, phase := .done 7 }] }
theorem witness_ScratchLoads_completion : let g := { g0 with ops := [ol] }
    (sg g).group? 0 = some g ∧ g.op? 3 = some ol ∧ (ol.accs.map (·.lane)).Nodup ∧ g.live.getLsbD 5 = true ∧ (8#8).toNat + tyRegs .b64 ≤ 255 := by decide
/-- AccessTraps: a misaligned address in lane 0, one at 2^52, BCUR 0 and set. -/
theorem witness_AccessTraps : (eaOf (sm 0x10001) (gm 0x10001) m4 0).toNat % 4 ≠ 0 ∧ 2 ^ 52 ≤ (eaOf (sm 0x10000000000000) (gm 0x10000000000000) m4 0).toNat ∧
    (eaOf (sm 0x10000000000000) (gm 0x10000000000000) m4 0).toNat % 16 = 0 ∧ g0.bcur = 0 ∧ (sm 0x10001).active (gm 0x10001) x0 p3 ≠ 0 ∧
    ({ gm 0x10001 with bcur := 0x1001 } : Group).bcur ≠ 0 ∧ g0.bndMayHold = true ∧ (gm 0).stop = none := by decide
/-- FarAccesses: a load at .dev from memory in an extent. -/
def tx : Team := { tm0 with extents := [ext0] }
def gf : Group := gm 0x10000
def sf : State := { sm 0x10000 with teams := [(0, tx)], links := up }
theorem witness_FarAccesses : (eaOf sf gf m4 0).toNat % 4 = 0 ∧ sf.locate 0 gf x0.xfaults (eaOf sf gf m4 0) 4 .read = .at { key := 16, spec := false } ∧
    keyTier 16 ≠ 6 ∧ sf.reaches 0 .dev = false ∧ uncached 16 = false ∧ keyTier 16 ≠ 2 ∧ keyTier 16 ≠ 5 ∧
    sf.spillHolder (sf.asidOf gf) (eaOf sf gf m4 0) 4 = none := by decide
/-- HomeAnswers: a request of core 0 for line 1, to a home at rest: a fill, and a load, a write, an atomic and an answer for lane 0 of one operation. -/
def oh (i : Instr) : Op := { gio := 3, instr := i, word := 0, pc := 0, idx := 0, clause := 0, flag := none, mask := 1, split := 0,
                             accs := [{ lane := 0, ea := 0x90, phase := .atHome 0 }] }
def ldi : Instr := .ld { g := u, ty := .b32, ord := .rlx, scope := .dev, d := 8, m := m4 }
def ati : Instr := .atomAdd { g := u, b64 := false, ord := .rlx, scope := .dev, d := 1, base := some 4, idx := 255, scale := 0, c := 2 }
def rq (kind : ReqKind) : HomeReq := { core := 0, line := 1, kind := kind, pts := 2, who := .op 0 3 0 }
def sh (i : Instr) (r : HomeReq) : State :=
  { groups := [(0, { g0 with ops := [oh i] })], teams := [(0, tm0)], reqs := [(0, r)], homes := [(1, { wts := 5, rts := 20 })] }
theorem witness_HomeAnswers : let s := sh ldi (rq (.fill 4 4))
    s.reqs.get? s.hand = some (rq (.fill 4 4)) ∧ s.reachable (keyMod (1 * 128)) = true ∧ s.behindWrite s.hand 0 1 = false ∧ (s.homes.get? 1).isSome = true ∧
    (s.home 1).dir = {} ∧ s.poisoned 128 128 = false ∧ (s.home 1).ref = none ∧ s.msgs = [] ∧ s.links.bisnp.get? 1 = none ∧ isPool 1 = false ∧
    (s.home 1).cap = none ∧ uncached 128 = false ∧ s.ckptHolds 144 = false ∧ s.behindStrm s.hand (rq (.fill 4 4)) = false ∧ 28 + 4 ≤ 32 ∧
    s.liveHeader 144 4 = none ∧ keyMod (1 * 128) = Config.selfModule := by decide
/-- HomeAnswers: a read of a line of module 1 through its proxy. -/
theorem witness_HomeAnswers_peer : let l := 2 ^ 48 + 1
    let r := { rq (.fill 4 4) with line := l }
    let s : State := { reqs := [(0, r)], homes := [(l, { wts := 5, rts := 20 })], links := up }
    s.reqs.get? s.hand = some r ∧ keyMod (l * 128) ≠ Config.selfModule ∧ s.behindWrite s.hand 0 l = false ∧ (s.homes.get? l).isSome = true ∧
    (s.home l).dir = {} ∧ s.poisoned (l * 128) 128 = false ∧ (s.home l).ref = none ∧ s.links.bisnp.get? l = none ∧ isPool l = false ∧
    (s.home l).cap = none ∧ s.proxies.get? l = none := by decide
theorem witness_HomeAnswers_ops : let g := { g0 with ops := [oh ati] }
    (sh ati (rq .rmw)).group? 0 = some g ∧ g.op? 3 = some (oh ati) ∧ (oh ati).accs = [{ lane := 0, ea := 0x90, phase := .atHome 0 }] ∧
    (rq (.load 16 4)).kind = .load (0x90 % 128) 4 ∧ (rq (.write 16 [1, 2, 3, 4])).kind = .write (0x90 % 128) [1, 2, 3, 4] ∧
    atomOf ati = some ⟨u, false, 1, 2, some 4, 255, 0⟩ ∧ Machine.spanWords 16 4 = [4] ∧ (sh ldi (rq (.load 16 4))).l1Line? 0 1 = none ∧
    ({ rq (.load 16 4) with answer := some ([(4, 9)], 5, 25, false) } : HomeReq).answer = some ([(4, 9)], 5, 25, false) := by decide
/-- PREF: no lane, a misaligned lane, and one lane alone whose line the L1 has not. PTS: a tick due and none. -/
theorem witness_PrefetchAndTicks : sf.active gf x0 p2 = 0 ∧ sf.active gf x0 p3 = BitVec.twoPow 64 0 ∧ (eaOf sf gf m4 0).toNat % 4 = 0 ∧
    sf.locate 0 gf [] (eaOf sf gf m4 0) 4 .read = .at { key := 16, spec := false } ∧ sf.l1Serves 0 0 (List.range 32) = false ∧ sf.reqs = [] ∧
    (eaOf (sm 0x10001) (gm 0x10001) m4 0).toNat % 4 ≠ 0 ∧
    (let s := { s0 with cycle := 16, cores := [(0, {})] }
     (s.core 0).ticks < s.cycle / 16) ∧ s0.cycle / 16 ≤ (s0.core 0).ticks := by decide

/-! ### Fences, waiting and waking, links -/

/-- Line 0 and line 32 at rest at their homes; a link descriptor at 0x10000: region 0x11000, buffer at the scratchpad's start, slot 0 line 0. -/
def hm : Tab HomeLine := [(0, { wts := 5, rts := 9 }), (32, { wts := 7, rts := 8 })]
def sy (s5 : BitVec 64) : State :=
  { groups := [(0, { g0 with s := [(4, 0x10000), (5, s5)] })], teams := [(0, tx)], cur := .grp 0 0, links := up, homes := hm,
    mem := [(1, 0x10), (2, 0x01), (10, 0xE0), (11, 0xFF), (12, 0xFF), (13, 0xFF), (14, 0x0F)] }
def gy (s5 : BitVec 64) : Group := { g0 with s := [(4, 0x10000), (5, s5)] }
theorem witness_quiet : let s := sy 1
    (∀ line ∈ [0, 32], keyMod (line * 128) = Config.selfModule ∧ uncached (line * 128) = false ∧ isPool line = false ∧ (s.homes.get? line).isSome = true ∧
      (s.home line).dir = {} ∧ (s.home line).ref = none ∧ s.behindWrite s.reqs.next 0 line = false ∧ s.ckptHolds (line * 128) = false ∧
      s.poisoned (line * 128) 128 = false) ∧ s.msgs = [] ∧ s.links.poolOut = [] ∧ s.horizonOf 0 = [] := by decide
/-- A FENCE behind an unperformed store, and one whose wait is over with a write held for a peer. -/
def os : Op := { ol with gio := 0, instr := .st { g := u, ty := .b32, ord := .rlx, scope := .dev, d := 8, m := m4 }, performed := false }
def ofn : Op := { ol with instr := .fence { g := u, pd := some 1, ord := .rel, scope := .peer }, performed := false, accs := [], aux := 100 }
theorem witness_Fences : let g := { g0 with ops := [os], gio := 1 }
    ((sg g).issuer? = some (0, g, x0) ∧ os.gio < g.gio ∧ os.performed = false ∧ Ord.rel ≠ .acq) ∧
    (let g := { g0 with ops := [ofn] }
     let s := { sg g with links := { out := [{ peer := 3, key := 3 * 2 ^ 55, bytes := [1], group := 0, gio := 1 }] }, cycle := 100 }
     s.group? 0 = some g ∧ g.op? 3 = some ofn ∧ s.unacked 0 ≠ [] ∧ ofn.aux ≤ s.cycle ∧ (sg g).cycle < ofn.aux ∧ (s.die 0).evqBase = 0 ∧
     s.reqs = [] ∧ (∀ e ∈ g.ops, ¬ e.gio < 3)) := by decide
/-- WAITV: the word differs from S[5] = 1; it is equal to S[6] = 0; no entry in the table, and a full table. -/
theorem witness_WaitForValue : let s := sy 1; let g := gy 1
    s.issuer? = some (0, g, x0) ∧ s.active g x0 u ≠ 0 ∧ (s.readS g 4).toNat % 4 = 0 ∧
    s.locate 0 g x0.xfaults (s.readS g 4) 4 .read = .at { key := 0, spec := false } ∧
    cell s.byte 0 4 ≠ (s.readS g 5).toNat % 2 ^ 32 ∧ cell s.byte 16 4 = (s.readS g 6).toNat % 2 ^ 32 ∧ s.waits.length < 4096 ∧
    s.switchedOut (s.asidOf g) (clusterOf (coreOf 0)) = false := by decide
def we (who : Waiter) : WaitEntry := { die := 0, va := 0x10000, key := 0, size := 4, who := who, order := 0, since := 0, cycles := 10 }
theorem witness_WaitForValue_full : 4096 ≤ ((List.replicate 4096 (we .nobody)).filter fun w => w.die == 0).length := by
  rw [List.filter_replicate, if_pos (by rfl), List.length_replicate]
/-- A timeout that is due and one that is not, of a group's WAITV and of a hart's. -/
def ow : Op := { ol with instr := .waitv { g := u, b64 := false, acq := false, scope := .dev, d := 6, a := 4, b := 5, c := 7 }, performed := false, sd := [6] }
theorem witness_WaitvTimeout : let g := { g0 with ops := [ow] }
    let s := { sg g with waits := [we (.op 0 3 0)], cycle := 10 }
    (s.waits.find? fun e => e.die == 0 && e.order == 0) = some (we (.op 0 3 0)) ∧ (we (.op 0 3 0)).since + 10 ≤ s.cycle ∧ (sg g).cycle < 10 ∧
    g.op? 3 = some ow ∧ (({ harts := [(0, { wait := .waitv 5 })] } : State).hart 0).wait = .waitv 5 := by decide
theorem witness_Wakes : let s := { sy 1 with waits := [we (.op 1 0 0), we (.hart 0)] }
    s.active (gy 1) x0 p2 = 0 ∧ keyTier 0 ≠ 6 ∧ keyMod 0 = Config.selfModule ∧ (we (.op 1 0 0)).va = s.readS (gy 1) 4 ∧
    ({ sy 1 with waits := [we (.hart 0)] } : State).waits.map (fun w => (w.die, w.order)) = [(0, 0)] := by decide
/-- LINKQ and CONDQ: a good descriptor, a mask that is bad, no link, a link that holds and one that does not. -/
def lk0 : Link := { region := 0x11000, mask := 1, lines := [(0, 32, 7)] }
theorem witness_Links : let s := sy 1; let g := gy 1; let d := cell s.byte 0 32
    s.locate 0 g x0.xfaults (s.readS g 4) 32 .read = .at { key := 0, spec := false } ∧ descBad d 1 = false ∧ descBad d 0x10 = true ∧
    noLink g.link d 1 = true ∧ noLink (some lk0) d 1 = false ∧ descBuf d = BitVec.ofNat 64 (0x000FFFFFFFE00000 + 0) ∧ 0 + 512 ≤ tx.kern.hdr.scratch ∧
    s.scrPinned 0 0 512 = true ∧ s.scrPoisoned 0 0 512 = false := by decide
theorem witness_Links_stores : let s := sy 1; let d := cell s.byte 0 32
    s.spillHolder (s.asidOf (gy 1)) (bufVa d 0) 128 = none ∧ s.liveHeader (32 * 128) 128 = none := by decide
theorem witness_Links_objects (a : Nat) : (sy 1).objUsed 0 (8 * (a / 8)) = false := rfl
theorem witness_Links_lines : let s := sy 1; let g := gy 1; let d := cell s.byte 0 32
    (List.range 4).filter (fun i => (1 : Nat).testBit i) = [0] ∧ s.locate 0 g [] (lineVa d 0) 128 .read = .at { key := 0x1000, spec := false } ∧
    s.locate 0 g [] (lineVa d 0) 128 .write = .at { key := 0x1000, spec := false } ∧ (s.home 32).wts = 7 ∧ (s.home 32).pend = [] ∧
    ({ lk0 with broken := true } : Link).broken = true := by decide

/-! ### Heap, copies, objects, descriptors -/

/-- A context whose heap begins at 0x200000 and whose descriptor table lies at 0x208000; a leaf of 64 KB maps 0x200000 to physical 0. -/
def cx : Ctx := { root := 0, heapb := 0x200000, tdtab := 0x208000, pool := 0, poolsz := 0, privb := 0, asid := 0, part := 0, privstr := 0, scrb := 0, key := 0 }
def leaf0 : TlbEntry := { asid := 0, vbase := 0x200000, size := 0x10000, pte := 0x1BB }
def gh : Group := { g0 with v := [(64 * 2, 16), (64 * 3, 0x200010), (64 * 5, 0x100000), (64 * 7, 0x200008), (64 * 9, 70000)], s := [(4, 0x000FFFFFFFE00000), (5, 1), (6, 2)],
                            p := [(3, 1)] }
def she : State :=
  { groups := [(0, gh)], teams := [(0, tm0)], cur := .grp 0 0, links := up, ctxs := [(0, cx)], tlbDie := [(0, [leaf0])],
    homes := [(0, { wts := 5, rts := 9 }), (256, { wts := 5, rts := 9 })] }
/-- ALLOC: of 0 bytes (v6), of 16 from a list with a block and from an empty one (v2), of more than 65,536 (v9). -/
theorem witness_Allocation : she.active gh x0 p3 = BitVec.twoPow 64 0 ∧ (she.readV gh 6 0).toNat = 0 ∧ (she.readV gh 2 0).toNat ≤ 2 ^ (0 + 4) ∧
    1 ≤ (she.readV gh 2 0).toNat ∧ 65536 < (she.readV gh 9 0).toNat ∧ she.heap.getD (Machine.heapKey 0 0 0) [] = [] ∧
    ({ she with heap := [(Machine.heapKey 0 0 0, [0x200020])] } : State).heap.getD (Machine.heapKey 0 0 0) [] = [0x200020] ∧ (lanes 1).length ≤ 1 := by decide
/-- FREE: address 0 (v10), outside the window (v5), a bad block (v7), a good one (v3). -/
theorem witness_Freeing : she.ctx (she.asidOf gh) = some cx ∧ (she.readV64 gh 10 0).toNat = 0 ∧ (she.readV64 gh 5 0).toNat < cx.heapb.toNat ∧
    (she.readV64 gh 5 0).toNat ≠ 0 ∧ fld ((she.readV64 gh 7 0).toNat - cx.heapb.toNat) 0 30 % 2 ^ 4 ≠ 0 ∧
    fld ((she.readV64 gh 3 0).toNat - cx.heapb.toNat) 0 30 % 2 ^ 4 = 0 ∧ (she.readV64 gh 3 0).toNat < cx.heapb.toNat + 2 ^ 40 ∧
    (Near.hit she (she.nearOf gh.team) (she.asidOf gh) 0x200010 8 .write false).or (findTlb (she.tlbDie.getD 0 []) 0 0x200010 .write false) =
      some { key := 16, spec := false } ∧ she.liveHeader 16 8 = none := by decide
theorem witness_quiet_heap : (∀ line ∈ [0, 256], keyMod (line * 128) = Config.selfModule ∧ uncached (line * 128) = false ∧ isPool line = false ∧
    (she.homes.get? line).isSome = true ∧ (she.home line).dir = {} ∧ (she.home line).ref = none ∧ she.behindWrite she.reqs.next 0 line = false ∧
    she.ckptHolds (line * 128) = false ∧ she.poisoned (line * 128) 128 = false) ∧ she.msgs = [] := by decide
theorem witness_FreeExchange : ({ exchange := [(0, (16, 0x200010))] } : State).exchange.get? ({} : State).hand = some (16, 0x200010) := by decide
/-- KICK: two requests, more than 64, a base off 64 bytes, none, no lane. -/
theorem witness_Kicks : (she.readS gh 6).toNat = 2 ∧ 64 < (she.readS gh 4).toNat ∧ (she.readS gh 5).toNat % 64 ≠ 0 ∧ (she.readS gh 4).toNat % 64 = 0 ∧
    (she.readS gh 7).toNat = 0 ∧ she.active gh x0 p2 = 0 ∧ she.active gh x0 u ≠ 0 ∧ tm0.queue.length + 2 ≤ 256 ∧ gh.stop = none := by decide
/-- A LOAD of four FP32 elements of a tensor at 0x200000 to the scratchpad's start. -/
def dimg : Nat := 0x2000000000000000000000000000080000000000000000000000000000000000000000000000000000000000000000000000000000000000000001
def rimg (op : Nat) : Nat := 2 ^ 256 + noObj * 2 ^ 214 + 3 * 2 ^ 169 + op * 2 ^ 17
def qe : QueueEntry := { id := 2, va := 0x000FFFFFFFE00000, group := 0, gio := 0 }
def tq (e : QueueEntry) : Team := { tm0 with queue := [e], scr := (enum 0 (toBytes 64 (rimg 0))).filter fun b => b.2 != 0 }
def scq : State := { teams := [(0, tq qe)], tdCache := [(0, [(0, BitVec.ofNat 512 dimg)])], hand := 2 }
theorem witness_RequestFetch : cell (fun a => scq.scrByte 0 a) 0 64 = rimg 0 ∧ (parseReq (rimg 0)).recd = false ∧ scq.hand = 256 * 0 + qe.id ∧
    (scq.tdCache.getD 0 []).get? (4096 * 0 + (parseReq (rimg 0)).tid) = some (BitVec.ofNat 512 dimg) ∧ scq.scrPinned 0 0 64 = true ∧
    scq.reqStatus (tq qe) (rimg 0) (BitVec.ofNat 512 dimg).toNat false = 0 := by decide
theorem witness_RequestStart : let e := { qe with read := some (BitVec.ofNat 512 (rimg 0)), desc := some (BitVec.ofNat 512 dimg) }
    let s : State := { teams := [(0, tq e)] }
    s.team? s.hand = some (tq e) ∧ (tq e).slot < 256 ∧ s.teams = [(s.hand, tq e)] ∧ (parseReq (BitVec.ofNat 512 (rimg 0)).toNat).recd = false ∧ s.switchedOut 0 0 = false := by decide
def pc0 : Piece := { va := 0x200000, offs := [(0, 0xFF), (1, 0xFF)], fills := [], bytes := 2 }
def rc (op : Nat) : Req := { team := 0, cluster := 0, group := 0, va := 0, raw := BitVec.ofNat 512 (rimg op), desc := BitVec.ofNat 512 dimg, pieces := [pc0, pc0],
                             load := op == 0, n := 4 }
theorem witness_PieceArrive : let s := { she with copies := [(7, rc 0)] }
    s.copies.get? 7 = some (rc 0) ∧ (rc 0).pieces[0]? = some pc0 ∧ (rc 0).pieces[1]? = some pc0 ∧ pc0.done = false ∧ (parseReq (rc 0).raw.toNat).obj = noObj ∧
    pc0.va.toNat % 128 + 2 ≤ 128 ∧ (pc0.offs.map (·.1)).Nodup ∧ s.scrPinned 0 1 1 = true ∧ s.scrPoisoned 0 1 1 = false ∧ (rc 0).load = true ∧ (rc 1).load = false ∧
    (parseReq (rc 1).raw.toNat).bnd = false ∧ s.liveHeader 0 2 = none ∧
    (∀ k ∈ [AccKind.read, .write], (Near.hit s tm0.near 0 0x200000 2 k false).or (findTlb (s.tlbDie.getD 0 []) 0 0x200000 k false) =
      some { key := 0, spec := false }) := by decide
/-- BOBJ: an object at the scratchpad's start in phase 0; the phase of S[7] = 0, and of S[5] = 1. -/
theorem witness_BarrierObjects : she.readS gh 4 = BitVec.ofNat 64 (0x000FFFFFFFE00000 + 0) ∧ 0 % 8 = 0 ∧ 0 + 8 ≤ tm0.kern.hdr.scratch ∧ she.scrPinned 0 0 8 = true ∧
    fld (cell (fun a => she.scrByte 0 a) 0 8) 48 14 = (she.readS gh 7).toNat % 2 ^ 14 ∧
    fld (cell (fun a => she.scrByte 0 a) 0 8) 48 14 ≠ (she.readS gh 5).toNat % 2 ^ 14 := by decide
/-- TDSET of a valid image and of an invalid one, an index that is too large; the entry's leaf. -/
theorem witness_TensorDescriptors : descValid dimg = true ∧ descValid 0 = false ∧ (∀ e ∈ tm0.queue, e.group ≠ 0) ∧ 4095 < (she.readS gh 4).toNat ∧
    (she.readS gh 7).toNat ≤ 4095 ∧ (she.entryVa 0 0).toNat + 64 ≤ 2 ^ 52 ∧ (she.readS gh 5) = 1 ∧
    (∀ n ∈ [1, 64], (Near.hit she tm0.near 0 (she.entryVa 0 0).toNat n .write true).or (findTlb (she.tlbDie.getD 0 []) 0 (she.entryVa 0 0).toNat .write true) =
      some { key := 0x8000, spec := false }) ∧ 0x8000 / 128 = 256 ∧ she.liveHeader 0x8000 64 = none ∧ she.scrPoisoned 0 0 64 = false := by decide

/-! ### Streams, bundles, nodes -/

/-- StreamRegisters, and AccumulatorLoads: a branch on a zero register and on one that is not; an index that is aligned and one that is not. -/
theorem witness_StreamRegisters : (sq q0 tm0).cur = .seq 0 ∧ (sq q0 tm0).seq? 0 = some q0 ∧ q0.q.getD 3 0 = 0 ∧ q0.stop = none ∧
    ({ q0 with q := [(3, 1)] } : Seq).q.getD 3 0 ≠ 0 ∧ tm0.accWritten.getD 0 0 ≤ g0.seqSeen ∧ 4 % 2 ^ 2 = 0 ∧ 5 % 2 ^ 2 ≠ 0 := by decide
/-- MatrixCommandsTaken: an operand within the scratchpad, one whose base is off 16 bytes, one beyond it; each state of a guard slot. -/
def mldc (b : BitVec 64) : SeqCmd := { instr := .mld { sc := false, len := 0, d := 0, a := 4, slot := none }, args := [b, 2], pc := 0x10000 }
theorem witness_MatrixCommandsTaken : (mldc 0).check 8192 = none ∧ (mldc 1).check 8192 = some (.mseqOperand, 0) ∧
    (mldc 8176).check 8192 = some (.pageFault, fkNotPresent) ∧ ({ tm0 with guards := [(1, true)] } : Team).guards.get? (1#4).toNat = some true ∧
    ({ tm0 with guards := [(1, false)] } : Team).guards.get? (1#4).toNat = some false ∧ tm0.guards.get? (1#4).toNat = none := by decide
/-- MatrixCommandsPerformed: each command at the head of a sequencer's commands; the rows of MST at a pitch of 256 do not meet. -/
def mm (fa : BitVec 3) : MmaOp := { z := true, nch := 0, d := 0, a := .tile 0, b := .tile 1, fa := fa, fb := fa, slot := none }
def mso : MstOp := { fmt := .b32, d := 0, a := 4, slot := none }
theorem witness_MatrixCommandsPerformed : let x := fun c : SeqCmd => { q0 with cmds := [c] }
    let ok := fun c : SeqCmd => let s := sq (x c) tm0
      s.seq? s.hand = some (x c) ∧ s.team? (x c).team = some tm0 ∧ s.engineNext (s.hand / 4) = some s.hand ∧ tm0.unpinned = [] ∧ tm0.scrPoison = []
    ok { instr := .mma (mm 7), args := [0, 0, 0, 0], pc := 0 } ∧ ok { instr := .mmas (mm 4), args := [0, 0, 0, 0], pc := 0 } ∧
    ok { instr := .mzero { d := 0, slot := none }, args := [], pc := 0 } ∧ ok (mldc 0) ∧ ok { instr := .mst mso, args := [0, 16], pc := 0 } ∧
    (mm 7).fa = 7 ∧ (mm 4).fa ≠ 7 ∧ (mldc 0).args.length = 2 ∧ (mldc 0).args.headD 0 = 0 ∧ ((0#64).toNat < 2 ^ 21) := by decide
theorem witness_MatrixCommandsPerformed_mst (r b r' b' : Nat) (hb : b < 64) (hb' : b' < 64) (hn : r ≠ r' ∨ b ≠ b') :
    let off := tileOffset 0 (16 * fld 16 0 16) (fld 16 16 3)
    off r (4 * b) + 4 ≤ off r' (4 * b') ∨ off r' (4 * b') + 4 ≤ off r (4 * b) := by
  simp only [tileOffset, fld]
  norm_num [Nat.mod_one]
  omega
/-- BundleInstructions: a good record at 0x10000 (physical 0), of one range; a bad one; the table at its start and full; an open bundle. -/
def bo : Bundle := { gen := 1, st := .opened, asid := 0, age := 0, scope := .dev, ranges := [(128, 256)], recKey := 0 }
def bun (b : Bundle) (n : Nat) : Tab Bundle := [(n, b)]
def gb : Group := { g0 with bcur := 0x1005, s := [(4, 0x10000), (5, 0x1005)] }
def sb (b : Bundle) (h : Tab HomeLine) : State :=
  { groups := [(0, gb)], teams := [(0, tx)], cur := .grp 0 0, links := up, bundles := bun b 5, bunNew := 6, homes := h }
def rest4 : Tab HomeLine := (List.range 4).map fun i => (i, { wts := 1, rts := 2 })
theorem witness_BundleInstructions : let s := sb bo rest4
    (s.readS gb 4).toNat % 512 = 0 ∧ s.locate 0 gb x0.xfaults (s.readS gb 4) 512 .read = .at { key := 0, spec := false } ∧ s.horizonOf 0 = [] ∧
    (∀ i < 4, (s.homes.get? i).isSome = true ∧ (s.home i).dir = {} ∧ (s.home i).ref = none ∧ s.behindWrite s.reqs.next 0 i = false ∧
      s.ckptHolds (i * 128) = false ∧ s.poisoned (i * 128) 128 = false) ∧ s.msgs = [] ∧
    recordOk 0x100000000000000008000000000000000000000000000000000000000000000000000000000000000000000000000000000000000000000000000000000000000000000000000000001 = true ∧ recordOk 17 = false ∧ s.bunNew < 4096 ∧ s.bundles.get? s.bunNew = none ∧
    ({ s with bunNew := 4096 } : State).bunFreed = [] ∧ s.bundleIn 0 0x1005 = some bo ∧ s.bundleIn 0 0x1004 = none ∧ s.pendingOf 0x1005 = [] ∧
    (s.readS gb 5).setWidth 16 = 0x1005 ∧ s.active gb x0 u ≠ 0 := by decide
/-- A pending version of the bundle in line 1, and the bundle in its other states. -/
def pv : Pending := { modu := 0, handle := 0x1005, scope := .dev, bytes := [(4, 7), (5, 8)], companion := true }
def pend1 : Tab HomeLine := [(1, { wts := 5, rts := 9, pend := [pv] })]
theorem witness_BundleAborts : (sb bo pend1).pendingOf 0x1005 = [1] ∧ (sb { bo with st := .closing } pend1).bundleIn 0 0x1005 = some { bo with st := .closing } ∧
    bo.aborting = false ∧ bo.waits = [] := by decide
/-- BUNDLE_STORE_ARRIVE at an open and at a closing bundle. -/
def bst : Op := { gio := 3, instr := .stBnd { g := u, ty := .b32, d := 2, m := m4 }, word := 0, pc := 0, idx := 0, clause := 0, flag := none, mask := 1, split := 0,
                  accs := [{ lane := 0, ea := 0x90, phase := .atHome 0 }] }
def bsr : HomeReq := { core := 0, line := 1, kind := .bundled 16 [1, 2, 3, 4] 0 0x1005, pts := 2, who := .op 0 3 0 }
theorem witness_BundleStoreArrive : let g := { gb with ops := [bst] }
    let s := { sb bo rest4 with groups := [(0, g)], reqs := [(0, bsr)] }
    s.reqs.get? s.hand = some bsr ∧ s.group? 0 = some g ∧ g.op? 3 = some bst ∧ (s.homes.get? 1).isSome = true ∧ s.ckptHolds 128 = false ∧
    s.bundleIn (s.asidOf g) 0x1005 = some bo ∧ (s.home 1).pend = [] ∧ s.behindBundled s.hand bsr = false ∧ bsr.behind = none ∧
    s.pendingLines (sliceOf 1) < Config.pendingPerSlice := by decide
/-- BUNDLE_PREPARE, INSTALL and DROP at the home of line 1. -/
theorem witness_BundleHomes : sliceOf 1 = 0 ∧ (sb bo pend1).links.portStat = up.portStat ∧ handleOf 5 bo.gen = 0x1005 ∧
    (∀ e ∈ pend1, e.2.dir = {} ∧ ∀ p ∈ e.2.pend, p.poison = []) ∧ uncached (bo.recKey + 48) = false ∧ (pend1.filter fun e => sliceOf e.1 == 0 && e.2.pend.any fun p => p.names 0 0x1005).map (·.1) = [1] ∧
    pv.names 0 0x1005 = true ∧ Tab.rises pv.bytes = true ∧ ({ bo with st := .closing, homes := [0] } : Bundle).homes = [0] ∧
    ([0, 7] : List Nat).Nodup := by decide
theorem witness_homeReachable (b : Bundle) (h : Tab HomeLine) (home : Nat) : homeReachable (sb b h) home = true := witness_idle (home / 64)
/-- BUNDLE_COMMIT_POINT, DONE and the two timeouts: home 64 is a slice of module 1, which no port reaches. -/
theorem witness_BundleEnds : let bc : Op := { bst with instr := .bcommit { g := u, d := 6 }, accs := [], sd := [6] }
    let g := { gb with ops := [bc] }
    let s := fun (b : Bundle) => ({ sb b [(2 ^ 48, { wts := 1, rts := 2, pend := [pv] })] with groups := [(0, g)], hand := 5, links := {}, cycle := 9 } : State)
    let b := { bo with st := .committed, waits := [.commit 0 3] }
    (s b).bundles.get? (s b).hand = some b ∧ (s b).group? 0 = some g ∧ g.op? 3 = some bc ∧ homeReachable (s b) 64 = false ∧ b.due ≤ (s b).cycle ∧
    (s b).pendingHomes 0x1005 ≠ [] ∧ ((s b).die 0).evqBase = 0 ∧ b.homes = [] ∧ b.lagging = false ∧ uncached (b.recKey + 48) = false ∧
    ((s b).home ((b.recKey + 48) / 128)).dir.st = .i ∧
    (s b).bundleOf 0x1004 = none := by decide
theorem witness_Notices : let s : State := { notices := [(0, (0, 0, 0x1005))], queries := [(0, (0, 0, 0x1005))], answers := [(0, (0, 0, 0x1005))] }
    s.notices.get? s.hand = some (0, 0, 0x1005) ∧ s.queries.get? s.hand = some (0, 0, 0x1005) ∧ s.answers.get? s.hand = some (0, 0, 0x1005) ∧
    s.reachable 0 = true ∧ s.bundleOf 0x1005 = none ∧
    ({ s with notices := [(0, (16, 0, 0x1005))] } : State).notices.get? s.hand = some (16 + 0, 0, 0x1005) ∧ homeReachable s 0 = true := by decide
/-- Spawning: a KIND 1 header of one granule at 0x10000 (physical 0), fan-out 1 and depth 1; no header there; a lane past the fan-out or the depth. -/
def nhdr : Nat := 0x1010010000000000000000000000000001010001000000000001015a4b
def hmem (x : Nat) : Tab Byte := (enum 0 (toBytes 64 x)).filter fun b => b.2 != 0
def gsp : Group := { g0 with s := [(4, 0x10000)], p := [(3, 1)] }
def tsp (fan depth : Nat) : Team := { tx with kern := { hdr := { fanout := fan }, roles := [], safe := [] }, recs := [(0, { data := [1, 2, 3, 4], depth := depth, src := 5 })] }
def ssp (m : Tab Byte) (t : Team) : State :=
  { groups := [(0, gsp)], teams := [(0, t)], cur := .grp 0 0, links := up, ctxs := [(0, cx)], homes := rest4, mem := m }
theorem witness_Spawning : let s := ssp (hmem nhdr) (tsp 1 0)
    s.team? gsp.team = some (tsp 1 0) ∧ s.active gsp x0 p3 = 1 ∧ s.active gsp x0 p2 = 0 ∧ (s.readS gsp 4).toNat % 64 = 0 ∧
    s.locate 0 gsp x0.xfaults (s.readS gsp 4) 64 .read = .at { key := 0, spec := false } ∧ cell s.byte 0 64 = nhdr ∧ nodeHeaderOk nhdr = true ∧
    (parseHeader nhdr).recsz = (0#4).toNat + 1 ∧ (parseHeader nhdr).maxdepth = 1 ∧ gsp.sent.getD 0 0 + 1 ≤ (tsp 1 0).kern.hdr.fanout ∧
    ¬ gsp.sent.getD 0 0 + 1 ≤ (tsp 0 0).kern.hdr.fanout ∧ (((tsp 1 0).recs.get? (64 * gsp.gidx + 0)).map (·.depth)).getD 0 + 1 ≤ 1 ∧
    ¬ (((tsp 1 1).recs.get? (64 * gsp.gidx + 0)).map (·.depth)).getD 0 + 1 ≤ 1 ∧ nodeHeaderOk (cell (ssp [] (tsp 1 0)).byte 0 64) = false ∧
    (2#8) ≠ 255 ∧ (tsp 1 0).horizon = [] := by decide
/-- NodeReads: an aligned and a misaligned offset; QSTAT of a header read, of an address off 64 bytes, and of a bin. -/
def bin0 : Bin := { die := 0, asid := 0, node := 0x10000, kern := { hdr := parseHeader nhdr, roles := [], safe := [] }, recs := [] }
theorem witness_NodeReads : let s := { ssp (hmem nhdr) (tsp 1 0) with bins := [(0, bin0)], tlbDie := [(0, [{ leaf0 with vbase := 0x10000 }])] }
    ((s.readV gsp 255 0).toNat + (4#16).toNat) % 2 ^ 32 % tyLen .b32 = 0 ∧ ((s.readV gsp 255 0).toNat + (1#16).toNat) % 2 ^ 32 % tyLen .b32 ≠ 0 ∧
    (s.engineRead 0 0 0x10000 64 .read false).2 = .ok (toBytes 64 nhdr) ∧ nodeHeaderOk (ofBytes (toBytes 64 nhdr)) = true ∧
    (0x10004#64).toNat % 64 ≠ 0 ∧ s.bin? 0 0 0x10000 = some (0, bin0) ∧ s.ctx 0 = some cx ∧
    findTlb (s.tlbDie.getD 0 []) 0 0x10000 .read false = some { key := 0, spec := false } ∧
    s.engineRead 0 0 0x10000000000000 64 .read false = (s, .error (fkRange, 0x10000000000000)) ∧ fkRange ≠ fkWait := by decide
/-- RecordsAndBins: a record of 16 bytes for a bin, one of 32, the first of its node; a bin with a record. -/
def rm (n : Nat) : RecMsg := { die := 0, asid := 0, node := 0x10000, data := List.replicate n 1, depth := 1, src := 0, gran := 1 }
theorem witness_RecordsAndBins : let s := { ssp (hmem nhdr) (tsp 1 0) with bins := [(0, bin0)], inflight := [(0, rm 16)], tlbDie := [(0, [{ leaf0 with vbase := 0x10000 }])] }
    s.inflight.get? s.hand = some (rm 16) ∧ (rm 16).waiting = false ∧ (∀ e ∈ s.inflight, ¬ e.1 < s.hand) ∧ recordFits bin0.kern.hdr (rm 16) = true ∧
    recordFits bin0.kern.hdr (rm 32) = false ∧ (s.die 0).evqBase = 0 ∧ ({ s with bins := [] } : State).bin? 0 0 0x10000 = none ∧
    ({ s with bins := [] } : State).readNode 0 0 0x10000 = ({ s with bins := [] }, .ok (nhdr, [])) ∧ recordFits (parseHeader nhdr) (rm 16) = true ∧
    ({ bin0 with recs := [rm 16] } : Bin).recs = [rm 16] := by decide

/-! ### Service cores -/

/-- Service core 0 in M mode: x5 = 0x1000, x6 = 1, x7 = 0x2010, x8 = 2; its cache holds line 64 (0x2000) in E. -/
def hx : Hart := { running := true, x := [(5, 0x1000), (6, 1), (7, 0x2010), (8, 2), (9, 0x1001)], cache := [(64, { st := .e, data := List.replicate 128 7 })] }
def homes2 : Tab HomeLine := [(32, { wts := 1, rts := 2 }), (33, { wts := 1, rts := 2 }), (34, { wts := 1, rts := 2 }), (35, { wts := 1, rts := 2 }), (64, { wts := 3, rts := 4 }), (128, { wts := 5, rts := 6 })]
def hst (x : Hart) : State := { harts := [(0, x)], cur := .hart 0, links := up, homes := homes2, mem := [(0x1001, 0x20), (0x1009, 0x40)] }
/-- HartRegisters: each kind of word has operands; a branch is taken or not. -/
theorem witness_HartRegisters : (hst hx).cur = .hart 0 ∧ (rvRes 0 32 (hx.reg 5) (hx.reg 6)).isSome = true ∧ (rvRes 4 1 (hx.reg 5) 0).isSome = true ∧
    (rvRes 5 32 ((hx.reg 5).setWidth 32) ((hx.reg 6).setWidth 32)).isSome = true ∧ rvBranch 0 (hx.reg 5) (hx.reg 5) = some true ∧
    rvBranch 0 (hx.reg 5) (hx.reg 6) = some false := by decide
/-- HartMemory: eight aligned bytes at 0x2010 that the cache holds; a reservation on them and none; a misaligned address. -/
theorem witness_HartMay : HartMay (hst hx) 0 (hx.reg 7) 8 0x2010 := by
  refine ⟨by decide, ?_, by decide, by decide, by decide, by decide, by decide, by decide, by decide⟩
  intro kind f
  cases kind <;> rfl
theorem witness_HartMemory : (hst hx).ckptHolds 0x2010 = false ∧ (hst hx).liveHeader 0x2010 8 = none ∧ (hst hx).strmAny 0 = false ∧ ((hx.cache.get? (0x2010 / 128)).map fun c => (c.st, c.data.length)) = some (.e, 128) ∧
    hx.resv ≠ some (64, 0x2010) ∧ ({ hx with resv := some (0x2010 / 128, 0x2010) } : Hart).resv = some (64, 0x2010) ∧
    (hx.reg 9).toNat % 2 ^ 2 ≠ 0 ∧ (amoRes 0 (BitVec.ofNat (8 * 2 ^ 3) 1) ((hx.reg 6).setWidth (8 * 2 ^ 3))).isSome = true ∧
    (amoRes 0 0#64 0#64).isSome = true := by decide
/-- HartPrivilege: the modes; no stream store, and one; an interrupt pending, not enabled, enabled in S mode, and for a hart in x.waitv. -/
theorem witness_HartPrivilege : hx.mode = .m ∧ ({ hx with mode := .s } : Hart).mstatus.getLsbD 22 = false ∧ (hx.mip &&& hx.mie) = 0 ∧
    ({ hx with mip := 2, mie := 2 } : Hart).mip &&& 2 ≠ 0 ∧ (hst hx).strmAny 0 = false ∧
    ({ hst hx with reqs := [(0, { core := 0, line := 64, kind := .write 0 [], pts := 0, who := .hart 0 })] } : State).strmAny 0 = true ∧
    ((hst hx).csrGet 0 hx 0x340).isSome = true ∧ fld (0x00000053#32).toNat 0 7 ∈ [0x07, 0x27, 0x43, 0x47, 0x4B, 0x4F, 0x53, 0x57] ∧
    ((hst hx).hart 0).running = true ∧ (1 : Nat) ∈ [1, 3, 5, 7, 9, 11, 13] ∧
    (let x := { hx with mie := 2, mode := .s }
     (x.mip ||| BitVec.ofNat 64 (2 ^ 1)) &&& x.mie ≠ 0 ∧ x.wait = .no ∧ x.mip = 0 ∧ x.mie.getLsbD 1 = true ∧ x.mideleg.getLsbD 1 = false ∧ x.mode ≠ .m) ∧
    (let x := { hx with mie := 2, wait := .waitv 3 }
     x.wait = .waitv 3 ∧ x.mie.getLsbD 1 = true ∧ x.mode = .m ∧ x.mstatus.getLsbD 3 = false) := by decide
/-- HartExtension: words at their homes; the descriptor at 0x1000 names line 0x2000 and the buffer 0x4000 through slot 0. -/
theorem witness_atHome : HartMay (hst hx) 0 (hx.reg 5) 32 0x1000 ∧ HartMay (hst hx) 0 0x2000 128 0x2000 ∧ HartMay (hst hx) 0 0x4000 128 0x4000 := by
  refine ⟨⟨by decide, ?_, by decide, by decide, by decide, by decide, by decide, by decide, by decide⟩,
    ⟨by decide, ?_, by decide, by decide, by decide, by decide, by decide, by decide, by decide⟩,
    ⟨by decide, ?_, by decide, by decide, by decide, by decide, by decide, by decide, by decide⟩⟩ <;>
  · intro kind f
    cases kind <;> rfl
theorem witness_HartExtension : let s := hst hx
    (s.home 32).dir = {} ∧ s.msgs = [] ∧ cell s.byte 0x1000 8 ≠ (hx.reg 6).toNat % 2 ^ 64 ∧ cell s.byte 0x1000 8 = (0x2000#64).toNat % 2 ^ 64 ∧
    ¬ 4096 ≤ (s.waits.filter fun w => w.die == homeDie 0x1000).length ∧ (hx.reg 9).toNat % 4 ≠ 0 ∧ descBad (cell s.byte 0x1000 32) 1 = false ∧
    descBad (cell s.byte 0x1000 32) 2 = false ∧ descBad (cell s.byte 0x1000 32) 0 = true ∧ noLink hx.link (cell s.byte 0x1000 32) 1 = true ∧
    hx.reg 6 = BitVec.ofNat 64 (2 ^ 0) ∧ lineVa (cell s.byte 0x1000 32) 0 = 0x2000 ∧ bufVa (cell s.byte 0x1000 32) 0 = 0x4000 ∧
    s.ckptHolds 0x2000 = false ∧ s.liveHeader 0x2000 128 = none ∧ s.liveHeader 0x4000 128 = none ∧ s.strmAny 0 = false ∧ (s.home (0x2000 / 128)).pend = [] ∧ keyTier 0x4000 ≠ 2 ∧ isPool (0x2000 / 128) = false ∧
    (let lk : Link := { region := 0x2000, mask := 1, lines := [(0, 64, 3)] }
     noLink (some lk) (cell s.byte 0x1000 32) 1 = false ∧ lk.lines = [(0, 0x2000 / 128, (s.home (0x2000 / 128)).wts)]) := by decide
theorem witness_HartBundles : let s := hst hx
    (hx.reg 6).toNat < 2 ∧ (scopeOf (hx.reg 8).toNat).isSome = true ∧ (hx.reg 9).toNat % 512 ≠ 0 ∧ (hx.reg 5).toNat % 512 = 0 ∧
    (∀ i < 4, (s.homes.get? (0x1000 / 128 + i)).isSome = true) ∧ recordOk (cell ({ s with mem := [] } : State).byte 0x1000 512) = true ∧ s.bunNew < 4096 ∧
    s.bundles.get? s.bunNew = none ∧ s.bundleIn hx.asid 0x1005 = none ∧ (sb bo []).bundleIn hx.asid 0x1005 = some bo ∧ (hx.reg 9).toNat % 8 ≠ 0 := by decide
/-- A full table: 4,096 entries of one die. -/
theorem witness_wait_table_full (e : WaitEntry) (he : e.die = 0) : ((List.replicate 4096 e).filter fun w => w.die == 0).length = 4096 := by
  simp [he]

/-! ### Caches, translation, the launcher -/

/-- HomeOfCaches: a message at line 64's home, whose directory is given. -/
def hmo (m : Msg) (d : Dir) : State := { msgs := [(0, m)], homes := [(64, { wts := 3, rts := 4, dir := d })], links := up }
def mg (k : MsgKind) : Msg := { kind := k, core := 1, line := 64 }
theorem witness_HomeOfCaches : let s := hmo (mg .gets) {}
    s.msgs.get? s.hand = some (mg .gets) ∧ s.arrives s.hand (mg .gets) = true ∧ (s.homes.get? 64).isSome = true ∧ isPool 64 = false ∧
    s.links.bisnp.get? 64 = none ∧ s.ckptHolds (64 * 128) = false ∧ Tab.rises s.msgs = true ∧ (s.home 64).dir = {} ∧ (s.home 64).noCache = false ∧
    ({ st := .s, sharers := 4 } : Dir).owner = none ∧ ({ st := .fwdWait, winner := some (.gets, 2, 0) } : Dir).stable = false ∧
    (List.range 24).filter (fun i => i ≠ 1 ∧ (4#24).getLsbD i = true) ≠ [] ∧ (2#24) = BitVec.ofNat 24 (2 ^ 1) ∧
    ({ st := .sInv, acks := 1 } : Dir).acks.getLsbD 1 = false ∧ ({ st := .sInv, sharers := 1 } : Dir).sharers.getLsbD 1 = false ∧
    (MsgKind.puto, Instr.puto) ∈ [(MsgKind.puts, Instr.puts), (.pute, .pute), (.putm, .putm), (.puto, .puto)] := by decide
theorem witness_HomeOfCaches_ends : let d : Dir := { st := .sInv, acks := 2, winner := some (.getm, 2, 0) }
    d.acks = BitVec.ofNat 24 (2 ^ 1) ∧ d.owner = none ∧ d.queue = [] ∧ d.winner = some (.getm, 2, 0) ∧ d.sharers.getLsbD 2 = false ∧
    (6#24) &&& ~~~BitVec.ofNat 24 (2 ^ 1) ≠ 0 ∧
    ({ st := .fwdWait, owner := some 1, winner := some (.gets, 2, 0) } : Dir).owner = some (mg .fwdack).core ∧ (List.replicate 128 (7 : Byte)).length = 128 := by decide
theorem witness_reaches_all (m : Msg) (d : Dir) (n : Nat) : (hmo m d).reachable n = true := witness_idle n
/-- CoreCaches: a core without the line, with it in E and in M, and with it in its write-back buffer. -/
theorem witness_CoreCaches : let s := { hmo { mg .datae with data := some [] } {} with harts := [(1, {})] }
    s.arrives s.hand { mg .datae with data := some [] } = true ∧ (s.hart 1).cache.length < 1024 ∧
    (({ cache := [(64, { st := .e, data := [] })] } : Hart).cache.get? 64).isSome = true ∧ (s.hart 1).cache.get? 64 = none ∧
    ({ wb := [(64, (.m, []))] } : Hart).wb.get? 64 = some (.m, []) ∧
    ({ mg .datam with src := some 2, data := some [] } : Msg).src = some 2 ∧ ({} : Hart).granted = none ∧ ({ part := some (64, []) } : Hart).part = some (64, []) ∧
    (MsgKind.fwdgetm, Instr.fwdgetm, MsgKind.datam) ∈ [(MsgKind.fwdgets, Instr.fwdgets, MsgKind.datas), (.fwdgetm, .fwdgetm, .datam)] := by decide
/-- PoolSnoops: a line of the pool with and without a copy; before and after 256 cycles. -/
theorem witness_PoolSnoops : let l := 2 ^ 46
    let s : State := { hand := l, homes := [(l, { wts := 0, rts := 0, dir := { st := .em, owner := some 1 } })], links := { bisnp := [(l, 0)], poolLease := [(l, 9)] } }
    isPool s.hand = true ∧ ({ s with links := {} } : State).links.bisnp.get? s.hand = none ∧ (s.homes.get? s.hand).isSome = true ∧
    (s.home s.hand).dir = { st := .em, owner := some 1 } ∧ s.msgs = [] ∧ s.links.bisnp.get? s.hand = some 0 ∧
    s.cycle < s.links.poolLease.getD s.hand 0 + 256 ∧ (s.home s.hand).dir.st ≠ .i ∧ (({ s with homes := [] } : State).home s.hand).dir.st = .i ∧ (({ s with homes := [] } : State).home s.hand).dir.queue = [] ∧
    s.links.poolLease.getD s.hand 0 + 256 ≤ 265 := by decide
/-- Walks: a service core's miss at address 0 from a root at 0x10000: tables at 0x11000 to 0x13000, a leaf of 64 KB at 0x20000 with A and D, without,
and none. -/
def wk : Walk := { die := 0, asid := 0, root := 0x10000, granule := 0, inval := 0, waits := [(.hart 0, .write, 0x10)] }
def swk (m : Tab Byte) : State := { walks := [(0, wk)], mem := m, harts := [(0, {})], homes := [(0x13000 / 128, { wts := 1, rts := 2 })] }
theorem witness_Walks :
    let good := swk [(0x10000, 0x1), (0x10001, 0x10), (0x10002, 0x1), (0x11000, 0x1), (0x11001, 0x20), (0x11002, 0x1), (0x12000, 0x1), (0x12001, 0x30), (0x12002, 0x1), (0x13000, 0xbb), (0x13001, 0x1), (0x13002, 0x2)]
    let clear := swk [(0x10000, 0x1), (0x10001, 0x10), (0x10002, 0x1), (0x11000, 0x1), (0x11001, 0x20), (0x11002, 0x1), (0x12000, 0x1), (0x12001, 0x30), (0x12002, 0x1), (0x13000, 0x3b), (0x13002, 0x2)]
    let none := swk [(0x10000, 0x1), (0x10001, 0x10), (0x10002, 0x1), (0x11000, 0x1), (0x11001, 0x20), (0x11002, 0x1), (0x12000, 0x1), (0x12001, 0x30), (0x12002, 0x1)]
    good.walks.get? good.hand = some wk ∧ wk.inval = (good.die 0).inval ∧ good.walkStart 0 0 wk.root 0x10 = (3, wk.root, 0) ∧
    good.deviceNum 0x10000 8 = 0x11001 ∧ good.deviceNum 0x11000 8 = 0x12001 ∧ good.deviceNum 0x12000 8 = 0x13001 ∧
    good.deviceNum 0x13000 8 = 0x201BB ∧ clear.deviceNum 0x13000 8 = 0x2003B ∧ none.deviceNum 0x13000 8 = 0 ∧
    (0x11001#64).getLsbD 0 = true ∧ fld 0x11001 1 8 = 0 ∧ (0x201BB#64) ||| 0x180 = 0x201BB ∧ (0x2003B#64) ||| 0x180 ≠ 0x2003B ∧
    good.leafBad 0 0x201BB = false ∧ (0x201BB#64).getLsbD 2 = false ∧ (0x201BB#64).getLsbD 4 = true ∧ (0x201BB#64).getLsbD 53 = false ∧
    (clear.homes.get? (0x13000 / 128)).isSome = true ∧ (clear.home (0x13000 / 128)).dir = {} ∧ clear.ckptHolds 0x13000 = false ∧ (clear.liveHeader 0x13000 8).isNone = true := by decide
/-- A walk that waits behind 32 others, one that an invalidation met, one beyond 2^52. -/
theorem witness_Walks_other : let s : State := { walks := (List.range 33).map fun i => (i, wk), hand := 32, dies := [(0, { inval := 1 })] }
    ¬ (s.walks.filter fun e => e.1 < s.hand && e.2.die == 0).length < 32 ∧ wk.inval ≠ (s.die 0).inval ∧ 2 ^ 52 ≤ (0x10000000000000#64).toNat := by decide
/-- TranslationCommand: each stage of a command; pending versions in its range; peers that are away. -/
theorem witness_TranslationCommand : let x : Xlat := { status := 1, cmd := 0x1000000E0, stage := 2 }
    let s : State := { xlat := x, homes := pend1 }
    s.xlat.status = 1 ∧ fld x.cmd.toNat 32 32 ≠ 0 ∧ fld (0xE0#64).toNat 32 32 = 0 ∧ s.accessesPending = false ∧ x.cmd.getLsbD 5 = true ∧
    (x.drainRange.1 < 1 * 128 + 128 ∧ 1 * 128 < x.drainRange.2) ∧ pv ∈ ((pend1.getD 1 { wts := 0, rts := 0 }).pend) ∧ Tab.rises rest4 = true ∧
    (∀ e ∈ rest4, e.2.pend = [] ∧ e.2.dir = {}) ∧ s.links.filter = [] ∧ s.links.out = [] ∧ s.reqs = [] ∧ ({ s with links := { pgMap := 3 } } : State).allPeersUp = false ∧ s.allPeersUp = true ∧
    (sh ldi (rq (.fill 4 4))).accessesPending = true := by decide
/-- ScratchRefill: a page of a restored team. -/
theorem witness_ScratchRefill : let tm := { tm0 with unpinned := [1], asked := [1] }
    let s : State := { teams := [(0, tm)], ctxs := [(0, { cx with scrb := 0x200000 })], tlbDie := [(0, [leaf0])] }
    s.team? 0 = some tm ∧ (1 : Nat) ∈ tm.unpinned ∧ s.ctx tm.asid = some { cx with scrb := 0x200000 } ∧
    (s.enginePieces 2 0 0 (0x200000 + BitVec.ofNat 64 (2 ^ 21 * (256 * 0 + 0) + 4096 * 1)) 4096 .read false) = (s, .ok [(0x1000, 4096)]) ∧
    s.poison = [] ∧ tm.scrPoison = [] ∧ (1 : Nat) ∈ tm.asked ∧ (1 : Nat) ∉ tm.pageWait ∧ (1 : Nat) ∉ tm0.asked := by decide
/-- SlotsAndDoorbells: slot 0 with a ring of 64 commands at 0x200000, KRN, doorbell 5; not enabled; a head that TAIL overruns. -/
def qs : QSlot := { base := 0x200000, cfg := 0x560101, ctxd := 0x400 }
def cmem : Tab Byte := [(0x0, 0x4b), (0x1, 0x5a), (0x2, 0x1), (0x8, 0x1), (0x9, 0x1), (0xb, 0x1), (0xc, 0x1), (0x40, 0x4b), (0x41, 0x5a), (0x42, 0x1), (0x43, 0x1), (0x49, 0x1), (0x4b, 0x1), (0x4c, 0x1), (0x5a, 0x1), (0x5b, 0x10), (0x5c, 0x10), (0x80, 0xff), (0x81, 0xff), (0x82, 0xff), (0x83, 0xff), (0x84, 0xff), (0x85, 0xff), (0x86, 0xff), (0x87, 0xff), (0x88, 0xff), (0x89, 0xff), (0x8a, 0xff), (0x8b, 0xff), (0x8c, 0xff), (0x8d, 0xff), (0x8e, 0xff), (0x8f, 0xff), (0x400, 0x1), (0x410, 0x1), (0x438, 0x1)]
def sq0 (q : QSlot) (l : Tab Cmd) : State :=
  { slots := [(0, q)], tails := [(5, 1)], cmds := l, mem := cmem, tlbDie := [(0, [leaf0])], ctxs := [(0, { cx with poolsz := 1, key := 0x400, privstr := 4095 })], links := up,
    homes := (List.range 10).map fun i => (i, { wts := 1, rts := 2 }) }
def cm (x : Nat) : Cmd := { slot := 0, asid := 0, raw := BitVec.ofNat 512 x, order := 0, ready := 0 }
theorem witness_SlotsAndDoorbells : let s := sq0 qs []
    s.slotOfDoorbell 4 = none ∧ s.slotOfDoorbell 5 = some 0 ∧ (s.slot 0).stopping = false ∧ (64 - qs.head).toNat ≤ 2 ^ cfgLog qs.cfg ∧
    2 ^ cfgLog qs.cfg < (65 - qs.head).toNat ∧ ({ s with cmds := [(0, cm 0)] } : State).outstanding 0 ≠ 0 ∧ (s.die 0).evqBase = 0 ∧
    (s.pend.getD 0 0).getLsbD 4 = false ∧ cfgEn qs.cfg = true ∧ cfgEn ((sq0 { qs with cfg := 0 } []).slot 0).cfg = false ∧
    ((sq0 { qs with cfg := 0 } []).slot 0).ovrDue = none ∧ (sq0 { qs with cfg := 0 } []).enableBad 0 qs.cfg = false ∧ (sq0 { qs with cfg := 0 } []).enableBad 0 0x500101 = true ∧
    (s.tails.getD (cfgDb qs.cfg) 0 - qs.head).toNat ≤ 2 ^ cfgLog qs.cfg ∧ s.tails.getD (cfgDb qs.cfg) 0 ≠ qs.head ∧
    s.tails.getD (cfgDb qs.cfg) 0 = ({ qs with head := 1 } : QSlot).head := by decide
theorem witness_CommandFetch : let s := (sq0 qs []).openCtx qs
    s.2.asid = 0 ∧ (s.1.enginePieces 2 0 0 (qs.base + BitVec.ofNat 64 (64 * (qs.head.toNat % 2 ^ cfgLog qs.cfg))) 64 .read false).2 = .ok [(0, 64)] := by decide
/-- Commands: every operation with a good context; bad fields; a context that is gone; a command behind another; a completion address. -/
def okc (x : Nat) (op : Nat) : Bool :=
  let s := sq0 qs [(0, cm x)]
  decide (s.cmds.get? s.hand = some (cm x)) && decide (fld (cm x).raw.toNat 0 4 = op) && s.mayStart (cm x) && decide ((s.slot 0).stopping = false)
theorem witness_Commands :
    ([(0x0, 0), (0x20000000000000000000000000000000000000000000010000000100000001000000000000000000000001, 1), (0x20004000000000002000800000000000000000000000000000000000000000000000000000000000000002, 2), (0x3, 3), (0x10000000000000000000000000000000000000000000000000000000000000004, 4), (0x5, 5), (0x6, 6), (0x100000000000000, 0)] : List (Nat × Nat)).all (fun e => okc e.1 e.2) = true ∧
    ([0x0, 0x20000000000000000000000000000000000000000000010000000100000001000000000000000000000001, 0x20004000000000002000800000000000000000000000000000000000000000000000000000000000000002, 0x3, 0x10000000000000000000000000000000000000000000000000000000000000004, 0x5] : List Nat).all (fun x => !cmdBad x (cfgKrn qs.cfg) ((sq0 qs []).slotDesc qs)) = true ∧
    ([0x6, 0x100000000000000] : List Nat).all (fun x => cmdBad x (cfgKrn qs.cfg) ((sq0 qs []).slotDesc qs)) = true ∧
    ((({ sq0 qs [] with ctxs := [(0, { cx with gone := true })] } : State).ctx 0).map (·.gone)) = some true ∧
    (sq0 qs [(0, cm 0), (1, { cm 0 with order := 1 })]).mayStart { cm 0 with order := 1 } = false ∧ (sq0 qs []).links.out = [] ∧
    (sq0 qs []).quiescent 0 = true ∧ ({ sq0 qs [] with bins := [(0, { bin0 with recs := [rm 16] })] } : State).quiescent 0 = false := by decide
theorem witness_Writable : Writable (sq0 qs [(0, cm 0x2001000000000000000000000000000000000000000000000000000000000000000000000000000000000000000000000000000000000000000000)]) (cm 0x2001000000000000000000000000000000000000000000000000000000000000000000000000000000000000000000000000000000000000000000) 0x100 := by
  refine ⟨by decide, by decide, by decide, fun _ => ⟨by decide, by decide, by decide, by decide, by decide, ?_, by decide, by decide, by decide, by decide⟩⟩
  rintro d (rfl | rfl) <;> decide
theorem witness_Dispatch : let s := sq0 qs [(0, cm 0x20000000000000000000000000000000000000000000010000000100000001000000000000000000000001)]
    s.readKernel (cm 0x20000400000000000000000000000000000000000000010000000100000001000000000000000000000001) = (s, .ok none) ∧ s.readKernel (cm 0x20000000000000000000000000000000000000000000010000000100000001000000000000000000000001) = (s, .ok (some ({ hdr := parseHeader 0x1010001010000000000015a4b, roles := [], safe := [] }, []))) ∧
    s.neverFits 0 (parseHeader 0x1010001010000000000015a4b) ({ hdr := parseHeader 0x1010001010000000000015a4b, roles := [], safe := [] } : Kernel).plan = false ∧
    s.neverFits 0 { parseHeader 0x1010001010000000000015a4b with scratch := 2 ^ 22 } [] = true ∧
    frameShort { cx with privstr := 4095 } (parseHeader 0x1010001010000000000015a4b) = none := by decide
theorem witness_RecordCommand : let s := sq0 qs [(0, cm 0x20004000000000002000800000000000000000000000000000000000000000000000000000000000000002)]
    (cmdHdr 0x20004000000000002000800000000000000000000000000000000000000000000000000000000000000002).toNat % 64 = 0 ∧ s.engineRead 0 0 (cmdHdr 0x20004000000000002000800000000000000000000000000000000000000000000000000000000000000002) 64 .read false = (s, .ok (toBytes 64 nhdr)) ∧ nodeHeaderOk (ofBytes (toBytes 64 nhdr)) = true ∧
    (parseHeader nhdr).maxdepth < fld 0x20004000000000002000800000000000000000000000000000000000000000000000000008000000000002 50 6 ∧ (s.engineRead 0 0 (BitVec.ofNat 64 (fld 0x20004000000000002000800000000000000000000000000000000000000000000000000000000000000002 256 64)) 16 .read false).1 = s ∧
    (match (s.engineRead 0 0 (BitVec.ofNat 64 (fld 0x20004000000000002000800000000000000000000000000000000000000000000000000000000000000002 256 64)) 16 .read false).2 with
     | .ok l => l.length == 16
     | .error _ => false) = true ∧ 0 + (parseHeader nhdr).recsz ≤ 256 * 1 := by decide
theorem witness_CtxCommands : let s := sq0 qs [(0, cm 0x5)]
    s.ctx 0 = some { cx with poolsz := 1, key := 0x400, privstr := 4095 } ∧ keyMod 0x400 = Config.selfModule ∧ keyTier 0x400 ≤ 1 ∧ 0x400 % 64 = 0 ∧
    (s.homes.get? (0x400 / 128)).isSome = true ∧ (s.home (0x400 / 128)).dir = {} ∧ s.ckptHolds 0x400 = false ∧ s.liveHeader (0x400 + 28) 4 = none ∧ s.bundles = [] ∧
    (∀ e ∈ s.cmds, ¬ e.1 ≠ s.hand) ∧ Tab.rises s.teams = true ∧ cmdDonea 0x5 = 0 ∧ Tab.rises s.cmds = true := by decide

/-! ### Teams, pre-emption -/

/-- TeamStart: a DISPATCH of one team of one group of 32 lanes, started, in a context whose pool is empty. -/
def kn0 : Kernel := { hdr := { parseHeader 0x1010001010000000000015a4b with scratch := 0 }, roles := [], safe := [] }
def dc : Cmd := { cm 0x20000000000000000000000000000000000000000000010000000100000001000000000000000000000001 with started := true, kern := some kn0 }
def sts : State := { cmds := [(0, dc)], ctxs := [(0, cx)], links := up, plat := { simt := true } }
theorem witness_TeamStart : sts.candidates (sts.hand / 72) = [.slot [0]] ∧ dc.kern = some kn0 ∧ sts.ctx 0 = some cx ∧
    kn0.plan = [{ role := 0, entry := 0, vinit := 1, vmax := 1 }] ∧ kn0.hdr.tpair = false ∧ kn0.hdr.seq = false ∧ sts.mayUse 0 0 = true ∧
    sts.placeFits 0 cx.part kn0.hdr kn0.plan = true ∧ ({ sts with quotas := [(0, 0)] } : State).placeFits 0 cx.part kn0.hdr kn0.plan = false ∧
    cx.used + kn0.hdr.width * kn0.hdr.fanout * 16 ≤ 256 * cx.poolsz ∧
    256 * cx.poolsz < cx.used + kn0.hdr.width * ({ kn0.hdr with fanout := 1 } : Header).fanout * 16 ∧ sts.fused.getLsbD 0 = kn0.hdr.fuse ∧
    sts.group? 0 = none ∧ 0 < kn0.hdr.width ∧ kn0.hdr.width ≤ 64 := by decide
/-- 12 R259, 15 R327: the start gives the group its split of every lane at the entry. -/
theorem test_team_start : (match exec .teamStart sts with
    | .next t => (t.group? 0).map fun g => (g.splits.map fun x => (x.mask, x.pc), t.team? 0 |>.map (·.groups))
    | _ => none) = some ([(0xFFFFFFFF, 0)], some [0]) := by decide
/-- Retirement: a group whose lanes have exited, alone and beside another; of a node team and of a command's last team. -/
theorem witness_Retirement : let g := { g0 with live := 0, splits := [], recs := [] }
    let s := fun (t : Team) (l : Tab Group) => ({ groups := (0, g) :: l, teams := [(0, t)], ctxs := [(0, cx)], cmds := [(0, dc)] } : State)
    (s tm0 []).group? 0 = some g ∧ g.live = 0 ∧ g.ops = [] ∧ g.stop = none ∧ g.park = .no ∧ tm0.bars = [] ∧ tm0.seq = none ∧ tm0.cmd = none ∧ tm0.queue = [] ∧
    ¬ (∃ k ∈ tm0.groups, k ≠ 0 ∧ ((s tm0 []).group? k).map (·.team) = some g.team) ∧ (s tm0 []).ctx tm0.asid = some cx ∧
    (let t := { tm0 with groups := [0, 1] }; ∃ k ∈ t.groups, k ≠ 0 ∧ ((s t [(1, g0)]).group? k).map (·.team) = some g.team) ∧
    ({ tm0 with cmd := some 0 } : Team).cmd = some 0 ∧ dc.done = false ∧ ((s tm0 []).slot dc.slot).stopping = false ∧ ((s tm0 []).slot dc.slot).ovrDue = none ∧
    dc.retired + 1 = cmdTeams dc.raw.toNat ∧ ({ dc with retired := 1 } : Cmd).retired + 1 ≠ cmdTeams dc.raw.toNat ∧ cmdDonea dc.raw.toNat = 0 ∧
    ¬ (g0.live = 0) := by decide
/-- PreemptionCommands: OUT and IN for context 0 on every cluster of die 0; idle, with a group, while one runs, and with a team switched out. -/
def vout : BitVec 64 := 0x3FFFF001
def saved : SavedTeam := { die := 0, key := 0, team := { tm0 with kern := kn0 }, groups := [(0, g0)], seq := none }
theorem witness_PreemptionCommands : fld vout.toNat 0 2 = 1 ∧ fld (vout + 1).toNat 0 2 = 2 ∧ vout.extractLsb' 48 16 = 0 ∧
    (BitVec.ofNat 36 (fld vout.toNat 12 18 * 2 ^ (18 * 0))).getLsbD tm0.cluster = true ∧ (s0.die 0).preStatus ≠ 1 ∧
    (({ s0 with dies := [(0, { preStatus := 1 })] } : State).die 0).preStatus = 1 ∧ s0.asidOf g0 = 0 ∧ s0.rays = [] ∧ s0.scenes = [] ∧ g0.park = .no ∧ Tab.rises s0.groups = true ∧
    Tab.rises s0.teams = true ∧ (let s : State := { outTeams := [saved], ctxs := [(0, cx)] }
      ({ s with outOf := s.outOf.putD 0 0 (s.outOf.getD 0 0 &&& ~~~0x3FFFF) } : State).mayRestore saved = true ∧ saved.seq = none ∧ g0.ops = [] ∧ g0.swept = 0 ∧
      s.fused.getLsbD 0 = kn0.hdr.fuse ∧ s.bins = []) := by decide
/-- Parking: a group at the safe point whose header is SAFE, one in a clause, one asleep at a barrier, one stopped, one for the full dump. -/
def xp : Split := { x0 with run := none }
def gp (x : Split) (p : Park) : Group := { grp x [] with park := p }
def sp (g : Group) : State :=
  { groups := [(0, g)], teams := [(0, { tx with kern := { hdr := {}, roles := [], safe := [(0x9000, 0xA000)] } })], mem := [(3, 0x80), (7, 0x40)], links := up }
theorem witness_Parking : let g := gp xp .asked
    (sp g).group? (sp g).hand = some g ∧ ((sp g).core 0).atops = [] ∧ g.splits = [xp] ∧ xp.run = none ∧ xp.skip = 0 ∧ xp.st = .ready ∧ xp.mask ≠ 0 ∧
    (sp g).safePoint 0 g xp = some 0 ∧ x0.run ≠ none ∧ (sp g).safePoint 0 g { xp with pc := 0x10008 } = none ∧
    ({ xp with st := .sleep, wait := .barrier 0 1 } : Split).wait = .barrier 0 1 ∧
    ({ g with stop := some { cause := 1, detail := 0, pc := 0, idx := 0, lanes := 1 } } : Group).stop ≠ none ∧
    (gp xp .dumping).park = .dumping ∧ (∀ x ∈ (gp xp .dumping).splits ++ (gp xp .dumping).spilled, x.run = none ∧ x.routine = .none) := by decide
/-- The end of OUT; the budgets of 20 microseconds, run out at the cycle 21,000; the rotation after 256 clauses. -/
def pre0 : PreCmd := { asid := 0, clusters := 1, out := true, start := 0 }
theorem witness_Parking_end : let s := fun (p : Park) (c : Nat) => ({ groups := [(0, gp xp p)], teams := [(0, { tm0 with kern := kn0 })], dies := [(0, { pre := some pre0 })], cycle := c } : State)
    ((s .parked 0).die 0).pre = some pre0 ∧ pre0.clusters.getLsbD 0 = true ∧ (s .parked 0).asidOf (gp xp .parked) = 0 ∧ kn0.hdr.scratch = 0 ∧ tm0.pageWait = [] ∧ tm0.pair = false ∧ (s .parked 0).scenes = [] ∧
    ((s .parked 0).die 0).evqBase = 0 ∧ pre0.start + 1050 * fld ((s .asked 21000).die 0).preBudget.toNat 0 16 ≤ (s .asked 21000).cycle ∧
    pre0.start + 1050 * fld ((s .asked 20999).die 0).preBudget.toNat 0 16 > (s .asked 20999).cycle ∧
    (gp xp (.saving [])).savedAt + 1050 * fld ((s .asked 21000).die 0).preBudget.toNat 16 16 ≤ 21000 := by decide
theorem witness_SplitRotation : let v := { xp with mask := 1, last := 3 }
    let y := { xp with mask := 2, last := 4 }
    let w := { xp with mask := 4 }
    let g := { g0 with splits := [v, y], spilled := [w], clauses := 256 }
    (g.spilled.find? fun y => y.st == .ready) = some w ∧ v ∈ g.splits ∧ (∀ y ∈ g.splits, y.run = none ∧ (y ≠ v → v.last < y.last ∧ y.mask ≠ v.mask)) ∧
    (g.spilled.map (·.mask)).Nodup ∧ g.rotated + 256 ≤ g.clauses ∧ (∃ y ∈ g.splits, y.st = .ready) ∧ (∀ y ∈ [({ v with st := .joinw } : Split)], y.st ≠ .ready) ∧ ({ g with clauses := 255 } : Group).clauses < g.rotated + 256 := by decide

/-! ### Firmware, links, the host -/

/-- Mailbox: an outstanding upcall with its sleeping split; a logged instruction; a fault record of a sequencer's fetch and of a ring's. -/
def xu : Split := { x0 with st := .sleep, wait := .upcall 3 4 }
def olog (p : LogPlace) : Op := { oh ldi with place := p, accs := [{ lane := 0, ea := 0x90, phase := .faulted 1 }], flag := some 2 }
def o2 : Op := { oh ldi with gio := 4, accs := [] }
def gl (l : List Op) : Group := { g0 with ops := l, gio := 5, att := [(0, 2, 1)] }
def sl (l : List Op) : State := { groups := [(0, gl l)], teams := [(0, tm0)], cores := [(0, { log := [(6, 0)] })] }
theorem witness_Mailbox : let g := grp xu []
    let s : State := { groups := [(0, g)], teams := [(0, tm0)], upcalls := [(3, { core := 0, group := 0, gio := 0, lane := 0, code := 1, d := 4 })] }
    (s.upcalls.get? (65536 * 0 + 3)).isSome = true ∧ xu ∈ g.splits ∧ xu.wait = .upcall 3 4 ∧ (1#8).toNat < 0xF0 ∧ s.upcalls.get? (65536 * 0 + 4) = none ∧
    mbOp (mbWord 1 0 6 0) = 1 ∧ mbCore (mbWord 0 72 3 0) / 72 ≠ 0 ∧ ((sl [olog (.logged 6)]).core 0).log.get? 6 = some 0 ∧
    ((gl [olog (.logged 6)]).ops.find? fun o => o.place == .logged 6) = some (olog (.logged 6)) ∧ (gl [olog (.logged 6)]).op? 3 = some (olog (.logged 6)) ∧
    ((olog (.logged 6)).accs.find? fun a => a.phase.isFault) = some { lane := 0, ea := 0x90, phase := .faulted 1 } ∧ (olog (.logged 6)).isPlaced = true ∧
    o2.gio ≠ (olog (.logged 6)).gio ∧ o2.isPlaced = false ∧ (olog (.logged 6)).waitsBehind o2 = false ∧ (gl []).declined = none ∧ (gl []).stop = none := by decide
theorem witness_Mailbox_records : let f : FaultRec := { die := 0, code := 0, tag := 0x8000, work := .seqFetch 0 }
    let r : FaultRec := { die := 0, code := 0xF0, tag := 0, work := .ring 0 }
    let s := { sq { q0 with fetchFault := some 1 } tm0 with frecs := [f, r], cmds := [(0, cm 0)] }
    mbOnDie 0 0 = true ∧ mbOnDie 0 0xF0 = true ∧ (s.core 0).log.get? 0x8000 = none ∧ s.faultRec 0 0 0x8000 = some f ∧ s.faultRec 0 0xF0 0 = some r ∧
    (s.seq? 0).isSome = true ∧ (s.die 0).evqBase = 0 ∧ s.outstanding 0 ≠ 0 := by decide
/-- EventQueue: a base with and without an event waiting; a mirror address off 8 bytes; a head that passes an UPCALL event and one that passes another. -/
def evs (kd : Byte) : State :=
  { dies := [(0, { evqBase := 0x1000, evqTail := 1 })], mem := [(0x1000, kd), (0x100C, 3)], upcalls := [(3, { core := 0, group := 0, gio := 0, lane := 0, code := 1, d := 4 })],
    homes := homes2 }
theorem witness_EventQueue : let s := evs 2
    fld (0x1004#64).toNat 0 3 ≠ 0 ∧ fld (0x1000#64).toNat 0 12 = 0 ∧ 1 < fld (0x4000000000001000#64).toNat 61 3 ∧ (∀ e ∈ s.evWait, e.die ≠ 0) ∧
    (s.die 1).evqHead = (s.die 1).evqTail ∧ (s.die 1).evqTailw = 0 ∧
    (let k := ringKey 0x1000 + 64 * ((s.die 1).evqTail.toNat % 2 ^ (fld (s.die 1).evqCfg.toNat 0 4 + 6))
     keyMod k = Config.selfModule ∧ keyTier k ≤ 1 ∧ (s.homes.get? (k / 128)).isSome = true ∧ (s.home (k / 128)).dir = {} ∧ s.ckptHolds k = false ∧ s.liveHeader k 64 = none) ∧
    (s.die 0).evqHead ≠ (s.die 0).evqTail ∧ (s.die 0).evqBase ≠ 0 ∧
    (let raw := fun (s : State) => s.deviceNum (ringKey (s.die 0).evqBase + 64 * ((s.die 0).evqHead.toNat % 2 ^ (fld (s.die 0).evqCfg.toNat 0 4 + 6))) 64
     fld (raw s) 0 4 = 2 ∧ (s.upcalls.get? (65536 * 0 + fld (raw s) 96 16)).map (·.taken) = some none ∧ fld (raw (evs 1)) 0 4 ≠ 2) := by decide
/-- DebugWindow: group 0 running, and stopped at word 0 of its clause, at a clause header, at a fall-through, by a logged instruction; its sequencer. -/
def st0 : Stop := { cause := 1, detail := 0, pc := 0x10000, idx := 0, lanes := 1 }
def xst (x : Split) : Split := { x with st := .stopped }
theorem witness_DebugWindow : let y := xst x0
    let s := fun (st : Stop) (y : Split) => ({
      groups := [(0, { grp y [] with stop := some st })], teams := [(0, { tm0 with seq := some 0 })],
      seqs := [(0, { q0 with stop := some st })], dies := [(0, { dwSel := BitVec.ofNat 64 (0 + 256 * 0), dwAddr := dwAt 1 63 0 0 })] } : State)
    (s st0 y).group? (64 * 0 + 0) = some { grp y [] with stop := some st0 } ∧ ((s st0 y).die 0).dwSel = BitVec.ofNat 64 (0 + 256 * 0) ∧
    ((s st0 y).die 0).dwAddr = dwAt 1 63 0 0 ∧ g0.stop = none ∧ y.st = .stopped ∧ y.wait = .nothing ∧ y.mask &&& st0.lanes ≠ 0 ∧ y.pc = st0.pc ∧ y.run = x0.run ∧
    st0.idx + 1 < 2 ∧ longWord 0x4100000000000000 0 = none ∧ (xst xp).run = none ∧ st0.pc = (xst xp).pc ∧ ({ st0 with fall := some 0x10018 } : Stop).fall = some 0x10018 ∧
    ({ st0 with gio := some 3 } : Stop).gio = some (olog (.logged 6)).gio ∧ (gl [olog (.logged 6)]).att.find? (fun a => a.1 == 0 && a.2.1 == 2) = some (0, 2, 1) ∧
    (grp y []).masksOk = true ∧ (∀ z ∈ (grp y []).splits, z.mask &&& ~~~g0.live = 0) ∧ (s st0 y).teamOf (grp y []) = some { tm0 with seq := some 0 } ∧ ((s st0 y).seq? 0).isSome = true ∧
    (0 < g0.width ∧ 255 < 8 * ({ g0 with blocks := 32 } : Group).blocks) := by decide
/-- MatchingTable: a free entry, an armed one; a good entry with granules and without; its conflicts. -/
def nmE : BitVec 256 := 0x200100000000000020000000000040000000070000000000000200
def nmA : BitVec 256 := 0x200100000000000020000000000040000000070000000000000240
def snm (l : Tab (BitVec 256)) (sz : Nat) : State :=
  { links := { up with nm := l }, mem := [(0x0, 0x4b), (0x1, 0x5a), (0x2, 0x1), (0x3, 0x1), (0x9, 0x1), (0xb, 0x1), (0xc, 0x1), (0x1a, 0x2), (0x1b, 0x10), (0x1c, 0x10)], tlbDie := [(0, [leaf0]), (1, [leaf0])], ctxs := [(0, { cx with poolsz := sz })], homes := rest4 }
theorem witness_MatchingTable : let s := snm [(3, nmE)] 1
    nmArmed nmA = true ∧ nmArmed (s.nmEntry 3) = false ∧ fld (3#64).toNat 0 10 = 3 ∧ nmBuf nmE % 128 = 0 ∧ nmLen nmE ≠ 0 ∧ nmTag nmE ≠ 0 ∧ fld nmE.toNat 0 5 = 0 ∧
    (nmNode nmE).toNat % 64 = 0 ∧ s.walks = [] ∧ s.engineRead 0 0 (nmNode nmE) 64 .read false = (s, .ok (toBytes 64 0x1010020000000000000000000000000001010001000000000001015a4b)) ∧ nodeHeaderOk (ofBytes (toBytes 64 0x1010020000000000000000000000000001010001000000000001015a4b)) = true ∧
    (parseHeader 0x1010020000000000000000000000000001010001000000000001015a4b).recsz = 2 ∧ (∀ e ∈ s.links.nm, e.1 = 3) ∧ 0 + 2 ≤ 256 * 1 ∧ 256 * 0 < 0 + 2 ∧
    (nmAsid nmA = nmAsid nmE ∧ nmTag nmA = nmTag nmE ∧ nmAny nmA = true) ∧
    ({ snm [(3, nmE)] 1 with mem := [] } : State).engineRead 0 0 (nmNode nmE) 64 .read false = ({ snm [(3, nmE)] 1 with mem := [] }, .ok (toBytes 64 0)) ∧
    nodeHeaderOk (ofBytes (toBytes 64 0)) = false ∧
    s.engineRead 0 0 0x10000000000000 64 .read false = (s, .error (fkRange, 0x10000000000000)) ∧ (parseHeader nhdr).recsz ≠ 2 := by decide
/-- NetworkArrivals: a piece beyond memory, an untagged one, one that matches, one outside the buffer, the last one, at an entry that rearms and one held. -/
def np (tag : BitVec 32) (va : Addr) (n : Nat) : NetPiece := { src := 1, tag := tag, asid := 0, va := va, key := 0x100, bytes := List.replicate n 1 }
theorem witness_NetworkArrivals : let s := snm [(3, nmA)] 1
    1 < keyTier (2 ^ 53) ∧ AtRest s 0x100 64 ∧ s.ownMemory 0x100 = true ∧ s.ownMemory (0x100 + (64 - 1)) = true ∧ s.links.nmHeld = [] ∧
    s.nmMatch (np 8 0x200100 4) = none ∧ s.nmMatch (np 7 0x200100 4) = some 3 ∧ nmArmed (s.nmEntry 3) = true ∧
    (nmBuf (s.nmEntry 3) ≤ (np 7 0x200100 4).va.toNat ∧ (np 7 0x200100 64).va.toNat + 64 ≤ nmBuf (s.nmEntry 3) + nmLen (s.nmEntry 3)) ∧
    ¬ (np 7 0x200140 4).va.toNat + 4 ≤ nmBuf (s.nmEntry 3) + nmLen (s.nmEntry 3) ∧ nmArrived (s.nmEntry 3) + 4 < nmLen (s.nmEntry 3) ∧
    nmLen (s.nmEntry 3) ≤ nmArrived (s.nmEntry 3) + 64 ∧ nmRearm nmA = false ∧ nmRearm 0x200100000000000020000000000040000000070000000000000260 = true ∧ 256 * 0 < 0 + 2 ∧
    (3 : Nat) ∈ ({ up with nmHeld := [3] } : Links).nmHeld := by
  refine ⟨by decide, ⟨by decide, by decide, by decide, by decide, by decide, by decide⟩, ?_⟩
  decide
/-- HostPort: function 2, bound at 0x200000 to context 0; numbers within and beyond the window; a function that is not bound. -/
def hb : Links := { up with bindBase := [(2, 0x200000)], bindAsid := [(2, 0x8000000000000000)] }
def shp : State := { links := hb, tlbDie := [(1, [leaf0])], homes := rest4 }
theorem witness_HostAt : HostAt shp 2 0x100 4 .write 0x100 ∧ HostAt shp 2 0x104 4 .read 0x104 := by
  refine ⟨⟨by decide, by decide, by decide, by decide, by decide, by decide, by decide, by decide, ⟨by decide, by decide, by decide, by decide, by decide, by decide⟩⟩,
    ⟨by decide, by decide, by decide, by decide, by decide, by decide, by decide, by decide, ⟨by decide, by decide, by decide, by decide, by decide, by decide⟩⟩⟩
theorem witness_HostPort : 31 < ((32#16) - shp.nextSeq (256 * 2 + 1)).toNat ∧ ((31#16) - shp.nextSeq (256 * 2 + 1)).toNat ≤ 31 ∧ (0#16) = shp.nextSeq (256 * 2 + 1) ∧
    shp.links.held = [] ∧ (shp.links.bindAsid.getD 3 0).getLsbD 63 = false ∧ (shp.die 0).evqBase = 0 ∧ shp.msgs = [] ∧ shp.poisoned 0x104 4 = false ∧
    2 ^ 36 < (0xFFFFFFFFF#64).toNat + 4 := by decide
/-- PortsAndTimeouts: a write held for module 1; late requests of a lane to a peer, to host memory and to the pool; one that is not late. -/
def lreq (line : Nat) : HomeReq := { core := 0, line := line, kind := .load 0 4, pts := 0, who := .op 0 3 0 }
def slr (line : Nat) : State := { groups := [(0, { g0 with ops := [oh ldi] })], teams := [(0, tm0)], reqs := [(0, lreq line)], links := {} }
theorem witness_Late : Late (slr (2 ^ 48)) (lreq (2 ^ 48)) 0 3 0 { g0 with ops := [oh ldi] } (oh ldi) { lane := 0, ea := 0x90, phase := .atHome 0 } :=
  ⟨by decide, by decide, by decide, ⟨0, 4, Or.inl rfl⟩, by decide, by decide, by decide, by decide, by decide, by decide, by decide, by decide⟩
theorem witness_PortsAndTimeouts : (slr (2 ^ 48)).reachable (keyMod (2 ^ 48 * 128)) = false ∧ keyTier (5 * 2 ^ 45 * 128) = 5 ∧ keyTier (2 * 2 ^ 45 * 128) = 2 ∧
    (slr 0).reachable 0 = true ∧ (oh ldi).place = .free ∧ (slr 0).freeEntry 0 ≠ none ∧ g0.loggedOps.length < 8 ∧ (slr 0).cycle < ({ lreq 0 with due := 1 } : HomeReq).due ∧
    (let w : OutWrite := { peer := 1, key := 2 ^ 55, bytes := [1], group := 0, gio := 0 }
     keyMod w.key = w.peer ∧ w.peer ≠ Config.selfModule) ∧ (2#64).getLsbD 1 = true := by decide
theorem witness_PortsAndTimeouts_rest : AtRest { homes := [(2 ^ 48, { wts := 0, rts := 0 })] } (2 ^ 55) 1 := ⟨by decide, by decide, by decide, by decide, by decide, by decide⟩
/-- SoftErrors: a sector that exists and one beyond its tier. -/
theorem witness_SoftErrors : keyMod 0x100 = Config.selfModule ∧ keyPa 0x100 < s0.tierLimit (keyTier 0x100) ∧ s0.tierLimit (keyTier (2 ^ 51)) ≤ keyPa (2 ^ 51) ∧
    (s0.die (homeDie 0x100)).evqBase = 0 ∧ g0.splits.head? = some x0 ∧ g0.stop = none ∧ (s0.die (dieOfCore (coreOf 0))).evqBase = 0 := by decide

/-! ### Boot, power, rays, the step -/

/-- BootAndReset, Attestation: an image that the ROM accepts and one whose version is below the fuses' counter; a running image, recovery. -/
def img (v : BitVec 16) : ImageFacts := { version := v, digest := 9, readOk := true, ecdsaOk := true, lmsOk := true }
theorem witness_BootAndReset : Accepted 2 (img 2) ∧ ¬ Accepted 3 (img 2) ∧ fld (0x140#64).toNat 8 4 ≠ 0 ∧ (3#64).extractLsb' 0 4 = 3 :=
  ⟨⟨by decide, by decide, by decide, by decide⟩, fun h => absurd h.2.2.2 (by decide), by decide, by decide⟩
theorem witness_Attestation : (0x140#64).extractLsb' 8 4 ≠ 0 ∧ (0x42#64).extractLsb' 0 4 = 2 ∧ (0x42#64).extractLsb' 8 4 = 0 ∧ (0x140#64).extractLsb' 0 4 ≠ 2 ∧
    ({ spdmVersion := true, spdmCaps := true, spdmAlgs := true } : Platform).spdmAlgs = true ∧ ({} : Platform).spdmVersion = false := by decide
/-- Power: two clusters' arrivals at one phase; a window of 7 with a cluster last in 5; a step to give. -/
theorem witness_Power : let p : Platform := { phases := [(0, 1, 0, 0), (0, 1, 0, 1)], windows := [(0, { window := 7, firsts := [(0, 5)], lasts := [(1, 5)] })] }
    let s : State := { plat := p }
    s.plat.phases = [(0, 1, 0, 0), (0, 1, 0, 1)] ∧ (∀ e ∈ s.teams, e.2.cmd ≠ some 0) ∧ (∀ e ∈ s.outTeams, e.team.cmd ≠ some 0) ∧ p.pwrctl.getLsbD 0 = true ∧
    (p.windows.getD 0 {}) = { window := 7, firsts := [(0, 5)], lasts := [(1, 5)] } ∧ (p.windows.getD 1 {}).window < 7 ∧
    (5 ≤ 5 ∧ 0 / 18 = 1 / 18 ∧ p.steps.getD 1 4 < 8 ∧ 0 < p.steps.getD 0 4) ∧ ({} : Platform).phases = [] ∧
    (let s : State := { teams := [(0, { tm0 with cmd := some 0 })], plat := p }
     ∃ e ∈ s.teams, e.2.cmd = some 0 ∧ (BitVec.ofNat 16 0 - (e.2.bar 1).ph).toNat < 2 ^ 15) := by decide
/-- Checkpoint: a command of each kind, idle and with work; a copy in progress with a held write and a poisoned sector. -/
theorem witness_Checkpoint : let s : State := { links := hb, tlbDie := [(1, [leaf0])], homes := rest4, plat := { ckpt := some (true, 1), ckptHeld := [(0x100, [1])] }, poison := [(2, ())] }
    fld (0x8000000011#64).toNat 0 2 = 1 ∧ fld (0x1011#64).toNat 12 27 ≠ 0 ∧ (∀ e ∈ rest4, e.2.pend = [] ∧ e.2.dir = {} ∧ keyTier (e.1 * 128) ≠ 2) ∧
    (∃ e ∈ pend1, e.2.pend ≠ []) ∧ s.plat.ckpt = some (true, 1) ∧ s.links.held = [] ∧ ckptFrom true 1 ≤ 32 * 2 ∧ 32 * 2 < ckptFrom true 1 + 2 ^ 39 ∧
    (s.die (homeDie (32 * 2))).evqBase = 0 ∧ s.ckptHolds 0x100 = true ∧ s0.plat.ckptStatus ≠ 1 ∧ s0.teams ≠ [] := by decide
/-- Traces: a scene of two slots at 0x200100; lane 0 with a good ray in v10 to v19, with zeros in v20 on; depth too great; slots taken; granules short. -/
def sceneRaw : BitVec 2048 := 0x3000000000000000300100000000000020000000000000002010000000000000202000000000000020300000000000002040000000000000000000000000003f8000003f000000000080001280020000000000000000000000000000000000000000000000000000000000000000000000000000000000000000000000000001005a47
def scn (md : Nat) : Machine.Scene := { asid := 0, va := 0x200100, raw := sceneRaw, nodes := [(0x300000, { maxdepth := md }), (0x300100, { maxdepth := md })] }
def gr : Group := { g0 with s := [(4, 0x200100), (5, 0x200101)], p := [(3, 1)], v := [(64 * 13, 0x3F800000), (64 * 17, 0x42000000), (64 * 30, 9)] }
def ray0 (data : Nat) (i n : Nat) : Ray := { asid := 0, scene := 0x200100, idx := i, cluster := 0, team := 0, group := 0, gran := 20, data := BitVec.ofNat 512 data, enq := 0, ord := n }
def sry (md : Nat) (l : Tab Ray) : State :=
  { groups := [(0, gr)], teams := [(0, tm0)], cur := .grp 0 0, links := up, scenes := [(0, scn md)], rays := l, ctxs := [(0, { cx with poolsz := 1 })] }
def ro (b : BitVec 8) : RayOp := { g := p3, d := 1, a := 4, b := b, slot := none }
def r1 : Tab Ray := [(0, { asid := 0, scene := 0x200100, idx := 1, cluster := 0, team := 0, group := 0, gran := 20, data := 0, enq := 0, ord := 0 })]
theorem witness_RayLane : RayLane (sry 2 r1) 0 gr x0 tm0 (ro 10) 0 (scn 2) :=
  ⟨⟨by decide, by decide, ⟨rfl, rfl, witness_idle, (fun _ h => nomatch h), fun _ _ h => nomatch h⟩, (fun _ e h => nomatch h), rfl, by decide, by decide,
    ⟨_, List.mem_singleton_self _, by decide, by decide⟩, rfl, rfl, by decide⟩, by decide, by decide⟩
theorem witness_RayScene : RayScene (sry 2 r1) 0 gr x0 tm0 { ro 10 with g := p2 } (scn 2) := ⟨by decide, by decide,
  ⟨rfl, rfl, witness_idle, (fun _ h => nomatch h), fun _ _ h => nomatch h⟩, (fun _ e h => nomatch h), rfl, by decide, by decide,
  ⟨_, List.mem_singleton_self _, by decide, by decide⟩, rfl, rfl, by decide⟩
/-- Traces: a header of zeros at 0x10000, which two quiet lines hold; a command whose guard slot is not resolved; where a ray's record is written. -/
theorem witness_Traces_header : let g := { gr with s := [(4, 0x10000)] }
    let s : State := { groups := [(0, g)], teams := [(0, tx)], cur := .grp 0 0, links := up, homes := rest4 }
    s.issuer? = some (0, g, x0) ∧ (s.readS g 4).toNat % 256 = 0 ∧ s.sceneInUse 0 0x10000 = false ∧
    s.locate 0 g x0.xfaults 0x10000 256 .read = .at { key := 0, spec := false } ∧ Machine.sceneOk (cell s.byte 0 256) = false ∧ s.guardCode 0 (some 1) ≠ 2 ∧
    s.waits = [] ∧ inWindow ((0x200100 : Addr) + 8) 8 = false := by decide
theorem witness_Traces_pool (i : Nat) (hi : i < 2) : inWindow (BitVec.ofNat 64 (((scn 2).f.raypool + 128 * i) % 2 ^ 64)) 64 = false := by
  interval_cases i <;> decide
theorem witness_Traces : let s := sry 2 []
    let w := fun (b : Nat) i => s.readV gr (b + i) 0
    let node := ((scn 2).f.shnode[(w 10 9).toNat % 16]?).getD 0
    s.active gr x0 p3 ≠ 0 ∧ s.active gr x0 p2 = 0 ∧ (s.readS gr 5).toNat % 256 ≠ 0 ∧ s.laneDepth gr 0 + 1 = 1 ∧ node ≠ 0 ∧ ¬ (scn 2).maxDepth node < 1 ∧
    ¬ (scn 2).maxDepth (scn 2).f.fnode < 1 ∧ (scn 0).maxDepth node < 1 ∧ (w 10 9).toNat / 64 = 0 ∧ (∀ i < 6, rFinite (w 10 i) = true) ∧ rZero (w 10 3) = false ∧
    rFinite (w 10 6) = true ∧ rLt (w 10 6) 0 = false ∧ rLt (w 10 6) (w 10 7) = true ∧ (∀ i < 3, rZero (w 20 (3 + i)) = true) ∧ (scn 2).f.nslot = 2 ∧
    256 * 0 < 0 + 20 ∧ 0 + 20 ≤ 256 * 1 := by decide
/-- RayResumption: rays in CALLOUT, in WAITGRAN and QUEUED; a RAYID beyond the slots; a request at the Geode. -/
theorem witness_RayResumption : let s := sry 2 [(0, ray0 0x420000000000000000000000000000003f80000000000000000000000000000000000000ff800000000000000000000000000000000000000000000000021800 0 0), (1, ray0 0x420000000000000000000000000000003f80000000000000000000000000000000000000ff800000000000000000000000000000000000000000000000022000 1 0)]
    (s.readV gr 10 0).toNat < (scn 2).f.nslot ∧ (scn 2).f.nslot ≤ (s.readV gr 30 0).toNat ∧ s.ray? 0 0x200100 0 = some (0, ray0 0x420000000000000000000000000000003f80000000000000000000000000000000000000ff800000000000000000000000000000000000000000000000021800 0 0) ∧
    rayField (ray0 0x420000000000000000000000000000003f80000000000000000000000000000000000000ff800000000000000000000000000000000000000000000000021800 0 0) 11 3 = 3 ∧ rayField (ray0 0x420000000000000000000000000000003f80000000000000000000000000000000000000ff800000000000000000000000000000000000000000000000022000 1 0) 11 3 = 4 ∧ rayField (ray0 0x420000000000000000000000000000003f80000000000000000000000000000000000000ff800000000000000000000000000000000000000000000000020800 1 0) 11 3 = 1 ∧
    ¬ (scn 2).maxDepth (((scn 2).f.shnode[rayField (ray0 0x420000000000000000000000000000003f80000000000000000000000000000000000000ff800000000000000000000000000000000000000000000000021800 0 0) 4 4]?).getD 0) < 1 ∧ (scn 0).maxDepth (scn 0).f.fnode < 1 ∧
    (∀ e ∈ s.rays, rayField e.2 11 3 = 4 → (ray0 0x420000000000000000000000000000003f80000000000000000000000000000000000000ff800000000000000000000000000000000000000000000000022000 1 0).ord ≤ e.2.ord) ∧ s.ctx 0 = some { cx with poolsz := 1 } ∧ 0 + 16 ≤ 256 * 1 ∧ 256 * 0 < 0 + 16 := by decide
theorem witness_ContRequest : let q : ContReq := { cluster := 0, team := 0, group := 0, gio := 3, lane := 0, asid := 0, scene := 0x200100, ray := 0, depth := 1, isEnd := true }
    let s := { sry 2 [(0, ray0 0x420000000000000000000000000000003f80000000000000000000000000000000000000ff800000000000000000000000000000000000000000000000021800 0 0)] with contReqs := [(0, q)], groups := [(0, { gr with ops := [oh ldi] })] }
    s.contReqs.get? s.hand = some q ∧ ({ gr with ops := [oh ldi] } : Group).op? 3 = some (oh ldi) ∧ s.contWaits q = false ∧ (∀ e ∈ s.contReqs, ¬ e.1 < s.hand) ∧
    s.ray? 0 0x200100 0 = some (0, ray0 0x420000000000000000000000000000003f80000000000000000000000000000000000000ff800000000000000000000000000000000000000000000000021800 0 0) ∧ s.ray? 0 0x200100 1 = none ∧ ({ s with outOf := [(0, 1)] } : State).switchedOut 0 0 = true := by decide
/-- RayPasses: a hit accepted and one beyond TMAX; node 0 without children, with a treelet reference that is good, bad, hit and missed. -/
def gby (l : Nat) : GeoBytes := { bytes := toBytes 128 l, bad := [] }
theorem witness_RayPasses : let r := parseRay 0x420000000000000000000000000000003f80000000000000000000000000000000000000ff800000000000000000000000000000000000000000000000020800
    rLe r.tmin 0x3F800000 = true ∧ rLt 0x3F800000 r.tmax = true ∧ ¬ rLt 0x42000000 r.tmax = true ∧ 64 ≤ (gby 0xffffffffffffffff0000000000000000000000000000000000000000000000003f8000003f80000040000000bf800000bf8000003f800000).bytes.length ∧ (gby 0xffffffffffffffff0000000000000000000000000000000000000000000000003f8000003f80000040000000bf800000bf8000003f800000).num 56 8 = 0 ∧
    (r.any && r.hit) = false ∧ (gby 0xffffffffffffffff0000000000000000000000000000000000000000000000003f8000003f80000040000000bf800000bf8000003f800000).num 52 4 = 0xFFFFFFFF ∧ (gby 0xffffffffffffffff0000000000000000000000000000000000000000000000003f8000003f80000040000000bf800000bf8000003f800000).num 48 4 = 0xFFFFFFFF ∧ r.tree = 0 ∧ (parseRay 0x420000000000000000000000000000003f80000000000000000000000000000000000000ff800000000000000000000000000000000000000500000000020800).tree ≠ 0 ∧
    (gby 0xffffffffc00000030000000000000000000000000000000000000000000000003f8000003f80000040000000bf800000bf8000003f800000).num 48 4 = 3 * 2 ^ 30 + 3 ∧ 3 < (parseScene sceneRaw.toNat).ntree ∧ (parseScene sceneRaw.toNat).ntree ≤ 9 ∧ (gby 0xffffffffc00000090000000000000000000000000000000000000000000000003f8000003f80000040000000bf800000bf8000003f800000).num 48 4 = 3 * 2 ^ 30 + 9 ∧
    boxHit r (fun m => (gby 0xffffffffc00000030000000000000000000000000000000000000000000000003f8000003f80000040000000bf800000bf8000003f800000).w (4 * m)) = some (0x3F800000, 0x40000000) ∧ rLt r.lastt 0x3F800000 = true ∧ rLt 0x3F800000 r.tmax = true ∧
    (parseRay 0x420000000000000000000000000000003f80000000000000000000000000000000000000ff800000000000000000000000000000000000000500000000020800).tree ≠ 0 ∧ boxHit r (fun m => (gby 0xffffffffc00000030000000000000000000000000000000000000000000000004000000040000000400000003f8000003f8000003f800000).w (4 * m)) = none := by decide
/-- GeodePasses: passes that end malformed, in the next queue and in a callout of two samples. -/
def sgp (d : Nat) : State :=
  { sry 2 [(0, ray0 d 0 0)] with mem := [(0x50, 0x1), (0x59, 0x4), (0x5a, 0x20), (0x60, 0x2), (0x69, 0x8), (0x6a, 0x20), (0x402, 0x80), (0x403, 0x3f), (0x406, 0x80), (0x407, 0xbf), (0x40a, 0x80), (0x40b, 0xbf), (0x40f, 0x40), (0x412, 0x80), (0x413, 0x3f), (0x416, 0x80), (0x417, 0x3f), (0x430, 0xff), (0x431, 0xff), (0x432, 0xff), (0x433, 0xff), (0x434, 0xff), (0x435, 0xff), (0x436, 0xff), (0x437, 0xff), (0x802, 0x80), (0x803, 0x3f), (0x806, 0x80), (0x807, 0xbf), (0x80a, 0x80), (0x80b, 0xbf), (0x80f, 0x40), (0x812, 0x80), (0x813, 0x3f), (0x816, 0x80), (0x817, 0x3f), (0x830, 0x2), (0x833, 0x80), (0x834, 0xff), (0x835, 0xff), (0x836, 0xff), (0x837, 0xff), (0x882, 0x80), (0x883, 0x3f), (0x886, 0x80), (0x887, 0xbf), (0x88a, 0x80), (0x88b, 0xbf), (0x89a, 0x80), (0x89b, 0x40), (0x89e, 0x80), (0x89f, 0x40), (0x8a2, 0x80), (0x8a3, 0x40), (0x8c0, 0xff), (0x8c1, 0xff), (0x8c2, 0xff), (0x8c3, 0xff), (0x8c4, 0xff), (0x8c5, 0xff), (0x8c6, 0xff), (0x8c7, 0xff), (0x8c8, 0xff), (0x8c9, 0xff), (0x8ca, 0xff), (0x8cb, 0xff), (0x8cc, 0xff), (0x8cd, 0xff), (0x8ce, 0xff), (0x8cf, 0xff), (0x8d0, 0xff), (0x8d1, 0xff), (0x8d2, 0xff), (0x8d3, 0xff), (0x8d4, 0xff), (0x8d5, 0xff), (0x8d6, 0xff), (0x8d7, 0xff), (0x8d8, 0xff), (0x8d9, 0xff), (0x8da, 0xff), (0x8db, 0xff), (0x8dc, 0xff), (0x8dd, 0xff), (0x8de, 0xff), (0x8df, 0xff), (0x8e0, 0xff), (0x8e1, 0xff), (0x8e2, 0xff), (0x8e3, 0xff), (0x8e4, 0xff), (0x8e5, 0xff), (0x8e6, 0xff), (0x8e7, 0xff), (0x8e8, 0xff), (0x8e9, 0xff), (0x8ea, 0xff), (0x8eb, 0xff), (0x8ec, 0xff), (0x8ed, 0xff), (0x8ee, 0xff), (0x8ef, 0xff), (0x8f0, 0xff), (0x8f1, 0xff), (0x8f2, 0xff), (0x8f3, 0xff), (0x8f4, 0xff), (0x8f5, 0xff), (0x8f6, 0xff), (0x8f7, 0xff), (0x8f8, 0xff), (0x8f9, 0xff), (0x8fa, 0xff), (0x8fb, 0xff), (0x8fc, 0xff), (0x8fd, 0xff), (0x8fe, 0xff), (0x8ff, 0xff)], tlbDie := [(0, [leaf0])] }
def endOf (d : Nat) : State × RayEnd :=
  let r := ray0 d 0 0
  ({ sgp d with rays := [(0, r.with fun y => { y with st := 2 })] } : State).passOf (r.with fun y => { y with visits := 0, st := 2 }) (scn 2).f
def okEnd (a b : Bool) (d : Nat) : Bool := match (endOf d).2 with
  | .complete _ st => a && decide (st < 8)
  | .queue _ _ => b
  | _ => false
theorem witness_GeodePasses : (sgp 0x420000000000000000000000000000003f80000000000000000000000000000000000000ff800000000000000000000000000000000000000000000000020800).rays = [(0, ray0 0x420000000000000000000000000000003f80000000000000000000000000000000000000ff800000000000000000000000000000000000000000000000020800 0 0)] ∧ (ray0 0x420000000000000000000000000000003f80000000000000000000000000000000000000ff800000000000000000000000000000000000000000000000020800 0 0).cluster = (sgp 0x420000000000000000000000000000003f80000000000000000000000000000000000000ff800000000000000000000000000000000000000000000000020800).hand ∧ rayField (ray0 0x420000000000000000000000000000003f80000000000000000000000000000000000000ff800000000000000000000000000000000000000000000000020800 0 0) 11 3 = 1 ∧
    (sgp 0x420000000000000000000000000000003f80000000000000000000000000000000000000ff800000000000000000000000000000000000000000000000020800).switchedOut 0 0 = false ∧ (sgp 0x420000000000000000000000000000003f80000000000000000000000000000000000000ff800000000000000000000000000000000000000000000000020800).scene? 0 0x200100 = some (scn 2) ∧ okEnd true false 0x420000000000000000000000000000003f80000000000000000000000000000000000000ff800000000000000000000000000000000000000000000000020800 = true ∧ okEnd false true 0x420000000000000000000000000000003f80000000000000000000000000000000000000ff800000000000000000000000000000000000000500000000020800 = true := by decide
theorem witness_GeodePasses_Callout : (match endOf 0x420000000000000000000000000000003f80000000000000000000000000000000000000ff800000000000000000000000000000000000000600000000020800 with
    | (s2, .callout _ _ ts) =>
      let r := (ray0 0x420000000000000000000000000000003f80000000000000000000000000000000000000ff800000000000000000000000000000000000000600000000020800 0 0).with fun y => { y with visits := 0, st := 2 }
      match s2.batch r (scn 2).f ts with
      | (s3, .ok fs) => decide (ts = [0x3F800000, 0x3FC00000]) && (match (s3.writeFeats r (scn 2).f (enum 0 fs)).2 with
        | .ok _ => true
        | _ => false)
      | _ => false
    | _ => false) = true := by decide
/-- Its read waits where a reference cannot be taken: the team's horizon is full. -/
theorem witness_GeodePasses_wait : (let r := (ray0 0x420000000000000000000000000000003f80000000000000000000000000000000000000ff800000000000000000000000000000000000000000000000020800 0 0).with fun y => { y with visits := 0, st := 2 }
    let hz : List Horizon := (List.range 4).map fun i => { modu := 0, handle := BitVec.ofNat 16 (i + 1), scope := .dev, t := 1 }
    match ({
      sgp 0x420000000000000000000000000000003f80000000000000000000000000000000000000ff800000000000000000000000000000000000000000000000020800 with teams := [(0, { tm0 with horizon := hz })], homes := [(0, { wts := 1, rts := 2, ref := some { modu := 0, handle := 0x9000, scope := .dev, t := 5 } })], bundles := [(0, { bo with gen := 9, st := .committed })] } : State).passOf r (scn 2).f with
    | (_, .wait) => true
    | _ => false) = true := by decide
/-- GeoPuts: the slot of ray 0 and its scene's allocator, in the context's leaf; no queue waits for the die's room. -/
theorem witness_GeoPuts : let r := ray0 0 0 0
    GeoPuts (sgp 0) r (gprivVa r) 8 ∧ GeoPuts (sgp 0) r (slotVa (scn 2) r) 64 ∧ r.areaWait = false ∧ r.ending = false ∧ r.gpriv = false ∧
    (∀ e ∈ (sgp 0).scenes, (sgp 0).hand ∉ e.2.away) ∧ (sgp 0).sceneInUse 0 0x200100 = true :=
  ⟨⟨by decide, by decide, by decide, by decide⟩, ⟨by decide, by decide, by decide, by decide⟩, rfl, rfl, rfl, by decide, by decide⟩
theorem witness_RayReads : (2#2) ≠ 3 ∧ (8#8) ≠ 255 ∧ (sry 2 []).scene? 0 0x200200 = none ∧ (0x200201#64).toNat % 256 ≠ 0 := by decide

/-! ### The step -/

def wEXIT : Word := 0x0607000000000000
def stp (hdr w : Word) : State := { sg (grp { x0 with run := some { hdr := hdr, words := [w], idx := 0, clause := 0 } } []) with cur := .none, turns := [.group 0 0, .elapse 5] }
/-- StepRuns: a group's word, a pair word of two fillers, the start of a clause. -/
theorem witness_StepRuns_group : let s := stp 0x4000000000000000 wEXIT
    s.turns = .group 0 0 :: [.elapse 5] ∧ ((s.group? 0).bind fun g => g.split? 0).isSome = true ∧ ((s.group? 0).map (·.atLimit)) = some false ∧
    hdrClass 0x4000000000000000 ≠ 1 ∧ isStreamWord wEXIT = false ∧ (decodeTableWord 64 wEXIT.toNat).isSome = true ∧
    hdrClass 0x1000000000000000 = 1 ∧ decodeHalf ((0x3C00000E3C00000E#64).extractLsb' 0 32) = .ok .filler ∧ decodeHalf ((0x3C00000E3C00000E#64).extractLsb' 32 32) = .ok .filler ∧
    xi.run = none ∧ (grp xi []).atLimit = false := by decide
theorem witness_StepRuns_group_goes : (match exec .filler { stp 0x1000000000000000 0x3C00000E3C00000E with turns := [], cur := .grp 0 0, pairV := some [] } with
    | .next t => (t.group? 0).isSome
    | _ => false) = true := by decide
/-- A stream word: MZERO of tile 0 in an extent; a service core's word: ADDI x1, x0, 1 at 0. -/
def tst : Team := { tm0 with kern := { hdr := { seq := true, acct := 1, scratch := 4096 }, roles := [], safe := [] }, extents := [ext0] }
def wMZERO : Word := 0xc307000000000000
theorem witness_StepRuns_stream : let s := { sq q0 tst with cur := .none, links := up, turns := [.seq 0] }
    s.seq? 0 = some q0 ∧ s.team? 0 = some tst ∧ q0.exited = false ∧ q0.waiting = none ∧ q0.held = none ∧ q0.cmds = [] ∧ q0.fetchFault = none ∧
    s.switchedOut 0 0 = false ∧ q0.pc.toNat + 8 ≤ 0x000FFFFFFFE00000 ∧ extentHit [ext0] q0.pc.toNat 8 .fetch = some { key := 0, spec := false } ∧
    s.poisoned 0 8 = false ∧ ((s.homes.get? 0).bind fun h => h.ref) = none ∧ (s.current 0).length = 128 ∧ s.frecs = [] ∧
    isStreamWord wMZERO = true ∧ ((decodeTableWord 64 wMZERO.toNat).map fun i => badAcc i 1) = some false := by decide
theorem witness_StepRuns_hart : let s := { hst hx with cur := .none, turns := [.hart 0], mem := [(0, 0x93), (2, 0x10)] }
    (s.hart 0).running = true ∧ (s.hart 0).wait = .no ∧ (s.hart 0).irq = none ∧ s.bareKey 0 = some 0 ∧ s.bareKey 2 = some 2 ∧ hx.paged .fetch = false ∧
    s.poisoned 0 4 = false ∧ (s.current 0).length = 128 ∧ BitVec.ofNat 32 (lineNum (s.current 0) 0 4) = 0x00100093 ∧
    (decodeTableWord 32 0x00100093).isSome = true := by decide
/-- StepsKeepMemoryCanonical, StepsSettle: a state with the invariant, and a step of it. -/
theorem witness_Inv : Inv State.reset ∧ Inv (hst hx) := ⟨by unfold Claim.Inv; decide, by unfold Claim.Inv; decide⟩
theorem witness_step : (match step State.reset with
    | .next t => t.cycle == 1
    | _ => false) = true := by decide
/-- EncodeOfDecode, DecodeOfEncode: words of each size; ReservedGuard, HeaderChecks: a word and a header. -/
theorem witness_round_trip : wEXIT.toNat < 2 ^ 64 ∧ (decodeTableWord 64 wEXIT.toNat).isSome = true ∧ (decodeTableWord 32 0x00100093).isSome = true ∧
    (encode (.atomAdd { g := u, b64 := false, ord := .rlx, scope := .dev, d := 1, base := some 4, idx := 255, scale := 0, c := 2 })).isSome = true ∧
    (0x3F0F000000000000#64).extractLsb' 48 4 = 15 := by decide
theorem witness_WellFormed : Instr.WellFormed (.atomAdd { g := u, b64 := false, ord := .rlx, scope := .dev, d := 1, base := some 4, idx := 255, scale := 0, c := 2 }) :=
  ⟨by decide, by decide, fun _ h => nomatch h⟩
/-- A step runs an EXIT: the group's lanes are gone. -/
theorem test_step_exit : (match step (stp 0x4000000000000000 wEXIT) with
    | .next t => (t.group? 0).map fun g => (g.live, t.turns)
    | _ => none) = some (0, [.elapse 5]) := by decide
/-- A step runs a service core's ADDI, and its pc passes on. -/
theorem test_step_addi : (match step { hst hx with cur := .none, turns := [.hart 0], mem := [(0, 0x93), (2, 0x10)] } with
    | .next t => some ((t.hart 0).reg 1, (t.hart 0).pc)
    | _ => none) = some (1, 4) := by decide

/-! ### Effects, by hand from the rules -/

/-- v1 in lane 0 after one instruction of a split of 32 lanes: v2, v3 and v4 hold a, b and c in every lane that matters, lane 0. -/
def lane0 (i : Instr) (a b c : LaneWord) : LaneWord :=
  match exec i (sg { g0 with v := [(64 * 2, a), (64 * 3, b), (64 * 4, c)] }) with
  | .next t => (((t.group? 0).map fun g => g.v.getD 64 0)).getD 0
  | _ => 0
def i2 (sat uns : Bool) : IntBin := { g := u, b64 := false, sat := sat, uns := uns, d := 1, a := .v 2, b := .v 3 }
def i3 : IntTer := { g := u, b64 := false, sat := false, uns := false, d := 1, a := .v 2, b := .v 3, c := .v 4 }
/-- 08 R184: sums wrap, or saturate signed at 2^31 − 1. -/
theorem test_iadd : lane0 (.iadd (i2 false false)) 0xFFFFFFFF 2 0 = 1 ∧ lane0 (.iadd (i2 true false)) 0x7FFFFFFF 1 0 = 0x7FFFFFFF := by decide
/-- 08 R184: signed and unsigned minima differ in the sign bit's weight. -/
theorem test_imin : lane0 (.imin (i2 false false)) 0x80000000 1 0 = 0x80000000 ∧ lane0 (.imin (i2 false true)) 0x80000000 1 0 = 1 := by decide
/-- 08 R184: −3 × 5 + 1 = −14. -/
theorem test_imad : lane0 (.imad i3) 0xFFFFFFFD 5 1 = 0xFFFFFFF2 := by decide
/-- 08 R185: a shift by the width or more leaves zeros. -/
theorem test_shl : lane0 (.shl (i2 false false)) 0xFFFFFFFF 31 0 = 0x80000000 ∧ lane0 (.shl (i2 false false)) 0xFFFFFFFF 32 0 = 0 := by decide
/-- 08 R186: the table 0x96 is the exclusive or of three. -/
theorem test_lop3 : lane0 (.lop3 { g := u, b64 := false, d := 1, a := .v 2, b := .v 3, c := .v 4, lut := 0x96 }) 0xF0F0 0xFF00 0xAAAA = 0xA55A := by decide
theorem test_popc : lane0 (.popc { g := u, b64 := false, d := 1, a := .v 2 }) 0xF0F1 0 0 = 9 := by decide
def f2 (r : Rnd) : FBin := { g := u, rnd := r, na := false, nb := false, d := 1, a := .v 2, b := .v 3 }
/-- 09 R193: 1 + 2 = 3; 1 + 2^-25 is 1 to nearest and the next number upward. -/
theorem test_fadd : lane0 (.fadd (f2 .dflt)) 0x3F800000 0x40000000 0 = 0x40400000 ∧ lane0 (.fadd (f2 .dflt)) 0x3F800000 0x33000000 0 = 0x3F800000 ∧
    lane0 (.fadd (f2 .ru)) 0x3F800000 0x33000000 0 = 0x3F800001 := by decide
/-- 09 R193: a fused product: (1 + 2^-12)² − 1 = 2^-11 + 2^-24. -/
theorem test_ffma : lane0 (.ffma { g := u, rnd := .dflt, na := false, nb := false, nc := false, d := 1, a := .v 2, b := .v 3, c := .v 4 }) 0x3F800800 0x3F800800 0xBF800000
    = 0x3A000400 := by decide
/-- 01 R17: 65,520 is the first number that FP16 rounds to infinity, and 448 the largest of E4M3. -/
theorem test_formats : (fp16.round .rne ⟨false, 65520, 0⟩).1 = 0x7C00 ∧ (fp16.round .rne ⟨false, 65519, 0⟩).1 = 0x7BFF ∧ e4m3.decode 0x7E = .fin ⟨false, 14, 5⟩ := by decide
/-- 01 R32: a chunk of one product 2 × 3 under scales 2^1 and 2^-1, and one of an infinity and a zero. -/
theorem test_chunk : chunkT [(.fin ⟨false, 2, 0⟩, .fin ⟨false, 3, 0⟩)] 0x80 0x7E = 0x40C00000 ∧ chunkT [(.inf false, .fin ⟨false, 0, 0⟩)] 0x7F 0x7F = 0x7FC00000 := by decide
/-- 12 R268: a branch with an offset of 0x40 from its own clause's header. -/
theorem test_bra : (match exec (.bra { g := u, off := 0x40 }) s0 with
    | .next t => (t.group? 0).map fun g => g.splits.map (·.pc)
    | _ => none) = some [0x10040] := by decide
/-- 12 R271: the lanes of an EXIT’s guard exit, and the clause is over. -/
theorem test_exit : (match exec (.exit { g := p1 }) s1 with
    | .next t => (t.group? 0).map fun g => (g.live, t.cur)
    | _ => none) = some (0xFFFFFFF0, .none) := by decide

end Sys2Proof.Test
end

section
/-! The values of the E2M1 codes (01 R15, R17). -/

namespace Sys2Proof.Machine

open Sys2Proof.Claim

/-- What `Decode` makes of an E2M1 code: the exponent field 0 gives halves, every other gives 2 + M halves scaled by the field; no code is an
infinity or a NaN. -/
def e2m1Exact (c : Nat) : Dyadic :=
  { neg := c / 8 % 2 == 1
    m := if c / 2 % 4 = 0 then c % 2 else 2 + c % 2
    e := if c / 2 % 4 = 0 then -1 else (c / 2 % 4 : Nat) - 2 }

theorem e2m1_decode (c : Nat) : e2m1.decode c = .fin (e2m1Exact c) := by
  have hne : e2m1 ≠ e4m3 := by decide
  have hsign : e2m1.signBit = 8 := rfl
  have hexp : e2m1.e = 2 := rfl
  have hman : e2m1.m = 1 := rfl
  have hbias : e2m1.bias = 1 := rfl
  by_cases h : c / 2 % 4 = 0
  · simp [Fmt.decode, e2m1Exact, hne, hsign, hexp, hman, hbias, h]
  · have he : (c : Int) / 2 % 4 - 1 - 1 = c / 2 % 4 - 2 := by ring
    simp [Fmt.decode, e2m1Exact, hne, hsign, hexp, hman, hbias, h, he]

theorem e2m1Exact_neg {c : Nat} (hc : c < 16) : (e2m1Exact c).neg = decide (8 ≤ c) := by
  have h : c / 8 % 2 = 1 ↔ 8 ≤ c := by omega
  simp [e2m1Exact, beq_eq_decide, h]

/-- The magnitude is of the low three bits alone, so codes 0x8 to 0xF repeat those of 0x0 to 0x7. -/
theorem e2m1Exact_magnitude_mod (c : Nat) :
    { e2m1Exact (c % 8) with neg := false } = { e2m1Exact c with neg := false } := by
  have hexp : c % 8 / 2 % 4 = c / 2 % 4 := by omega
  have hman : c % 8 % 2 = c % 2 := by omega
  simp [e2m1Exact, hexp, hman]

/-- The table of R17. -/
theorem value_e2m1Exact_magnitude (c : Nat) :
    value { e2m1Exact c with neg := false } = ([0, 1 / 2, 1, 3 / 2, 2, 3, 4, 6] : List ℚ)[c % 8]! := by
  rw [← e2m1Exact_magnitude_mod]
  have hlt : c % 8 < 8 := Nat.mod_lt c (by decide)
  generalize c % 8 = n at hlt
  interval_cases n <;> norm_num [value, e2m1Exact]

/-- Settles O8: every code decodes to `e2m1Exact`, whose sign and magnitude are those of the table. -/
theorem fourBitFloats : Obligations.FourBitFloats := fun c hc =>
  ⟨e2m1Exact c, e2m1_decode c, e2m1Exact_neg hc, value_e2m1Exact_magnitude c⟩

end Sys2Proof.Machine
end

section
/-! The checks of a clause header (02 R37). -/

namespace Sys2Proof.Machine

/-- The model's field of a word is the manual's bits `lo + len - 1` to `lo`. -/
theorem fld_toNat_eq_extractLsb' {n : Nat} (w : BitVec n) (lo len : Nat) :
    fld w.toNat lo len = (w.extractLsb' lo len).toNat := by
  simp [fld, Nat.shiftRight_eq_div_pow]

theorem fld_toNat_ne_zero {n : Nat} (w : BitVec n) (lo len : Nat) :
    fld w.toNat lo len ≠ 0 ↔ w.extractLsb' lo len ≠ 0 := by
  rw [fld_toNat_eq_extractLsb', ← BitVec.toNat_inj.ne]
  simp

/-- The list of R37, on the fields of the layout of R35. -/
theorem headerBad_iff (h : Word) (nsp : Nat) :
    headerBad h nsp = true ↔
      4 < hdrClass h ∨ fld h.toNat 32 2 ≠ 0 ∨ fld h.toNat 0 20 ≠ 0 ∨
      (hdrSetaV h = false ∧ hdrSeta h ≠ 0) ∨ (hdrSetbV h = false ∧ hdrSetb h ≠ 0) ∨
      (hdrSetaV h = true ∧ 11 < hdrSeta h) ∨ (hdrSetbV h = true ∧ 11 < hdrSetb h) ∨
      (hdrSetaV h = true ∧ hdrSetbV h = true ∧ hdrSeta h = hdrSetb h) ∨
      (hdrSetbV h = true ∧ hdrSetaV h = false) ∨
      (hdrSafe h = false ∧ hdrSpid h ≠ 0) ∨ (hdrSafe h = true ∧ nsp ≤ hdrSpid h) := by
  simp [headerBad, or_assoc, and_assoc]

theorem clauseVerdict_of_headerBad {hdr : Word} {kern : Header}
    (hbad : headerBad hdr kern.nsp = true) (ws : List Word) :
    clauseVerdict hdr ws kern = .illegalClause := by
  simp [clauseVerdict, hbad]

/-- Every check after the header's own is of some word of the clause. -/
theorem clauseVerdict_nil {hdr : Word} {kern : Header}
    (hgood : headerBad hdr kern.nsp = false) : clauseVerdict hdr [] kern = .ok := by
  by_cases hpair : hdrClass hdr = 1 <;> simp [clauseVerdict, hgood, hpair, enum]

theorem headerBad_of_clauseVerdict_nil {hdr : Word} {kern : Header}
    (hv : clauseVerdict hdr [] kern = .illegalClause) : headerBad hdr kern.nsp = true := by
  by_contra hgood
  rw [clauseVerdict_nil (Bool.eq_false_of_not_eq_true hgood)] at hv
  cases hv

/-- Settles O60: the header's own checks are R37's cases (`headerBad_iff`); they come before the words' checks, and without words they are all. -/
theorem headerChecks : Obligations.HeaderChecks := by
  unfold Obligations.HeaderChecks
  intro hdr kern seta setb spid a b safe bad
  have hcases : headerBad hdr kern.nsp = true ↔ bad := by
    rw [headerBad_iff, fld_toNat_ne_zero, fld_toNat_ne_zero]
    simp only [hdrClass, hdrSeta, hdrSetb, hdrSpid, fld_toNat_eq_extractLsb']
    rfl
  exact ⟨fun hbad => clauseVerdict_of_headerBad (hcases.mpr hbad),
    fun hv => hcases.mp (headerBad_of_clauseVerdict_nil hv)⟩

end Sys2Proof.Machine
end

section
/-! The operation widths: a form at 32 or 64 bits is one operation at width `wd b64`, between a narrowing and a widening (08 R182). -/

namespace Sys2Proof.Machine

open Sys2Proof.Claim

theorem sixteen_le_wd (b64 : Bool) : 16 ≤ wd b64 := by cases b64 <;> decide
theorem wd_le (b64 : Bool) : wd b64 ≤ 64 := by cases b64 <;> decide

theorem at1_eq_setWidth (f : (w : Nat) → BitVec w → BitVec w) (b64 : Bool) (a : BitVec 64) :
    at1 f b64 a = (f (wd b64) (a.setWidth (wd b64))).setWidth 64 := by
  cases b64 with
  | false => rfl
  | true => simp [at1, wd]
theorem at2_eq_setWidth (f : (w : Nat) → BitVec w → BitVec w → BitVec w) (b64 : Bool) (a b : BitVec 64) :
    at2 f b64 a b = (f (wd b64) (a.setWidth (wd b64)) (b.setWidth (wd b64))).setWidth 64 := by
  cases b64 with
  | false => rfl
  | true => simp [at2, wd]
theorem at3_eq_setWidth (f : (w : Nat) → BitVec w → BitVec w → BitVec w → BitVec w) (b64 : Bool) (a b c : BitVec 64) :
    at3 f b64 a b c = (f (wd b64) (a.setWidth (wd b64)) (b.setWidth (wd b64)) (c.setWidth (wd b64))).setWidth 64 := by
  cases b64 with
  | false => rfl
  | true => simp [at3, wd]
theorem atCmp_eq_setWidth (f : (w : Nat) → BitVec w → BitVec w → Bool) (b64 : Bool) (a b : BitVec 64) :
    atCmp f b64 a b = f (wd b64) (a.setWidth (wd b64)) (b.setWidth (wd b64)) := by
  cases b64 with
  | false => rfl
  | true => simp [atCmp, wd]

/-- The claims read a source as the machine does. -/
theorem intVal_setWidth (uns : Bool) (w : Nat) (a : BitVec 64) : intVal uns (a.setWidth w) = rd uns w a := by
  cases uns <;> simp [intVal, rd, BitVec.toInt_setWidth]
theorem toNat_setWidth_eq_rd (w : Nat) (a : BitVec 64) : ((a.setWidth w).toNat : Int) = rd true w a := by simp [rd]
theorem toInt_setWidth_eq_rd (w : Nat) (a : BitVec 64) : (a.setWidth w).toInt = rd false w a := by
  simp [rd, BitVec.toInt_setWidth]

theorem setWidth_ofInt_eq_wr {w : Nat} (hw : w ≤ 64) (x : Int) : (BitVec.ofInt w x).setWidth 64 = wr w x := by
  have hpow : (2 : Int) ^ w ≤ 2 ^ 64 := pow_le_pow_right₀ (by decide) hw
  have hpos : (0 : Int) < 2 ^ w := by positivity
  have hlow := Int.emod_nonneg x hpos.ne'
  have hhigh := Int.emod_lt_of_pos x hpos
  apply BitVec.eq_of_toNat_eq
  rw [wr, BitVec.toNat_setWidth, BitVec.toNat_ofInt, BitVec.toNat_ofInt]
  push_cast
  generalize x % 2 ^ w = y at hlow hhigh
  omega

/-- A shift count and a field's position are read from the low byte, which every width holds (08 R185). -/
theorem toNat_setWidth_mod_256 {w : Nat} (hw : 16 ≤ w) (b : BitVec 64) : (b.setWidth w).toNat % 256 = b.toNat % 256 := by
  rw [BitVec.toNat_setWidth]
  exact Nat.mod_mod_of_dvd _ (pow_dvd_pow 2 (show 8 ≤ w by omega))
/-- A field's length is read from the second byte (08 R185). -/
theorem toNat_setWidth_div_256_mod_256 {w : Nat} (hw : 16 ≤ w) (b : BitVec 64) :
    (b.setWidth w).toNat / 256 % 256 = b.toNat / 256 % 256 := by
  have hmod : (b.setWidth w).toNat % 65536 = b.toNat % 65536 := by
    rw [BitVec.toNat_setWidth]
    exact Nat.mod_mod_of_dvd _ (pow_dvd_pow 2 hw)
  omega

end Sys2Proof.Machine
end

section
/-! Words given bit by bit: LOP3, BREV and the counts (08 R185, R186). -/

namespace Sys2Proof.Machine

open Sys2Proof.Claim

/-- The number that `ofBits` builds. -/
def bitSum (f : Nat → Bool) (n : Nat) : Nat := (List.range n).foldl (fun x i => if f i then x + 2 ^ i else x) 0

theorem ofBits_eq_ofNat_bitSum (w : Nat) (f : Nat → Bool) : ofBits w f = BitVec.ofNat w (bitSum f w) := rfl

theorem bitSum_succ (f : Nat → Bool) (n : Nat) : bitSum f (n + 1) = bitSum f n + if f n then 2 ^ n else 0 := by
  rw [bitSum, List.range_succ, List.foldl_append]
  cases hf : f n <;> simp [bitSum, hf]
theorem bitSum_lt (f : Nat → Bool) (n : Nat) : bitSum f n < 2 ^ n := by
  induction n with
  | zero => simp [bitSum]
  | succ n ih => rw [bitSum_succ, pow_succ]; split <;> omega
theorem testBit_bitSum (f : Nat → Bool) (n i : Nat) : (bitSum f n).testBit i = (decide (i < n) && f i) := by
  induction n with
  | zero => simp [bitSum]
  | succ n ih =>
    rw [bitSum_succ]
    by_cases hf : f n = true
    · have hor : bitSum f n + 2 ^ n = 2 ^ n ||| bitSum f n := by
        rw [Nat.add_comm]
        simpa using Nat.two_pow_add_eq_or_of_lt (bitSum_lt f n) 1
      rw [if_pos hf, hor, Nat.testBit_or, Nat.testBit_two_pow, ih]
      rcases lt_trichotomy i n with hi | rfl | hi
      · simp [hi, hi.ne', Nat.lt_succ_of_lt hi]
      · simp [hf]
      · have hnot : ¬ i < n + 1 := by omega
        simp [hi.ne, hi.not_gt, hnot]
    · rw [if_neg hf, Nat.add_zero, ih]
      by_cases hi : i = n
      · subst hi; simp [hf]
      · have hlt : i < n + 1 ↔ i < n := by omega
        simp [hlt]

theorem getLsbD_ofBits (w : Nat) (f : Nat → Bool) (i : Nat) : (ofBits w f).getLsbD i = (decide (i < w) && f i) := by
  rw [ofBits_eq_ofNat_bitSum, BitVec.getLsbD_ofNat, testBit_bitSum, ← Bool.and_assoc, Bool.and_self]

theorem setWidth_ofBits_eq_bitsRes (w : Nat) (f : Nat → Bool) : (ofBits w f).setWidth 64 = bitsRes w f := by
  rw [bitsRes]
  congr 1
  refine BitVec.eq_of_getLsbD_eq fun i hi => ?_
  rw [getLsbD_ofBits, BitVec.getLsbD_ofFnLE]
  simp [hi]

theorem ofBits_congr {w : Nat} {f f' : Nat → Bool} (h : ∀ i < w, f i = f' i) : ofBits w f = ofBits w f' := by
  refine BitVec.eq_of_getLsbD_eq fun i hi => ?_
  rw [getLsbD_ofBits, getLsbD_ofBits, h i hi]

theorem bitRev_eq_reverse (w : Nat) (a : BitVec w) : bitRev w a = a.reverse := by
  refine BitVec.eq_of_getLsbD_eq fun i hi => ?_
  rw [bitRev, getLsbD_ofBits, BitVec.getLsbD_reverse, BitVec.getMsbD]

theorem cpopNatRec_eq_length_filter {w : Nat} (a : BitVec w) (n acc : Nat) :
    a.cpopNatRec n acc = acc + ((List.range n).filter fun i => a.getLsbD i).length := by
  induction n generalizing acc with
  | zero => simp
  | succ n ih =>
    rw [BitVec.cpopNatRec_succ, ih, List.range_succ, List.filter_append, List.length_append]
    cases hbit : a.getLsbD n with
    | true => simp [hbit]; omega
    | false => simp [hbit]
theorem popCount_eq_cpop (w : Nat) (a : BitVec w) : popCount w a = a.cpop := by
  rw [BitVec.cpop, cpopNatRec_eq_length_filter, Nat.zero_add, popCount]

theorem takeWhile_range_succ (p : Nat → Bool) (n : Nat) :
    (List.range (n + 1)).takeWhile p = if p 0 then 0 :: ((List.range n).takeWhile fun i => p (i + 1)).map Nat.succ else [] := by
  rw [List.range_succ_eq_map, List.takeWhile_cons, List.takeWhile_map]
  rfl
/-- The library looks for the highest 1 from bit n downwards, as the machine does. -/
theorem clzAuxRec_eq_length_takeWhile {w : Nat} (a : BitVec w) (n : Nat) (hn : n < w) :
    a.clzAuxRec n = BitVec.ofNat w (w - 1 - n + ((List.range (n + 1)).takeWhile fun i => !a.getLsbD (n - i)).length) := by
  induction n with
  | zero =>
    have hw : w - 1 + 1 = w := by omega
    cases hbit : a.getLsbD 0 <;> simp [BitVec.clzAuxRec_zero, hbit, hw]
  | succ n ih =>
    rw [BitVec.clzAuxRec_succ, ih (by omega), takeWhile_range_succ _ (n + 1)]
    cases hbit : a.getLsbD (n + 1) with
    | true => simp
    | false =>
      have hw : w - 1 - n = w - 1 - (n + 1) + 1 := by omega
      simp only [hw, Nat.add_sub_add_right, Bool.not_false, if_true, List.length_cons, List.length_map, Bool.false_eq_true, if_false]
      congr 1
      omega
theorem leadZeros_eq_clz {w : Nat} (hw : 0 < w) (a : BitVec w) : leadZeros w a = a.clz := by
  have hsucc : w - 1 + 1 = w := by omega
  rw [BitVec.clz, clzAuxRec_eq_length_takeWhile a (w - 1) (by omega), hsucc, Nat.sub_self, Nat.zero_add, leadZeros]

theorem at1_popCount (b64 : Bool) (a : BitVec 64) : at1 popCount b64 a = (a.setWidth (wd b64)).cpop.setWidth 64 := by
  rw [at1_eq_setWidth, popCount_eq_cpop]
theorem at1_leadZeros (b64 : Bool) (a : BitVec 64) : at1 leadZeros b64 a = (a.setWidth (wd b64)).clz.setWidth 64 := by
  rw [at1_eq_setWidth, leadZeros_eq_clz ((Nat.zero_lt_succ 15).trans_le (sixteen_le_wd b64))]
theorem at1_bitRev (b64 : Bool) (a : BitVec 64) : at1 bitRev b64 a = (a.setWidth (wd b64)).reverse.setWidth 64 := by
  rw [at1_eq_setWidth, bitRev_eq_reverse]

/-- The machine's table index reads the bits of the narrowed sources, the claim's those of the containers: below the width they agree. -/
theorem at3_lop3 (lut : BitVec 8) (b64 : Bool) (a b c : BitVec 64) :
    at3 (lop3 lut) b64 a b c = bitsRes (wd b64) fun i =>
      lut.getLsbD (4 * (a.toNat.testBit i).toNat + 2 * (b.toNat.testBit i).toNat + (c.toNat.testBit i).toNat) := by
  have hbit : ∀ (y : BitVec 64) (i : Nat), i < wd b64 → b2n ((y.setWidth (wd b64)).getLsbD i) = (y.toNat.testBit i).toNat := by
    intro y i hi
    rw [BitVec.getLsbD_setWidth, decide_eq_true hi, Bool.true_and, BitVec.getLsbD]
    cases y.toNat.testBit i <;> rfl
  rw [at3_eq_setWidth, lop3, ← setWidth_ofBits_eq_bitsRes]
  congr 1
  refine ofBits_congr fun i hi => ?_
  rw [hbit a i hi, hbit b i hi, hbit c i hi]

end Sys2Proof.Machine
end

section
/-! Shifts and bit fields at one width (08 R185). -/

namespace Sys2Proof.Machine

open Sys2Proof.Claim

theorem shift_shl_eq_ofInt (w : Nat) (a b : BitVec w) :
    shift .shl w a b = BitVec.ofInt w (if b.toNat % 256 ≥ w then 0 else a.toNat * 2 ^ (b.toNat % 256)) := by
  simp only [shift]
  split
  · rfl
  · apply BitVec.eq_of_toNat_eq
    rw [BitVec.toNat_shiftLeft, Nat.shiftLeft_eq]
    exact_mod_cast (BitVec.toNat_ofNat _ _).symm
theorem ushiftRight_eq_ofInt {w : Nat} (a : BitVec w) (n : Nat) : a >>> n = BitVec.ofInt w (a.toNat / 2 ^ n) := by
  apply BitVec.eq_of_toNat_eq
  rw [BitVec.toNat_ushiftRight, Nat.shiftRight_eq_div_pow, ← Nat.mod_eq_of_lt ((Nat.div_le_self _ _).trans_lt a.isLt)]
  exact_mod_cast (BitVec.toNat_ofNat _ _).symm
theorem sshiftRight_eq_ofInt {w : Nat} (a : BitVec w) (n : Nat) : a.sshiftRight n = BitVec.ofInt w (a.toInt / 2 ^ n) := by
  rw [BitVec.sshiftRight, Int.shiftRight_eq_div_pow]
  rfl
theorem shift_shr_eq_ofInt (w : Nat) (a b : BitVec w) :
    shift .shr w a b = BitVec.ofInt w (if b.toNat % 256 ≥ w then 0 else a.toNat / 2 ^ (b.toNat % 256)) := by
  simp only [shift]
  split
  · rfl
  · exact ushiftRight_eq_ofInt a _
theorem shift_sar_eq_ofInt (w : Nat) (a b : BitVec w) :
    shift .sar w a b = BitVec.ofInt w
      (if b.toNat % 256 ≥ w then (if a.toInt < 0 then -1 else 0) else a.toInt / 2 ^ (b.toNat % 256)) := by
  simp only [shift, BitVec.msb_eq_toInt, decide_eq_true_eq]
  split
  · split
    · exact BitVec.neg_one_eq_allOnes.symm.trans BitVec.neg_ofNat_eq_ofInt_neg
    · rfl
  · exact sshiftRight_eq_ofInt a _

theorem at2_shl (b64 : Bool) (a b : BitVec 64) :
    at2 (shift .shl) b64 a b =
      wr (wd b64) (if b.toNat % 256 ≥ wd b64 then 0 else rd true (wd b64) a * 2 ^ (b.toNat % 256)) := by
  rw [at2_eq_setWidth, shift_shl_eq_ofInt, setWidth_ofInt_eq_wr (wd_le b64), toNat_setWidth_mod_256 (sixteen_le_wd b64),
    toNat_setWidth_eq_rd]
theorem at2_shr (b64 : Bool) (a b : BitVec 64) :
    at2 (shift .shr) b64 a b =
      wr (wd b64) (if b.toNat % 256 ≥ wd b64 then 0 else rd true (wd b64) a / 2 ^ (b.toNat % 256)) := by
  rw [at2_eq_setWidth, shift_shr_eq_ofInt, setWidth_ofInt_eq_wr (wd_le b64), toNat_setWidth_mod_256 (sixteen_le_wd b64),
    toNat_setWidth_eq_rd]
theorem at2_sar (b64 : Bool) (a b : BitVec 64) :
    at2 (shift .sar) b64 a b =
      wr (wd b64) (if b.toNat % 256 ≥ wd b64 then (if rd false (wd b64) a < 0 then -1 else 0)
        else rd false (wd b64) a / 2 ^ (b.toNat % 256)) := by
  rw [at2_eq_setWidth, shift_sar_eq_ofInt, setWidth_ofInt_eq_wr (wd_le b64), toNat_setWidth_mod_256 (sixteen_le_wd b64),
    toInt_setWidth_eq_rd]

theorem toNat_funnelled (a c : BitVec 32) : (a ++ c).toNat = a.toNat * 2 ^ 32 + c.toNat := by
  rw [BitVec.toNat_append, ← Nat.shiftLeft_add_eq_or_of_lt c.isLt, Nat.shiftLeft_eq]
theorem setWidth_funnel_left (a b c : BitVec 32) :
    (funnel true a b c).setWidth 64 =
      BitVec.ofNat 64 ((a.toNat * 2 ^ 32 + c.toNat) * 2 ^ (b.toNat % 32) % 2 ^ 64 / 2 ^ 32) := by
  rw [← BitVec.ofNat_toNat]
  congr 1
  simp only [funnel, if_true, BitVec.extractLsb'_toNat, BitVec.toNat_shiftLeft, toNat_funnelled, Nat.shiftLeft_eq, Nat.shiftRight_eq_div_pow]
  omega
theorem setWidth_funnel_right (a b c : BitVec 32) :
    (funnel false a b c).setWidth 64 =
      BitVec.ofNat 64 ((a.toNat * 2 ^ 32 + c.toNat) / 2 ^ (b.toNat % 32) % 2 ^ 32) := by
  rw [← BitVec.ofNat_toNat]
  congr 1
  simp only [funnel, Bool.false_eq_true, if_false, BitVec.toNat_setWidth, BitVec.toNat_ushiftRight, toNat_funnelled, Nat.shiftRight_eq_div_pow]

/-- A field taken out and widened again, without and with its sign. -/
theorem setWidth_setWidth_eq_ofInt {w len : Nat} (y : BitVec w) :
    (y.setWidth len).setWidth w = BitVec.ofInt w (y.toNat % 2 ^ len) := by
  rw [← BitVec.ofNat_toNat, BitVec.toNat_setWidth, ← BitVec.ofInt_natCast]
  norm_cast
theorem signExtend_setWidth_eq_ofInt {w len : Nat} (hlen : len ≤ w) (y : BitVec w) :
    (y.setWidth len).signExtend w = BitVec.ofInt w (Int.bmod y.toInt (2 ^ len)) := by
  have hdvd : (2 ^ len : Nat) ∣ 2 ^ w := pow_dvd_pow 2 hlen
  rw [BitVec.signExtend, BitVec.toInt_setWidth, BitVec.toInt_eq_toNat_bmod, Int.bmod_bmod_of_dvd hdvd]
theorem bitExtract_eq_ofInt (uns : Bool) (w : Nat) (a b : BitVec w) :
    bitExtract uns w a b =
      if min (b.toNat / 256 % 256) w = 0 then 0#w
      else BitVec.ofInt w
        (if uns then intVal uns a / 2 ^ min (b.toNat % 256) w % 2 ^ min (b.toNat / 256 % 256) w
         else Int.bmod (intVal uns a / 2 ^ min (b.toNat % 256) w) (2 ^ min (b.toNat / 256 % 256) w)) := by
  simp only [bitExtract]
  split
  · rfl
  · cases uns with
    | true =>
      simp only [if_true, intVal]
      rw [setWidth_setWidth_eq_ofInt, BitVec.toNat_ushiftRight, Nat.shiftRight_eq_div_pow]
      norm_cast
    | false =>
      simp only [Bool.false_eq_true, if_false, intVal]
      rw [signExtend_setWidth_eq_ofInt (Nat.min_le_right _ _), BitVec.toInt_sshiftRight, Int.shiftRight_eq_div_pow]
      norm_cast
theorem at2_bitExtract (uns b64 : Bool) (a b : BitVec 64) : at2 (bitExtract uns) b64 a b = bfxRes uns (wd b64) a b := by
  rw [at2_eq_setWidth, bitExtract_eq_ofInt, toNat_setWidth_mod_256 (sixteen_le_wd b64),
    toNat_setWidth_div_256_mod_256 (sixteen_le_wd b64), intVal_setWidth, apply_ite (BitVec.setWidth 64), setWidth_ofInt_eq_wr (wd_le b64),
    BitVec.setWidth_zero]
  rfl

theorem toNat_bitInsert (w : Nat) (a b c : BitVec w) :
    (bitInsert w a b c).toNat =
      (c.toNat &&& (2 ^ w - 1 - (2 ^ min (b.toNat / 256 % 256) w - 1) * 2 ^ (b.toNat % 256) % 2 ^ w)) |||
      (a.toNat * 2 ^ (b.toNat % 256) % 2 ^ w &&& (2 ^ min (b.toNat / 256 % 256) w - 1) * 2 ^ (b.toNat % 256) % 2 ^ w) := by
  simp only [bitInsert, BitVec.toNat_or, BitVec.toNat_and, BitVec.toNat_not, BitVec.toNat_shiftLeft, BitVec.toNat_ofNat, Nat.shiftLeft_eq,
    Nat.mod_mul_mod]
theorem at3_bitInsert (b64 : Bool) (a b c : BitVec 64) : at3 bitInsert b64 a b c = bfiRes (wd b64) a b c := by
  rw [at3_eq_setWidth, ← BitVec.ofNat_toNat, toNat_bitInsert, toNat_setWidth_mod_256 (sixteen_le_wd b64),
    toNat_setWidth_div_256_mod_256 (sixteen_le_wd b64), BitVec.toNat_setWidth, BitVec.toNat_setWidth, Nat.mod_mul_mod]
  rfl

end Sys2Proof.Machine
end

section
/-! What the shared integer forms answer when their operation is a given value. -/

namespace Sys2Proof.Machine

open Sys2Proof.Claim

variable {s : State} {k : Nat} {g : Group} {x : Split}

theorem vecForm_result_of_eq (h : s.issuer? = some (k, g, x)) (gd : Guard) (b64 : Bool) (d : BitVec 8) {F : Group → Nat → BitVec 64}
    {f : Nat → BitVec 64} (hf : ∀ l, F g l = f l) : VecResult s k g (s.active g x gd) b64 d f 0 (vecForm gd b64 d s F) :=
  vecForm_result h gd b64 d F f (fun l => by rw [hf]) fun _ l => by rw [hf]
theorem scalarForm_result_of_eq (h : s.issuer? = some (k, g, x)) (gd : Guard) (d : BitVec 6) {F : Group → LaneMask → BitVec 64}
    {y : BitVec 64} (hF : ∀ act, F g act = y) : SclResult s k g (s.active g x gd) d y (scalarForm gd d s F) :=
  scalarForm_result h gd d F y fun _ => (hF _).symm

theorem intBinSingle_result (h : s.issuer? = some (k, g, x)) (op : (w : Nat) → BitVec w → BitVec w → BitVec w) (o : IntBin)
    {f : Nat → BitVec 64} (hf : ∀ l, at2 op o.b64 (s.src g .zero o.b64 l o.a) (s.src g .zero false l o.b) = f l) :
    VecResult s k g (s.active g x o.g) o.b64 o.d f 0 (intBinSingle op o s) :=
  vecForm_result_of_eq h o.g o.b64 o.d hf
theorem intUn_result (h : s.issuer? = some (k, g, x)) (op : (w : Nat) → BitVec w → BitVec w) (o : IntUn)
    {f : Nat → BitVec 64} (hf : ∀ l, at1 op o.b64 (s.src g .sign o.b64 l o.a) = f l) :
    VecResult s k g (s.active g x o.g) o.b64 o.d f 0 (intUn op o s) :=
  vecForm_result_of_eq h o.g o.b64 o.d hf
theorem sIntBin_result (h : s.issuer? = some (k, g, x)) (op : (w : Nat) → BitVec w → BitVec w → BitVec w) (ik : ImmKind) (o : SIntBin)
    {y : BitVec 64} (hy : at2 op o.b64 (s.ssrc g ik o.b64 o.a) (s.ssrc g ik o.b64 o.b) = y) :
    SclResult s k g (s.active g x o.g) o.d y (sIntBin op ik o s) :=
  scalarForm_result_of_eq h o.g o.d fun _ => hy

end Sys2Proof.Machine
end

section
/-! LOP3 (08 R186). -/

namespace Sys2Proof.Machine

open Sys2Proof.Claim

/-- Settles O3: each entry of the table is read at the bits of the sources (`at3_lop3`). -/
theorem logicByTable : Obligations.LogicByTable := by
  unfold Obligations.LogicByTable
  intro s k g x h
  refine ⟨fun o => ?_, fun o => ?_⟩
  · exact vecForm_result_of_eq h o.g o.b64 o.d fun _ => at3_lop3 _ _ _ _ _
  · show SclResult s k g _ o.d _ (execLop3Scalar o s)
    exact scalarForm_result_of_eq h o.g o.d fun _ => at3_lop3 _ _ _ _ _

end Sys2Proof.Machine
end

section
/-! Shifts and bit fields (08 R185). -/

namespace Sys2Proof.Machine

open Sys2Proof.Claim

/-- Settles O2: every form runs its operation in the active lanes, and the operation's value is the rule's. -/
theorem shiftsAndBitFields : Obligations.ShiftsAndBitFields := by
  unfold Obligations.ShiftsAndBitFields
  intro s k g x h
  refine ⟨fun o => ⟨?_, ?_, ?_, ?_⟩, fun o => ⟨?_, ?_, ?_⟩, fun o => ⟨?_, ?_, ?_⟩, fun o => ⟨?_, ?_, ?_⟩⟩
  · exact intBinSingle_result h (shift .shl) o fun _ => at2_shl _ _ _
  · exact intBinSingle_result h (shift .shr) o fun _ => at2_shr _ _ _
  · exact intBinSingle_result h (shift .sar) o fun _ => at2_sar _ _ _
  · exact intBinSingle_result h (bitExtract o.uns) o fun _ => at2_bitExtract _ _ _ _
  · exact vecForm_result_of_eq h o.g false o.d fun _ => setWidth_funnel_left _ _ _
  · exact vecForm_result_of_eq h o.g false o.d fun _ => setWidth_funnel_right _ _ _
  · exact vecForm_result_of_eq h o.g o.b64 o.d fun _ => at3_bitInsert _ _ _ _
  · exact intUn_result h popCount o fun _ => at1_popCount _ _
  · exact intUn_result h leadZeros o fun _ => at1_leadZeros _ _
  · exact intUn_result h bitRev o fun _ => at1_bitRev _ _
  · exact sIntBin_result h (shift .shl) .zero o (at2_shl _ _ _)
  · exact sIntBin_result h (shift .shr) .zero o (at2_shr _ _ _)
  · exact sIntBin_result h (shift .sar) .zero o (at2_sar _ _ _)

end Sys2Proof.Machine
end

section
/-! ISETP and SEL (08 R187). -/

namespace Sys2Proof.Machine

open Sys2Proof.Claim

theorem atCmp_intCompare (uns : Bool) (c : Cmp) (b64 : Bool) (a b : BitVec 64) :
    atCmp (intCompare uns c) b64 a b = cmpRes c (rd uns (wd b64) a) (rd uns (wd b64) b) := by
  rw [atCmp_eq_setWidth]
  cases c <;> simp [intCompare, cmpRes, intVal_setWidth, beq_eq_decide, bne]

theorem combine_eq_bopRes (b : Bop) (t q : Bool) : combine b t q = bopRes b t q := by
  cases b with
  | and | or => rfl
  | xor => simp [combine, bopRes]

theorem State.predAt_eq_xor (s : State) (g : Group) (pc : BitVec 3) (pcn : Bool) (l : Nat) :
    s.predAt g pc pcn l = xor ((s.readP g pc.toNat).getLsbD l) pcn := by
  simp [State.predAt]

/-- What ISETP writes of one lane. -/
theorem combine_atCmp_predAt (s : State) (g : Group) (bop : Bop) (uns : Bool) (c : Cmp) (b64 : Bool) (a b : BitVec 64) (pc : BitVec 3)
    (pcn : Bool) (l : Nat) :
    combine bop (atCmp (intCompare uns c) b64 a b) (s.predAt g pc pcn l) =
      bopRes bop (cmpRes c (rd uns (wd b64) a) (rd uns (wd b64) b)) (xor ((s.readP g pc.toNat).getLsbD l) pcn) := by
  rw [combine_eq_bopRes, atCmp_intCompare, State.predAt_eq_xor]

/-- A copy at the operation width, which SEL and MOV make of a scalar. -/
theorem at1_id (b64 : Bool) (a : BitVec 64) : at1 (fun _ y => y) b64 a = wr (wd b64) a.toNat := by
  rw [at1_eq_setWidth, ← setWidth_ofInt_eq_wr (wd_le b64), BitVec.ofInt_natCast, BitVec.ofNat_toNat]

theorem lowest_eq {m : LaneMask} {j : Nat} (hj : m.getLsbD j = true) (hbelow : ∀ i < j, m.getLsbD i = false) : lowest m = j := by
  have hlt : j < 64 := lt_of_mem_lanesOf (mem_lanesOf.mpr hj)
  have hfind : (List.range 64).find? (fun l => m.getLsbD l) = some j :=
    List.find?_range_eq_some.mpr ⟨hj, List.mem_range.mpr hlt, fun i hi => by simp [hbelow i hi]⟩
  rw [lowest, List.headD_eq_head?_getD, lanesOf, List.head?_filter, hfind, Option.getD_some]

/-- Settles O4: both SELs take the choice into the operand (`apply_ite`); the lane that the scalar SEL reads is unique (`lowest_eq`). -/
theorem compareAndSelect : Obligations.CompareAndSelect := by
  unfold Obligations.CompareAndSelect
  intro s k g x h
  refine ⟨fun o => ?_, fun o => ?_, fun o => ?_, fun o j hj => ?_⟩
  · exact predForm_result h o.g o.d _ _ fun _ => (combine_atCmp_predAt _ _ _ _ _ _ _ _ _ _ _).symm
  · exact predForm_result h o.g o.d _ _ fun _ => (combine_atCmp_predAt _ _ _ _ _ _ _ _ _ _ _).symm
  · refine vecForm_result_of_eq h o.g o.b64 o.d fun l => ?_
    rw [State.predAt_eq_xor, ← apply_ite]
  · show SclResult s k g _ o.d _ (execSelScalar o s)
    refine scalarForm_result h o.g o.d _ _ fun hact => ?_
    obtain ⟨hlane, hbelow⟩ := hj hact
    rw [at1_id, lowest_eq hlane hbelow, State.predAt_eq_xor, ← apply_ite]

end Sys2Proof.Machine
end

section
/-! The order of exact numbers is the order of what they stand for (09 R194, R195). -/

namespace Sys2Proof.Machine

open Sys2Proof.Claim

theorem value_flip (d : Dyadic) : value { d with neg := !d.neg } = -value d := by
  cases hneg : d.neg <;> simp [value, hneg]

/-- A significand brought to a lower exponent stands for the same number. -/
theorem two_pow_sub_mul_zpow {e e' : Int} (he : e ≤ e') : (2 : ℚ) ^ (e' - e).toNat * 2 ^ e = 2 ^ e' := by
  rw [← zpow_natCast, Int.toNat_of_nonneg (sub_nonneg.mpr he), ← zpow_add₀ two_ne_zero, sub_add_cancel]

/-- The signed significand of `a.add b`, at the lower exponent of the two. -/
def Dyadic.sumUnits (a b : Dyadic) : Int :=
  (if a.neg then -1 else 1) * (a.m * 2 ^ (a.e - min a.e b.e).toNat) + (if b.neg then -1 else 1) * (b.m * 2 ^ (b.e - min a.e b.e).toNat)

theorem Dyadic.add_eq (a b : Dyadic) :
    a.add b = { neg := decide (a.sumUnits b < 0), m := (a.sumUnits b).natAbs, e := min a.e b.e } := rfl

theorem sumUnits_mul_zpow (a b : Dyadic) : (a.sumUnits b : ℚ) * 2 ^ min a.e b.e = value a + value b := by
  have ha := two_pow_sub_mul_zpow (min_le_left a.e b.e)
  have hb := two_pow_sub_mul_zpow (min_le_right a.e b.e)
  simp only [Dyadic.sumUnits, value]
  push_cast
  rw [← ha, ← hb]
  ring

theorem Dyadic.add_neg_iff (a b : Dyadic) : (a.add b).neg = true ↔ value a + value b < 0 := by
  have hpos : (0 : ℚ) < 2 ^ min a.e b.e := zpow_pos two_pos _
  rw [Dyadic.add_eq, decide_eq_true_iff, ← sumUnits_mul_zpow, ← Int.cast_lt_zero (R := ℚ), mul_neg_iff]
  simp [hpos, not_lt.mpr hpos.le]

theorem Dyadic.lt_iff_value_lt (a b : Dyadic) : a.lt b = true ↔ value a < value b := by
  rw [Dyadic.lt, Dyadic.add_neg_iff, value_flip, ← sub_eq_add_neg, sub_neg]

end Sys2Proof.Machine
end

section
/-! FP32 codes (01 R15): below the infinity a code's magnitude counts units of 2^-149, and rising codes have rising counts. -/

namespace Sys2Proof.Machine

open Sys2Proof.Claim

/-- The code without its sign bit. -/
def magCode (w : LaneWord) : Nat := w.toNat % 2 ^ 31

theorem toNat_eq_magCode (w : LaneWord) : w.toNat = magCode w + if w.msb then 2 ^ 31 else 0 := by
  have hlt := w.isLt
  rw [magCode, BitVec.msb_eq_decide]
  by_cases hneg : 2 ^ 31 ≤ w.toNat
  · rw [if_pos (by simpa using hneg)]
    omega
  · rw [if_neg (by simpa using hneg)]
    omega

/-- The units of 2^-149 in a finite magnitude code, the smallest subnormal being one; the infinity's code counts on. -/
def magUnits (c : Nat) : Nat := if c < 2 ^ 23 then c else (2 ^ 23 + c % 2 ^ 23) * 2 ^ (c / 2 ^ 23 - 1)

theorem magUnits_of_lt {c : Nat} (h : c < 2 ^ 23) : magUnits c = c := if_pos h
theorem magUnits_of_le {c : Nat} (h : 2 ^ 23 ≤ c) : magUnits c = (2 ^ 23 + c % 2 ^ 23) * 2 ^ (c / 2 ^ 23 - 1) := if_neg (not_lt.mpr h)

/-- Within a binade the count grows with the mantissa; the carry into the next binade doubles the unit. -/
theorem magUnits_strictMono : StrictMono magUnits := by
  refine strictMono_nat_of_lt_succ fun c => ?_
  rcases lt_trichotomy (c + 1) (2 ^ 23) with hsub | hfirst | hnorm
  · rw [magUnits_of_lt hsub, magUnits_of_lt (Nat.lt_of_succ_lt hsub)]
    exact Nat.lt_succ_self c
  · rw [magUnits_of_lt (by omega), magUnits_of_le hfirst.ge, hfirst]
    omega
  · rw [magUnits_of_le (Nat.le_of_lt_succ hnorm), magUnits_of_le hnorm.le]
    have hpow : 0 < 2 ^ (c / 2 ^ 23 - 1) := by positivity
    by_cases hcarry : (c + 1) % 2 ^ 23 = 0
    · have hmant : c % 2 ^ 23 = 2 ^ 23 - 1 := by omega
      have hexp : (c + 1) / 2 ^ 23 - 1 = (c / 2 ^ 23 - 1) + 1 := by omega
      rw [hcarry, hmant, hexp, pow_succ _ (c / 2 ^ 23 - 1)]
      generalize 2 ^ (c / 2 ^ 23 - 1) = p at hpow
      omega
    · have hmant : (c + 1) % 2 ^ 23 = c % 2 ^ 23 + 1 := by omega
      have hexp : (c + 1) / 2 ^ 23 = c / 2 ^ 23 := by omega
      rw [hmant, hexp]
      exact Nat.mul_lt_mul_of_pos_right (by omega) hpow

/-- The number that a finite code stands for. -/
def fp32Exact (w : LaneWord) : Dyadic :=
  { neg := w.msb
    m := if magCode w < 2 ^ 23 then magCode w else 2 ^ 23 + magCode w % 2 ^ 23
    e := (magCode w / 2 ^ 23 - 1 : Nat) - 149 }

theorem fp32Exact_mul_two_pow (w : LaneWord) : (fp32Exact w).m * 2 ^ (magCode w / 2 ^ 23 - 1) = magUnits (magCode w) := by
  rw [fp32Exact]
  by_cases hsub : magCode w < 2 ^ 23
  · have hexp : magCode w / 2 ^ 23 - 1 = 0 := by omega
    rw [if_pos hsub, magUnits_of_lt hsub, hexp, pow_zero, mul_one]
  · rw [if_neg hsub, magUnits_of_le (not_lt.mp hsub)]

theorem value_fp32Exact (w : LaneWord) :
    value (fp32Exact w) = (if w.msb then -1 else 1) * magUnits (magCode w) * (2 : ℚ) ^ (-149 : Int) := by
  have hexp : (2 : ℚ) ^ (fp32Exact w).e = 2 ^ (magCode w / 2 ^ 23 - 1) * 2 ^ (-149 : Int) := by
    rw [fp32Exact, sub_eq_add_neg, zpow_add₀ two_ne_zero, zpow_natCast]
  have hneg : (fp32Exact w).neg = w.msb := rfl
  rw [value, hexp, hneg, ← fp32Exact_mul_two_pow, Nat.cast_mul, Nat.cast_pow, Nat.cast_ofNat]
  ring

/-- `Decode` of an FP32 code: its three fields, and where the model's format puts the special codes. -/
theorem fp32_decode (w : Nat) : fp32.decode w =
    if w / 2 ^ 23 % 2 ^ 8 = 255 then (if w % 2 ^ 23 = 0 then .inf (w / 2 ^ 31 % 2 == 1) else .nan)
    else if w / 2 ^ 23 % 2 ^ 8 = 0 then .fin { neg := w / 2 ^ 31 % 2 == 1, m := w % 2 ^ 23, e := -149 }
    else .fin { neg := w / 2 ^ 31 % 2 == 1, m := 2 ^ 23 + w % 2 ^ 23, e := (w / 2 ^ 23 % 2 ^ 8 : Nat) - 127 - 23 } := by
  have he4m3 : fp32 ≠ e4m3 := by decide
  have he2m1 : fp32 ≠ e2m1 := by decide
  have hexp : fp32.e = 8 := rfl
  have hman : fp32.m = 23 := rfl
  have hbias : fp32.bias = 127 := rfl
  simp [Fmt.decode, Fmt.signBit, he4m3, he2m1, hexp, hman, hbias]

theorem f32_eq (w : LaneWord) : f32 w =
    if magCode w / 2 ^ 23 = 255 then (if magCode w % 2 ^ 23 = 0 then .inf w.msb else .nan)
    else .fin (fp32Exact w) := by
  have hlt := w.isLt
  have hsign : (w.toNat / 2 ^ 31 % 2 == 1) = w.msb := by
    rw [BitVec.msb_eq_decide, beq_eq_decide]
    congr 1
    exact propext (by omega)
  have hexp : w.toNat / 2 ^ 23 % 2 ^ 8 = magCode w / 2 ^ 23 := by rw [magCode]; omega
  have hmant : w.toNat % 2 ^ 23 = magCode w % 2 ^ 23 := by rw [magCode]; omega
  rw [f32, fp32_decode, hsign, hexp, hmant]
  refine if_congr Iff.rfl rfl ?_
  by_cases hsub : magCode w < 2 ^ 23
  · have hmod : magCode w % 2 ^ 23 = magCode w := Nat.mod_eq_of_lt hsub
    have hdiv : magCode w / 2 ^ 23 = 0 := Nat.div_eq_of_lt hsub
    rw [if_pos hdiv, fp32Exact, if_pos hsub, hmod, hdiv]
    rfl
  · have he : ((magCode w / 2 ^ 23 : Nat) : Int) - 127 - 23 = (magCode w / 2 ^ 23 - 1 : Nat) - 149 := by omega
    rw [if_neg (by omega), fp32Exact, if_neg hsub, he]

theorem f32_of_lt {w : LaneWord} (h : magCode w < 0x7F800000) : f32 w = .fin (fp32Exact w) := by
  rw [f32_eq, if_neg (by omega)]
theorem f32_of_eq {w : LaneWord} (h : magCode w = 0x7F800000) : f32 w = .inf w.msb := by
  rw [f32_eq, h]; rfl
theorem f32_of_gt {w : LaneWord} (h : 0x7F800000 < magCode w) : f32 w = .nan := by
  have hlt : magCode w < 2 ^ 31 := Nat.mod_lt _ (by decide)
  rw [f32_eq, if_pos (by omega), if_neg (by omega)]

/-- A code that is no NaN, as a whole number of units of 2^-149 with its sign; the infinities lie past the largest finite code. -/
def signedUnits (w : LaneWord) : Int := (if w.msb then -1 else 1) * magUnits (magCode w)

theorem f32_isNan (w : LaneWord) : (f32 w).isNan = decide (0x7F800000 < magCode w) := by
  rcases lt_trichotomy (magCode w) 0x7F800000 with h | h | h
  · rw [f32_of_lt h, decide_eq_false h.le.not_gt]; rfl
  · rw [f32_of_eq h, h]; rfl
  · rw [f32_of_gt h, decide_eq_true h]; rfl

theorem f32_isNeg {w : LaneWord} (h : magCode w ≤ 0x7F800000) : (f32 w).isNeg = w.msb := by
  rcases h.lt_or_eq with h | h
  · rw [f32_of_lt h]; rfl
  · rw [f32_of_eq h]; rfl

theorem value_fp32Exact_lt_iff (a b : LaneWord) : value (fp32Exact a) < value (fp32Exact b) ↔ signedUnits a < signedUnits b := by
  have hunit : (0 : ℚ) < 2 ^ (-149 : Int) := by positivity
  have hcast (w : LaneWord) : value (fp32Exact w) = (signedUnits w : ℚ) * 2 ^ (-149 : Int) := by
    rw [value_fp32Exact, signedUnits]
    push_cast
    rfl
  rw [hcast, hcast, mul_lt_mul_iff_left₀ hunit, Int.cast_lt]

theorem signedUnits_of_pos {w : LaneWord} (h : w.msb = false) : signedUnits w = magUnits (magCode w) := by simp [signedUnits, h]
theorem signedUnits_of_neg {w : LaneWord} (h : w.msb = true) : signedUnits w = -magUnits (magCode w) := by simp [signedUnits, h]
theorem abs_signedUnits (w : LaneWord) : |signedUnits w| = magUnits (magCode w) := by
  cases h : w.msb with
  | false => rw [signedUnits_of_pos h, Nat.abs_cast]
  | true => rw [signedUnits_of_neg h, abs_neg, Nat.abs_cast]

/-- A code of greater magnitude decides an order by its sign alone. -/
theorem signedUnits_lt_iff_of_magCode_lt {a b : LaneWord} (h : magCode a < magCode b) : signedUnits a < signedUnits b ↔ b.msb = false := by
  have hunits : |signedUnits a| < magUnits (magCode b) := by
    rw [abs_signedUnits]
    exact_mod_cast magUnits_strictMono h
  obtain ⟨hlow, hhigh⟩ := abs_lt.mp hunits
  cases hb : b.msb with
  | false => simpa [signedUnits_of_pos hb] using hhigh
  | true => simpa [signedUnits_of_neg hb] using hlow.le
theorem signedUnits_lt_iff_of_lt_magCode {a b : LaneWord} (h : magCode b < magCode a) : signedUnits a < signedUnits b ↔ a.msb = true := by
  have hunits : |signedUnits b| < magUnits (magCode a) := by
    rw [abs_signedUnits]
    exact_mod_cast magUnits_strictMono h
  obtain ⟨hlow, hhigh⟩ := abs_lt.mp hunits
  cases ha : a.msb with
  | false => simpa [signedUnits_of_pos ha] using hhigh.le
  | true => simpa [signedUnits_of_neg ha] using hlow

/-- The order of numbers, infinities included, is the order of signed units. -/
theorem f32_lt_iff {a b : LaneWord} (ha : magCode a ≤ 0x7F800000) (hb : magCode b ≤ 0x7F800000) :
    (f32 a).lt (f32 b) = true ↔ signedUnits a < signedUnits b := by
  rcases ha.lt_or_eq with ha | ha <;> rcases hb.lt_or_eq with hb | hb
  · rw [f32_of_lt ha, f32_of_lt hb, Num.lt, Dyadic.lt_iff_value_lt, value_fp32Exact_lt_iff]
  · rw [f32_of_lt ha, f32_of_eq hb, signedUnits_lt_iff_of_magCode_lt (ha.trans_eq hb.symm)]
    simp [Num.lt]
  · rw [f32_of_eq ha, f32_of_lt hb, signedUnits_lt_iff_of_lt_magCode (hb.trans_eq ha.symm), Num.lt]
  · have hpos : 0 < magUnits 0x7F800000 := by decide
    rw [f32_of_eq ha, f32_of_eq hb, signedUnits, signedUnits, ha, hb]
    cases a.msb <;> cases b.msb <;> simp [Num.lt, hpos]

end Sys2Proof.Machine
end

section
/-! FMIN and FMAX (09 R194). -/

namespace Sys2Proof.Machine

open Sys2Proof.Claim

/-- Codes in rising order, -0 below +0. -/
def orderKey (w : LaneWord) : Int := if w.toNat < 2 ^ 31 then (w.toNat : Int) else -1 - (w.toNat - 2 ^ 31 : Nat)

theorem orderKey_of_pos {w : LaneWord} (h : w.msb = false) : orderKey w = magCode w := by
  have hw : w.toNat = magCode w := by simpa [h] using toNat_eq_magCode w
  have hlt : magCode w < 2 ^ 31 := Nat.mod_lt _ (by decide)
  rw [orderKey, hw, if_pos hlt]
theorem orderKey_of_neg {w : LaneWord} (h : w.msb = true) : orderKey w = -1 - magCode w := by
  have hw : w.toNat = magCode w + 2 ^ 31 := by simpa [h] using toNat_eq_magCode w
  rw [orderKey, hw, if_neg (by omega), Nat.add_sub_cancel]

/-- The order of the codes is the order of the numbers, but that it also tells the two zeros apart. -/
theorem orderKey_lt_iff (a b : LaneWord) :
    orderKey a < orderKey b ↔
      signedUnits a < signedUnits b ∨ (¬ signedUnits b < signedUnits a ∧ a.msb = true ∧ b.msb = false) := by
  cases ha : a.msb with
  | false =>
    cases hb : b.msb with
    | false => simp [orderKey_of_pos, signedUnits_of_pos, ha, hb, magUnits_strictMono.lt_iff_lt]
    | true =>
      rw [orderKey_of_pos ha, orderKey_of_neg hb, signedUnits_of_pos ha, signedUnits_of_neg hb]
      refine iff_of_false (by omega) ?_
      rintro (hlt | ⟨-, hpos, -⟩)
      · omega
      · cases hpos
  | true =>
    cases hb : b.msb with
    | false =>
      rw [orderKey_of_neg ha, orderKey_of_pos hb, signedUnits_of_neg ha, signedUnits_of_pos hb]
      exact iff_of_true (by omega) (.inr ⟨by omega, rfl, rfl⟩)
    | true => simp [orderKey_of_neg, signedUnits_of_neg, ha, hb, magUnits_strictMono.lt_iff_lt]

/-- The model's comparison of two operands, neither a NaN: by their numbers, then by the signs of equal numbers. -/
theorem f32_smaller_eq {a b : LaneWord} (ha : magCode a ≤ 0x7F800000) (hb : magCode b ≤ 0x7F800000) :
    ((f32 a).lt (f32 b) || (!(f32 b).lt (f32 a) && (f32 a).isNeg && !(f32 b).isNeg)) = decide (orderKey a < orderKey b) := by
  rw [Bool.eq_iff_iff, decide_eq_true_iff, orderKey_lt_iff, ← f32_lt_iff ha hb, ← f32_lt_iff hb ha, f32_isNeg ha, f32_isNeg hb]
  simp [and_assoc]

/-- FMIN takes the operand of the smaller key and FMAX the other, but for R194's cases of a NaN. -/
theorem fMinMax_eq (isMax : Bool) (a b : LaneWord) : fMinMax isMax a b =
    if 0x7F800000 < magCode a ∧ 0x7F800000 < magCode b then 0x7FC00000
    else if 0x7F800000 < magCode a then b
    else if 0x7F800000 < magCode b then a
    else if decide (orderKey a < orderKey b) = !isMax then a else b := by
  have hunfold : fMinMax isMax a b =
      if (f32 a).isNan && (f32 b).isNan then 0x7FC00000
      else if (f32 a).isNan then b
      else if (f32 b).isNan then a
      else if ((f32 a).lt (f32 b) || (!(f32 b).lt (f32 a) && (f32 a).isNeg && !(f32 b).isNeg)) != isMax then a else b := rfl
  rw [hunfold, f32_isNan, f32_isNan]
  by_cases ha : 0x7F800000 < magCode a
  · simp [ha]
  by_cases hb : 0x7F800000 < magCode b
  · simp [ha, hb]
  · rw [f32_smaller_eq (not_lt.mp ha) (not_lt.mp hb)]
    cases isMax <;> simp [ha, hb]

theorem flagsOver_none (act : LaneMask) : flagsOver act (fun _ => {}) = {} := by
  rw [flagsOver]
  generalize lanesOf act = ls
  induction ls with
  | nil => rfl
  | cons l ls ih => exact ih

/-- A form with flags: its results and the flags of the active lanes together. -/
theorem flagForm_result {s : State} {k : Nat} {g : Group} {x : Split} (h : s.issuer? = some (k, g, x)) (gd : Guard) (d : BitVec 8)
    (F : Group → Nat → LaneWord × Flags) :
    VecResult s k g (s.active g x gd) false d (fun l => (F g l).1.setWidth 64) (anyFlags (s.active g x gd) fun l => (F g l).2)
      (flagForm gd d s F) := by
  have hform : flagForm gd d s F = .next (s.setGroup k ((g.writeD false d (s.active g x gd) fun l => (F g l).1.setWidth 64).raise
      (flagsOver (s.active g x gd) fun l => (F g l).2))) := by
    simp [flagForm, onIssuer_some h, Group.writeD]
  rw [hform]
  exact vecResult_writeD s k g _ false d _ _ _ (fun _ _ => rfl) fun hb => absurd hb Bool.false_ne_true

/-- FMIN and FMAX raise nothing: no lane gives a flag. -/
theorem fSelForm_result {s : State} {k : Nat} {g : Group} {x : Split} (h : s.issuer? = some (k, g, x)) (isMax : Bool) (o : FSel) :
    VecResult s k g (s.active g x o.g) false o.d
      (fun l => (fMinMax isMax (ftzIn g.ftz (s.src32 g .float l o.a)) (ftzIn g.ftz (s.src32 g .float l o.b))).setWidth 64) 0
      (fSelForm isMax o s) := by
  have hflags : anyFlags (s.active g x o.g) (fun _ => {}) = 0 := by rw [anyFlags, flagsOver_none]; rfl
  rw [← hflags]
  exact flagForm_result h o.g o.d _

/-- Settles O7: FMIN and FMAX choose by the order of the codes (`fMinMax_eq`), which is the numbers' order with -0 below +0 (`orderKey_lt_iff`). -/
theorem floatMinMax : Obligations.FloatMinMax := by
  unfold Obligations.FloatMinMax
  intro s k g x h o act a b nan key pick
  have hmin : pick true = fun l => fMinMax false (a l) (b l) := funext fun l => (fMinMax_eq false (a l) (b l)).symm
  have hmax : pick false = fun l => fMinMax true (a l) (b l) := funext fun l => (fMinMax_eq true (a l) (b l)).symm
  rw [hmin, hmax]
  exact ⟨fSelForm_result h false o, fSelForm_result h true o⟩

end Sys2Proof.Machine
end
